-- ==== Sys2Proof/Word.lean ====
section
/-! DEFINITION. The machine word (00_scope.md R9, 10_state.md R31). -/

namespace Sys2Proof

/-- A register, a data word and an instruction word are `XLEN` = 32 bits wide (R7, R9, D2). -/
abbrev Word := BitVec 32

/-- A register number is a 5-bit field of an instruction word (30_encoding.md R181, R187). -/
abbrev RegIdx := BitVec 5

end Sys2Proof
end

