-- ==== Sys2Proof/Config.lean ====
section
/-! DEFINITION. The configuration record of 00_scope.md R6 and R7: every size, capacity and latency the block is built
from. `XLEN` is fixed at 32 and is the type `Word`. The rules read the record and never write it (10_state.md R76). -/

namespace Sys2Proof

/-- The configuration record (R7), its fields in the order of the rule's table. -/
structure Config where
  nRegs      : Nat
  x0Zero     : Bool
  nRob       : Nat
  capAdd     : Nat
  capMul     : Nat
  capLsq     : Nat
  latAdd     : Nat
  latSub     : Nat
  latAddi    : Nat
  latBeq     : Nat
  latBne     : Nat
  latMul     : Nat
  latDiv     : Nat
  l1Rows     : Nat
  l1Ways     : Nat
  l2Rows     : Nat
  l2Ways     : Nat
  l1Lat      : Nat
  l2Lat      : Nat
  memLat     : Nat
  memSize    : Nat
  pfQueueCap : Nat
  maxCycles  : Nat
deriving DecidableEq, Repr

/-- The defaults the spec chooses in R7 (D3, D5, D7, D8, D9, D22, D30). Log 3. -/
def Config.default : Config where
  nRegs      := 32
  x0Zero     := false
  nRob       := 6
  capAdd     := 2
  capMul     := 2
  capLsq     := 2
  latAdd     := 1
  latSub     := 1
  latAddi    := 1
  latBeq     := 1
  latBne     := 1
  latMul     := 4
  latDiv     := 8
  l1Rows     := 4
  l1Ways     := 2
  l2Rows     := 8
  l2Ways     := 2
  l1Lat      := 1
  l2Lat      := 4
  memLat     := 10
  memSize    := 64
  pfQueueCap := 16
  maxCycles  := 10000

/-- Every parameter in the range R7 gives it (`LegalConfig`, 70_reset_and_hazards.md R445). The two parameters whose
range is "at least 0" and the Boolean one need no test. -/
abbrev Config.Legal (c : Config) : Prop :=
  (1 ≤ c.nRegs ∧ c.nRegs ≤ 32) ∧ 1 ≤ c.nRob ∧
  (1 ≤ c.capAdd ∧ 1 ≤ c.capMul ∧ 1 ≤ c.capLsq) ∧
  (1 ≤ c.latAdd ∧ 1 ≤ c.latSub ∧ 1 ≤ c.latAddi ∧ 1 ≤ c.latBeq ∧ 1 ≤ c.latBne ∧ 1 ≤ c.latMul ∧ 1 ≤ c.latDiv) ∧
  (1 ≤ c.l1Rows ∧ 1 ≤ c.l1Ways ∧ 1 ≤ c.l2Rows ∧ 1 ≤ c.l2Ways) ∧
  (1 ≤ c.l1Lat ∧ 1 ≤ c.l2Lat ∧ 1 ≤ c.memLat) ∧
  (1 ≤ c.memSize ∧ c.memSize ≤ 2 ^ 32)

end Sys2Proof
end

