-- ==== Sys2Proof/Syntax.lean ====
section
/-! DEFINITION. The instructions, one constructor per row of opcode_table.json (00_scope.md R2, 30_encoding.md R188, R189). -/

namespace Sys2Proof

/-- The decoded fields of an instruction (30_encoding.md R188). An immediate is kept at the width its format gives it
(R186): 12 bits in formats I and S, 13 bits with an even value in format B. -/
inductive Instr where
  | add  (rd rs1 rs2 : RegIdx)
  | sub  (rd rs1 rs2 : RegIdx)
  | mul  (rd rs1 rs2 : RegIdx)
  | div  (rd rs1 rs2 : RegIdx)
  | addi (rd rs1 : RegIdx) (imm : BitVec 12)
  | lw   (rd rs1 : RegIdx) (imm : BitVec 12)
  | sw   (rs1 rs2 : RegIdx) (imm : BitVec 12)
  | beq  (rs1 rs2 : RegIdx) (imm : BitVec 13)
  | bne  (rs1 rs2 : RegIdx) (imm : BitVec 13)
deriving DecidableEq, Repr

/-- The nine operations (00_scope.md R2): an instruction without its operands. -/
inductive Op where
  | add | sub | mul | div | addi | lw | sw | beq | bne
deriving DecidableEq, Repr

/-- The field `op` of a decoded instruction (10_state.md R38, 30_encoding.md R196). -/
def Instr.op : Instr → Op
  | .add _ _ _  => .add
  | .sub _ _ _  => .sub
  | .mul _ _ _  => .mul
  | .div _ _ _  => .div
  | .addi _ _ _ => .addi
  | .lw _ _ _   => .lw
  | .sw _ _ _   => .sw
  | .beq _ _ _  => .beq
  | .bne _ _ _  => .bne

end Sys2Proof
end

