-- ==== Sys2Proof/WellFormed.lean ====
section
/-! DEFINITION. Which terms of `Instr` are instructions of a machine with `nRegs` registers: those the decoder can give. -/

namespace Sys2Proof

/-- The register fields an instruction uses, destination first (30_encoding.md R187, R188). -/
def Instr.regs : Instr → List RegIdx
  | .add rd rs1 rs2 => [rd, rs1, rs2]
  | .sub rd rs1 rs2 => [rd, rs1, rs2]
  | .mul rd rs1 rs2 => [rd, rs1, rs2]
  | .div rd rs1 rs2 => [rd, rs1, rs2]
  | .addi rd rs1 _  => [rd, rs1]
  | .lw rd rs1 _    => [rd, rs1]
  | .sw rs1 rs2 _   => [rs1, rs2]
  | .beq rs1 rs2 _  => [rs1, rs2]
  | .bne rs1 rs2 _  => [rs1, rs2]

/-- A B immediate is always even (30_encoding.md R186); the other formats admit every immediate. -/
def Instr.immOk : Instr → Bool
  | .add _ _ _   => true
  | .sub _ _ _   => true
  | .mul _ _ _   => true
  | .div _ _ _   => true
  | .addi _ _ _  => true
  | .lw _ _ _    => true
  | .sw _ _ _    => true
  | .beq _ _ imm => !imm.getLsbD 0
  | .bne _ _ imm => !imm.getLsbD 0

/-- Every register field names a register that exists (30_encoding.md R187, D3). -/
def Instr.regsOk (nRegs : Nat) (i : Instr) : Bool :=
  i.regs.all (fun r => r.toNat < nRegs)

/-- The instructions of a machine with `nRegs` registers (R186, R187). -/
def Instr.wf (nRegs : Nat) (i : Instr) : Bool :=
  i.regsOk nRegs && i.immOk

end Sys2Proof
end

