-- ==== Sys2Proof/Decode.lean ====
section
/-! DEFINITION. Decoding and encoding of instruction words (30_encoding.md), the disassembled form (R201) and the textual
word image (10_state.md R80). The bit patterns are the spec's, which marks them as general knowledge (D1, G1). -/

namespace Sys2Proof

/-! ## Fields and immediates (R181 to R186) -/

def fieldRd (w : Word) : RegIdx := w.extractLsb' 7 5
def fieldRs1 (w : Word) : RegIdx := w.extractLsb' 15 5
def fieldRs2 (w : Word) : RegIdx := w.extractLsb' 20 5

/-- The I immediate before sign extension, `w[31:20]` (R186). -/
def immI (w : Word) : BitVec 12 := w.extractLsb' 20 12

/-- The S immediate before sign extension, bits 31..25 over bits 11..7 (R186). -/
def immS (w : Word) : BitVec 12 := w.extractLsb' 25 7 ++ w.extractLsb' 7 5

/-- The B immediate before sign extension, bits 31, 7, 30..25, 11..8 and a zero bit (R186). -/
def immB (w : Word) : BitVec 13 :=
  w.extractLsb' 31 1 ++ w.extractLsb' 7 1 ++ w.extractLsb' 25 6 ++ w.extractLsb' 8 4 ++ 0#1

/-! ## The decode table (R189) -/

/-- One row of the decode table: a word `w` is this operation when `w &&& mask = mtch`. -/
structure DecodeRow where
  op   : Op
  mtch : Word
  mask : Word
deriving DecidableEq, Repr

/-- The table of R189, in its order. It is data, and `decodeWith` takes it as an argument (D1). -/
def decodeTable : List DecodeRow :=
  [ ⟨.add,  0x00000033#32, 0xFE00707F#32⟩,
    ⟨.sub,  0x40000033#32, 0xFE00707F#32⟩,
    ⟨.mul,  0x02000033#32, 0xFE00707F#32⟩,
    ⟨.div,  0x02004033#32, 0xFE00707F#32⟩,
    ⟨.addi, 0x00000013#32, 0x0000707F#32⟩,
    ⟨.lw,   0x00002003#32, 0x0000707F#32⟩,
    ⟨.sw,   0x00002023#32, 0x0000707F#32⟩,
    ⟨.beq,  0x00000063#32, 0x0000707F#32⟩,
    ⟨.bne,  0x00001063#32, 0x0000707F#32⟩ ]

/-- The fields of a word read as the operation's format has them (R182 to R188). -/
def assemble (op : Op) (w : Word) : Instr :=
  match op with
  | .add  => .add (fieldRd w) (fieldRs1 w) (fieldRs2 w)
  | .sub  => .sub (fieldRd w) (fieldRs1 w) (fieldRs2 w)
  | .mul  => .mul (fieldRd w) (fieldRs1 w) (fieldRs2 w)
  | .div  => .div (fieldRd w) (fieldRs1 w) (fieldRs2 w)
  | .addi => .addi (fieldRd w) (fieldRs1 w) (immI w)
  | .lw   => .lw (fieldRd w) (fieldRs1 w) (immI w)
  | .sw   => .sw (fieldRs1 w) (fieldRs2 w) (immS w)
  | .beq  => .beq (fieldRs1 w) (fieldRs2 w) (immB w)
  | .bne  => .bne (fieldRs1 w) (fieldRs2 w) (immB w)

/-- Decoding by a table (R196): the first row that matches decides; the word is illegal when a register field the
instruction uses names no register (R187), and when no row matches (R197). -/
def decodeWith (nRegs : Nat) (w : Word) : List DecodeRow → Option Instr
  | [] => none
  | row :: rows =>
    if w &&& row.mask = row.mtch then
      let i := assemble row.op w
      if i.regsOk nRegs then some i else none
    else decodeWith nRegs w rows

/-- `decode` of R196, total on words; `none` is the rule's `Illegal`. -/
def decode (nRegs : Nat) (w : Word) : Option Instr :=
  decodeWith nRegs w decodeTable

/-! ## Encoding, from the same formats (R182 to R186, R189) -/

/-- Format R (R182). -/
def encodeR (funct7 : BitVec 7) (rs2 rs1 : RegIdx) (funct3 : BitVec 3) (rd : RegIdx) (opcode : BitVec 7) : Word :=
  funct7 ++ rs2 ++ rs1 ++ funct3 ++ rd ++ opcode

/-- Format I (R183). -/
def encodeI (imm : BitVec 12) (rs1 : RegIdx) (funct3 : BitVec 3) (rd : RegIdx) (opcode : BitVec 7) : Word :=
  imm ++ rs1 ++ funct3 ++ rd ++ opcode

/-- Format S (R184). -/
def encodeS (imm : BitVec 12) (rs2 rs1 : RegIdx) (funct3 : BitVec 3) (opcode : BitVec 7) : Word :=
  imm.extractLsb' 5 7 ++ rs2 ++ rs1 ++ funct3 ++ imm.extractLsb' 0 5 ++ opcode

/-- Format B (R185). -/
def encodeB (imm : BitVec 13) (rs2 rs1 : RegIdx) (funct3 : BitVec 3) (opcode : BitVec 7) : Word :=
  imm.extractLsb' 12 1 ++ imm.extractLsb' 5 6 ++ rs2 ++ rs1 ++ funct3 ++ imm.extractLsb' 1 4 ++
    imm.extractLsb' 11 1 ++ opcode

/-- The word of an instruction. -/
def encode : Instr → Word
  | .add rd rs1 rs2   => encodeR 0b0000000#7 rs2 rs1 0b000#3 rd 0b0110011#7
  | .sub rd rs1 rs2   => encodeR 0b0100000#7 rs2 rs1 0b000#3 rd 0b0110011#7
  | .mul rd rs1 rs2   => encodeR 0b0000001#7 rs2 rs1 0b000#3 rd 0b0110011#7
  | .div rd rs1 rs2   => encodeR 0b0000001#7 rs2 rs1 0b100#3 rd 0b0110011#7
  | .addi rd rs1 imm  => encodeI imm rs1 0b000#3 rd 0b0010011#7
  | .lw rd rs1 imm    => encodeI imm rs1 0b010#3 rd 0b0000011#7
  | .sw rs1 rs2 imm   => encodeS imm rs2 rs1 0b010#3 0b0100011#7
  | .beq rs1 rs2 imm  => encodeB imm rs2 rs1 0b000#3 0b1100011#7
  | .bne rs1 rs2 imm  => encodeB imm rs2 rs1 0b001#3 0b1100011#7

/-- The decoder on the opcode table's numbering: one 32-bit word, so a table word is the instruction word itself (R180).
Every bit above `nbits` is 0. The register count is the default one (R7), log 3. -/
def decodeTableWord (nbits w : Nat) : Option Instr :=
  decode Config.default.nRegs (BitVec.ofNat 32 (w % 2 ^ nbits))

/-! ## Text (R201 and 10_state.md R80) -/

def regName (r : RegIdx) : String := "x" ++ toString r.toNat

def disasmReg3 (m : String) (rd rs1 rs2 : RegIdx) : String :=
  m ++ " " ++ regName rd ++ ", " ++ regName rs1 ++ ", " ++ regName rs2

/-- The disassembled form of an instruction, in the syntax of R201 (D38, log 17). -/
def Instr.disasm : Instr → String
  | .add rd rs1 rs2  => disasmReg3 "ADD" rd rs1 rs2
  | .sub rd rs1 rs2  => disasmReg3 "SUB" rd rs1 rs2
  | .mul rd rs1 rs2  => disasmReg3 "MUL" rd rs1 rs2
  | .div rd rs1 rs2  => disasmReg3 "DIV" rd rs1 rs2
  | .addi rd rs1 imm => "ADDI " ++ regName rd ++ ", " ++ regName rs1 ++ ", " ++ toString imm.toInt
  | .lw rd rs1 imm   => "LW " ++ regName rd ++ ", " ++ toString imm.toInt ++ "(" ++ regName rs1 ++ ")"
  | .sw rs1 rs2 imm  => "SW " ++ regName rs2 ++ ", " ++ toString imm.toInt ++ "(" ++ regName rs1 ++ ")"
  | .beq rs1 rs2 imm => "BEQ " ++ regName rs1 ++ ", " ++ regName rs2 ++ ", " ++ toString imm.toInt
  | .bne rs1 rs2 imm => "BNE " ++ regName rs1 ++ ", " ++ regName rs2 ++ ", " ++ toString imm.toInt

/-- The number a line of binary digits writes, its leftmost digit the most significant; `none` on another character. -/
def parseBits : Nat → List Char → Option Nat
  | acc, [] => some acc
  | acc, c :: cs =>
    if c = '0' then parseBits (2 * acc) cs
    else if c = '1' then parseBits (2 * acc + 1) cs
    else none

/-- A line of a textual image: 32 characters `0` or `1`, the leftmost of them bit 31 (10_state.md R80, D6). -/
def parseLine (line : List Char) : Option Word :=
  if line.length = 32 then (parseBits 0 line).map (BitVec.ofNat 32) else none

end Sys2Proof
end

