-- ==== Sys2Proof/Machine/Parts.lean ====
section
/-! DEFINITION. The parts of the machine's state (10_state.md) and their values after reset (R90). Arrays of the spec are
lists here, and a set of addresses is a sorted list, so that two states can be compared (log 9, log 10). -/

namespace Sys2Proof.Machine

/-- A renaming tag is a reorder-buffer slot index (10_state.md R46). -/
abbrev Tag := Nat

/-! ## Instruction table (R37 to R41) -/

/-- The lifecycle of an instruction (10_state.md R39). -/
inductive LifeState where
  | notStarted
  | rsWait
  | executeStart
  | executeEnd
  | broadcast
  | commit
  | memoryWrite
deriving DecidableEq, Repr

/-- An instruction-table entry (10_state.md R38). -/
structure Entry where
  ins          : Instr
  state        : LifeState
  tIssue       : Option Nat
  tExecStart   : Option Nat
  tExecEnd     : Option Nat
  tBroadcast   : Option Nat
  tCommit      : Option Nat
  tMemWrite    : Option Nat
  count        : Nat
  result       : Option Word
  tag          : Option Tag
  ea           : Option Word
  data         : Option Word
  writePending : Bool
  div0         : Bool
deriving DecidableEq, Repr

/-- The entry of a freshly loaded instruction: the reset column of R38. -/
def Entry.fresh (ins : Instr) : Entry where
  ins          := ins
  state        := .notStarted
  tIssue       := none
  tExecStart   := none
  tExecEnd     := none
  tBroadcast   := none
  tCommit      := none
  tMemWrite    := none
  count        := 0
  result       := none
  tag          := none
  ea           := none
  data         := none
  writePending := false
  div0         := false

/-- A terminal entry: committed, or for a store written (10_state.md R40). -/
def Entry.terminal (t : Entry) : Bool :=
  t.state == .memoryWrite || (t.state == .commit && t.ins.op != .sw)

/-! ## Reorder buffer (R45 to R49) -/

/-- Where a result goes at commit (10_state.md R47). -/
inductive Dest where
  | reg (i : RegIdx)
  | mem
  | none
deriving DecidableEq, Repr

/-- The value field of a reorder-buffer entry (10_state.md R48). -/
inductive RobValue where
  | unready
  | ready (w : Word)
  | noValue
deriving DecidableEq, Repr

/-- A reorder-buffer entry (10_state.md R46). -/
structure RobEntry where
  instr : Nat
  dest  : Dest
  value : RobValue
deriving DecidableEq, Repr

/-! ## Reservation pools (R55 to R59) -/

/-- The three pools (10_state.md R55). -/
inductive PoolId where
  | add
  | mul
  | lsq
deriving DecidableEq, Repr

/-- An operand slot: a value, or the tag of its producer (10_state.md R57). -/
inductive Operand where
  | val (w : Word)
  | wait (t : Tag)
deriving DecidableEq, Repr

/-- A reservation-station entry (10_state.md R56). -/
structure RsEntry where
  instr  : Nat
  dtag   : Tag
  j      : Operand
  k      : Operand
  imm    : Word
  settle : Bool
deriving DecidableEq, Repr

/-- A pool is an array of slots (10_state.md R56). -/
abbrev Pool := List (Option RsEntry)

/-! ## Memory controller (R65 to R73) -/

/-- One word of backing memory at its word address. The spec's memory has words and no bytes (10_state.md R65,
20_memory.md R130), so a cell holds a word (log 9). -/
abbrev Cell := Nat × Word

/-- Backing memory in canonical form: addresses strictly rising, no cell holding 0, an unlisted address reading as 0
(10_state.md R65; the 0 is log 2's). -/
abbrev Mem := List Cell

/-- A set of addresses in canonical form, strictly rising: an array of bits indexed by address (10_state.md R66, R71). -/
abbrev AddrSet := List Nat

/-- A cache line of one word (10_state.md R67). Its busy bit is computed, `MemCtl.lineBusy` (R68). -/
structure CacheEntry where
  valid : Bool
  dirty : Bool
  tag   : Nat
  value : Word
deriving DecidableEq, Repr

/-- One cache level: its lines and its recency ranks, row by row and way by way (10_state.md R67, R69). -/
structure CacheLevel where
  lines : List (List CacheEntry)
  ranks : List (List Nat)
deriving DecidableEq, Repr

/-- A prefetch request (10_state.md R70). -/
structure PfReq where
  addr  : Nat
  value : Word
  count : Nat
  made  : Nat
deriving DecidableEq, Repr

/-- The counters (10_state.md R72). -/
structure Counters where
  l1Hits   : Nat
  l1Misses : Nat
  l2Hits   : Nat
  l2Misses : Nat
  pfHits   : Nat
  pfIssued : Nat
  pfFilled : Nat
  div0     : Nat
deriving DecidableEq, Repr

/-- The memory controller's state (10_state.md R65 to R73). -/
structure MemCtl where
  mem    : Mem
  busy   : AddrSet
  l1     : CacheLevel
  l2     : CacheLevel
  pfq    : List PfReq
  pfMark : AddrSet
  cnt    : Counters
  out    : List (Nat × Nat × Word)
deriving DecidableEq, Repr

/-- A line after reset (R90). -/
def CacheEntry.reset : CacheEntry := ⟨false, false, 0, 0#32⟩

/-- A cache level after reset: every line invalid, the rank of way `w` is `w` (R90, D24). -/
def CacheLevel.reset (rows ways : Nat) : CacheLevel where
  lines := List.replicate rows (List.replicate ways CacheEntry.reset)
  ranks := List.replicate rows (List.range ways)

/-- Every counter at 0 (R90). -/
def Counters.reset : Counters := ⟨0, 0, 0, 0, 0, 0, 0, 0⟩

/-- The controller after reset, over the initial memory (R90). -/
def MemCtl.reset (cfg : Config) (mem : Mem) : MemCtl where
  mem    := mem
  busy   := []
  l1     := CacheLevel.reset cfg.l1Rows cfg.l1Ways
  l2     := CacheLevel.reset cfg.l2Rows cfg.l2Ways
  pfq    := []
  pfMark := []
  cnt    := Counters.reset
  out    := []

/-! ## Status (R78, 60_exceptions.md R401) -/

/-- What a fatal fault records (60_exceptions.md R401). -/
structure FaultInfo where
  code  : Nat
  instr : Option Nat
  level : Option Nat
  addr  : Option Word
  cycle : Nat
deriving DecidableEq, Repr

/-- The run's status (10_state.md R78). -/
inductive Status where
  | running
  | completed
  | didNotComplete
  | faulted (info : FaultInfo)
deriving DecidableEq, Repr

/-- Which rule of the tick is being served, and for which entry. THE MODEL'S OWN FIELD (log 5): a tick serves many
instructions, each by rules of its own, and `exec i s` is the meaning of `i` under the rule this field names. Between
ticks it is `dispatch`. -/
inductive Event where
  /-- 40_scheduler.md R285 to R294: the first entry not started is issued. -/
  | dispatch
  /-- R264 to R266: the candidate in slot `k` of pool `p` tries to start. -/
  | start (p : PoolId) (k : Nat)
  /-- R262: table entry `n`, executing, counts down by one cycle. -/
  | countdown (n : Nat)
  /-- R242 to R246: table entry `n` has the common data bus. -/
  | broadcast (n : Nat)
  /-- R230 to R235: the entry at the reorder buffer's tail tries to commit. -/
  | commit
  /-- R252, R253: table entry `n`, a committed store, counts down to its memory write. -/
  | storeTick (n : Nat)
deriving DecidableEq, Repr

end Sys2Proof.Machine
end

