-- ==== Sys2Proof/Machine/State.lean ====
section
/-! DEFINITION. The machine state (10_state.md R30), the ways a step can stop, and the state after reset (R90). -/

namespace Sys2Proof.Machine

/-- The state record of 10_state.md R30, plus the model's own field `event` (log 5). -/
structure State where
  cfg          : Config
  x            : List Word
  link         : List (Option Tag)
  table        : List Entry
  decodeErrors : List (Nat × Word)
  rob          : List (Option RobEntry)
  robHead      : Nat
  robTail      : Nat
  addPool      : Pool
  mulPool      : Pool
  lsq          : Pool
  mc           : MemCtl
  cycle        : Nat
  status       : Status
  event        : Event
deriving DecidableEq, Repr

/-- Why the MODEL stops. None of these is an event of the spec (60_exceptions.md R400 closes that list, and its fatal
faults are next states with status `Faulted`, R402, log 8). Each is raised only in a state that is no state of the
machine, where a rule reads something the rule takes for granted; each is safe (log 12). -/
inductive Fault where
  /-- Raised by every rule that reads `T[n]` when the table has no entry `n`. Safe. -/
  | noSuchEntry
  /-- Raised by dispatch and commit for a register number at or above N_REGS, which no decoded word has (30_encoding.md
  R187). Safe. -/
  | noSuchRegister
  /-- Raised by broadcast when no reorder-buffer slot holds the instruction (40_scheduler.md R242 says one does). Safe. -/
  | noRobSlot
  /-- Raised by broadcast of an instruction that has no result, and by commit of a register destination with no value
  (R232, R243 take it for granted). Safe. -/
  | noResult
  /-- Raised by a load's end, a store's commit or a store's write when the entry has no address (R234, R253, R262). Safe. -/
  | noAddress
  /-- Raised by a store's write when the entry has no data (R253). Safe. -/
  | noData
deriving DecidableEq, Repr

/-- Why a step or a load has no next state. -/
inductive Refusal where
  /-- An instruction without a meaning in this model. No arm of `exec` answers it. Safe. -/
  | notModelled (mnemonic : String)
  /-- Raised by `step` on a block whose status is not Running: "no move" (70_reset_and_hazards.md R453, U17). Safe. -/
  | notRunning
  /-- Raised by `State.load` on an illegal configuration or an input of the wrong length (R440, U12). Safe. -/
  | illegalLaunch
deriving DecidableEq, Repr

/-- The outcome of a rule, an instruction or a step. -/
abbrev Out := Host.Outcome State Fault Refusal

/-- A register file of `cfg.nRegs` words with register 0 forced to 0 under X0_ZERO (R90, R440). -/
def resetRegs (cfg : Config) (regInit : List Word) : List Word :=
  if cfg.x0Zero then regInit.set 0 0#32 else regInit

/-- Status after a load: Completed when every entry is terminal, that is when the table is empty (R90, R440). -/
def resetStatus (table : List Entry) : Status :=
  if table.all Entry.terminal then .completed else .running

/-- The reset state of R90 and R440 over a decoded program. -/
def State.resetWith (cfg : Config) (table : List Entry) (decodeErrors : List (Nat × Word)) (mem : Mem)
    (regInit : List Word) : State where
  cfg          := cfg
  x            := resetRegs cfg regInit
  link         := List.replicate cfg.nRegs none
  table        := table
  decodeErrors := decodeErrors
  rob          := List.replicate cfg.nRob none
  robHead      := 0
  robTail      := 0
  addPool      := List.replicate cfg.capAdd none
  mulPool      := List.replicate cfg.capMul none
  lsq          := List.replicate cfg.capLsq none
  mc           := MemCtl.reset cfg mem
  cycle        := 0
  status       := resetStatus table
  event        := .dispatch

/-- The machine right after reset with the default configuration and nothing loaded: PROGRAM empty (log 4), every
register 0 (log 1), every memory word 0 (log 2). With an empty table R440 gives the status Completed. -/
def State.reset : State :=
  State.resetWith Config.default [] [] [] (List.replicate Config.default.nRegs 0#32)

end Sys2Proof.Machine
end

