-- ==== Sys2Proof/Machine/Ops.lean ====
section
/-! DEFINITION. The named operations over backing memory, address sets, registers, the instruction table, the reorder
buffer and the pools, and raising a fatal fault. -/

namespace Sys2Proof.Machine

/-! ## Backing memory (10_state.md R65) -/

/-- The word at an address; an unlisted address reads as 0 (log 2, log 9). -/
def Mem.read : Mem → Nat → Word
  | [], _ => 0#32
  | (k, v) :: m, a => if k = a then v else Mem.read m a

/-- Writing keeps the canonical form: writing 0, what an unlisted address reads as, removes the cell. -/
def Mem.write : Mem → Nat → Word → Mem
  | [], a, v => if v = 0#32 then [] else [(a, v)]
  | (k, w) :: m, a, v =>
    if a < k then (if v = 0#32 then (k, w) :: m else (a, v) :: (k, w) :: m)
    else if a = k then (if v = 0#32 then m else (a, v) :: m)
    else (k, w) :: Mem.write m a v

/-- The canonical form of memory: addresses strictly rising, no cell equal to what an unlisted address reads as. -/
abbrev Mem.wf (m : Mem) : Prop :=
  m.Pairwise (fun c d => c.1 < d.1) ∧ ∀ c ∈ m, c.2 ≠ 0#32

/-- Memory from a list of words, the first at address `a`: the launch input MEM_INIT (00_scope.md R8, 10_state.md R90). -/
def Mem.ofWords : Nat → List Word → Mem
  | _, [] => []
  | a, v :: vs => if v = 0#32 then Mem.ofWords (a + 1) vs else (a, v) :: Mem.ofWords (a + 1) vs

/-! ## Sets of addresses (10_state.md R66, R71) -/

/-- The bit of an address. -/
def AddrSet.has (s : AddrSet) (a : Nat) : Bool := s.contains a

/-- Setting the bit of an address. -/
def AddrSet.insert : AddrSet → Nat → AddrSet
  | [], a => [a]
  | k :: s, a =>
    if a < k then a :: k :: s
    else if a = k then k :: s
    else k :: AddrSet.insert s a

/-- Clearing the bit of an address. -/
def AddrSet.erase (s : AddrSet) (a : Nat) : AddrSet := s.filter (fun b => b != a)

/-- The canonical form of an address set. -/
abbrev AddrSet.wf (s : AddrSet) : Prop := s.Pairwise (fun a b => a < b)

/-! ## Sequencing and raising -/

/-- Running `f` after a rule, unless the rule stopped, or raised and so ended the run (60_exceptions.md R402: "abandons the
rest of the current tick at the point of the raise"). -/
def thenRun (o : Out) (f : State → Out) : Out :=
  match o with
  | .next s => if s.status = .running then f s else .next s
  | .fault r => .fault r
  | .refused r => .refused r

/-- `raise F(info)` of 60_exceptions.md R402: the one way a fatal fault is taken. The state stands as it is, status becomes
`Faulted(info)`, and `thenRun` abandons the rest of the tick. There is no trap entry and no return (R411, R412). -/
def State.raise (s : State) (info : FaultInfo) : State := { s with status := .faulted info }

/-- The record of `AddressOutOfRange(n, ea)`, code 3 (60_exceptions.md R401). -/
def FaultInfo.addressOutOfRange (n : Nat) (ea : Word) (cycle : Nat) : FaultInfo where
  code  := 3
  instr := some n
  level := none
  addr  := some ea
  cycle := cycle

/-- The record of `DuplicateFill(k, a)`, code 4 (60_exceptions.md R401). -/
def FaultInfo.duplicateFill (level addr cycle : Nat) : FaultInfo where
  code  := 4
  instr := none
  level := some level
  addr  := some (BitVec.ofNat 32 addr)
  cycle := cycle

/-! ## Registers (10_state.md R32) -/

/-- The busy flag of a register: it holds an unretired tag (R32, invariant (a)). -/
def State.busyReg (s : State) (r : RegIdx) : Bool :=
  match s.link[r.toNat]? with
  | some (some _) => true
  | _ => false

/-- Commit's register write (40_scheduler.md R232): the value is written, and the link is cleared only if it still names
the committing tag. -/
def State.commitReg (s : State) (r : RegIdx) (w : Word) (t : Tag) : State :=
  { s with
    x    := s.x.set r.toNat w
    link := if s.link[r.toNat]? = some (some t) then s.link.set r.toNat none else s.link }

/-! ## Instruction table -/

/-- Writing fields of entry `n`. -/
def State.updEntry (s : State) (n : Nat) (f : Entry → Entry) : State :=
  { s with table := s.table.modify n f }

/-- The dispatch pointer: the first entry still NotStarted (10_state.md R33). -/
def State.dptr (s : State) : Option Nat :=
  s.table.findIdx? (fun t => t.state == .notStarted)

/-- Every entry is terminal (10_state.md R40, 40_scheduler.md R221). -/
def State.allTerminal (s : State) : Bool := s.table.all Entry.terminal

/-- The demand port is held: some load is executing (20_memory.md R129). -/
def State.portBusy (s : State) : Bool :=
  s.table.any (fun t => t.state == .executeStart && t.ins.op == .lw)

/-! ## Reorder buffer (10_state.md R45 to R49) -/

/-- `ROB[t]`: the entry in a slot, if one is there. -/
def State.robAt (s : State) (t : Tag) : Option RobEntry := (s.rob[t]?).join

/-- The reorder buffer is full when its head slot is occupied (R49). -/
def State.robFull (s : State) : Bool := (s.robAt s.robHead).isSome

/-- A cursor advances by one modulo N_ROB (R45). -/
def State.nextSlot (s : State) (t : Tag) : Tag := (t + 1) % s.cfg.nRob

/-- The slot that holds the entry of instruction `n` (40_scheduler.md R242). -/
def State.robSlotOf (s : State) (n : Nat) : Option Tag :=
  s.rob.findIdx? (fun e => match e with
    | some e => e.instr == n
    | none => false)

/-- Writing the value of the entry in slot `t` (40_scheduler.md R243). -/
def State.setRobValue (s : State) (t : Tag) (v : RobValue) : State :=
  { s with rob := s.rob.modify t (fun e => e.map (fun e => { e with value := v })) }

/-- Freeing the tail slot and retiring instruction `n` (40_scheduler.md R235). -/
def State.retire (s : State) (n : Nat) : State :=
  { s with
    rob     := s.rob.set s.robTail none
    robTail := s.nextSlot s.robTail
    table   := s.table.modify n (fun t => { t with state := .commit, tCommit := some s.cycle }) }

/-! ## Pools (10_state.md R55 to R59) -/

def State.pool (s : State) : PoolId → Pool
  | .add => s.addPool
  | .mul => s.mulPool
  | .lsq => s.lsq

def State.setPool (s : State) (p : PoolId) (slots : Pool) : State :=
  match p with
  | .add => { s with addPool := slots }
  | .mul => { s with mulPool := slots }
  | .lsq => { s with lsq := slots }

/-- `P.slot[k]`: the station in a slot, if one is there. -/
def State.slot (s : State) (p : PoolId) (k : Nat) : Option RsEntry := ((s.pool p)[k]?).join

/-- The lowest-index free slot, none when the pool is full (R59, 40_scheduler.md R292). -/
def State.freeSlot (s : State) (p : PoolId) : Option Nat := (s.pool p).findIdx? Option.isNone

/-- The same change to every live station of a pool. -/
def Pool.mapLive (f : RsEntry → RsEntry) (slots : Pool) : Pool := slots.map (fun e => e.map f)

/-- The same change to every live station of every pool. -/
def State.mapStations (s : State) (f : RsEntry → RsEntry) : State :=
  { s with
    addPool := Pool.mapLive f s.addPool
    mulPool := Pool.mapLive f s.mulPool
    lsq     := Pool.mapLive f s.lsq }

/-- An operand waiting on tag `t` becomes the value (40_scheduler.md R244). -/
def Operand.resolve (t : Tag) (v : Word) (o : Operand) : Operand :=
  if o = .wait t then .val v else o

/-- Wake-up of a station: operands waiting on `t` get the value, and a station so changed settles (R244, R245). -/
def RsEntry.wake (t : Tag) (v : Word) (e : RsEntry) : RsEntry :=
  { e with
    j      := e.j.resolve t v
    k      := e.k.resolve t v
    settle := e.settle || (e.j == .wait t || e.k == .wait t) }

/-- End of tick: every live station's settle mark is cleared (40_scheduler.md R296). -/
def State.clearSettle (s : State) : State := s.mapStations (fun e => { e with settle := false })

/-- An entry begins execution: it leaves its slot, and its table entry enters ExecuteStart (40_scheduler.md R259, R265,
R266). -/
def State.beginExec (s : State) (p : PoolId) (k n : Nat) (f : Entry → Entry) : State :=
  (s.setPool p ((s.pool p).set k none)).updEntry n
    (fun t => { f t with state := .executeStart, tExecStart := some s.cycle })

end Sys2Proof.Machine
end

