-- ==== Sys2Proof/Machine/Controller.lean ====
section
/-! DEFINITION. The memory controller: lookup, recency, fill, eviction, write-back, prefetch, demand read, store write,
probe and the coherent view (20_memory.md). Addresses here are word indices below MEM_SIZE (R128). -/

namespace Sys2Proof.Machine

/-- The outcome of a controller operation: the controller after it and its answer, or a raise of `DuplicateFill` with the
controller as it stands at the raise (20_memory.md R110, 60_exceptions.md R402, R406). -/
inductive Ctl (α : Type) where
  | ok (m : MemCtl) (a : α)
  | dup (m : MemCtl) (level addr : Nat)

def Ctl.bind {α β : Type} (r : Ctl α) (f : MemCtl → α → Ctl β) : Ctl β :=
  match r with
  | .ok m a => f m a
  | .dup m l a => .dup m l a

/-! ## One cache level (R100 to R110) -/

/-- The ways of a row. -/
def CacheLevel.row (c : CacheLevel) (r : Nat) : List CacheEntry := (c.lines[r]?).getD []

/-- The ranks of a row. -/
def CacheLevel.rankRow (c : CacheLevel) (r : Nat) : List Nat := (c.ranks[r]?).getD []

/-- Lookup (R101): the way of the addressed row (R100) with a valid matching tag, and its line. -/
def CacheLevel.find (rows : Nat) (c : CacheLevel) (a : Nat) : Option (Nat × CacheEntry) :=
  match (c.row (a % rows)).findIdx? (fun e => e.valid && e.tag == a / rows) with
  | some w => ((c.row (a % rows))[w]?).map (fun e => (w, e))
  | none => none

/-- `holds_k(a)` (R101). -/
def CacheLevel.holds (rows : Nat) (c : CacheLevel) (a : Nat) : Bool := (c.find rows a).isSome

/-- Writing one line. -/
def CacheLevel.setLine (c : CacheLevel) (r w : Nat) (e : CacheEntry) : CacheLevel :=
  { c with lines := c.lines.modify r (fun ways => ways.set w e) }

/-- Touch (R105): the way's rank becomes 0 and every other way of the row advances by one. -/
def CacheLevel.touch (c : CacheLevel) (r w : Nat) : CacheLevel :=
  { c with ranks := c.ranks.modify r (fun ks => ks.mapIdx (fun i k => if i = w then 0 else k + 1)) }

/-- The index of the greatest rank, the lowest such index on a tie; `best` is the greatest rank so far, at `at'`. -/
def maxRankFrom (best at' i : Nat) : List Nat → Nat
  | [] => at'
  | k :: ks => if best < k then maxRankFrom k i (i + 1) ks else maxRankFrom best at' (i + 1) ks

/-- The victim way of a row (R106, D24). -/
def CacheLevel.victim (c : CacheLevel) (r : Nat) : Nat :=
  match c.rankRow r with
  | [] => 0
  | k :: ks => maxRankFrom k 0 1 ks

/-- The victim line of a fill of `a`, when it is valid: its address (R100), value and dirty bit (R110). -/
def CacheLevel.victimLine (rows : Nat) (c : CacheLevel) (a : Nat) : Option (Nat × Word × Bool) :=
  match (c.row (a % rows))[c.victim (a % rows)]? with
  | some old => if old.valid then some (old.tag * rows + a % rows, old.value, old.dirty) else none
  | none => none

/-- The last two lines of `fill` (R110): the victim slot gets the new line and is touched. -/
def CacheLevel.put (rows : Nat) (c : CacheLevel) (a : Nat) (v : Word) (d : Bool) : CacheLevel :=
  (c.setLine (a % rows) (c.victim (a % rows)) ⟨true, d, a / rows, v⟩).touch (a % rows) (c.victim (a % rows))

/-- A write hit: value and dirty bit in place, and a touch (R112, R124). -/
def CacheLevel.writeHit (rows : Nat) (c : CacheLevel) (a w : Nat) (e : CacheEntry) (v : Word) : CacheLevel :=
  (c.setLine (a % rows) w { e with value := v, dirty := true }).touch (a % rows) w

/-! ## The hierarchy -/

/-- The mirror of the busy bit at a line of row `r` (10_state.md R68). -/
def MemCtl.lineBusy (m : MemCtl) (rows r : Nat) (e : CacheEntry) : Bool :=
  e.valid && m.busy.has (e.tag * rows + r)

/-- Backing-memory write (R118): the word, the write-out record, and the cancelling of queued prefetches of the address
(C2). -/
def MemCtl.memWrite (cycle : Nat) (m : MemCtl) (a : Nat) (v : Word) : MemCtl :=
  { m with
    mem := Mem.write m.mem a v
    out := m.out ++ [(cycle, a, v)]
    pfq := m.pfq.filter (fun q => q.addr != a) }

/-- What a fill of `a` at level 2 does with its victim: a dirty line goes to memory (R111), and the prefetched mark of an
evicted line is cleared (R115). -/
def MemCtl.evict2 (cfg : Config) (cycle : Nat) (m : MemCtl) (a : Nat) : MemCtl :=
  match m.l2.victimLine cfg.l2Rows a with
  | some (oa, ov, true) =>
    let m' := m.memWrite cycle oa ov
    { m' with pfMark := m'.pfMark.erase oa }
  | some (oa, _, false) => { m with pfMark := m.pfMark.erase oa }
  | none => m

/-- `fill(2, a, v, d)` (R110). -/
def MemCtl.fill2 (cfg : Config) (cycle : Nat) (m : MemCtl) (a : Nat) (v : Word) (d : Bool) : Ctl Unit :=
  if m.l2.holds cfg.l2Rows a then .dup m 2 a
  else
    let m' := m.evict2 cfg cycle a
    .ok { m' with l2 := m'.l2.put cfg.l2Rows a v d } ()

/-- `writeback(2, a, v)` (R112): in place on a hit, otherwise a dirty fill. -/
def MemCtl.writeback2 (cfg : Config) (cycle : Nat) (m : MemCtl) (a : Nat) (v : Word) : Ctl Unit :=
  match m.l2.find cfg.l2Rows a with
  | some (w, e) => .ok { m with l2 := m.l2.writeHit cfg.l2Rows a w e v } ()
  | none => m.fill2 cfg cycle a v true

/-- What a fill of `a` at level 1 does with its victim: a dirty line goes to level 2 (R111). -/
def MemCtl.evict1 (cfg : Config) (cycle : Nat) (m : MemCtl) (a : Nat) : Ctl Unit :=
  match m.l1.victimLine cfg.l1Rows a with
  | some (oa, ov, true) => m.writeback2 cfg cycle oa ov
  | some (_, _, false) => .ok m ()
  | none => .ok m ()

/-- `fill(1, a, v, d)` (R110). -/
def MemCtl.fill1 (cfg : Config) (cycle : Nat) (m : MemCtl) (a : Nat) (v : Word) (d : Bool) : Ctl Unit :=
  if m.l1.holds cfg.l1Rows a then .dup m 1 a
  else (m.evict1 cfg cycle a).bind (fun m' _ => .ok { m' with l1 := m'.l1.put cfg.l1Rows a v d } ())

/-- The latency of a hit at level 1 (R122). -/
def latL1 (cfg : Config) : Nat := cfg.l1Lat

/-- The latency of a hit at level 2 (R122). -/
def latL2 (cfg : Config) : Nat := cfg.l1Lat + cfg.l2Lat

/-- The latency of a full miss (R122). -/
def latMem (cfg : Config) : Nat := cfg.l1Lat + cfg.l2Lat + cfg.memLat

/-- A demand read that misses at level 1 and hits at level 2 (R121): touch, the prefetch or level-2 hit count, promotion. -/
def MemCtl.readHit2 (cfg : Config) (cycle : Nat) (m : MemCtl) (a w : Nat) (e : CacheEntry) : Ctl (Word × Nat) :=
  let m1 := { m with l2 := m.l2.touch (a % cfg.l2Rows) w }
  let m2 :=
    if m1.pfMark.has a then
      { m1 with cnt := { m1.cnt with pfHits := m1.cnt.pfHits + 1 }, pfMark := m1.pfMark.erase a }
    else { m1 with cnt := { m1.cnt with l2Hits := m1.cnt.l2Hits + 1 } }
  (m2.fill1 cfg cycle a e.value false).bind (fun m' _ => .ok m' (e.value, latL2 cfg))

/-- A demand read that misses at both levels (R121): level 2 is filled first, then level 1 (D26). -/
def MemCtl.readMiss (cfg : Config) (cycle : Nat) (m : MemCtl) (a : Nat) : Ctl (Word × Nat) :=
  let v := Mem.read m.mem a
  let m1 := { m with cnt := { m.cnt with l2Misses := m.cnt.l2Misses + 1 } }
  (m1.fill2 cfg cycle a v false).bind fun m2 _ =>
    (m2.fill1 cfg cycle a v false).bind fun m3 _ => .ok m3 (v, latMem cfg)

/-- Demand read `MC.read(a)` (R121): the value and the latency. -/
def MemCtl.read (cfg : Config) (cycle : Nat) (m : MemCtl) (a : Nat) : Ctl (Word × Nat) :=
  match m.l1.find cfg.l1Rows a with
  | some (w, e) =>
    .ok { m with l1 := m.l1.touch (a % cfg.l1Rows) w, cnt := { m.cnt with l1Hits := m.cnt.l1Hits + 1 } }
      (e.value, latL1 cfg)
  | none =>
    let m1 := { m with cnt := { m.cnt with l1Misses := m.cnt.l1Misses + 1 } }
    match m1.l2.find cfg.l2Rows a with
    | some (w, e) => m1.readHit2 cfg cycle a w e
    | none => m1.readMiss cfg cycle a

/-- Store write `MC.write(a, v)` (R124): in place on a level-1 hit, otherwise write-allocate without a fetch. -/
def MemCtl.write (cfg : Config) (cycle : Nat) (m : MemCtl) (a : Nat) (v : Word) : Ctl Unit :=
  match m.l1.find cfg.l1Rows a with
  | some (w, e) => .ok { m with l1 := m.l1.writeHit cfg.l1Rows a w e v } ()
  | none => m.fill1 cfg cycle a v true

/-- Probe `MC.probe(a)` (R127): the latency of the level that holds the address; no state changes. -/
def MemCtl.probe (cfg : Config) (m : MemCtl) (a : Nat) : Nat :=
  if m.l1.holds cfg.l1Rows a then latL1 cfg
  else if m.l2.holds cfg.l2Rows a then latL2 cfg
  else latMem cfg

/-- The coherent view of an address (R140). -/
def MemCtl.view (cfg : Config) (m : MemCtl) (a : Nat) : Word :=
  match m.l1.find cfg.l1Rows a with
  | some (_, e) => e.value
  | none =>
    match m.l2.find cfg.l2Rows a with
    | some (_, e) => e.value
    | none => Mem.read m.mem a

/-! ## Prefetch (R116, R117) -/

/-- Prefetch issue `pfIssue(a)` (R117), after a demand read of `a`. -/
def MemCtl.pfIssue (cfg : Config) (cycle : Nat) (m : MemCtl) (a : Nat) : MemCtl :=
  let n := (a + 1) % cfg.memSize
  if m.busy.has n then m
  else if m.pfq.any (fun q => q.addr == n) then m
  else if cfg.pfQueueCap ≤ m.pfq.length then m
  else
    { m with
      pfq := m.pfq ++ [{ addr := n, value := Mem.read m.mem n, count := cfg.memLat, made := cycle }]
      cnt := { m.cnt with pfIssued := m.cnt.pfIssued + 1 } }

/-- One cycle of ageing of a request: a request made this cycle does not age (R116, D23). -/
def PfReq.age (cycle : Nat) (q : PfReq) : PfReq :=
  if q.made < cycle then { q with count := q.count - 1 } else q

/-- The request's countdown reaches 0 in this cycle (R116; log 11 for a countdown already at 0). -/
def PfReq.expires (cycle : Nat) (q : PfReq) : Bool := decide (q.made < cycle) && q.count == 1

/-- The install of an expired request (R116): dropped when level 2 holds the address, otherwise a clean fill and a mark. -/
def MemCtl.pfInstall (cfg : Config) (cycle : Nat) (m : MemCtl) (q : PfReq) : Ctl Unit :=
  if m.l2.holds cfg.l2Rows q.addr then .ok m ()
  else
    (m.fill2 cfg cycle q.addr q.value false).bind fun m' _ =>
      .ok { m' with
            pfMark := m'.pfMark.insert q.addr
            cnt := { m'.cnt with pfFilled := m'.cnt.pfFilled + 1 } } ()

/-- The expired requests, in queue order; one that an earlier install removed (R118) is skipped (R116). -/
def MemCtl.pfDrain (cfg : Config) (cycle : Nat) (m : MemCtl) : List PfReq → Ctl Unit
  | [] => .ok m ()
  | q :: qs =>
    if m.pfq.contains q then
      (MemCtl.pfInstall cfg cycle { m with pfq := m.pfq.erase q } q).bind
        (fun m' _ => MemCtl.pfDrain cfg cycle m' qs)
    else MemCtl.pfDrain cfg cycle m qs

/-- `pfTick()` (R116). Every request that is old enough ages, then those that reached 0 are installed in queue order. The
rule ages a request in the same pass; nothing an install does reads a count, so the states after the pass are the same
(log 13). -/
def MemCtl.pfTick (cfg : Config) (cycle : Nat) (m : MemCtl) : Ctl Unit :=
  MemCtl.pfDrain cfg cycle { m with pfq := m.pfq.map (PfReq.age cycle) }
    ((m.pfq.filter (PfReq.expires cycle)).map (PfReq.age cycle))

/-! ## The controller inside the machine -/

/-- `u(ea) < MEM_SIZE` (R128). -/
def State.inRange (s : State) (ea : Word) : Bool := decide (ea.toNat < s.cfg.memSize)

/-- `MC.busy[ea]` (10_state.md R66). -/
def State.busyAt (s : State) (ea : Word) : Bool := s.mc.busy.has ea.toNat

def State.setBusy (s : State) (ea : Word) : State :=
  { s with mc := { s.mc with busy := s.mc.busy.insert ea.toNat } }

def State.clearBusy (s : State) (ea : Word) : State :=
  { s with mc := { s.mc with busy := s.mc.busy.erase ea.toNat } }

/-- Continuing with the answer of a controller operation, or raising its `DuplicateFill` (60_exceptions.md R402, R406). -/
def State.withCtl {α : Type} (s : State) (r : Ctl α) (f : State → α → Out) : Out :=
  match r with
  | .ok m a => f { s with mc := m } a
  | .dup m l a => .next (State.raise { s with mc := m } (.duplicateFill l a s.cycle))

end Sys2Proof.Machine
end

