-- ==== Sys2Proof/Machine/Flags.lean ====
section
/-! DEFINITION. The hardware has no flags, condition codes or predicates (10_state.md R36). The only status an instruction
records is the divide-by-zero report. -/

namespace Sys2Proof.Machine

/-- Divide by zero, reported and not fatal (41_integer.md R304, 60_exceptions.md R404): the mark of entry `n` and the
counter. -/
def State.reportDiv0 (s : State) (n : Nat) : State :=
  { s with
    table := s.table.modify n (fun t => { t with div0 := true })
    mc    := { s.mc with cnt := { s.mc.cnt with div0 := s.mc.cnt.div0 + 1 } } }

end Sys2Proof.Machine
end

