-- ==== Sys2Proof/Machine/Operands.lean ====
section
/-! DEFINITION. The operand forms: operand capture (40_scheduler.md R288), the operand slots and destination of each shape
of instruction (R289), and the pool and bus class of each operation (10_state.md R55, 40_scheduler.md R241). -/

namespace Sys2Proof.Machine

/-- The pool of an operation (10_state.md R55, the pool column of 30_encoding.md R189). -/
def poolOf : Op → PoolId
  | .add  => .add
  | .sub  => .add
  | .mul  => .mul
  | .div  => .mul
  | .addi => .add
  | .lw   => .lsq
  | .sw   => .lsq
  | .beq  => .add
  | .bne  => .add

/-- The class rank of an operation on the common data bus (40_scheduler.md R241). -/
def classRank (op : Op) : Nat :=
  match poolOf op with
  | .lsq => 0
  | .add => 1
  | .mul => 2

/-- `cap(r)` (40_scheduler.md R288): the register's value when it is free, the reorder buffer's value when its producer
has broadcast, otherwise the producer's tag. `none` when there is no register `r` (30_encoding.md R187). -/
def State.cap (s : State) (r : RegIdx) : Option Operand :=
  match s.x[r.toNat]?, s.link[r.toNat]? with
  | some v, some l =>
    if s.cfg.x0Zero ∧ r = 0#5 then some (.val 0#32)
    else
      match l with
      | none => some (.val v)
      | some t =>
        match s.robAt t with
        | some e =>
          match e.value with
          | .ready w => some (.val w)
          | .unready => some (.wait t)
          | .noValue => some (.wait t)
        | none => some (.wait t)
  | _, _ => none

/-- The destination `Reg(rd)`, or `None` for x0 under X0_ZERO (10_state.md R34, R47). `none` when there is no register. -/
def State.destReg (s : State) (rd : RegIdx) : Option Dest :=
  if rd.toNat < s.x.length then
    if s.cfg.x0Zero ∧ rd = 0#5 then some .none else some (.reg rd)
  else none

/-- What dispatch captures: the columns `j`, `k`, `imm`, `dest` of R289. -/
structure Captured where
  j    : Operand
  k    : Operand
  imm  : Word
  dest : Dest
deriving DecidableEq, Repr

/-- ADD, SUB, MUL, DIV (R289): two register sources and a register destination. -/
def captureReg (rd rs1 rs2 : RegIdx) (s : State) : Option Captured :=
  match s.cap rs1, s.cap rs2, s.destReg rd with
  | some j, some k, some d => some ⟨j, k, 0#32, d⟩
  | _, _, _ => none

/-- ADDI (R289): the sign-extended immediate is the second operand (30_encoding.md R186). -/
def captureImm (rd rs1 : RegIdx) (imm : BitVec 12) (s : State) : Option Captured :=
  match s.cap rs1, s.destReg rd with
  | some j, some d => some ⟨j, .val (imm.signExtend 32), imm.signExtend 32, d⟩
  | _, _ => none

/-- LW (R289): the base, and an unused second operand `Val(0)` (U15). -/
def captureLoad (rd rs1 : RegIdx) (imm : BitVec 12) (s : State) : Option Captured :=
  match s.cap rs1, s.destReg rd with
  | some j, some d => some ⟨j, .val 0#32, imm.signExtend 32, d⟩
  | _, _ => none

/-- SW (R289): the base and the data, destination memory. -/
def captureStore (rs1 rs2 : RegIdx) (imm : BitVec 12) (s : State) : Option Captured :=
  match s.cap rs1, s.cap rs2 with
  | some j, some k => some ⟨j, k, imm.signExtend 32, .mem⟩
  | _, _ => none

/-- BEQ, BNE (R289): two register sources, no destination; the immediate is kept and no rule reads it (42_branch.md R342,
U14). -/
def captureBranch (rs1 rs2 : RegIdx) (imm : BitVec 13) (s : State) : Option Captured :=
  match s.cap rs1, s.cap rs2 with
  | some j, some k => some ⟨j, k, imm.signExtend 32, .none⟩
  | _, _ => none

end Sys2Proof.Machine
end

