-- ==== Sys2Proof/Machine/Lifecycle.lean ====
section
/-! DEFINITION. The shared operations of an instruction's life (10_state.md R39, 40_scheduler.md): dispatch, the candidate
test of an execute start, the countdown, the broadcast, the commit and the store's deferred write. A meaning is a choice
of one operation for each event. -/

namespace Sys2Proof.Machine

/-! ## Dispatch (40_scheduler.md R285 to R294) -/

/-- Renaming (R291): a register destination is linked to the new tag. -/
def renamed (link : List (Option Tag)) (d : Dest) (t : Tag) : List (Option Tag) :=
  match d with
  | .reg i => link.set i.toNat (some t)
  | .mem => link
  | .none => link

/-- The issue of entry `n` into slot `k` of pool `p` with the captured operands (R290 to R293). -/
def State.issue (s : State) (p : PoolId) (n k : Nat) (c : Captured) : State :=
  let s1 : State :=
    { s with
      rob     := s.rob.set s.robHead (some { instr := n, dest := c.dest, value := .unready })
      robHead := s.nextSlot s.robHead
      link    := renamed s.link c.dest s.robHead }
  (s1.setPool p
      ((s1.pool p).set k
        (some { instr := n, dtag := s.robHead, j := c.j, k := c.k, imm := c.imm, settle := false }))).updEntry n
    (fun t => { t with tag := some s.robHead, state := .rsWait, tIssue := some s.cycle })

/-- Dispatch of the first NotStarted entry as an instruction of pool `p` (R285 to R293). With no such entry, a full pool
or a full reorder buffer, nothing changes (R285, R287). -/
def dispatchAs (p : PoolId) (capture : State → Option Captured) (s : State) : Out :=
  match s.dptr with
  | none => .next s
  | some n =>
    match s.freeSlot p with
    | none => .next s
    | some k =>
      if s.robFull then .next s
      else
        match capture s with
        | none => .fault .noSuchRegister
        | some c => .next (s.issue p n k c)

/-! ## Execute start (R264 to R266) -/

/-- The candidate test of R264: `body` runs for a live station in slot `k` of pool `p` with both operands values and no
settle mark, and gets the two values. Otherwise nothing starts. -/
def withCandidate (p : PoolId) (k : Nat) (s : State) (body : RsEntry → Word → Word → Out) : Out :=
  match s.slot p k with
  | none => .next s
  | some e =>
    match e.j, e.k with
    | .val a, .val b =>
      if e.settle then .next s
      else if e.instr < s.table.length then body e a b
      else .fault .noSuchEntry
    | .val _, .wait _ => .next s
    | .wait _, .val _ => .next s
    | .wait _, .wait _ => .next s

/-- Arithmetic start (R265): the result is computed from the captured operands, and the countdown is the latency. -/
def State.startArith (s : State) (p : PoolId) (k n : Nat) (result : Word) (lat : Nat) : State :=
  s.beginExec p k n (fun t => { t with result := some result, count := lat })

/-! ## Countdown (R262) -/

/-- One cycle of the countdown (R262): at its end the entry is in ExecuteEnd, and `release` runs on it. A countdown
already at 0 never ends (00_scope.md R7, log 11). -/
def countdownThen (release : State → Entry → Out) (n : Nat) (s : State) : Out :=
  match s.table[n]? with
  | none => .fault .noSuchEntry
  | some t =>
    if t.count = 1 then
      release (s.updEntry n (fun t => { t with count := 0, state := .executeEnd, tExecEnd := some s.cycle })) t
    else .next (s.updEntry n (fun t => { t with count := t.count - 1 }))

/-- The countdown of every instruction but LW. -/
def countdownPlain : Nat → State → Out := countdownThen (fun s _ => .next s)

/-! ## Broadcast (R242 to R246) -/

/-- The broadcasting entry enters Broadcast (R246). -/
def State.markBroadcast (s : State) (n : Nat) : State :=
  s.updEntry n (fun t => { t with state := .broadcast, tBroadcast := some s.cycle })

/-- Broadcast of a result (R242 to R246): the reorder-buffer entry of the instruction gets the value, and every operand
waiting on its tag wakes. -/
def broadcastResult (n : Nat) (s : State) : Out :=
  match s.table[n]? with
  | none => .fault .noSuchEntry
  | some t =>
    match s.robSlotOf n, t.result with
    | some tag, some v =>
      .next (((s.setRobValue tag (.ready v)).mapStations (RsEntry.wake tag v)).markBroadcast n)
    | none, _ => .fault .noRobSlot
    | some _, none => .fault .noResult

/-- Broadcast of a store (R243): the no-value marker; it wakes nothing (R244). -/
def broadcastNoValue (n : Nat) (s : State) : Out :=
  if n < s.table.length then
    match s.robSlotOf n with
    | some tag => .next ((s.setRobValue tag .noValue).markBroadcast n)
    | none => .fault .noRobSlot
  else .fault .noSuchEntry

/-! ## Commit (R230 to R236) -/

/-- A store's commit (R234): stalls on a busy address, otherwise the address becomes busy and the write is scheduled
with the probe latency. -/
def commitStore (n : Nat) (t : Entry) (s : State) : Out :=
  match t.ea with
  | none => .fault .noAddress
  | some ea =>
    if s.busyAt ea then .next s
    else
      .next (((s.setBusy ea).updEntry n
        (fun t => { t with count := s.mc.probe s.cfg ea.toNat, writePending := true })).retire n)

/-- The commit of instruction `n`, whose reorder-buffer entry is `e` and whose value is ready, by its destination (R232,
R233, R234), and its retirement (R235). -/
def commitDest (n : Nat) (t : Entry) (e : RobEntry) (s : State) : Out :=
  match e.dest, e.value with
  | .reg i, .ready w =>
    if i.toNat < s.x.length then .next ((s.commitReg i w s.robTail).retire n)
    else .fault .noSuchRegister
  | .reg _, .noValue => .fault .noResult
  | .reg _, .unready => .fault .noResult
  | .none, _ => .next (s.retire n)
  | .mem, _ => commitStore n t s

/-- The commit of the entry at the tail (R236): nothing when the tail is empty or its value is not ready (R230). -/
def commitTail (s : State) : Out :=
  match s.robAt s.robTail with
  | none => .next s
  | some e =>
    if e.value = .unready then .next s
    else
      match s.table[e.instr]? with
      | none => .fault .noSuchEntry
      | some t => commitDest e.instr t e s

/-! ## The deferred memory write (R252, R253) -/

/-- One cycle of a committed store's countdown; at its end the write is performed and the busy bit released (R253). -/
def storeWriteTick (n : Nat) (s : State) : Out :=
  match s.table[n]? with
  | none => .fault .noSuchEntry
  | some t =>
    if t.count = 1 then
      match t.ea, t.data with
      | some ea, some v =>
        (s.updEntry n (fun t => { t with count := 0 })).withCtl (s.mc.write s.cfg s.cycle ea.toNat v) fun s' _ =>
          .next ((s'.clearBusy ea).updEntry n
            (fun t => { t with writePending := false, state := .memoryWrite, tMemWrite := some s.cycle }))
      | none, _ => .fault .noAddress
      | some _, none => .fault .noData
    else .next (s.updEntry n (fun t => { t with count := t.count - 1 }))

/-! ## A meaning -/

/-- What one instruction does at each event of its life. The last four are the same for almost every instruction. -/
structure Meaning where
  dispatch  : State → Out
  start     : PoolId → Nat → State → Out
  countdown : Nat → State → Out := countdownPlain
  broadcast : Nat → State → Out := broadcastResult
  commit    : State → Out := commitTail
  storeTick : Nat → State → Out := storeWriteTick

/-- The meaning at the event the state names (log 5, log 6). -/
def Meaning.run (m : Meaning) (s : State) : Out :=
  match s.event with
  | .dispatch => m.dispatch s
  | .start p k => m.start p k s
  | .countdown n => m.countdown n s
  | .broadcast n => m.broadcast n s
  | .commit => m.commit s
  | .storeTick n => m.storeTick n s

end Sys2Proof.Machine
end

