-- ==== Sys2Proof/Machine/Branch.lean ====
section
/-! DEFINITION. The conditional branches (42_branch.md): a comparison whose result is discarded at commit, with no control
transfer (R342). -/

namespace Sys2Proof.Machine

/-- R340: 1 when the words are equal, else 0. -/
def computeBeq (a b : Word) : Word := if a = b then 1#32 else 0#32

/-- R341: 1 when the words differ, else 0. -/
def computeBne (a b : Word) : Word := if a = b then 0#32 else 1#32

def startBeq (p : PoolId) (k : Nat) (s : State) : Out :=
  withCandidate p k s fun e a b => .next (s.startArith p k e.instr (computeBeq a b) s.cfg.latBeq)

def startBne (p : PoolId) (k : Nat) (s : State) : Out :=
  withCandidate p k s fun e a b => .next (s.startArith p k e.instr (computeBne a b) s.cfg.latBne)

/-- BEQ (42_branch.md R340). -/
def execBeq (rs1 rs2 : RegIdx) (imm : BitVec 13) (s : State) : Out :=
  Meaning.run { dispatch := dispatchAs (poolOf .beq) (captureBranch rs1 rs2 imm), start := startBeq } s

/-- BNE (42_branch.md R341). -/
def execBne (rs1 rs2 : RegIdx) (imm : BitVec 13) (s : State) : Out :=
  Meaning.run { dispatch := dispatchAs (poolOf .bne) (captureBranch rs1 rs2 imm), start := startBne } s

end Sys2Proof.Machine
end

