-- ==== Sys2Proof/Machine/Integer.lean ====
section
/-! DEFINITION. The integer arithmetic instructions (41_integer.md): ADD, SUB, MUL, DIV, ADDI. -/

namespace Sys2Proof.Machine

/-! ## `compute` (R301 to R305) -/

/-- R301: modulo 2^32. -/
def computeAdd (a b : Word) : Word := a + b

/-- R302: modulo 2^32. -/
def computeSub (a b : Word) : Word := a - b

/-- R303: the low 32 bits of the product. -/
def computeMul (a b : Word) : Word := BitVec.ofNat 32 (a.toNat * b.toNat)

/-- R304: signed division truncating toward zero; a zero divisor gives 0, and the most negative word divided by -1 gives
itself. -/
def computeDiv (a b : Word) : Word :=
  if b = 0#32 then 0#32
  else if a = 0x80000000#32 ∧ b = 0xFFFFFFFF#32 then 0x80000000#32
  else BitVec.ofInt 32 (a.toInt.tdiv b.toInt)

/-- R305: modulo 2^32, the second operand being the immediate. -/
def computeAddi (a b : Word) : Word := a + b

/-! ## Execute start -/

def startAdd (p : PoolId) (k : Nat) (s : State) : Out :=
  withCandidate p k s fun e a b => .next (s.startArith p k e.instr (computeAdd a b) s.cfg.latAdd)

def startSub (p : PoolId) (k : Nat) (s : State) : Out :=
  withCandidate p k s fun e a b => .next (s.startArith p k e.instr (computeSub a b) s.cfg.latSub)

def startMul (p : PoolId) (k : Nat) (s : State) : Out :=
  withCandidate p k s fun e a b => .next (s.startArith p k e.instr (computeMul a b) s.cfg.latMul)

/-- A zero divisor is reported at execute start (R304, 40_scheduler.md R265); the latency does not depend on it. -/
def startDiv (p : PoolId) (k : Nat) (s : State) : Out :=
  withCandidate p k s fun e a b =>
    let s' := if b = 0#32 then s.reportDiv0 e.instr else s
    .next (s'.startArith p k e.instr (computeDiv a b) s.cfg.latDiv)

def startAddi (p : PoolId) (k : Nat) (s : State) : Out :=
  withCandidate p k s fun e a b => .next (s.startArith p k e.instr (computeAddi a b) s.cfg.latAddi)

/-! ## Meanings -/

/-- ADD (41_integer.md R301). -/
def execAdd (rd rs1 rs2 : RegIdx) (s : State) : Out :=
  Meaning.run { dispatch := dispatchAs (poolOf .add) (captureReg rd rs1 rs2), start := startAdd } s

/-- SUB (41_integer.md R302). -/
def execSub (rd rs1 rs2 : RegIdx) (s : State) : Out :=
  Meaning.run { dispatch := dispatchAs (poolOf .sub) (captureReg rd rs1 rs2), start := startSub } s

/-- MUL (41_integer.md R303). -/
def execMul (rd rs1 rs2 : RegIdx) (s : State) : Out :=
  Meaning.run { dispatch := dispatchAs (poolOf .mul) (captureReg rd rs1 rs2), start := startMul } s

/-- DIV (41_integer.md R304). -/
def execDiv (rd rs1 rs2 : RegIdx) (s : State) : Out :=
  Meaning.run { dispatch := dispatchAs (poolOf .div) (captureReg rd rs1 rs2), start := startDiv } s

/-- ADDI (41_integer.md R305). -/
def execAddi (rd rs1 : RegIdx) (imm : BitVec 12) (s : State) : Out :=
  Meaning.run { dispatch := dispatchAs (poolOf .addi) (captureImm rd rs1 imm), start := startAddi } s

end Sys2Proof.Machine
end

