-- ==== Sys2Proof/Machine/LoadStore.lean ====
section
/-! DEFINITION. Loads and stores (43_loadstore.md): effective address, range check, hazard checks, LW and SW. -/

namespace Sys2Proof.Machine

/-- The effective address (R360): base plus the station's immediate, modulo 2^32; a word index. -/
def effectiveAddr (base imm : Word) : Word := base + imm

/-- LW's demand read (40_scheduler.md R266, R361): the address is recorded and made busy, the controller reads, a prefetch
is issued, and the read's latency is the countdown. -/
def loadAccess (p : PoolId) (k n : Nat) (ea : Word) (s : State) : Out :=
  let s1 := (s.updEntry n (fun t => { t with ea := some ea })).setBusy ea
  s1.withCtl (s1.mc.read s.cfg s.cycle ea.toNat) fun s2 r =>
    .next (({ s2 with mc := s2.mc.pfIssue s.cfg s.cycle ea.toNat } : State).beginExec p k n
      (fun t => { t with result := some r.1, count := r.2 }))

/-- LW at execute start (R361): the range check first (R363, 40_scheduler.md R267), then the busy bit, then the demand
port (R365). -/
def startLw (p : PoolId) (k : Nat) (s : State) : Out :=
  withCandidate p k s fun e a _ =>
    let ea := effectiveAddr a e.imm
    if s.inRange ea then
      if s.busyAt ea then .next s
      else if s.portBusy then .next s
      else loadAccess p k e.instr ea s
    else .next (s.raise (.addressOutOfRange e.instr ea s.cycle))

/-- SW at execute start (R362): the range check, then the busy bit; the address and data are recorded and the probe latency
is the countdown (C13). -/
def startSw (p : PoolId) (k : Nat) (s : State) : Out :=
  withCandidate p k s fun e a b =>
    let ea := effectiveAddr a e.imm
    if s.inRange ea then
      if s.busyAt ea then .next s
      else
        .next (s.beginExec p k e.instr
          (fun t => { t with ea := some ea, data := some b, count := s.mc.probe s.cfg ea.toNat }))
    else .next (s.raise (.addressOutOfRange e.instr ea s.cycle))

/-- The end of a load's execution releases its busy bit (40_scheduler.md R262, D21). -/
def releaseLoad (s : State) (t : Entry) : Out :=
  match t.ea with
  | none => .fault .noAddress
  | some ea => .next (s.clearBusy ea)

/-- LW (43_loadstore.md R361). -/
def execLw (rd rs1 : RegIdx) (imm : BitVec 12) (s : State) : Out :=
  Meaning.run
    { dispatch := dispatchAs (poolOf .lw) (captureLoad rd rs1 imm), start := startLw,
      countdown := countdownThen releaseLoad } s

/-- SW (43_loadstore.md R362). -/
def execSw (rs1 rs2 : RegIdx) (imm : BitVec 12) (s : State) : Out :=
  Meaning.run
    { dispatch := dispatchAs (poolOf .sw) (captureStore rs1 rs2 imm), start := startSw,
      broadcast := broadcastNoValue } s

end Sys2Proof.Machine
end

