-- ==== Sys2Proof/Machine/Stages.lean ====
section
/-! DEFINITION. The five stages of a tick (40_scheduler.md R220 to R296), each choosing entries and serving them by `exec`,
and the load of a program (70_reset_and_hazards.md R440). -/

namespace Sys2Proof.Machine

/-- Serving one event of an instruction: `exec` with the event named, and the event field at rest again after it (log 5). -/
def serve (ev : Event) (i : Instr) (s : State) : Out :=
  match exec i { s with event := ev } with
  | .next s' => .next { s' with event := .dispatch }
  | .fault r => .fault r
  | .refused r => .refused r

/-- Serving, in ascending table index, every listed entry that `pick` chooses at its turn. -/
def sweep (pick : State → Entry → Bool) (ev : Nat → Event) : List Nat → State → Out
  | [], s => .next s
  | n :: ns, s =>
    match s.table[n]? with
    | none => sweep pick ev ns s
    | some t =>
      if pick s t then thenRun (serve (ev n) t.ins s) (sweep pick ev ns) else sweep pick ev ns s

/-- A recorded cycle is earlier than the present one (R252, R262). -/
def before (c : Option Nat) (cycle : Nat) : Bool :=
  match c with
  | some c => decide (c < cycle)
  | none => false

/-! ## Commit (R230 to R236) -/

def commitStage (s : State) : Out :=
  match s.robAt s.robTail with
  | none => .next s
  | some e =>
    match s.table[e.instr]? with
    | none => .fault .noSuchEntry
    | some t => serve .commit t.ins s

/-! ## Broadcast (R240 to R248) -/

/-- The winner of the bus among the entries from index `n` on, `best` being the winner so far with its class rank: the least
class rank, then the least index (R240, R241). -/
def busWinnerFrom (best : Option (Nat × Nat)) (n : Nat) : List Entry → Option (Nat × Nat)
  | [] => best
  | t :: ts =>
    if t.state = .executeEnd then
      match best with
      | none => busWinnerFrom (some (classRank t.ins.op, n)) (n + 1) ts
      | some (r, m) =>
        if classRank t.ins.op < r then busWinnerFrom (some (classRank t.ins.op, n)) (n + 1) ts
        else busWinnerFrom (some (r, m)) (n + 1) ts
    else busWinnerFrom best (n + 1) ts

/-- The table index that gets the bus this tick (R241), none with no candidate (R240). -/
def State.busWinner (s : State) : Option Nat := (busWinnerFrom none 0 s.table).map Prod.snd

def broadcastStage (s : State) : Out :=
  match s.busWinner with
  | none => .next s
  | some n =>
    match s.table[n]? with
    | none => .fault .noSuchEntry
    | some t => serve (.broadcast n) t.ins s

/-! ## Memory tick (R250 to R255) -/

/-- A committed store whose countdown runs this tick (R252). -/
def writesThisTick (s : State) (t : Entry) : Bool := t.writePending && before t.tCommit s.cycle

/-- `pfTick()` (20_memory.md R116) on the machine (R254). -/
def prefetchTick (s : State) : Out :=
  s.withCtl (s.mc.pfTick s.cfg s.cycle) (fun s' _ => .next s')

def memTickStage (s : State) : Out :=
  thenRun (sweep writesThisTick Event.storeTick (List.range s.table.length) s) prefetchTick

/-! ## Execute (R259 to R268) -/

/-- An executing entry whose countdown runs this tick (R262). -/
def executesThisTick (s : State) (t : Entry) : Bool := t.state == .executeStart && before t.tExecStart s.cycle

/-- The finishing phase (R262). -/
def finishPhase (s : State) : Out :=
  sweep executesThisTick Event.countdown (List.range s.table.length) s

/-- A station that may start: both operands values, no settle mark (R264). -/
def RsEntry.ready (e : RsEntry) : Bool :=
  match e.j, e.k with
  | .val _, .val _ => !e.settle
  | .val _, .wait _ => false
  | .wait _, .val _ => false
  | .wait _, .wait _ => false

/-- Insertion of a candidate (instruction, slot) into a list in ascending instruction order; equal instructions, which no
state of the machine has, keep slot order. -/
def insertCand (c : Nat × Nat) : List (Nat × Nat) → List (Nat × Nat)
  | [] => [c]
  | d :: ds => if c.1 ≤ d.1 then c :: d :: ds else d :: insertCand c ds

/-- The candidates among the slots from index `k` on, oldest instruction first (R264). -/
def candidatesFrom (k : Nat) : Pool → List (Nat × Nat)
  | [] => []
  | some e :: es => if e.ready then insertCand (e.instr, k) (candidatesFrom (k + 1) es) else candidatesFrom (k + 1) es
  | none :: es => candidatesFrom (k + 1) es

/-- The slots of a pool that may start, oldest instruction first (R264). -/
def State.candidates (s : State) (p : PoolId) : List Nat := (candidatesFrom 0 (s.pool p)).map Prod.snd

/-- Trying candidates until one is accepted (R264); an accepted entry has left its slot (R259). -/
def tryStart (p : PoolId) : List Nat → State → Out
  | [], s => .next s
  | k :: ks, s =>
    match s.slot p k with
    | none => tryStart p ks s
    | some e =>
      match s.table[e.instr]? with
      | none => .fault .noSuchEntry
      | some t =>
        thenRun (serve (.start p k) t.ins s) fun s' =>
          if (s'.slot p k).isNone then .next s' else tryStart p ks s'

/-- A pool's turn in the start phase (R263, R264). -/
def startPool (p : PoolId) (s : State) : Out := tryStart p (s.candidates p) s

/-- The execute stage (R260, R263, R268). -/
def executeStage (s : State) : Out :=
  thenRun (finishPhase s) fun s =>
    thenRun (startPool .lsq s) fun s =>
      thenRun (startPool .add s) (startPool .mul)

/-! ## Dispatch (R285 to R295) and the tick (R220) -/

/-- The dispatch stage (R294): the first NotStarted entry is served, if there is one. -/
def dispatchStage (s : State) : Out :=
  match s.dptr with
  | none => .next s
  | some n =>
    match s.table[n]? with
    | none => .fault .noSuchEntry
    | some t => serve .dispatch t.ins s

/-- One tick (R220). -/
def tick (s : State) : Out :=
  thenRun (commitStage { s with cycle := s.cycle + 1 }) fun s =>
    thenRun (broadcastStage s) fun s =>
      thenRun (memTickStage s) fun s =>
        thenRun (executeStage s) fun s =>
          thenRun (dispatchStage s) fun s => .next s.clearSettle

/-- One pass of the run loop (R221): completion is tested before the iteration cap, and both before the tick. -/
def runPass (s : State) : Out :=
  if s.allTerminal then .next { s with status := .completed }
  else if s.cfg.maxCycles ≤ s.cycle then .next { s with status := .didNotComplete }
  else tick s

/-! ## Load (70_reset_and_hazards.md R440, 10_state.md R37, R80) -/

/-- The table of a program: one fresh entry per word that decodes, in program order (10_state.md R37). -/
def loadTable (nRegs : Nat) (program : List Word) : List Entry :=
  program.filterMap (fun w => (decode nRegs w).map Entry.fresh)

/-- The words of a program that do not decode, with their line numbers from `line` on (10_state.md R79). -/
def loadErrors (nRegs : Nat) (line : Nat) : List Word → List (Nat × Word)
  | [] => []
  | w :: ws =>
    match decode nRegs w with
    | some _ => loadErrors nRegs (line + 1) ws
    | none => (line, w) :: loadErrors nRegs (line + 1) ws

/-- `reset(cfg, PROGRAM, MEM_INIT, REG_INIT)` (R440), refused unless the configuration is legal and both images have the
length R440 requires. -/
def State.load (cfg : Config) (program memInit regInit : List Word) : Out :=
  if cfg.Legal ∧ memInit.length = cfg.memSize ∧ regInit.length = cfg.nRegs then
    .next (State.resetWith cfg (loadTable cfg.nRegs program) (loadErrors cfg.nRegs 0 program) (Mem.ofWords 0 memInit)
      regInit)
  else .refused .illegalLaunch

/-- One more program word loaded into a machine, standing for the load interface (log 4): entries that have not started are
dropped, the word is decoded behind the entries that have (10_state.md R37), and the status is that of a load (R440). -/
def State.loadWord (s : State) (w : Word) : State :=
  let started := s.table.takeWhile (fun t => t.state != .notStarted)
  match decode s.cfg.nRegs w with
  | some i =>
    { s with table := started ++ [Entry.fresh i], status := .running }
  | none =>
    { s with
      table := started
      decodeErrors := s.decodeErrors ++ [(s.table.length + s.decodeErrors.length, w)]
      status := resetStatus started }

end Sys2Proof.Machine
end

