-- ==== Sys2Proof/Machine/Step.lean ====
section
/-! DEFINITION. One step of the machine: one pass of the run loop, only while the status is Running. -/

namespace Sys2Proof.Machine

/-- A step is one pass of the run loop of 40_scheduler.md R221, whose tick is R220 (log 7). A block that is not Running has
no move (70_reset_and_hazards.md R453, U17). -/
def step (s : State) : Host.Outcome State Fault Refusal :=
  if s.status = .running then runPass s else .refused .notRunning

/-- The state with the instruction word `w` (its low `nbits` bits) loaded as the next one to dispatch, so that the next step
runs it. The machine has no program counter and fetches nothing (10_state.md R33); a program comes in by the load interface,
for which this stands (log 4). -/
def State.withFetchWord (s : State) (nbits w : Nat) : State :=
  s.loadWord (BitVec.ofNat 32 (w % 2 ^ nbits))

end Sys2Proof.Machine
end

