-- ==== Sys2Proof/Safety.lean ====
section
/-! DEFINITION. What counts as a good state and a good run: the launch premises of 70_reset_and_hazards.md R445, and the
invariants of 10_state.md R86, R87 and 20_memory.md R102, R140 in the terms the statements use. -/

namespace Sys2Proof.Machine

/-! ## Launch premises and outcomes (R445, R452) -/

/-- No word of the program was skipped (`NoRefusal`, R445). -/
abbrev State.NoRefusal (s : State) : Prop := s.decodeErrors = []

/-- The run has not faulted (`NoFault`, R445). -/
abbrev State.NoFault (s : State) : Prop :=
  match s.status with
  | .faulted _ => False
  | .running => True
  | .completed => True
  | .didNotComplete => True

/-- `s` is the result of the reset procedure of R440 under configuration `cfg` (`CleanEntry`, R445). -/
def State.CleanEntry (cfg : Config) (s : State) : Prop :=
  ∃ program memInit regInit : List Word, State.load cfg program memInit regInit = .next s

/-- A run has a final state a claim may use only when it completed (R452). -/
abbrev State.Final (s : State) : Prop := s.status = .completed

/-! ## What a step serves -/

/-- The event and the instruction a stage of the tick serves in state `s` (40_scheduler.md R236, R241, R252, R262, R264,
R285): the instruction is always the one in the table entry the event is about. -/
def State.Serves (s : State) (ev : Event) (i : Instr) : Prop :=
  match ev with
  | .dispatch => ∃ n t, s.dptr = some n ∧ s.table[n]? = some t ∧ t.ins = i
  | .start p k => ∃ e t, s.slot p k = some e ∧ s.table[e.instr]? = some t ∧ t.ins = i
  | .countdown n => ∃ t, s.table[n]? = some t ∧ executesThisTick s t = true ∧ t.ins = i
  | .broadcast n => ∃ t, s.busWinner = some n ∧ s.table[n]? = some t ∧ t.ins = i
  | .commit => ∃ e t, s.robAt s.robTail = some e ∧ s.table[e.instr]? = some t ∧ t.ins = i
  | .storeTick n => ∃ t, s.table[n]? = some t ∧ writesThisTick s t = true ∧ t.ins = i

/-! ## Shape: what 10_state.md's types say -/

/-- A cache level has its rows and ways, in lines and in ranks (10_state.md R67, R69). -/
structure CacheLevel.Shaped (rows ways : Nat) (c : CacheLevel) : Prop where
  lines   : c.lines.length = rows
  lineRow : ∀ row ∈ c.lines, row.length = ways
  ranks   : c.ranks.length = rows
  rankRow : ∀ row ∈ c.ranks, row.length = ways

/-- Among the valid lines of a row, tags are pairwise distinct (20_memory.md R102, 10_state.md R86). -/
def CacheLevel.UniqueTags (c : CacheLevel) : Prop :=
  ∀ row ∈ c.lines, ∀ (v w : Nat) (d e : CacheEntry), row[v]? = some d → row[w]? = some e →
    d.valid = true → e.valid = true → d.tag = e.tag → v = w

/-- Every valid line's address, by R100, is in range (20_memory.md R128). -/
def CacheLevel.InRange (rows memSize : Nat) (c : CacheLevel) : Prop :=
  ∀ (r w : Nat) (row : List CacheEntry) (e : CacheEntry), c.lines[r]? = some row → row[w]? = some e →
    e.valid = true → e.tag * rows + r < memSize

/-- The controller's arrays, canonical forms and address ranges (10_state.md R65 to R71). -/
structure MemCtl.Shaped (cfg : Config) (m : MemCtl) : Prop where
  l1        : m.l1.Shaped cfg.l1Rows cfg.l1Ways
  l2        : m.l2.Shaped cfg.l2Rows cfg.l2Ways
  unique1   : m.l1.UniqueTags
  unique2   : m.l2.UniqueTags
  range1    : m.l1.InRange cfg.l1Rows cfg.memSize
  range2    : m.l2.InRange cfg.l2Rows cfg.memSize
  memWf     : Mem.wf m.mem
  memRange  : ∀ c ∈ m.mem, c.1 < cfg.memSize
  busyWf    : AddrSet.wf m.busy
  busyRange : ∀ a ∈ m.busy, a < cfg.memSize
  markWf    : AddrSet.wf m.pfMark
  markRange : ∀ a ∈ m.pfMark, a < cfg.memSize
  pfqCap    : m.pfq.length ≤ cfg.pfQueueCap
  pfqRange  : ∀ q ∈ m.pfq, q.addr < cfg.memSize
  pfqCount  : ∀ q ∈ m.pfq, 1 ≤ q.count

/-- The state is one of the record of 10_state.md R30: a legal configuration, arrays of its sizes, cursors in range,
instructions with existing registers, addresses in range, x0 as R34 says, and the model's `event` at rest. -/
structure State.Shaped (s : State) : Prop where
  legal   : s.cfg.Legal
  x       : s.x.length = s.cfg.nRegs
  link    : s.link.length = s.cfg.nRegs
  rob     : s.rob.length = s.cfg.nRob
  robHead : s.robHead < s.cfg.nRob
  robTail : s.robTail < s.cfg.nRob
  addPool : s.addPool.length = s.cfg.capAdd
  mulPool : s.mulPool.length = s.cfg.capMul
  lsq     : s.lsq.length = s.cfg.capLsq
  ins     : ∀ t ∈ s.table, t.ins.wf s.cfg.nRegs = true
  ea      : ∀ t ∈ s.table, ∀ ea, t.ea = some ea → ea.toNat < s.cfg.memSize
  x0      : s.cfg.x0Zero = true → s.x[0]? = some 0#32
  x0Dest  : s.cfg.x0Zero = true → ∀ e, some e ∈ s.rob → e.dest ≠ .reg 0#5
  mc      : s.mc.Shaped s.cfg
  event   : s.event = .dispatch

/-! ## Renaming links (10_state.md R86 (a)) -/

/-- A link names an uncommitted reorder-buffer entry whose destination is that register (R86 (a)). -/
def State.LinksNameProducers (s : State) : Prop :=
  ∀ (r : Nat) (t : Tag), s.link[r]? = some (some t) →
    ∃ e, s.robAt t = some e ∧ ∃ i : RegIdx, i.toNat = r ∧ e.dest = .reg i

/-! ## Coherence (20_memory.md R140) -/

/-- The invariants R140 names: a clean level-2 line equals memory, a clean level-1 line equals the level-2 copy or else
memory, and a queued prefetch value equals memory. -/
structure MemCtl.Coherent (cfg : Config) (m : MemCtl) : Prop where
  clean2 : ∀ (a w : Nat) (e : CacheEntry), m.l2.find cfg.l2Rows a = some (w, e) → e.dirty = false →
    e.value = Mem.read m.mem a
  clean1 : ∀ (a w : Nat) (e : CacheEntry), m.l1.find cfg.l1Rows a = some (w, e) → e.dirty = false →
    e.value =
      match m.l2.find cfg.l2Rows a with
      | some (_, f) => f.value
      | none => Mem.read m.mem a
  queued : ∀ q ∈ m.pfq, q.value = Mem.read m.mem q.addr

/-! ## Lifecycle (10_state.md R39, R40, R86, R87) -/

/-- Dispatched and not committed: RSWait to Broadcast (R87 (h)). -/
def LifeState.inFlight : LifeState → Bool
  | .notStarted   => false
  | .rsWait       => true
  | .executeStart => true
  | .executeEnd   => true
  | .broadcast    => true
  | .commit       => false
  | .memoryWrite  => false

/-- Started and not committed: ExecuteStart to Broadcast. -/
def LifeState.started : LifeState → Bool
  | .notStarted   => false
  | .rsWait       => false
  | .executeStart => true
  | .executeEnd   => true
  | .broadcast    => true
  | .commit       => false
  | .memoryWrite  => false

/-- The reorder-buffer destination of an instruction (10_state.md R47, R34). -/
def destOf (cfg : Config) : Instr → Dest
  | .add rd _ _  => if cfg.x0Zero ∧ rd = 0#5 then .none else .reg rd
  | .sub rd _ _  => if cfg.x0Zero ∧ rd = 0#5 then .none else .reg rd
  | .mul rd _ _  => if cfg.x0Zero ∧ rd = 0#5 then .none else .reg rd
  | .div rd _ _  => if cfg.x0Zero ∧ rd = 0#5 then .none else .reg rd
  | .addi rd _ _ => if cfg.x0Zero ∧ rd = 0#5 then .none else .reg rd
  | .lw rd _ _   => if cfg.x0Zero ∧ rd = 0#5 then .none else .reg rd
  | .sw _ _ _    => .mem
  | .beq _ _ _   => .none
  | .bne _ _ _   => .none

/-- The fields an entry of the table has in each lifecycle state (10_state.md R38, R39, R40). -/
structure Entry.Consistent (t : Entry) : Prop where
  fresh   : t.state = .notStarted → t = Entry.fresh t.ins
  result  : t.state.started = true → t.ins.op ≠ .sw → t.result.isSome = true
  address : t.state.started = true → (t.ins.op = .lw ∨ t.ins.op = .sw) → t.ea.isSome = true
  data    : t.state.started = true → t.ins.op = .sw → t.data.isSome = true
  running : t.state = .executeStart → 1 ≤ t.count ∧ t.tExecStart.isSome = true
  pending : t.writePending = true ↔ (t.ins.op = .sw ∧ t.state = .commit)
  write   : t.writePending = true → t.ea.isSome = true ∧ t.data.isSome = true ∧ 1 ≤ t.count ∧ t.tCommit.isSome = true

/-- The table, the reorder buffer and the pools agree on what is in flight (10_state.md R39, R46, R47, R56, R86, R87 (e)
and (h)). -/
structure State.Consistent (s : State) : Prop where
  /-- Every entry has the fields its lifecycle state needs. -/
  entry : ∀ t ∈ s.table, t.Consistent
  /-- Dispatch is in program order: nothing after an entry not started has started (40_scheduler.md R285). -/
  inOrder : ∀ (m n : Nat) (t u : Entry), m ≤ n → s.table[m]? = some t → s.table[n]? = some u →
    t.state = .notStarted → u.state = .notStarted
  /-- A reorder-buffer entry belongs to an in-flight instruction, which names its slot, has its destination, and has
  broadcast exactly when the value is there. -/
  robEntry : ∀ (i : Tag) (e : RobEntry), s.robAt i = some e →
    ∃ t, s.table[e.instr]? = some t ∧ t.tag = some i ∧ t.state.inFlight = true ∧ e.dest = destOf s.cfg t.ins ∧
      (e.value = .unready ↔ t.state ≠ .broadcast) ∧ (e.value = .noValue → t.ins.op = .sw) ∧
      ((∃ w, e.value = .ready w) → t.ins.op ≠ .sw)
  /-- An in-flight instruction has a reorder-buffer entry. -/
  inFlight : ∀ (n : Nat) (t : Entry), s.table[n]? = some t → t.state.inFlight = true →
    ∃ i e, t.tag = some i ∧ s.robAt i = some e ∧ e.instr = n
  /-- A station belongs to a waiting instruction of its pool. -/
  station : ∀ (p : PoolId) (k : Nat) (e : RsEntry), s.slot p k = some e →
    ∃ t, s.table[e.instr]? = some t ∧ t.state = .rsWait ∧ poolOf t.ins.op = p ∧ t.tag = some e.dtag
  /-- A waiting instruction has exactly one station. -/
  waiting : ∀ (n : Nat) (t : Entry), s.table[n]? = some t → t.state = .rsWait →
    ∃ k e, s.slot (poolOf t.ins.op) k = some e ∧ e.instr = n
  oneStation : ∀ (p : PoolId) (k l : Nat) (e f : RsEntry), s.slot p k = some e → s.slot p l = some f →
    e.instr = f.instr → k = l
  /-- A waiting operand names an entry that has not broadcast (R87 (e)). -/
  operands : ∀ (p : PoolId) (k : Nat) (e : RsEntry) (i : Tag), s.slot p k = some e → (e.j = .wait i ∨ e.k = .wait i) →
    ∃ r, s.robAt i = some r ∧ r.value = .unready ∧ ∃ d : RegIdx, r.dest = .reg d

/-! ## Busy bits (10_state.md R86 (c), R87 (f)) -/

/-- An entry holds the busy bit of address `a`: a load executing on it, or a committed store not yet written (20_memory.md
R120). -/
def Entry.holdsBusy (t : Entry) (a : Nat) : Prop :=
  ((t.state = .executeStart ∧ t.ins.op = .lw) ∨ t.writePending = true) ∧ ∃ ea : Word, t.ea = some ea ∧ ea.toNat = a

/-- A busy bit is set exactly while one in-flight operation holds it (R86 (c), R87 (f)). -/
structure State.BusyHeld (s : State) : Prop where
  held   : ∀ a, s.mc.busy.has a = true → ∃ (n : Nat) (t : Entry), s.table[n]? = some t ∧ t.holdsBusy a
  set    : ∀ (n : Nat) (t : Entry) (a : Nat), s.table[n]? = some t → t.holdsBusy a → s.mc.busy.has a = true
  single : ∀ (m n : Nat) (t u : Entry) (a : Nat), s.table[m]? = some t → s.table[n]? = some u →
    t.holdsBusy a → u.holdsBusy a → m = n

/-! ## Program order (10_state.md R45, R49, R86 (b), R87 (g)) -/

/-- The instruction has committed. -/
def LifeState.committed : LifeState → Bool
  | .notStarted   => false
  | .rsWait       => false
  | .executeStart => false
  | .executeEnd   => false
  | .broadcast    => false
  | .commit       => true
  | .memoryWrite  => true

/-- The reorder buffer holds the `count` instructions from `base` on, in program order from its tail to its head; those
before have committed and those after have not started (R45, R49, R86 (b)). -/
def State.RobHolds (s : State) (base count : Nat) : Prop :=
  count ≤ s.cfg.nRob ∧ s.robHead = (s.robTail + count) % s.cfg.nRob ∧
  (∀ i < count, ∃ e, s.robAt ((s.robTail + i) % s.cfg.nRob) = some e ∧ e.instr = base + i) ∧
  (∀ i, count ≤ i → i < s.cfg.nRob → s.robAt ((s.robTail + i) % s.cfg.nRob) = none) ∧
  ∀ (n : Nat) (t : Entry), s.table[n]? = some t →
    (t.state.committed = true ↔ n < base) ∧ (t.state = .notStarted ↔ base + count ≤ n)

/-- The reorder buffer is in program order. -/
def State.RobOrdered (s : State) : Prop := ∃ base count, s.RobHolds base count

/-- A link names the youngest instruction in flight that writes its register (R87 (g)). -/
def State.LinksNameYoungest (s : State) : Prop :=
  ∀ (r : RegIdx) (t u : Tag) (e f : RobEntry), s.link[r.toNat]? = some (some t) → s.robAt t = some e →
    s.robAt u = some f → f.dest = .reg r → f.instr ≤ e.instr

/-! ## One transition (10_state.md R39, R41) -/

/-- The lifecycle state after a given one (R39); only SW goes on after Commit. -/
def LifeState.succ (op : Op) : LifeState → Option LifeState
  | .notStarted   => some .rsWait
  | .rsWait       => some .executeStart
  | .executeStart => some .executeEnd
  | .executeEnd   => some .broadcast
  | .broadcast    => some .commit
  | .commit       => if op = .sw then some .memoryWrite else none
  | .memoryWrite  => none

/-- The timestamp of the entry into a lifecycle state (R38). -/
def Entry.stamp (t : Entry) : LifeState → Option Nat
  | .notStarted   => none
  | .rsWait       => t.tIssue
  | .executeStart => t.tExecStart
  | .executeEnd   => t.tExecEnd
  | .broadcast    => t.tBroadcast
  | .commit       => t.tCommit
  | .memoryWrite  => t.tMemWrite

/-- The entry is a committed store whose memory write is due in cycle `cycle`: its countdown ends there (40_scheduler.md
R252, R253). -/
def Entry.writeDue (t : Entry) (cycle : Nat) : Prop :=
  t.writePending = true ∧ before t.tCommit cycle = true ∧ t.count = 1

/-! ## The start phase of a tick (40_scheduler.md R263 to R267) -/

/-- `u` is the state in which the start phase of the tick of `s` begins: commit, broadcast, the memory tick and the finishing
phase have run, and the run goes on (40_scheduler.md R220, R260). -/
def State.ReachesStarts (s u : State) : Prop :=
  ∃ s1 s2 s3 : State,
    commitStage { s with cycle := s.cycle + 1 } = .next s1 ∧ s1.status = .running ∧
    broadcastStage s1 = .next s2 ∧ s2.status = .running ∧
    memTickStage s2 = .next s3 ∧ s3.status = .running ∧
    finishPhase s3 = .next u ∧ u.status = .running

/-- Some load is executing (20_memory.md R129). -/
def State.LoadExecuting (u : State) : Prop := ∃ t ∈ u.table, t.state = .executeStart ∧ t.ins.op = .lw

/-- The candidate in slot `k` of the load-store queue is refused in `u`: its address is in range and busy, or it is a load
and some load is executing (40_scheduler.md R266). -/
def State.LsqRefuses (u : State) (k : Nat) : Prop :=
  ∃ (e : RsEntry) (a b : Word) (t : Entry),
    u.slot .lsq k = some e ∧ e.j = .val a ∧ e.k = .val b ∧ u.table[e.instr]? = some t ∧
      (a + e.imm).toNat < u.cfg.memSize ∧
      (u.mc.busy.has (a + e.imm).toNat = true ∨ (t.ins.op = .lw ∧ u.LoadExecuting))

/-! ## The prefetch pass as 20_memory.md R116 writes it -/

/-- `pfTick()` line by line: one pass over the queue, ageing and installing as it goes. `past` are the requests the pass has
left in the queue, `todo` those it has not reached; an install may remove some of either (R118). The definition the machine
uses is `MemCtl.pfTick` (log 13). -/
def MemCtl.pfPass (cfg : Config) (cycle : Nat) : Nat → List PfReq → List PfReq → MemCtl → Ctl Unit
  | 0, past, todo, m => .ok { m with pfq := past ++ todo } ()
  | _ + 1, past, [], m => .ok { m with pfq := past } ()
  | fuel + 1, past, q :: todo, m =>
    if q.made < cycle then
      if q.count - 1 = 0 then
        (MemCtl.pfInstall cfg cycle { m with pfq := past ++ todo } q).bind fun m' _ =>
          MemCtl.pfPass cfg cycle fuel (past.filter m'.pfq.contains) (todo.filter m'.pfq.contains) m'
      else MemCtl.pfPass cfg cycle fuel (past ++ [{ q with count := q.count - 1 }]) todo m
    else MemCtl.pfPass cfg cycle fuel (past ++ [q]) todo m

end Sys2Proof.Machine
end

