-- ==== Sys2Proof/Certificates/Slice0/Obligations.lean ====
section
/-! DEFINITION. The statements for the provers. Each names the rules of spec/ it states; `exec i s` is read at the event
that the state names (log 5, log 6). -/

open Sys2Proof Sys2Proof.Machine

/-! ## Encoding (30_encoding.md) -/

/-- The worked encoding that the spec derives from R182 and R189 (30_encoding.md R190). -/
def Obligations.WorkedEncodingOfAdd : Prop :=
  encode (.add 1#5 2#5 3#5) = 0b0000000#7 ++ 0b00011#5 ++ 0b00010#5 ++ 0b000#3 ++ 0b00001#5 ++ 0b0110011#7 ∧
  encode (.add 1#5 2#5 3#5) = 0x003100B3#32 ∧
  decode 32 0x003100B3#32 = some (.add 1#5 2#5 3#5)

/-- The example words of 41_integer.md, 42_branch.md and 43_loadstore.md decode to the instructions they stand for. -/
def Obligations.ExampleWordsDecode : Prop :=
  decode 32 0x40120333#32 = some (.sub 6#5 4#5 1#5) ∧
  decode 32 0x022081B3#32 = some (.mul 3#5 1#5 2#5) ∧
  decode 32 0x029443B3#32 = some (.div 7#5 8#5 9#5) ∧
  decode 32 0x00108093#32 = some (.addi 1#5 1#5 1#12) ∧
  decode 32 0x0002A083#32 = some (.lw 1#5 5#5 0#12) ∧
  decode 32 0x0020A023#32 = some (.sw 1#5 2#5 0#12) ∧
  decode 32 0x00208463#32 = some (.beq 1#5 2#5 8#13) ∧
  decode 32 0xFE209EE3#32 = some (.bne 1#5 2#5 (BitVec.ofInt 13 (-4)))

/-- Decode and encode agree: decoding the word of a well-formed instruction gives the instruction, for every instruction,
operand and register count. -/
def Obligations.DecodeOfEncode : Prop :=
  ∀ (nRegs : Nat) (i : Instr), i.wf nRegs = true → decode nRegs (encode i) = some i

/-- The other direction: a word that decodes is the word of its instruction, which is well formed (R186, R187, R196). -/
def Obligations.EncodeOfDecode : Prop :=
  ∀ (nRegs : Nat) (w : Word) (i : Instr), decode nRegs w = some i → encode i = w ∧ i.wf nRegs = true

/-- R189: the rows, as fields and as match and mask; their pools; and that no word matches two of them. -/
def Obligations.DecodeTableRows : Prop :=
  decodeTable =
    [⟨.add, 0x00000033#32, 0xFE00707F#32⟩, ⟨.sub, 0x40000033#32, 0xFE00707F#32⟩, ⟨.mul, 0x02000033#32, 0xFE00707F#32⟩,
     ⟨.div, 0x02004033#32, 0xFE00707F#32⟩, ⟨.addi, 0x00000013#32, 0x0000707F#32⟩, ⟨.lw, 0x00002003#32, 0x0000707F#32⟩,
     ⟨.sw, 0x00002023#32, 0x0000707F#32⟩, ⟨.beq, 0x00000063#32, 0x0000707F#32⟩, ⟨.bne, 0x00001063#32, 0x0000707F#32⟩] ∧
  (poolOf .add = .add ∧ poolOf .sub = .add ∧ poolOf .mul = .mul ∧ poolOf .div = .mul ∧ poolOf .addi = .add ∧
    poolOf .lw = .lsq ∧ poolOf .sw = .lsq ∧ poolOf .beq = .add ∧ poolOf .bne = .add) ∧
  ∀ w : Word,
    let opcode := w.extractLsb' 0 7
    let funct3 := w.extractLsb' 12 3
    let funct7 := w.extractLsb' 25 7
    (w &&& 0xFE00707F#32 = 0x00000033#32 ↔ opcode = 0b0110011#7 ∧ funct3 = 0b000#3 ∧ funct7 = 0b0000000#7) ∧
    (w &&& 0xFE00707F#32 = 0x40000033#32 ↔ opcode = 0b0110011#7 ∧ funct3 = 0b000#3 ∧ funct7 = 0b0100000#7) ∧
    (w &&& 0xFE00707F#32 = 0x02000033#32 ↔ opcode = 0b0110011#7 ∧ funct3 = 0b000#3 ∧ funct7 = 0b0000001#7) ∧
    (w &&& 0xFE00707F#32 = 0x02004033#32 ↔ opcode = 0b0110011#7 ∧ funct3 = 0b100#3 ∧ funct7 = 0b0000001#7) ∧
    (w &&& 0x0000707F#32 = 0x00000013#32 ↔ opcode = 0b0010011#7 ∧ funct3 = 0b000#3) ∧
    (w &&& 0x0000707F#32 = 0x00002003#32 ↔ opcode = 0b0000011#7 ∧ funct3 = 0b010#3) ∧
    (w &&& 0x0000707F#32 = 0x00002023#32 ↔ opcode = 0b0100011#7 ∧ funct3 = 0b010#3) ∧
    (w &&& 0x0000707F#32 = 0x00000063#32 ↔ opcode = 0b1100011#7 ∧ funct3 = 0b000#3) ∧
    (w &&& 0x0000707F#32 = 0x00001063#32 ↔ opcode = 0b1100011#7 ∧ funct3 = 0b001#3) ∧
    ∀ row ∈ decodeTable, ∀ row' ∈ decodeTable,
      w &&& row.mask = row.mtch → w &&& row'.mask = row'.mtch → row = row'

/-- R187, R197: which words are illegal. -/
def Obligations.IllegalWords : Prop :=
  ∀ (nRegs : Nat) (w : Word),
    decode nRegs w = none ↔
      (∀ row ∈ decodeTable, w &&& row.mask ≠ row.mtch) ∨
      ∃ row ∈ decodeTable, w &&& row.mask = row.mtch ∧ ∃ r ∈ (assemble row.op w).regs, nRegs ≤ r.toNat

/-- R183 to R186: the bits of the three immediates of a word, before sign extension. -/
def Obligations.ImmediateBits : Prop :=
  ∀ w : Word,
    (∀ i < 12, (immI w).getLsbD i = w.getLsbD (20 + i)) ∧
    (∀ i < 5, (immS w).getLsbD i = w.getLsbD (7 + i)) ∧
    (∀ i < 7, (immS w).getLsbD (5 + i) = w.getLsbD (25 + i)) ∧
    (immB w).getLsbD 0 = false ∧
    (∀ i < 4, (immB w).getLsbD (1 + i) = w.getLsbD (8 + i)) ∧
    (∀ i < 6, (immB w).getLsbD (5 + i) = w.getLsbD (25 + i)) ∧
    (immB w).getLsbD 11 = w.getLsbD 7 ∧
    (immB w).getLsbD 12 = w.getLsbD 31

/-! ## Load and reset (70_reset_and_hazards.md) -/

/-- R440 and R90: what a load with a legal configuration and complete inputs leaves. -/
def Obligations.LoadBuildsResetState : Prop :=
  ∀ (cfg : Config) (program memInit regInit : List Word),
    cfg.Legal → memInit.length = cfg.memSize → regInit.length = cfg.nRegs →
    ∃ s : State, State.load cfg program memInit regInit = .next s ∧
      s.cfg = cfg ∧
      s.table = (program.filterMap (decode cfg.nRegs)).map Entry.fresh ∧
      (∀ (i : Nat) (w : Word), (i, w) ∈ s.decodeErrors ↔ program[i]? = some w ∧ decode cfg.nRegs w = none) ∧
      s.decodeErrors.Pairwise (fun c d => c.1 < d.1) ∧
      s.x.length = cfg.nRegs ∧
      (∀ (i : Nat) (v : Word), regInit[i]? = some v →
        s.x[i]? = some (if i = 0 ∧ cfg.x0Zero = true then 0#32 else v)) ∧
      s.link = List.replicate cfg.nRegs none ∧
      s.rob = List.replicate cfg.nRob none ∧ s.robHead = 0 ∧ s.robTail = 0 ∧
      s.addPool = List.replicate cfg.capAdd none ∧ s.mulPool = List.replicate cfg.capMul none ∧
      s.lsq = List.replicate cfg.capLsq none ∧
      (∀ (a : Nat) (v : Word), memInit[a]? = some v → Mem.read s.mc.mem a = v) ∧
      (∀ a, s.mc.busy.has a = false) ∧
      s.mc.l1.lines = List.replicate cfg.l1Rows (List.replicate cfg.l1Ways ⟨false, false, 0, 0#32⟩) ∧
      s.mc.l2.lines = List.replicate cfg.l2Rows (List.replicate cfg.l2Ways ⟨false, false, 0, 0#32⟩) ∧
      s.mc.l1.ranks = List.replicate cfg.l1Rows (List.range cfg.l1Ways) ∧
      s.mc.l2.ranks = List.replicate cfg.l2Rows (List.range cfg.l2Ways) ∧
      s.mc.pfq = [] ∧ (∀ a, s.mc.pfMark.has a = false) ∧ s.mc.cnt = ⟨0, 0, 0, 0, 0, 0, 0, 0⟩ ∧ s.mc.out = [] ∧
      s.cycle = 0 ∧
      s.status = (if s.table = [] then .completed else .running)

/-- The state after reset satisfies every invariant stated below. `State.reset` is the model's choice of launch inputs (log
1 to log 4) and of its own event field (log 5) under the reset of R440. -/
def Obligations.ResetMeetsInvariants : Prop :=
  State.reset.Shaped ∧ State.reset.LinksNameProducers ∧ State.reset.mc.Coherent State.reset.cfg ∧
  State.reset.Consistent ∧ State.reset.BusyHeld ∧ State.reset.RobOrdered ∧ State.reset.LinksNameYoungest

/-- So does the state that any load leaves (`CleanEntry`, R445). -/
def Obligations.LoadMeetsInvariants : Prop :=
  ∀ (cfg : Config) (s : State), State.CleanEntry cfg s →
    s.Shaped ∧ s.LinksNameProducers ∧ s.mc.Coherent s.cfg ∧ s.Consistent ∧ s.BusyHeld ∧ s.RobOrdered ∧
      s.LinksNameYoungest

/-- The first instruction of a loaded program dispatches in the first tick, cycle 1, and no other does: the sentence of R441,
which the spec derives from R440 and R285. -/
def Obligations.FirstInstructionDispatchesFirst : Prop :=
  ∀ (cfg : Config) (s : State) (e : Entry) (es : List Entry), State.CleanEntry cfg s → s.table = e :: es →
    1 ≤ cfg.maxCycles →
    ∃ t, step s = .next t ∧ t.cycle = 1 ∧
      t.table = { e with tag := some 0, state := .rsWait, tIssue := some 1 } :: es

/-! ## Dispatch (40_scheduler.md R285 to R295) -/

/-- R288: what a source register gives at dispatch. -/
def Obligations.OperandCapture : Prop :=
  ∀ (s : State) (r : RegIdx) (v : Word) (l : Option Tag),
    s.x[r.toNat]? = some v → s.link[r.toNat]? = some l →
    (s.cfg.x0Zero = true ∧ r = 0#5 → s.cap r = some (.val 0#32)) ∧
    (¬(s.cfg.x0Zero = true ∧ r = 0#5) →
      (l = none → s.cap r = some (.val v)) ∧
      ∀ t, l = some t →
        (∀ e w, s.robAt t = some e → e.value = .ready w → s.cap r = some (.val w)) ∧
        ((∀ e w, s.robAt t = some e → e.value ≠ .ready w) → s.cap r = some (.wait t)))

/-- R289 to R293 for the ADD pool: ADD, SUB, ADDI, BEQ and BNE complete their dispatch when they are first in program
order, with the lowest free slot and a free reorder-buffer head; everything not named is unchanged. -/
def Obligations.DispatchToAddPool : Prop :=
  ∀ (s : State) (n k : Nat) (t : Entry) (rd rs1 rs2 : RegIdx) (imm : BitVec 12) (off : BitVec 13) (a b : Operand),
    s.event = .dispatch →
    s.table[n]? = some t → t.state = .notStarted →
    (∀ (m : Nat) (u : Entry), m < n → s.table[m]? = some u → u.state ≠ .notStarted) →
    s.addPool[k]? = some none → (∀ l < k, s.addPool[l]? ≠ some none) →
    s.robAt s.robHead = none →
    rd.toNat < s.x.length → s.cap rs1 = some a → s.cap rs2 = some b →
    let dest : Dest := if s.cfg.x0Zero = true ∧ rd = 0#5 then .none else .reg rd
    let issued (j k' : Operand) (im : Word) (d : Dest) : State :=
      { s with
        rob     := s.rob.set s.robHead (some ⟨n, d, .unready⟩)
        robHead := (s.robHead + 1) % s.cfg.nRob
        link    := if d = .reg rd then s.link.set rd.toNat (some s.robHead) else s.link
        addPool := s.addPool.set k (some ⟨n, s.robHead, j, k', im, false⟩)
        table   := s.table.set n { t with tag := some s.robHead, state := .rsWait, tIssue := some s.cycle } }
    exec (.add rd rs1 rs2) s = .next (issued a b 0#32 dest) ∧
    exec (.sub rd rs1 rs2) s = .next (issued a b 0#32 dest) ∧
    exec (.addi rd rs1 imm) s = .next (issued a (.val (imm.signExtend 32)) (imm.signExtend 32) dest) ∧
    exec (.beq rs1 rs2 off) s = .next (issued a b (off.signExtend 32) .none) ∧
    exec (.bne rs1 rs2 off) s = .next (issued a b (off.signExtend 32) .none)

/-- R289 to R293 for the MUL pool: MUL and DIV. -/
def Obligations.DispatchToMulPool : Prop :=
  ∀ (s : State) (n k : Nat) (t : Entry) (rd rs1 rs2 : RegIdx) (a b : Operand),
    s.event = .dispatch →
    s.table[n]? = some t → t.state = .notStarted →
    (∀ (m : Nat) (u : Entry), m < n → s.table[m]? = some u → u.state ≠ .notStarted) →
    s.mulPool[k]? = some none → (∀ l < k, s.mulPool[l]? ≠ some none) →
    s.robAt s.robHead = none →
    rd.toNat < s.x.length → s.cap rs1 = some a → s.cap rs2 = some b →
    let dest : Dest := if s.cfg.x0Zero = true ∧ rd = 0#5 then .none else .reg rd
    let issued : State :=
      { s with
        rob     := s.rob.set s.robHead (some ⟨n, dest, .unready⟩)
        robHead := (s.robHead + 1) % s.cfg.nRob
        link    := if dest = .reg rd then s.link.set rd.toNat (some s.robHead) else s.link
        mulPool := s.mulPool.set k (some ⟨n, s.robHead, a, b, 0#32, false⟩)
        table   := s.table.set n { t with tag := some s.robHead, state := .rsWait, tIssue := some s.cycle } }
    exec (.mul rd rs1 rs2) s = .next issued ∧ exec (.div rd rs1 rs2) s = .next issued

/-- R289 to R293 for the load-store queue: LW and SW. -/
def Obligations.DispatchToLoadStoreQueue : Prop :=
  ∀ (s : State) (n k : Nat) (t : Entry) (rd rs1 rs2 : RegIdx) (imm : BitVec 12) (a b : Operand),
    s.event = .dispatch →
    s.table[n]? = some t → t.state = .notStarted →
    (∀ (m : Nat) (u : Entry), m < n → s.table[m]? = some u → u.state ≠ .notStarted) →
    s.lsq[k]? = some none → (∀ l < k, s.lsq[l]? ≠ some none) →
    s.robAt s.robHead = none →
    rd.toNat < s.x.length → s.cap rs1 = some a → s.cap rs2 = some b →
    let dest : Dest := if s.cfg.x0Zero = true ∧ rd = 0#5 then .none else .reg rd
    let issued (k' : Operand) (d : Dest) : State :=
      { s with
        rob     := s.rob.set s.robHead (some ⟨n, d, .unready⟩)
        robHead := (s.robHead + 1) % s.cfg.nRob
        link    := if d = .reg rd then s.link.set rd.toNat (some s.robHead) else s.link
        lsq     := s.lsq.set k (some ⟨n, s.robHead, a, k', imm.signExtend 32, false⟩)
        table   := s.table.set n { t with tag := some s.robHead, state := .rsWait, tIssue := some s.cycle } }
    exec (.lw rd rs1 imm) s = .next (issued (.val 0#32) dest) ∧
    exec (.sw rs1 rs2 imm) s = .next (issued b .mem)

/-- R287, and R285's "if none exists": a full pool, a full reorder buffer or an exhausted program stalls the dispatch of
every instruction, and a stall changes nothing. -/
def Obligations.DispatchStalls : Prop :=
  ∀ (i : Instr) (s : State), s.event = .dispatch →
    ((∀ e ∈ s.pool (poolOf i.op), e ≠ none) ∨ s.robAt s.robHead ≠ none ∨ (∀ t ∈ s.table, t.state ≠ .notStarted)) →
    exec i s = .next s

/-- R34: under X0_ZERO a source read of x0 captures 0, an instruction whose destination is x0 renames nothing and gets no
destination, and `x[0]` stays 0. Without it x0 is ordinary: it is captured as any register is, linked or free (R288), a
dispatch whose destination is x0 renames it with destination `Reg(0)` (R290, R291), and a commit writes it (R232). -/
def Obligations.X0HardwiredToZero : Prop :=
  (∀ (s : State) (v : Word), s.cfg.x0Zero = true → s.x[0]? = some v → s.link[0]? ≠ none →
    s.cap 0#5 = some (.val 0#32)) ∧
  (∀ (s : State) (v : Word) (l : Option Tag), s.cfg.x0Zero = false → s.x[0]? = some v → s.link[0]? = some l →
    (l = none → s.cap 0#5 = some (.val v)) ∧
    ∀ t, l = some t →
      (∀ e w, s.robAt t = some e → e.value = .ready w → s.cap 0#5 = some (.val w)) ∧
      ((∀ e w, s.robAt t = some e → e.value ≠ .ready w) → s.cap 0#5 = some (.wait t))) ∧
  (∀ (s t : State) (rs1 rs2 : RegIdx) (imm : BitVec 12) (i : Instr), s.cfg.x0Zero = true → s.event = .dispatch →
    i ∈ [Instr.add 0#5 rs1 rs2, .sub 0#5 rs1 rs2, .mul 0#5 rs1 rs2, .div 0#5 rs1 rs2, .addi 0#5 rs1 imm,
      .lw 0#5 rs1 imm] →
    exec i s = .next t →
    t.link = s.link ∧ ∀ e, t.robAt s.robHead = some e → s.robAt s.robHead = none → e.dest = .none) ∧
  (∀ (s t : State) (rs1 rs2 : RegIdx) (imm : BitVec 12) (i : Instr), s.cfg.x0Zero = false → s.event = .dispatch →
    i ∈ [Instr.add 0#5 rs1 rs2, .sub 0#5 rs1 rs2, .mul 0#5 rs1 rs2, .div 0#5 rs1 rs2, .addi 0#5 rs1 imm,
      .lw 0#5 rs1 imm] →
    exec i s = .next t → t.table ≠ s.table →
    t.link = s.link.set 0 (some s.robHead) ∧ ∃ n, t.rob = s.rob.set s.robHead (some ⟨n, .reg 0#5, .unready⟩)) ∧
  (∀ (i : Instr) (s : State) (e : RobEntry) (u : Entry) (w : Word), s.cfg.x0Zero = false → s.event = .commit →
    s.robAt s.robTail = some e → e.dest = .reg 0#5 → e.value = .ready w → s.table[e.instr]? = some u →
    0 < s.x.length →
    ∃ t, exec i s = .next t ∧ t.x = s.x.set 0 w) ∧
  (∀ s t : State, s.Shaped → s.cfg.x0Zero = true → step s = .next t → t.x[0]? = some 0#32)

/-! ## Execute start (40_scheduler.md R264 to R267) -/

/-- R264, R245: an empty slot, a station with a waiting operand and a station that settles start nothing. -/
def Obligations.OnlyReadyStationsStart : Prop :=
  ∀ (i : Instr) (s : State) (p : PoolId) (k : Nat), s.event = .start p k →
    (∀ e, s.slot p k = some e → (∃ t, e.j = .wait t) ∨ (∃ t, e.k = .wait t) ∨ e.settle = true) →
    exec i s = .next s

/-- R265: the arithmetic start of a ready station, with the result of each instruction (R301 to R305, R340, R341). It is
always accepted; everything not named is unchanged. -/
def Obligations.ArithmeticStart : Prop :=
  ∀ (s : State) (p : PoolId) (k : Nat) (e : RsEntry) (t : Entry) (a b : Word) (rd rs1 rs2 : RegIdx) (imm : BitVec 12)
    (off : BitVec 13),
    s.event = .start p k → s.slot p k = some e → e.j = .val a → e.k = .val b → e.settle = false →
    s.table[e.instr]? = some t →
    let started (result : Word) (latency : Nat) (zeroDivisor : Bool) : State :=
      { s with
        addPool := if p = .add then s.addPool.set k none else s.addPool
        mulPool := if p = .mul then s.mulPool.set k none else s.mulPool
        lsq     := if p = .lsq then s.lsq.set k none else s.lsq
        table   := s.table.set e.instr
          { t with
            result := some result, count := latency, state := .executeStart, tExecStart := some s.cycle
            div0 := t.div0 || zeroDivisor }
        mc      := { s.mc with cnt := { s.mc.cnt with div0 := s.mc.cnt.div0 + (if zeroDivisor then 1 else 0) } } }
    exec (.add rd rs1 rs2) s = .next (started (a + b) s.cfg.latAdd false) ∧
    exec (.sub rd rs1 rs2) s = .next (started (a - b) s.cfg.latSub false) ∧
    exec (.mul rd rs1 rs2) s = .next (started (BitVec.ofNat 32 (a.toNat * b.toNat)) s.cfg.latMul false) ∧
    exec (.addi rd rs1 imm) s = .next (started (a + b) s.cfg.latAddi false) ∧
    exec (.beq rs1 rs2 off) s = .next (started (if a = b then 1#32 else 0#32) s.cfg.latBeq false) ∧
    exec (.bne rs1 rs2 off) s = .next (started (if a ≠ b then 1#32 else 0#32) s.cfg.latBne false) ∧
    (b = 0#32 → exec (.div rd rs1 rs2) s = .next (started 0#32 s.cfg.latDiv true)) ∧
    (b ≠ 0#32 → a = 0x80000000#32 ∧ b = 0xFFFFFFFF#32 →
      exec (.div rd rs1 rs2) s = .next (started 0x80000000#32 s.cfg.latDiv false)) ∧
    (b ≠ 0#32 → ¬(a = 0x80000000#32 ∧ b = 0xFFFFFFFF#32) →
      ∃ q : Word, q.toInt = a.toInt.tdiv b.toInt ∧ exec (.div rd rs1 rs2) s = .next (started q s.cfg.latDiv false))

/-- R303: the low word of the product is the same for the signed and the unsigned reading of the operands. R304: the
quotient truncates toward zero, and its one overflow wraps. -/
def Obligations.ProductAndQuotientAsIntegers : Prop :=
  ∀ a b : Word,
    computeMul a b = BitVec.ofInt 32 (a.toInt * b.toInt) ∧
    computeMul a b = BitVec.ofNat 32 (a.toNat * b.toNat) ∧
    computeDiv a 0#32 = 0#32 ∧
    (b ≠ 0#32 → computeDiv a b = BitVec.ofInt 32 (a.toInt.tdiv b.toInt)) ∧
    (b ≠ 0#32 → ¬(a = 0x80000000#32 ∧ b = 0xFFFFFFFF#32) → (computeDiv a b).toInt = a.toInt.tdiv b.toInt)

/-- R361, R266: LW starts when its address is in range and not busy and no load is executing. Its value is the coherent
view, its countdown the latency of the level that holds the address (R122); the address becomes busy. After the read a
prefetch of the next address, wrapping at the memory size, is queued with its backing-memory word and countdown MEM_LAT, and
counted, unless that address is busy or already queued or the queue is full (R117). -/
def Obligations.LoadStart : Prop :=
  ∀ (s : State) (k : Nat) (e : RsEntry) (t : Entry) (a b : Word) (rd rs1 : RegIdx) (imm : BitVec 12),
    let ea := a + e.imm
    s.event = .start .lsq k → s.lsq[k]? = some (some e) → e.j = .val a → e.k = .val b → e.settle = false →
    s.table[e.instr]? = some t → ea.toNat < s.cfg.memSize → s.mc.busy.has ea.toNat = false →
    (∀ u ∈ s.table, ¬(u.state = .executeStart ∧ u.ins.op = .lw)) →
    ∃ m : MemCtl,
      MemCtl.read s.cfg s.cycle { s.mc with busy := s.mc.busy.insert ea.toNat } ea.toNat =
        .ok m (s.mc.view s.cfg ea.toNat, s.mc.probe s.cfg ea.toNat) ∧
      exec (.lw rd rs1 imm) s =
        .next { s with
          lsq   := s.lsq.set k none
          mc    :=
            if m.busy.has ((ea.toNat + 1) % s.cfg.memSize) = true ∨
                (∃ q ∈ m.pfq, q.addr = (ea.toNat + 1) % s.cfg.memSize) ∨ s.cfg.pfQueueCap ≤ m.pfq.length then m
            else
              { m with
                pfq := m.pfq ++
                  [⟨(ea.toNat + 1) % s.cfg.memSize, Mem.read m.mem ((ea.toNat + 1) % s.cfg.memSize), s.cfg.memLat,
                    s.cycle⟩]
                cnt := { m.cnt with pfIssued := m.cnt.pfIssued + 1 } }
          table := s.table.set e.instr
            { t with
              ea := some ea, result := some (s.mc.view s.cfg ea.toNat), count := s.mc.probe s.cfg ea.toNat
              state := .executeStart, tExecStart := some s.cycle } }

/-- R362, R266: SW starts when its address is in range and not busy. It records address and data, counts the probe
latency, and touches nothing of the memory controller. -/
def Obligations.StoreStart : Prop :=
  ∀ (s : State) (k : Nat) (e : RsEntry) (t : Entry) (a b : Word) (rs1 rs2 : RegIdx) (imm : BitVec 12),
    let ea := a + e.imm
    s.event = .start .lsq k → s.lsq[k]? = some (some e) → e.j = .val a → e.k = .val b → e.settle = false →
    s.table[e.instr]? = some t → ea.toNat < s.cfg.memSize → s.mc.busy.has ea.toNat = false →
    exec (.sw rs1 rs2 imm) s =
      .next { s with
        lsq   := s.lsq.set k none
        table := s.table.set e.instr
          { t with
            ea := some ea, data := some b
            count :=
              if s.mc.l1.holds s.cfg.l1Rows ea.toNat then s.cfg.l1Lat
              else if s.mc.l2.holds s.cfg.l2Rows ea.toNat then s.cfg.l1Lat + s.cfg.l2Lat
              else s.cfg.l1Lat + s.cfg.l2Lat + s.cfg.memLat
            state := .executeStart, tExecStart := some s.cycle } }

/-- R365, R120, R129: a load or store on a busy address does not start, nor does a load while another load is executing;
a refusal changes nothing. -/
def Obligations.HazardsRefuseStart : Prop :=
  ∀ (s : State) (k : Nat) (e : RsEntry) (a b : Word) (rd rs1 rs2 : RegIdx) (imm : BitVec 12),
    s.event = .start .lsq k → s.lsq[k]? = some (some e) → e.j = .val a → e.k = .val b → e.settle = false →
    e.instr < s.table.length → (a + e.imm).toNat < s.cfg.memSize →
    (s.mc.busy.has (a + e.imm).toNat = true →
      exec (.lw rd rs1 imm) s = .next s ∧ exec (.sw rs1 rs2 imm) s = .next s) ∧
    ((∃ u ∈ s.table, u.state = .executeStart ∧ u.ins.op = .lw) → exec (.lw rd rs1 imm) s = .next s)

/-- R363, R405: an out-of-range candidate raises, whether or not its address is busy, and changes nothing else; what is no
candidate does not raise. -/
def Obligations.OutOfRangeRaises : Prop :=
  ∀ (s : State) (k : Nat) (rd rs1 rs2 : RegIdx) (imm : BitVec 12), s.event = .start .lsq k →
    (∀ (e : RsEntry) (a b : Word), s.lsq[k]? = some (some e) → e.j = .val a → e.k = .val b → e.settle = false →
      e.instr < s.table.length → s.cfg.memSize ≤ (a + e.imm).toNat →
      let faulted : State := { s with status := .faulted ⟨3, some e.instr, none, some (a + e.imm), s.cycle⟩ }
      exec (.lw rd rs1 imm) s = .next faulted ∧ exec (.sw rs1 rs2 imm) s = .next faulted) ∧
    ((∀ e, s.lsq[k]? = some (some e) → (∃ t, e.j = .wait t) ∨ (∃ t, e.k = .wait t) ∨ e.settle = true) →
      exec (.lw rd rs1 imm) s = .next s ∧ exec (.sw rs1 rs2 imm) s = .next s)

/-! ## Countdown, broadcast, commit, store write (40_scheduler.md R262, R242 to R246, R230 to R235, R252, R253) -/

/-- R262: one cycle of the execution countdown of every instruction; at its end LW also releases its busy bit. -/
def Obligations.ExecutionCountdown : Prop :=
  ∀ (s : State) (n : Nat) (t : Entry), s.event = .countdown n → s.table[n]? = some t →
    (∀ i : Instr, 2 ≤ t.count →
      exec i s = .next { s with table := s.table.set n { t with count := t.count - 1 } }) ∧
    (t.count = 1 →
      let ended : List Entry := s.table.set n { t with count := 0, state := .executeEnd, tExecEnd := some s.cycle }
      (∀ i : Instr, i.op ≠ .lw → exec i s = .next { s with table := ended }) ∧
      ∀ (rd rs1 : RegIdx) (imm : BitVec 12) (ea : Word), t.ea = some ea →
        exec (.lw rd rs1 imm) s =
          .next { s with table := ended, mc := { s.mc with busy := s.mc.busy.erase ea.toNat } })

/-- R243, R244, R246: a broadcast writes the value of the reorder-buffer entry of its own instruction and wakes every
operand that waits on its tag; a store's writes the no-value marker and wakes nothing. -/
def Obligations.BroadcastWritesAndWakes : Prop :=
  ∀ (s : State) (n : Nat) (t : Entry) (q : Tag) (r : RobEntry),
    s.event = .broadcast n → s.table[n]? = some t → s.robAt q = some r → r.instr = n →
    (∀ (q' : Tag) (r' : RobEntry), s.robAt q' = some r' → r'.instr = n → q' = q) →
    let done : List Entry := s.table.set n { t with state := .broadcast, tBroadcast := some s.cycle }
    (∀ (i : Instr) (v : Word), i.op ≠ .sw → t.result = some v →
      let wake (e : RsEntry) : RsEntry :=
        { e with
          j      := if e.j = .wait q then .val v else e.j
          k      := if e.k = .wait q then .val v else e.k
          settle := if e.j = .wait q ∨ e.k = .wait q then true else e.settle }
      exec i s =
        .next { s with
          rob     := s.rob.set q (some { r with value := .ready v })
          addPool := s.addPool.map (Option.map wake)
          mulPool := s.mulPool.map (Option.map wake)
          lsq     := s.lsq.map (Option.map wake)
          table   := done }) ∧
    ∀ (rs1 rs2 : RegIdx) (imm : BitVec 12),
      exec (.sw rs1 rs2 imm) s =
        .next { s with rob := s.rob.set q (some { r with value := .noValue }), table := done }

/-- R230, R232, R233, R234, R235: the commit of the reorder buffer's tail, which every instruction shares, by the
destination of the entry there. -/
def Obligations.CommitByDestination : Prop :=
  ∀ (i : Instr) (s : State), s.event = .commit →
    ((∀ e, s.robAt s.robTail = some e → e.value = .unready) → exec i s = .next s) ∧
    ∀ (e : RobEntry) (t : Entry), s.robAt s.robTail = some e → s.table[e.instr]? = some t →
      let retired (u : State) (f : Entry) : State :=
        { u with
          rob     := s.rob.set s.robTail none
          robTail := (s.robTail + 1) % s.cfg.nRob
          table   := s.table.set e.instr { f with state := .commit, tCommit := some s.cycle } }
      (∀ (r : RegIdx) (w : Word), e.dest = .reg r → e.value = .ready w → r.toNat < s.x.length →
        exec i s =
          .next (retired
            { s with
              x    := s.x.set r.toNat w
              link := if s.link[r.toNat]? = some (some s.robTail) then s.link.set r.toNat none else s.link } t)) ∧
      (e.dest = .none → e.value ≠ .unready → exec i s = .next (retired s t)) ∧
      (∀ ea : Word, e.dest = .mem → e.value ≠ .unready → t.ea = some ea →
        (s.mc.busy.has ea.toNat = true → exec i s = .next s) ∧
        (s.mc.busy.has ea.toNat = false →
          exec i s =
            .next (retired { s with mc := { s.mc with busy := s.mc.busy.insert ea.toNat } }
              { t with count := s.mc.probe s.cfg ea.toNat, writePending := true })))

/-- R252, R253, R124: one cycle of a committed store's countdown, and the write at its end, which releases the busy bit. The
two clauses on the coherent view (the store's address reads as its data, every other address as before) are the sentence that
the spec derives in R140. -/
def Obligations.StoreWrite : Prop :=
  ∀ (i : Instr) (s : State) (n : Nat) (t : Entry), s.event = .storeTick n → s.table[n]? = some t →
    (2 ≤ t.count → exec i s = .next { s with table := s.table.set n { t with count := t.count - 1 } }) ∧
    ∀ ea v : Word, t.count = 1 → t.ea = some ea → t.data = some v → s.cfg.Legal → s.mc.Shaped s.cfg →
      s.mc.Coherent s.cfg →
      ∃ m : MemCtl,
        MemCtl.write s.cfg s.cycle s.mc ea.toNat v = .ok m () ∧
        exec i s =
          .next { s with
            mc    := { m with busy := m.busy.erase ea.toNat }
            table := s.table.set n
              { t with count := 0, writePending := false, state := .memoryWrite, tMemWrite := some s.cycle } } ∧
        m.busy = s.mc.busy ∧
        m.view s.cfg ea.toNat = v ∧
        ∀ b : Nat, b ≠ ea.toNat → m.view s.cfg b = s.mc.view s.cfg b

/-- What an instruction leaves unchanged at each event, whichever instruction and whether or not it completes: registers
change only at commit, links only at dispatch and commit, the reorder buffer only at dispatch, broadcast and commit, the
pools only at dispatch, start and broadcast, the coherent view of memory only at a store's write, and of the table only the
entry served. -/
def Obligations.InstructionFrame : Prop :=
  ∀ (i : Instr) (s t : State), exec i s = .next t →
    (t.cfg = s.cfg ∧ t.decodeErrors = s.decodeErrors ∧ t.cycle = s.cycle ∧ t.event = s.event ∧
      t.table.length = s.table.length) ∧
    (s.event ≠ .commit → t.x = s.x ∧ t.robTail = s.robTail) ∧
    (s.event ≠ .commit → s.event ≠ .dispatch → t.link = s.link) ∧
    (s.event ≠ .dispatch → t.robHead = s.robHead) ∧
    (s.event ≠ .commit → s.event ≠ .dispatch → (∀ n, s.event ≠ .broadcast n) → t.rob = s.rob) ∧
    (s.event ≠ .dispatch → (∀ n, s.event ≠ .broadcast n) → (∀ p k, s.event ≠ .start p k) →
      t.addPool = s.addPool ∧ t.mulPool = s.mulPool ∧ t.lsq = s.lsq) ∧
    (s.event = .dispatch ∨ (∃ n, s.event = .broadcast n) → t.mc = s.mc ∧ t.status = s.status) ∧
    ((∀ n, s.event ≠ .storeTick n) → s.cfg.Legal → s.mc.Shaped s.cfg → s.mc.Coherent s.cfg →
      ∀ a, t.mc.view t.cfg a = s.mc.view s.cfg a) ∧
    ∀ m, t.table[m]? ≠ s.table[m]? →
      match s.event with
      | .dispatch => s.dptr = some m
      | .start p k => ∃ e, s.slot p k = some e ∧ e.instr = m
      | .countdown n => n = m
      | .broadcast n => n = m
      | .commit => ∃ e, s.robAt s.robTail = some e ∧ e.instr = m
      | .storeTick n => n = m

/-! ## The memory controller (20_memory.md) -/

/-- R100, R101: lookup names exactly the valid line of the address's row with the address's tag, and the address of a line
is its tag times the rows plus its row. -/
def Obligations.LookupByRowAndTag : Prop :=
  ∀ (rows : Nat) (c : CacheLevel), 1 ≤ rows → c.UniqueTags →
    (∀ (a w : Nat) (e : CacheEntry), c.find rows a = some (w, e) ↔
      ∃ row, c.lines[a % rows]? = some row ∧ row[w]? = some e ∧ e.valid = true ∧ e.tag = a / rows) ∧
    (∀ a : Nat, c.holds rows a = true ↔ ∃ w e, c.find rows a = some (w, e)) ∧
    ∀ (r w : Nat) (row : List CacheEntry) (e : CacheEntry), r < rows → c.lines[r]? = some row → row[w]? = some e →
      e.valid = true → c.find rows (e.tag * rows + r) = some (w, e)

/-- R105, R106: a touch resets the way's rank and advances the others of its row only; the victim is the way of greatest rank,
the lowest one on a tie. That a touch keeps distinct ranks distinct is the sentence that the spec derives in R108. -/
def Obligations.TouchAndVictim : Prop :=
  ∀ (c : CacheLevel) (r w : Nat) (ks : List Nat), c.ranks[r]? = some ks →
    (c.touch r w).lines = c.lines ∧
    (∀ r', r' ≠ r → (c.touch r w).ranks[r']? = c.ranks[r']?) ∧
    (∃ ls, (c.touch r w).ranks[r]? = some ls ∧ ls.length = ks.length ∧
      (∀ (v k : Nat), ks[v]? = some k → ls[v]? = some (if v = w then 0 else k + 1)) ∧
      (ks.Nodup → ls.Nodup)) ∧
    (ks ≠ [] → ∃ k, ks[c.victim r]? = some k ∧
      ∀ (v l : Nat), ks[v]? = some l → l ≤ k ∧ (l = k → c.victim r ≤ v))

/-- R102, R406: the duplicate guard is dead. No demand read, store write or prefetch tick raises `DuplicateFill`, in any
state. -/
def Obligations.NoDuplicateFill : Prop :=
  ∀ (cfg : Config) (cycle : Nat) (m : MemCtl) (a : Nat) (v : Word),
    (∃ m' r, MemCtl.read cfg cycle m a = .ok m' r) ∧
    (∃ m', MemCtl.write cfg cycle m a v = .ok m' ()) ∧
    ∃ m', MemCtl.pfTick cfg cycle m = .ok m' ()

/-- R122, R121: a demand read answers the coherent view, at the latency of the level that holds the address, and leaves the
address in the first level; it touches no busy bit. -/
def Obligations.DemandReadAnswers : Prop :=
  ∀ (cfg : Config) (cycle : Nat) (m : MemCtl) (a : Nat),
    ∃ m', MemCtl.read cfg cycle m a =
        .ok m' (m.view cfg a,
          if m.l1.holds cfg.l1Rows a then cfg.l1Lat
          else if m.l2.holds cfg.l2Rows a then cfg.l1Lat + cfg.l2Lat
          else cfg.l1Lat + cfg.l2Lat + cfg.memLat) ∧
      m'.busy = m.busy ∧
      (cfg.Legal → m.Shaped cfg → m'.l1.holds cfg.l1Rows a = true)

/-- R123: the counters of a demand read, and that store writes and prefetch installs count no hit or miss. -/
def Obligations.HitAndMissCounters : Prop :=
  ∀ (cfg : Config) (cycle : Nat) (m m' : MemCtl) (a : Nat),
    (∀ r, MemCtl.read cfg cycle m a = .ok m' r →
      m'.cnt =
        if m.l1.holds cfg.l1Rows a then { m.cnt with l1Hits := m.cnt.l1Hits + 1 }
        else if m.l2.holds cfg.l2Rows a then
          if m.pfMark.has a then { m.cnt with l1Misses := m.cnt.l1Misses + 1, pfHits := m.cnt.pfHits + 1 }
          else { m.cnt with l1Misses := m.cnt.l1Misses + 1, l2Hits := m.cnt.l2Hits + 1 }
        else { m.cnt with l1Misses := m.cnt.l1Misses + 1, l2Misses := m.cnt.l2Misses + 1 }) ∧
    (∀ v, MemCtl.write cfg cycle m a v = .ok m' () → m'.cnt = m.cnt) ∧
    (MemCtl.pfTick cfg cycle m = .ok m' () → ∃ k, m'.cnt = { m.cnt with pfFilled := m.cnt.pfFilled + k })

/-- The coherent view and read-after-write, which the spec derives in R140: a demand read returns the view, a store write
sets the view of its address alone, and fills of what the view holds, evictions, write-backs, prefetch installs, prefetch
issues and `pfTick` leave every view as it was. -/
def Obligations.CoherentView : Prop :=
  ∀ (cfg : Config) (cycle : Nat) (m : MemCtl), cfg.Legal → m.Shaped cfg → m.Coherent cfg →
    (∀ (a : Nat) (m' : MemCtl) (v : Word) (lat : Nat), MemCtl.read cfg cycle m a = .ok m' (v, lat) →
      v = m.view cfg a ∧ ∀ b, m'.view cfg b = m.view cfg b) ∧
    (∀ (a : Nat) (v : Word) (m' : MemCtl), MemCtl.write cfg cycle m a v = .ok m' () →
      m'.view cfg a = v ∧ ∀ b, b ≠ a → m'.view cfg b = m.view cfg b) ∧
    (∀ (a : Nat) (m' : MemCtl), MemCtl.fill1 cfg cycle m a (m.view cfg a) false = .ok m' () →
      ∀ b, m'.view cfg b = m.view cfg b) ∧
    (∀ (a : Nat) (m' : MemCtl), MemCtl.fill2 cfg cycle m a (Mem.read m.mem a) false = .ok m' () →
      ∀ b, m'.view cfg b = m.view cfg b) ∧
    (∀ (a : Nat) (m' : MemCtl), MemCtl.evict1 cfg cycle m a = .ok m' () → ∀ b, m'.view cfg b = m.view cfg b) ∧
    (∀ a b, (m.evict2 cfg cycle a).view cfg b = m.view cfg b) ∧
    (∀ (q : PfReq) (m' : MemCtl), q ∈ m.pfq → MemCtl.pfInstall cfg cycle m q = .ok m' () →
      ∀ b, m'.view cfg b = m.view cfg b) ∧
    (∀ a b, (m.pfIssue cfg cycle a).view cfg b = m.view cfg b) ∧
    ∀ m', MemCtl.pfTick cfg cycle m = .ok m' () → ∀ b, m'.view cfg b = m.view cfg b

/-- R116: the prefetch tick of the machine, which ages first and installs after (the model's form, log 13), is the rule's one
pass over the queue. And what an install does: dropped with no change when level 2 holds the address; otherwise a fill of
level 2 that leaves the line there clean with the request's value, sets the mark of the address, clears that of the line
evicted (R115) and of no other, and adds one to pfFilled and to no other counter. -/
def Obligations.PrefetchTickIsOnePass : Prop :=
  (∀ (cfg : Config) (cycle : Nat) (m : MemCtl), (∀ q ∈ m.pfq, 1 ≤ q.count) →
    MemCtl.pfTick cfg cycle m = MemCtl.pfPass cfg cycle m.pfq.length [] m.pfq m) ∧
  ∀ (cfg : Config) (cycle : Nat) (m : MemCtl) (q : PfReq),
    (m.l2.holds cfg.l2Rows q.addr = true → MemCtl.pfInstall cfg cycle m q = .ok m ()) ∧
    (m.l2.holds cfg.l2Rows q.addr = false →
      ∃ m' f : MemCtl, MemCtl.pfInstall cfg cycle m q = .ok m' () ∧
        MemCtl.fill2 cfg cycle m q.addr q.value false = .ok f () ∧
        m' = { f with pfMark := m'.pfMark, cnt := m'.cnt } ∧
        m'.pfMark.has q.addr = true ∧
        (∀ b, b ≠ q.addr → (m'.pfMark.has b = true ↔
          m.pfMark.has b = true ∧ ∀ v d, m.l2.victimLine cfg.l2Rows q.addr ≠ some (b, v, d))) ∧
        m'.cnt = { m.cnt with pfFilled := m.cnt.pfFilled + 1 } ∧
        (cfg.Legal → m.Shaped cfg →
          ∃ w, m'.l2.find cfg.l2Rows q.addr = some (w, ⟨true, false, q.addr / cfg.l2Rows, q.value⟩)))

/-! ## Stages, tick and run (40_scheduler.md) -/

/-- R240, R241: the bus goes to the candidate with the least class rank, then the least table index; without a candidate
it goes to none. -/
def Obligations.BusArbitration : Prop :=
  (classRank .lw = 0 ∧ classRank .sw = 0 ∧ classRank .add = 1 ∧ classRank .sub = 1 ∧ classRank .addi = 1 ∧
    classRank .beq = 1 ∧ classRank .bne = 1 ∧ classRank .mul = 2 ∧ classRank .div = 2) ∧
  ∀ s : State,
    (s.busWinner = none ↔ ∀ t ∈ s.table, t.state ≠ .executeEnd) ∧
    ∀ (n : Nat), s.busWinner = some n →
      ∃ t, s.table[n]? = some t ∧ t.state = .executeEnd ∧
        ∀ (m : Nat) (u : Entry), s.table[m]? = some u → u.state = .executeEnd →
          classRank t.ins.op < classRank u.ins.op ∨ (classRank t.ins.op = classRank u.ins.op ∧ n ≤ m)

/-- R264: a pool's candidates are exactly its ready stations, each once, the oldest instruction first. -/
def Obligations.CandidatesOldestFirst : Prop :=
  ∀ (s : State) (p : PoolId),
    (∀ k, k ∈ s.candidates p ↔
      ∃ e a b, s.slot p k = some e ∧ e.j = .val a ∧ e.k = .val b ∧ e.settle = false) ∧
    (s.candidates p).Nodup ∧
    (s.candidates p).Pairwise (fun k l =>
      ∀ e f, s.slot p k = some e → s.slot p l = some f → e.instr ≤ f.instr)

/-- R221, R40, R78: one pass of the run loop. Completion is tested before the cap and both before the tick; a tick advances
the cycle by one and leaves the run going or faulted. That a block not Running refuses the step is the model's choice (log
14). -/
def Obligations.RunLoopPass : Prop :=
  ∀ s : State,
    let finished := ∀ t ∈ s.table, (t.state = .commit ∧ t.ins.op ≠ .sw) ∨ t.state = .memoryWrite
    (s.status ≠ .running → step s = .refused .notRunning) ∧
    (s.status = .running → finished → step s = .next { s with status := .completed }) ∧
    (s.status = .running → ¬finished → s.cfg.maxCycles ≤ s.cycle → step s = .next { s with status := .didNotComplete }) ∧
    (s.status = .running → ¬finished → s.cycle < s.cfg.maxCycles → ∀ t, step s = .next t →
      t.cycle = s.cycle + 1 ∧ (t.status = .running ∨ ∃ info, t.status = .faulted info))

/-- A step runs the instruction: when the first four stages of the tick leave a state whose first entry not started holds
`i`, the step is `exec i` there, followed by the end of the tick (R220, R285, R296). This is the dispatch stage; the other
stages over a step are `StepCommitsTailAndServesBus`, `OnlyDueStoresChangeMemory`, `CountdownEveryStep` and
`StepStartsOldestAccepted`. -/
def Obligations.StepServesDispatchedInstruction : Prop :=
  ∀ (s s1 s2 s3 s4 u : State) (n : Nat) (t : Entry),
    s.status = .running → s.allTerminal = false → s.cycle < s.cfg.maxCycles →
    commitStage { s with cycle := s.cycle + 1 } = .next s1 → s1.status = .running →
    broadcastStage s1 = .next s2 → s2.status = .running →
    memTickStage s2 = .next s3 → s3.status = .running →
    executeStage s3 = .next s4 → s4.status = .running →
    s4.dptr = some n → s4.table[n]? = some t →
    exec t.ins { s4 with event := .dispatch } = .next u →
    step s = .next ({ u with event := .dispatch } : State).clearSettle

/-- A step runs the decoded instruction: of a word loaded into the machine after reset, the next step is `exec` of what the
word decodes to, in cycle 1, followed by the end of the tick. `withFetchWord` is the model's stand-in for a load (log 4). -/
def Obligations.StepRunsLoadedWord : Prop :=
  ∀ (w : Nat) (i : Instr), decodeTableWord 32 w = some i →
    ∃ u, exec i { State.reset with table := [Entry.fresh i], status := .running, cycle := 1 } = .next u ∧
      step (State.reset.withFetchWord 32 w) = .next ({ u with event := .dispatch } : State).clearSettle

/-- R296: a tick that the run survives leaves no settle mark in any pool. -/
def Obligations.SettleClearedAtEndOfTick : Prop :=
  ∀ s t : State, step s = .next t → t.status = .running →
    ∀ (p : PoolId) (e : RsEntry), some e ∈ t.pool p → e.settle = false

/-- R76, R79, R141, R416: a step changes neither the configuration nor the skipped words nor any instruction of the table,
and takes no counter down. -/
def Obligations.StepKeepsProgramAndConfig : Prop :=
  ∀ s t : State, step s = .next t →
    t.cfg = s.cfg ∧ t.decodeErrors = s.decodeErrors ∧ t.table.map Entry.ins = s.table.map Entry.ins ∧
    s.mc.cnt.l1Hits ≤ t.mc.cnt.l1Hits ∧ s.mc.cnt.l1Misses ≤ t.mc.cnt.l1Misses ∧
    s.mc.cnt.l2Hits ≤ t.mc.cnt.l2Hits ∧ s.mc.cnt.l2Misses ≤ t.mc.cnt.l2Misses ∧
    s.mc.cnt.pfHits ≤ t.mc.cnt.pfHits ∧ s.mc.cnt.pfIssued ≤ t.mc.cnt.pfIssued ∧
    s.mc.cnt.pfFilled ≤ t.mc.cnt.pfFilled ∧ s.mc.cnt.div0 ≤ t.mc.cnt.div0

/-- R73, R82: backing memory changes by exactly the writes that the step appends to the write-out log, each with the step's
cycle. -/
def Obligations.WriteOutLogRecordsMemory : Prop :=
  ∀ s t : State, step s = .next t →
    ∃ writes : List (Nat × Nat × Word), t.mc.out = s.mc.out ++ writes ∧ (∀ r ∈ writes, r.1 = t.cycle) ∧
      t.mc.mem = writes.foldl (fun m r => Mem.write m r.2.1 r.2.2) s.mc.mem

/-- R32, R232, R291: a step writes at most one register, the destination of the committing reorder-buffer entry, with its value;
it clears at most one link, that register's, and only if the link named the committing slot; and it sets at most one link, that
of the destination of an instruction it dispatches, to the slot at the old head. -/
def Obligations.OnlyCommitWritesRegisters : Prop :=
  ∀ s t : State, step s = .next t →
    ∃ cleared : List (Option Tag),
      ((t.x = s.x ∧ cleared = s.link) ∨
        ∃ (e : RobEntry) (r : RegIdx) (w : Word), s.robAt s.robTail = some e ∧ e.dest = .reg r ∧ e.value = .ready w ∧
          t.robTail = (s.robTail + 1) % s.cfg.nRob ∧ t.x = s.x.set r.toNat w ∧
          cleared = if s.link[r.toNat]? = some (some s.robTail) then s.link.set r.toNat none else s.link) ∧
      (t.link = cleared ∨
        ∃ (n : Nat) (u : Entry) (r : RegIdx), t.table[n]? = some u ∧ u.state = .rsWait ∧ u.tIssue = some t.cycle ∧
          u.tag = some s.robHead ∧ destOf t.cfg u.ins = .reg r ∧ t.link = cleared.set r.toNat (some s.robHead))

/-- R400, R402, R409: the only fatal fault of a step is an out-of-range address of a load or a store of the table, recorded
with code 3, the instruction, the address and the cycle. -/
def Obligations.OnlyOutOfRangeFaults : Prop :=
  ∀ (s t : State) (info : FaultInfo), s.status = .running → step s = .next t → t.status = .faulted info →
    ∃ (n : Nat) (ea : Word) (u : Entry), info = ⟨3, some n, none, some ea, t.cycle⟩ ∧ s.cfg.memSize ≤ ea.toNat ∧
      s.table[n]? = some u ∧ (u.ins.op = .lw ∨ u.ins.op = .sw)

/-- R262 over a whole step: an instruction that was executing before this cycle counts down by one in it, and reaches
ExecuteEnd exactly when its countdown ends. So one started in cycle c with latency L reaches ExecuteEnd in cycle c + L. -/
def Obligations.CountdownEveryStep : Prop :=
  ∀ (s t : State) (n : Nat) (e : Entry), s.Shaped → s.LinksNameProducers → s.Consistent →
    s.status = .running → s.allTerminal = false → s.cycle < s.cfg.maxCycles → step s = .next t →
    s.table[n]? = some e → e.state = .executeStart → before e.tExecStart (s.cycle + 1) = true →
    t.table[n]? =
      some (if e.count = 1 then { e with count := 0, state := .executeEnd, tExecEnd := some (s.cycle + 1) }
        else { e with count := e.count - 1 })

/-- R39, R41: in a step every entry keeps its lifecycle state or enters the next one, and the timestamp of the state it
enters is the step's cycle. -/
def Obligations.OneTransitionPerStep : Prop :=
  ∀ s t : State, s.Shaped → s.LinksNameProducers → s.Consistent → step s = .next t →
    ∀ (n : Nat) (e : Entry), s.table[n]? = some e →
      ∃ f, t.table[n]? = some f ∧ f.ins = e.ins ∧
        (f.state = e.state ∨ (e.state.succ e.ins.op = some f.state ∧ f.stamp f.state = some t.cycle))

/-- R223, R231, R263, R295: in a step at most one instruction dispatches, at most one broadcasts, at most one commits and at
most one of each pool starts. -/
def Obligations.AtMostOneOfEachPerStep : Prop :=
  ∀ s t : State, s.Shaped → s.LinksNameProducers → s.Consistent → step s = .next t →
    ∀ (m n : Nat) (e f e' f' : Entry), s.table[m]? = some e → t.table[m]? = some f → s.table[n]? = some e' →
      t.table[n]? = some f' → e.state ≠ f.state → e'.state ≠ f'.state → f.state = f'.state →
      f.state = .rsWait ∨ f.state = .broadcast ∨ f.state = .commit ∨
        (f.state = .executeStart ∧ poolOf e.ins.op = poolOf e'.ins.op) →
      m = n

/-- R230 to R236, R240 to R248 over a whole tick. Commit: a tail whose value is ready commits, unless it is a store on a busy
address, and then its register is written, or its write is scheduled; a tail that is not ready, and a store on a busy address,
stay. Broadcast: the bus goes to the winner, whose reorder-buffer entry gets its result or the no-value marker, and whose
consumers get the value and do not start in this tick; without a candidate nothing broadcasts. The rules that put each stage
in one piece (R236, R248) are marked derived. -/
def Obligations.StepCommitsTailAndServesBus : Prop :=
  ∀ s t : State, s.Shaped → s.LinksNameProducers → s.Consistent → s.status = .running → s.allTerminal = false →
    s.cycle < s.cfg.maxCycles → step s = .next t →
    ((∀ e, s.robAt s.robTail = some e → e.value = .unready) → t.robTail = s.robTail ∧ t.x = s.x) ∧
    (∀ (e : RobEntry) (u : Entry), s.robAt s.robTail = some e → s.table[e.instr]? = some u → e.value ≠ .unready →
      (e.dest ≠ .mem →
        t.robTail = (s.robTail + 1) % s.cfg.nRob ∧
        t.table[e.instr]? = some { u with state := .commit, tCommit := some (s.cycle + 1) } ∧
        (e.dest = .none → t.x = s.x) ∧
        ∀ (r : RegIdx) (w : Word), e.dest = .reg r → e.value = .ready w → t.x = s.x.set r.toNat w) ∧
      ∀ ea : Word, e.dest = .mem → u.ea = some ea →
        t.x = s.x ∧
        (s.mc.busy.has ea.toNat = true → t.robTail = s.robTail ∧ t.table[e.instr]? = some u) ∧
        (s.mc.busy.has ea.toNat = false →
          t.robTail = (s.robTail + 1) % s.cfg.nRob ∧
          t.table[e.instr]? =
            some { u with
              state := .commit, tCommit := some (s.cycle + 1), writePending := true
              count := s.mc.probe s.cfg ea.toNat })) ∧
    (s.busWinner = none →
      ∀ (n : Nat) (e f : Entry), s.table[n]? = some e → t.table[n]? = some f → e.state ≠ .broadcast →
        f.state ≠ .broadcast) ∧
    ∀ n : Nat, s.busWinner = some n →
      ∃ (u : Entry) (q : Tag) (r : RobEntry), s.table[n]? = some u ∧ u.tag = some q ∧ s.robAt q = some r ∧ r.instr = n ∧
        t.table[n]? = some { u with state := .broadcast, tBroadcast := some (s.cycle + 1) } ∧
        (u.ins.op = .sw → t.robAt q = some { r with value := .noValue }) ∧
        ∀ v : Word, u.ins.op ≠ .sw → u.result = some v →
          t.robAt q = some { r with value := .ready v } ∧
          ∀ (p : PoolId) (k : Nat) (e : RsEntry), t.status = .running → s.slot p k = some e →
            e.j = .wait q ∨ e.k = .wait q →
            t.slot p k =
              some { e with
                j      := if e.j = .wait q then .val v else e.j
                k      := if e.k = .wait q then .val v else e.k
                settle := false }

/-- R263, R264, R266, R267 over a whole tick. The candidates of a pool in the start phase are those the step found. In the
load-store queue the oldest candidate that is not refused starts, or raises when its address is out of range; when every
candidate is refused each keeps its slot. In each arithmetic pool, unless the queue's turn raised, the oldest candidate
starts. -/
def Obligations.StepStartsOldestAccepted : Prop :=
  ∀ s t : State, s.Shaped → s.LinksNameProducers → s.Consistent → s.status = .running → s.allTerminal = false →
    s.cycle < s.cfg.maxCycles → step s = .next t →
    ∃ u : State, s.ReachesStarts u ∧ (∀ p, u.candidates p = s.candidates p) ∧
      (∀ (older younger : List Nat) (k : Nat) (e : RsEntry) (f : Entry) (a b : Word),
        u.candidates .lsq = older ++ k :: younger → (∀ l ∈ older, u.LsqRefuses l) →
        u.slot .lsq k = some e → e.j = .val a → e.k = .val b → u.table[e.instr]? = some f →
        let ea := a + e.imm
        (s.cfg.memSize ≤ ea.toNat → t.status = .faulted ⟨3, some e.instr, none, some ea, s.cycle + 1⟩) ∧
        (ea.toNat < s.cfg.memSize → u.mc.busy.has ea.toNat = false → ¬(f.ins.op = .lw ∧ u.LoadExecuting) →
          ∃ g, t.table[e.instr]? = some g ∧ g.state = .executeStart ∧ g.tExecStart = some (s.cycle + 1) ∧
            g.ea = some ea)) ∧
      ((∀ k ∈ u.candidates .lsq, u.LsqRefuses k) → ∀ k ∈ u.candidates .lsq, t.slot .lsq k = u.slot .lsq k) ∧
      ∀ (p : PoolId) (younger : List Nat) (k : Nat) (e : RsEntry),
        p ≠ .lsq → t.status = .running → u.candidates p = k :: younger → u.slot p k = some e →
        ∃ g, t.table[e.instr]? = some g ∧ g.state = .executeStart ∧ g.tExecStart = some (s.cycle + 1)

/-- R135, R136, R143: over a whole step the coherent view of memory changes only by the committed stores whose countdown
ends in it: at the address of each the view afterwards is its data, and everywhere else it is what it was. -/
def Obligations.OnlyDueStoresChangeMemory : Prop :=
  ∀ s t : State, s.Shaped → s.LinksNameProducers → s.mc.Coherent s.cfg → s.Consistent → s.BusyHeld →
    s.status = .running → s.allTerminal = false → s.cycle < s.cfg.maxCycles → step s = .next t →
    (∀ (n : Nat) (e : Entry) (ea v : Word), s.table[n]? = some e → e.writeDue (s.cycle + 1) → e.ea = some ea →
      e.data = some v → t.mc.view t.cfg ea.toNat = v) ∧
    ∀ a : Nat,
      (∀ (n : Nat) (e : Entry) (ea : Word), s.table[n]? = some e → e.writeDue (s.cycle + 1) → e.ea = some ea →
        ea.toNat ≠ a) →
      t.mc.view t.cfg a = s.mc.view s.cfg a

/-- R135, R143: a load that starts in a step takes as its result the coherent view that the step leaves, so it observes
every store write of the step's memory tick or earlier. -/
def Obligations.LoadTakesCoherentView : Prop :=
  ∀ (s t : State) (n : Nat) (e f : Entry), s.Shaped → s.LinksNameProducers → s.mc.Coherent s.cfg → s.Consistent →
    step s = .next t → s.table[n]? = some e → t.table[n]? = some f → e.ins.op = .lw → e.state = .rsWait →
    f.state = .executeStart →
    ∃ ea : Word, f.ea = some ea ∧ f.result = some (t.mc.view t.cfg ea.toNat)

/-! ## Invariants that every step keeps -/

/-- The state stays one of the record of 10_state.md R30: arrays of their sizes, cursors, instructions and addresses in
range, tags of a row distinct (R102), memory and address sets canonical, x0 zero under X0_ZERO (R34). -/
def Obligations.StepKeepsShape : Prop :=
  ∀ s t : State, s.Shaped → step s = .next t → t.Shaped

/-- R86 (a): a link names an uncommitted reorder-buffer entry whose destination is its register. -/
def Obligations.StepKeepsLinksNamingProducers : Prop :=
  ∀ s t : State, s.Shaped → s.LinksNameProducers → step s = .next t → t.LinksNameProducers

/-- R140: the invariants of the cache hierarchy. -/
def Obligations.StepKeepsCoherence : Prop :=
  ∀ s t : State, s.Shaped → s.mc.Coherent s.cfg → step s = .next t → t.mc.Coherent t.cfg

/-- R39, R46, and the sentence (e) that the spec derives in R87: the table, the reorder buffer and the pools agree on what
is in flight, and stay so. In such a state a running machine always has a next state, so the model's own faults and refusals
never stop it. -/
def Obligations.StepAnswersAndKeepsConsistency : Prop :=
  ∀ s : State, s.Shaped → s.LinksNameProducers → s.Consistent → s.status = .running →
    ∃ t, step s = .next t ∧ t.Consistent

/-- R86 (c), R87 (f): a busy bit is set exactly while one operation in flight holds it. -/
def Obligations.StepKeepsBusyHeld : Prop :=
  ∀ s t : State, s.Shaped → s.LinksNameProducers → s.Consistent → s.BusyHeld → step s = .next t → t.BusyHeld

/-- R86 (b), R49: the reorder buffer stays in program order, what is before it committed and what is after it not started;
R87 (g): a link stays the youngest producer of its register. -/
def Obligations.StepKeepsProgramOrder : Prop :=
  ∀ s t : State, s.Shaped → s.LinksNameProducers → s.Consistent → s.RobOrdered → s.LinksNameYoungest →
    step s = .next t → t.RobOrdered ∧ t.LinksNameYoungest

/-- The sentence (h) that the spec derives in R87: as many reorder-buffer slots are occupied as instructions are in flight. -/
def Obligations.OccupiedSlotsCountInFlight : Prop :=
  ∀ s : State, s.Shaped → s.Consistent →
    s.rob.countP Option.isSome = s.table.countP (fun t => t.state.inFlight)
end

