-- ==== Sys2Proof/Laws/Memory.lean ====
section
/-! SUPPORT. Read after write, and the canonical forms, for backing memory and address sets. -/

namespace Sys2Proof.Machine

/-! ## Backing memory -/

/-- Below every listed address nothing is listed, so an address below reads as 0. -/
theorem Mem.read_of_lt (m : Mem) (a : Nat) (h : ∀ c ∈ m, a < c.1) : Mem.read m a = 0#32 := by
  induction m with
  | nil => rfl
  | cons c m ih =>
    obtain ⟨k, v⟩ := c
    have hk : a < k := h (k, v) List.mem_cons_self
    simp only [Mem.read]
    rw [if_neg (by omega)]
    exact ih (fun d hd => h d (List.mem_cons_of_mem _ hd))

/-- A cell of memory after a write is the written one or was there before. -/
theorem Mem.mem_write (m : Mem) (a : Nat) (v : Word) (c : Cell) (h : c ∈ Mem.write m a v) :
    (c = (a, v) ∧ v ≠ 0#32) ∨ c ∈ m := by
  induction m with
  | nil =>
    simp only [Mem.write] at h
    split at h <;> simp_all
  | cons d m ih =>
    obtain ⟨k, w⟩ := d
    simp only [Mem.write] at h
    split at h
    · split at h
      · exact .inr h
      · rcases List.mem_cons.1 h with h | h
        · exact .inl ⟨h, by assumption⟩
        · exact .inr h
    · split at h
      · split at h
        · exact .inr (List.mem_cons_of_mem _ h)
        · rcases List.mem_cons.1 h with h | h
          · exact .inl ⟨h, by assumption⟩
          · exact .inr (List.mem_cons_of_mem _ h)
      · rcases List.mem_cons.1 h with h | h
        · exact .inr (h ▸ List.mem_cons_self)
        · rcases ih h with h | h
          · exact .inl h
          · exact .inr (List.mem_cons_of_mem _ h)

/-- Writing keeps the canonical form. -/
theorem Mem.write_wf (m : Mem) (a : Nat) (v : Word) (h : Mem.wf m) : Mem.wf (Mem.write m a v) := by
  induction m with
  | nil =>
    simp only [Mem.write]
    split <;> simp_all [Mem.wf]
  | cons d m ih =>
    obtain ⟨k, w⟩ := d
    have hm : Mem.wf m := ⟨(List.pairwise_cons.1 h.1).2, fun c hc => h.2 c (List.mem_cons_of_mem _ hc)⟩
    have hk : ∀ c ∈ m, k < c.1 := (List.pairwise_cons.1 h.1).1
    have hw : w ≠ 0#32 := h.2 (k, w) List.mem_cons_self
    simp only [Mem.write]
    split
    · split
      · exact h
      · refine ⟨List.pairwise_cons.2 ⟨?_, h.1⟩, ?_⟩
        · intro c hc
          rcases List.mem_cons.1 hc with hc | hc
          · subst hc; assumption
          · have := hk c hc; simp only; omega
        · intro c hc
          rcases List.mem_cons.1 hc with hc | hc
          · subst hc; assumption
          · exact h.2 c hc
    · split
      · split
        · exact hm
        · refine ⟨List.pairwise_cons.2 ⟨?_, hm.1⟩, ?_⟩
          · intro c hc
            have := hk c hc; simp only; omega
          · intro c hc
            rcases List.mem_cons.1 hc with hc | hc
            · subst hc; assumption
            · exact hm.2 c hc
      · refine ⟨List.pairwise_cons.2 ⟨?_, (ih hm).1⟩, ?_⟩
        · intro c hc
          rcases Mem.mem_write m a v c hc with ⟨hc, _⟩ | hc
          · subst hc; simp only; omega
          · exact hk c hc
        · intro c hc
          rcases List.mem_cons.1 hc with hc | hc
          · subst hc; exact hw
          · exact (ih hm).2 c hc

/-- Reading the address written gives the word written. -/
@[simp] theorem Mem.read_write_same (m : Mem) (a : Nat) (v : Word) (h : Mem.wf m) :
    Mem.read (Mem.write m a v) a = v := by
  induction m with
  | nil =>
    simp only [Mem.write]
    split <;> simp_all [Mem.read]
  | cons d m ih =>
    obtain ⟨k, w⟩ := d
    have hm : Mem.wf m := ⟨(List.pairwise_cons.1 h.1).2, fun c hc => h.2 c (List.mem_cons_of_mem _ hc)⟩
    have hk : ∀ c ∈ m, k < c.1 := (List.pairwise_cons.1 h.1).1
    simp only [Mem.write]
    split
    · split
      · rename_i hlt hv
        rw [hv]
        exact Mem.read_of_lt _ _ (fun c hc => by
          rcases List.mem_cons.1 hc with hc | hc
          · subst hc; exact hlt
          · have := hk c hc; omega)
      · simp [Mem.read]
    · split
      · split
        · rename_i heq hv
          rw [hv]
          exact Mem.read_of_lt _ _ (fun c hc => heq ▸ hk c hc)
        · simp [Mem.read]
      · rename_i _ hne
        simp only [Mem.read]
        rw [if_neg (fun e => hne e.symm)]
        exact ih hm

/-- Reading any other address gives what it gave. -/
theorem Mem.read_write_other (m : Mem) (a b : Nat) (v : Word) (hab : b ≠ a) :
    Mem.read (Mem.write m a v) b = Mem.read m b := by
  induction m with
  | nil =>
    simp only [Mem.write]
    split
    · rfl
    · simp [Mem.read, Ne.symm hab]
  | cons d m ih =>
    obtain ⟨k, w⟩ := d
    simp only [Mem.write]
    split
    · split
      · rfl
      · simp [Mem.read, Ne.symm hab]
    · split
      · rename_i heq
        split
        · simp [Mem.read, heq ▸ Ne.symm hab]
        · simp [Mem.read, heq ▸ Ne.symm hab, Ne.symm hab]
      · simp only [Mem.read, ih]

/-- The cells of an initial memory lie at `a` and above and hold no 0. -/
theorem Mem.mem_ofWords (a : Nat) (vs : List Word) (c : Cell) (h : c ∈ Mem.ofWords a vs) :
    a ≤ c.1 ∧ c.1 < a + vs.length ∧ c.2 ≠ 0#32 := by
  induction vs generalizing a with
  | nil => cases h
  | cons v vs ih =>
    simp only [Mem.ofWords] at h
    split at h
    · obtain ⟨h1, h2, h3⟩ := ih (a + 1) h
      exact ⟨by omega, by simp only [List.length_cons]; omega, h3⟩
    · rcases List.mem_cons.1 h with h | h
      · subst h; exact ⟨le_refl _, by simp, by assumption⟩
      · obtain ⟨h1, h2, h3⟩ := ih (a + 1) h
        exact ⟨by omega, by simp only [List.length_cons]; omega, h3⟩

/-- An initial memory is in canonical form. -/
theorem Mem.ofWords_wf (a : Nat) (vs : List Word) : Mem.wf (Mem.ofWords a vs) := by
  refine ⟨?_, fun c hc => (Mem.mem_ofWords a vs c hc).2.2⟩
  induction vs generalizing a with
  | nil => exact List.Pairwise.nil
  | cons v vs ih =>
    simp only [Mem.ofWords]
    split
    · exact ih (a + 1)
    · refine List.pairwise_cons.2 ⟨fun c hc => ?_, ih (a + 1)⟩
      have := (Mem.mem_ofWords (a + 1) vs c hc).1
      simp only; omega

/-! ## Address sets -/

theorem AddrSet.has_iff (s : AddrSet) (a : Nat) : s.has a = true ↔ a ∈ s := by simp [AddrSet.has]

/-- Setting a bit adds that address and no other. -/
theorem AddrSet.mem_insert (s : AddrSet) (a b : Nat) : b ∈ s.insert a ↔ b = a ∨ b ∈ s := by
  induction s with
  | nil => simp [AddrSet.insert]
  | cons k s ih =>
    simp only [AddrSet.insert]
    split
    · exact List.mem_cons
    · split
      · rename_i h
        subst h
        exact ⟨.inr, fun h => h.elim (fun e => e ▸ List.mem_cons_self) id⟩
      · rw [List.mem_cons, ih, List.mem_cons]
        exact or_left_comm

/-- Clearing a bit removes that address and no other. -/
theorem AddrSet.mem_erase (s : AddrSet) (a b : Nat) : b ∈ s.erase a ↔ b ∈ s ∧ b ≠ a := by
  simp [AddrSet.erase]

/-- Setting a bit sets that bit and no other. -/
@[simp] theorem AddrSet.has_insert (s : AddrSet) (a b : Nat) : (s.insert a).has b = (decide (b = a) || s.has b) :=
  Bool.eq_iff_iff.2 (by rw [AddrSet.has_iff, AddrSet.mem_insert, Bool.or_eq_true, AddrSet.has_iff, decide_eq_true_iff])

/-- Clearing a bit clears that bit and no other. -/
@[simp] theorem AddrSet.has_erase (s : AddrSet) (a b : Nat) : (s.erase a).has b = (s.has b && decide (b ≠ a)) :=
  Bool.eq_iff_iff.2 (by rw [AddrSet.has_iff, AddrSet.mem_erase, Bool.and_eq_true, AddrSet.has_iff, decide_eq_true_iff])

/-- Setting a bit keeps the canonical form. -/
theorem AddrSet.insert_wf (s : AddrSet) (a : Nat) (h : AddrSet.wf s) : AddrSet.wf (s.insert a) := by
  induction s with
  | nil => simp [AddrSet.insert, AddrSet.wf]
  | cons k s ih =>
    have hk := (List.pairwise_cons.1 h).1
    have hs : AddrSet.wf s := (List.pairwise_cons.1 h).2
    simp only [AddrSet.insert]
    split
    · refine List.pairwise_cons.2 ⟨fun b hb => ?_, h⟩
      rcases List.mem_cons.1 hb with hb | hb
      · omega
      · have := hk b hb; omega
    · split
      · exact h
      · refine List.pairwise_cons.2 ⟨fun b hb => ?_, ih hs⟩
        rcases (AddrSet.mem_insert s a b).1 hb with hb | hb
        · omega
        · exact hk b hb

/-- Clearing a bit keeps the canonical form. -/
theorem AddrSet.erase_wf (s : AddrSet) (a : Nat) (h : AddrSet.wf s) : AddrSet.wf (s.erase a) :=
  List.Pairwise.filter _ h

/-! ## The controller's memory write -/

/-- What `memWrite` changes (20_memory.md R118): the word, the write-out log and the queue. -/
theorem MemCtl.memWrite_spec (cycle : Nat) (m : MemCtl) (a : Nat) (v : Word) :
    (m.memWrite cycle a v).mem = Mem.write m.mem a v ∧
    (m.memWrite cycle a v).out = m.out ++ [(cycle, a, v)] ∧
    (m.memWrite cycle a v).pfq = m.pfq.filter (fun q => q.addr != a) ∧
    (m.memWrite cycle a v).l1 = m.l1 ∧ (m.memWrite cycle a v).l2 = m.l2 ∧
    (m.memWrite cycle a v).busy = m.busy ∧ (m.memWrite cycle a v).pfMark = m.pfMark ∧
    (m.memWrite cycle a v).cnt = m.cnt :=
  ⟨rfl, rfl, rfl, rfl, rfl, rfl, rfl, rfl⟩

end Sys2Proof.Machine
end

