-- ==== Sys2Proof/Laws/Controller.lean ====
section
/-! SUPPORT. What each operation of the memory controller can do, and that each keeps the canonical form of memory. -/

namespace Sys2Proof.Machine

/-! ## Outcomes -/

/-- A property of the controller an operation leaves, whether it answers or raises. -/
def Ctl.Leaves {α : Type} (P : MemCtl → Prop) : Ctl α → Prop
  | .ok m _ => P m
  | .dup m _ _ => P m

theorem Ctl.Leaves.bind {α β : Type} {P : MemCtl → Prop} {r : Ctl α} {f : MemCtl → α → Ctl β}
    (hr : r.Leaves P) (hf : ∀ m a, P m → (f m a).Leaves P) : (r.bind f).Leaves P := by
  cases r with
  | ok m a => exact hf m a hr
  | dup m l a => exact hr

/-- An answer of a sequence is an answer of its first part and then of its second. -/
theorem Ctl.bind_ok {α β : Type} {r : Ctl α} {f : MemCtl → α → Ctl β} {m : MemCtl} {b : β} :
    r.bind f = .ok m b ↔ ∃ m1 a, r = .ok m1 a ∧ f m1 a = .ok m b := by
  cases r with
  | ok m1 a =>
    constructor
    · intro h
      exact ⟨m1, a, rfl, h⟩
    · rintro ⟨_, _, h1, h2⟩
      cases h1
      exact h2
  | dup m1 l a =>
    constructor
    · intro h
      cases h
    · rintro ⟨_, _, h, _⟩
      cases h

/-! ## One level -/

/-- A found line is a valid line of the addressed row with the addressed tag (20_memory.md R101). -/
theorem CacheLevel.find_some {rows : Nat} {c : CacheLevel} {a w : Nat} {e : CacheEntry}
    (h : c.find rows a = some (w, e)) :
    (c.row (a % rows))[w]? = some e ∧ e.valid = true ∧ e.tag = a / rows := by
  unfold CacheLevel.find at h
  split at h
  · rename_i v hv
    obtain ⟨hlt, hp, _⟩ := List.findIdx?_eq_some_iff_getElem.1 hv
    rw [List.getElem?_eq_getElem hlt] at h
    simp only [Option.map_some, Option.some.injEq, Prod.mk.injEq] at h
    obtain ⟨rfl, rfl⟩ := h
    exact ⟨List.getElem?_eq_getElem hlt, by simpa using hp⟩
  · cases h

/-- Nothing is found exactly when no valid line of the addressed row has the addressed tag (20_memory.md R101). -/
theorem CacheLevel.find_none {rows : Nat} {c : CacheLevel} {a : Nat} :
    c.find rows a = none ↔ ∀ e ∈ c.row (a % rows), ¬(e.valid = true ∧ e.tag = a / rows) := by
  unfold CacheLevel.find
  split
  · rename_i v hv
    obtain ⟨hlt, hp, _⟩ := List.findIdx?_eq_some_iff_getElem.1 hv
    rw [List.getElem?_eq_getElem hlt]
    simp only [Option.map_some, reduceCtorEq, false_iff, not_forall]
    exact ⟨_, List.getElem_mem hlt, fun h => h (by simpa using hp)⟩
  · rename_i hv
    rw [List.findIdx?_eq_none_iff] at hv
    simpa using hv

@[simp] theorem CacheLevel.touch_lines (c : CacheLevel) (r w : Nat) : (c.touch r w).lines = c.lines := rfl
@[simp] theorem CacheLevel.touch_row (c : CacheLevel) (r w q : Nat) : (c.touch r w).row q = c.row q := rfl
@[simp] theorem CacheLevel.setLine_ranks (c : CacheLevel) (r w : Nat) (e : CacheEntry) :
    (c.setLine r w e).ranks = c.ranks := rfl
@[simp] theorem CacheLevel.touch_find (rows : Nat) (c : CacheLevel) (r w a : Nat) :
    (c.touch r w).find rows a = c.find rows a := rfl

/-- Recency does not decide what is found. -/
theorem CacheLevel.find_congr_lines {rows : Nat} {c d : CacheLevel} (h : c.lines = d.lines) (a : Nat) :
    c.find rows a = d.find rows a := by
  unfold CacheLevel.find CacheLevel.row
  rw [h]

/-! ## Eviction, fill, write-back -/

/-- What an eviction at level 2 can do (R110, R111, R115): nothing, or drop a clean line, or write a dirty line to memory;
level 2 itself is not changed. -/
theorem MemCtl.evict2_cases (cfg : Config) (cycle : Nat) (m : MemCtl) (a : Nat) :
    (m.l2.victimLine cfg.l2Rows a = none ∧ m.evict2 cfg cycle a = m) ∨
    (∃ oa ov, m.l2.victimLine cfg.l2Rows a = some (oa, ov, false) ∧
      m.evict2 cfg cycle a = { m with pfMark := m.pfMark.erase oa }) ∨
    (∃ oa ov, m.l2.victimLine cfg.l2Rows a = some (oa, ov, true) ∧
      m.evict2 cfg cycle a = { m.memWrite cycle oa ov with pfMark := m.pfMark.erase oa }) := by
  unfold MemCtl.evict2
  split
  · exact .inr (.inr ⟨_, _, by assumption, rfl⟩)
  · exact .inr (.inl ⟨_, _, by assumption, rfl⟩)
  · exact .inl ⟨by assumption, rfl⟩

@[simp] theorem MemCtl.evict2_l1 (cfg : Config) (cycle : Nat) (m : MemCtl) (a : Nat) :
    (m.evict2 cfg cycle a).l1 = m.l1 := by
  rcases m.evict2_cases cfg cycle a with ⟨_, h⟩ | ⟨_, _, _, h⟩ | ⟨_, _, _, h⟩ <;> (simp only [h, MemCtl.memWrite_spec])

@[simp] theorem MemCtl.evict2_l2 (cfg : Config) (cycle : Nat) (m : MemCtl) (a : Nat) :
    (m.evict2 cfg cycle a).l2 = m.l2 := by
  rcases m.evict2_cases cfg cycle a with ⟨_, h⟩ | ⟨_, _, _, h⟩ | ⟨_, _, _, h⟩ <;> (simp only [h, MemCtl.memWrite_spec])

@[simp] theorem MemCtl.evict2_busy (cfg : Config) (cycle : Nat) (m : MemCtl) (a : Nat) :
    (m.evict2 cfg cycle a).busy = m.busy := by
  rcases m.evict2_cases cfg cycle a with ⟨_, h⟩ | ⟨_, _, _, h⟩ | ⟨_, _, _, h⟩ <;> (simp only [h, MemCtl.memWrite_spec])

@[simp] theorem MemCtl.evict2_cnt (cfg : Config) (cycle : Nat) (m : MemCtl) (a : Nat) :
    (m.evict2 cfg cycle a).cnt = m.cnt := by
  rcases m.evict2_cases cfg cycle a with ⟨_, h⟩ | ⟨_, _, _, h⟩ | ⟨_, _, _, h⟩ <;> (simp only [h, MemCtl.memWrite_spec])

/-- A fill of level 2 answers exactly when level 2 does not hold the address (R110). -/
theorem MemCtl.fill2_ok (cfg : Config) (cycle : Nat) (m m' : MemCtl) (a : Nat) (v : Word) (d : Bool) (u : Unit) :
    m.fill2 cfg cycle a v d = .ok m' u ↔
      m.l2.holds cfg.l2Rows a = false ∧
        m' = { m.evict2 cfg cycle a with l2 := m.l2.put cfg.l2Rows a v d } := by
  unfold MemCtl.fill2
  split
  · rename_i h
    constructor
    · intro e
      cases e
    · rintro ⟨e, _⟩
      rw [e] at h
      cases h
  · rename_i h
    rw [Bool.not_eq_true] at h
    constructor
    · intro e
      cases e
      exact ⟨h, by rw [MemCtl.evict2_l2]⟩
    · rintro ⟨_, rfl⟩
      dsimp only
      rw [MemCtl.evict2_l2]

/-- A fill of level 1 (R110): its victim is evicted first. -/
theorem MemCtl.fill1_ok (cfg : Config) (cycle : Nat) (m m' : MemCtl) (a : Nat) (v : Word) (d : Bool) (u : Unit) :
    m.fill1 cfg cycle a v d = .ok m' u ↔
      m.l1.holds cfg.l1Rows a = false ∧
        ∃ m1, m.evict1 cfg cycle a = .ok m1 () ∧ m' = { m1 with l1 := m1.l1.put cfg.l1Rows a v d } := by
  unfold MemCtl.fill1
  split
  · rename_i h
    constructor
    · intro e
      cases e
    · rintro ⟨e, _⟩
      rw [e] at h
      cases h
  · rename_i h
    rw [Bool.not_eq_true] at h
    rw [Ctl.bind_ok]
    constructor
    · rintro ⟨m1, _, h1, e⟩
      cases e
      exact ⟨h, m1, h1, rfl⟩
    · rintro ⟨_, m1, h1, rfl⟩
      exact ⟨m1, (), h1, rfl⟩

/-! ## The canonical form of memory -/

theorem MemCtl.evict2_memWf (cfg : Config) (cycle : Nat) (m : MemCtl) (a : Nat) (h : Mem.wf m.mem) :
    Mem.wf (m.evict2 cfg cycle a).mem := by
  rcases m.evict2_cases cfg cycle a with ⟨_, e⟩ | ⟨_, _, _, e⟩ | ⟨_, _, _, e⟩
  · rw [e]; exact h
  · rw [e]; exact h
  · rw [e]; exact Mem.write_wf _ _ _ h

theorem MemCtl.fill2_memWf (cfg : Config) (cycle : Nat) (m : MemCtl) (a : Nat) (v : Word) (d : Bool)
    (h : Mem.wf m.mem) : (m.fill2 cfg cycle a v d).Leaves (fun m => Mem.wf m.mem) := by
  unfold MemCtl.fill2
  split
  · exact h
  · exact MemCtl.evict2_memWf cfg cycle m a h

theorem MemCtl.writeback2_memWf (cfg : Config) (cycle : Nat) (m : MemCtl) (a : Nat) (v : Word)
    (h : Mem.wf m.mem) : (m.writeback2 cfg cycle a v).Leaves (fun m => Mem.wf m.mem) := by
  unfold MemCtl.writeback2
  split
  · exact h
  · exact MemCtl.fill2_memWf cfg cycle m a v true h

theorem MemCtl.evict1_memWf (cfg : Config) (cycle : Nat) (m : MemCtl) (a : Nat) (h : Mem.wf m.mem) :
    (m.evict1 cfg cycle a).Leaves (fun m => Mem.wf m.mem) := by
  unfold MemCtl.evict1
  split
  · exact MemCtl.writeback2_memWf cfg cycle m _ _ h
  · exact h
  · exact h

theorem MemCtl.fill1_memWf (cfg : Config) (cycle : Nat) (m : MemCtl) (a : Nat) (v : Word) (d : Bool)
    (h : Mem.wf m.mem) : (m.fill1 cfg cycle a v d).Leaves (fun m => Mem.wf m.mem) := by
  unfold MemCtl.fill1
  split
  · exact h
  · exact (MemCtl.evict1_memWf cfg cycle m a h).bind (fun _ _ h => h)

theorem MemCtl.readHit2_memWf (cfg : Config) (cycle : Nat) (m : MemCtl) (a w : Nat) (e : CacheEntry)
    (h : Mem.wf m.mem) : (m.readHit2 cfg cycle a w e).Leaves (fun m => Mem.wf m.mem) := by
  unfold MemCtl.readHit2
  refine (MemCtl.fill1_memWf cfg cycle _ a e.value false ?_).bind (fun _ _ h => h)
  split <;> exact h

theorem MemCtl.readMiss_memWf (cfg : Config) (cycle : Nat) (m : MemCtl) (a : Nat) (h : Mem.wf m.mem) :
    (m.readMiss cfg cycle a).Leaves (fun m => Mem.wf m.mem) := by
  unfold MemCtl.readMiss
  refine (MemCtl.fill2_memWf cfg cycle _ a _ false ?_).bind fun m2 _ h2 => ?_
  · exact h
  · exact (MemCtl.fill1_memWf cfg cycle m2 a _ false h2).bind (fun _ _ h => h)

/-- A demand read keeps the canonical form. -/
theorem MemCtl.read_memWf (cfg : Config) (cycle : Nat) (m : MemCtl) (a : Nat) (h : Mem.wf m.mem) :
    (m.read cfg cycle a).Leaves (fun m => Mem.wf m.mem) := by
  unfold MemCtl.read
  split
  · exact h
  · dsimp only
    split
    · exact MemCtl.readHit2_memWf cfg cycle _ a _ _ h
    · exact MemCtl.readMiss_memWf cfg cycle _ a h

/-- A store write keeps the canonical form. -/
theorem MemCtl.write_memWf (cfg : Config) (cycle : Nat) (m : MemCtl) (a : Nat) (v : Word) (h : Mem.wf m.mem) :
    (m.write cfg cycle a v).Leaves (fun m => Mem.wf m.mem) := by
  unfold MemCtl.write
  split
  · exact h
  · exact MemCtl.fill1_memWf cfg cycle m a v true h

theorem MemCtl.pfInstall_memWf (cfg : Config) (cycle : Nat) (m : MemCtl) (q : PfReq) (h : Mem.wf m.mem) :
    (m.pfInstall cfg cycle q).Leaves (fun m => Mem.wf m.mem) := by
  unfold MemCtl.pfInstall
  split
  · exact h
  · exact (MemCtl.fill2_memWf cfg cycle m q.addr q.value false h).bind (fun _ _ h => h)

theorem MemCtl.pfDrain_memWf (cfg : Config) (cycle : Nat) (m : MemCtl) (qs : List PfReq) (h : Mem.wf m.mem) :
    (m.pfDrain cfg cycle qs).Leaves (fun m => Mem.wf m.mem) := by
  induction qs generalizing m with
  | nil => exact h
  | cons q qs ih =>
    unfold MemCtl.pfDrain
    split
    · exact (MemCtl.pfInstall_memWf cfg cycle { m with pfq := m.pfq.erase q } q h).bind (fun m' _ h' => ih m' h')
    · exact ih m h

/-- A prefetch tick keeps the canonical form. -/
theorem MemCtl.pfTick_memWf (cfg : Config) (cycle : Nat) (m : MemCtl) (h : Mem.wf m.mem) :
    (m.pfTick cfg cycle).Leaves (fun m => Mem.wf m.mem) :=
  MemCtl.pfDrain_memWf cfg cycle _ _ h

/-- Issuing a prefetch writes no memory. -/
@[simp] theorem MemCtl.pfIssue_mem (cfg : Config) (cycle : Nat) (m : MemCtl) (a : Nat) :
    (m.pfIssue cfg cycle a).mem = m.mem := by
  unfold MemCtl.pfIssue
  dsimp only
  split
  · rfl
  · split
    · rfl
    · split <;> rfl

end Sys2Proof.Machine
end

