-- ==== Sys2Proof/Laws/State.lean ====
section
/-! SUPPORT. One lemma per field per update of the state, so that no proof unfolds a record update. -/

namespace Sys2Proof.Machine

variable (s : State)

/-! ## A modified list at a known element -/

theorem modify_eq_set {α : Type} {l : List α} {n : Nat} {a : α} (f : α → α) (h : l[n]? = some a) :
    l.modify n f = l.set n (f a) := by
  apply List.ext_getElem?
  intro i
  rw [List.getElem?_modify, List.getElem?_set]
  by_cases hi : n = i
  · subst hi
    obtain ⟨hn, rfl⟩ := List.getElem?_eq_some_iff.1 h
    simp [hn]
  · simp [hi]

/-! ## `raise` -/

@[simp] theorem State.raise_cfg (info : FaultInfo) : (s.raise info).cfg = s.cfg := rfl
@[simp] theorem State.raise_x (info : FaultInfo) : (s.raise info).x = s.x := rfl
@[simp] theorem State.raise_link (info : FaultInfo) : (s.raise info).link = s.link := rfl
@[simp] theorem State.raise_table (info : FaultInfo) : (s.raise info).table = s.table := rfl
@[simp] theorem State.raise_decodeErrors (info : FaultInfo) : (s.raise info).decodeErrors = s.decodeErrors := rfl
@[simp] theorem State.raise_rob (info : FaultInfo) : (s.raise info).rob = s.rob := rfl
@[simp] theorem State.raise_robHead (info : FaultInfo) : (s.raise info).robHead = s.robHead := rfl
@[simp] theorem State.raise_robTail (info : FaultInfo) : (s.raise info).robTail = s.robTail := rfl
@[simp] theorem State.raise_addPool (info : FaultInfo) : (s.raise info).addPool = s.addPool := rfl
@[simp] theorem State.raise_mulPool (info : FaultInfo) : (s.raise info).mulPool = s.mulPool := rfl
@[simp] theorem State.raise_lsq (info : FaultInfo) : (s.raise info).lsq = s.lsq := rfl
@[simp] theorem State.raise_mc (info : FaultInfo) : (s.raise info).mc = s.mc := rfl
@[simp] theorem State.raise_cycle (info : FaultInfo) : (s.raise info).cycle = s.cycle := rfl
@[simp] theorem State.raise_status (info : FaultInfo) : (s.raise info).status = .faulted info := rfl
@[simp] theorem State.raise_event (info : FaultInfo) : (s.raise info).event = s.event := rfl

/-! ## `commitReg` -/

@[simp] theorem State.commitReg_cfg (r : RegIdx) (w : Word) (t : Tag) : (s.commitReg r w t).cfg = s.cfg := rfl
@[simp] theorem State.commitReg_x (r : RegIdx) (w : Word) (t : Tag) : (s.commitReg r w t).x = s.x.set r.toNat w := rfl
@[simp] theorem State.commitReg_link (r : RegIdx) (w : Word) (t : Tag) : (s.commitReg r w t).link = if s.link[r.toNat]? = some (some t) then s.link.set r.toNat none else s.link := rfl
@[simp] theorem State.commitReg_table (r : RegIdx) (w : Word) (t : Tag) : (s.commitReg r w t).table = s.table := rfl
@[simp] theorem State.commitReg_decodeErrors (r : RegIdx) (w : Word) (t : Tag) : (s.commitReg r w t).decodeErrors = s.decodeErrors := rfl
@[simp] theorem State.commitReg_rob (r : RegIdx) (w : Word) (t : Tag) : (s.commitReg r w t).rob = s.rob := rfl
@[simp] theorem State.commitReg_robHead (r : RegIdx) (w : Word) (t : Tag) : (s.commitReg r w t).robHead = s.robHead := rfl
@[simp] theorem State.commitReg_robTail (r : RegIdx) (w : Word) (t : Tag) : (s.commitReg r w t).robTail = s.robTail := rfl
@[simp] theorem State.commitReg_addPool (r : RegIdx) (w : Word) (t : Tag) : (s.commitReg r w t).addPool = s.addPool := rfl
@[simp] theorem State.commitReg_mulPool (r : RegIdx) (w : Word) (t : Tag) : (s.commitReg r w t).mulPool = s.mulPool := rfl
@[simp] theorem State.commitReg_lsq (r : RegIdx) (w : Word) (t : Tag) : (s.commitReg r w t).lsq = s.lsq := rfl
@[simp] theorem State.commitReg_mc (r : RegIdx) (w : Word) (t : Tag) : (s.commitReg r w t).mc = s.mc := rfl
@[simp] theorem State.commitReg_cycle (r : RegIdx) (w : Word) (t : Tag) : (s.commitReg r w t).cycle = s.cycle := rfl
@[simp] theorem State.commitReg_status (r : RegIdx) (w : Word) (t : Tag) : (s.commitReg r w t).status = s.status := rfl
@[simp] theorem State.commitReg_event (r : RegIdx) (w : Word) (t : Tag) : (s.commitReg r w t).event = s.event := rfl

/-! ## `updEntry` -/

@[simp] theorem State.updEntry_cfg (n : Nat) (f : Entry → Entry) : (s.updEntry n f).cfg = s.cfg := rfl
@[simp] theorem State.updEntry_x (n : Nat) (f : Entry → Entry) : (s.updEntry n f).x = s.x := rfl
@[simp] theorem State.updEntry_link (n : Nat) (f : Entry → Entry) : (s.updEntry n f).link = s.link := rfl
@[simp] theorem State.updEntry_table (n : Nat) (f : Entry → Entry) : (s.updEntry n f).table = s.table.modify n f := rfl
@[simp] theorem State.updEntry_decodeErrors (n : Nat) (f : Entry → Entry) : (s.updEntry n f).decodeErrors = s.decodeErrors := rfl
@[simp] theorem State.updEntry_rob (n : Nat) (f : Entry → Entry) : (s.updEntry n f).rob = s.rob := rfl
@[simp] theorem State.updEntry_robHead (n : Nat) (f : Entry → Entry) : (s.updEntry n f).robHead = s.robHead := rfl
@[simp] theorem State.updEntry_robTail (n : Nat) (f : Entry → Entry) : (s.updEntry n f).robTail = s.robTail := rfl
@[simp] theorem State.updEntry_addPool (n : Nat) (f : Entry → Entry) : (s.updEntry n f).addPool = s.addPool := rfl
@[simp] theorem State.updEntry_mulPool (n : Nat) (f : Entry → Entry) : (s.updEntry n f).mulPool = s.mulPool := rfl
@[simp] theorem State.updEntry_lsq (n : Nat) (f : Entry → Entry) : (s.updEntry n f).lsq = s.lsq := rfl
@[simp] theorem State.updEntry_mc (n : Nat) (f : Entry → Entry) : (s.updEntry n f).mc = s.mc := rfl
@[simp] theorem State.updEntry_cycle (n : Nat) (f : Entry → Entry) : (s.updEntry n f).cycle = s.cycle := rfl
@[simp] theorem State.updEntry_status (n : Nat) (f : Entry → Entry) : (s.updEntry n f).status = s.status := rfl
@[simp] theorem State.updEntry_event (n : Nat) (f : Entry → Entry) : (s.updEntry n f).event = s.event := rfl

/-! ## `setRobValue` -/

@[simp] theorem State.setRobValue_cfg (t : Tag) (v : RobValue) : (s.setRobValue t v).cfg = s.cfg := rfl
@[simp] theorem State.setRobValue_x (t : Tag) (v : RobValue) : (s.setRobValue t v).x = s.x := rfl
@[simp] theorem State.setRobValue_link (t : Tag) (v : RobValue) : (s.setRobValue t v).link = s.link := rfl
@[simp] theorem State.setRobValue_table (t : Tag) (v : RobValue) : (s.setRobValue t v).table = s.table := rfl
@[simp] theorem State.setRobValue_decodeErrors (t : Tag) (v : RobValue) : (s.setRobValue t v).decodeErrors = s.decodeErrors := rfl
@[simp] theorem State.setRobValue_rob (t : Tag) (v : RobValue) : (s.setRobValue t v).rob = s.rob.modify t (fun e => e.map (fun e => { e with value := v })) := rfl
@[simp] theorem State.setRobValue_robHead (t : Tag) (v : RobValue) : (s.setRobValue t v).robHead = s.robHead := rfl
@[simp] theorem State.setRobValue_robTail (t : Tag) (v : RobValue) : (s.setRobValue t v).robTail = s.robTail := rfl
@[simp] theorem State.setRobValue_addPool (t : Tag) (v : RobValue) : (s.setRobValue t v).addPool = s.addPool := rfl
@[simp] theorem State.setRobValue_mulPool (t : Tag) (v : RobValue) : (s.setRobValue t v).mulPool = s.mulPool := rfl
@[simp] theorem State.setRobValue_lsq (t : Tag) (v : RobValue) : (s.setRobValue t v).lsq = s.lsq := rfl
@[simp] theorem State.setRobValue_mc (t : Tag) (v : RobValue) : (s.setRobValue t v).mc = s.mc := rfl
@[simp] theorem State.setRobValue_cycle (t : Tag) (v : RobValue) : (s.setRobValue t v).cycle = s.cycle := rfl
@[simp] theorem State.setRobValue_status (t : Tag) (v : RobValue) : (s.setRobValue t v).status = s.status := rfl
@[simp] theorem State.setRobValue_event (t : Tag) (v : RobValue) : (s.setRobValue t v).event = s.event := rfl

/-! ## `retire` -/

@[simp] theorem State.retire_cfg (n : Nat) : (s.retire n).cfg = s.cfg := rfl
@[simp] theorem State.retire_x (n : Nat) : (s.retire n).x = s.x := rfl
@[simp] theorem State.retire_link (n : Nat) : (s.retire n).link = s.link := rfl
@[simp] theorem State.retire_table (n : Nat) : (s.retire n).table = s.table.modify n (fun t => { t with state := .commit, tCommit := some s.cycle }) := rfl
@[simp] theorem State.retire_decodeErrors (n : Nat) : (s.retire n).decodeErrors = s.decodeErrors := rfl
@[simp] theorem State.retire_rob (n : Nat) : (s.retire n).rob = s.rob.set s.robTail none := rfl
@[simp] theorem State.retire_robHead (n : Nat) : (s.retire n).robHead = s.robHead := rfl
@[simp] theorem State.retire_robTail (n : Nat) : (s.retire n).robTail = s.nextSlot s.robTail := rfl
@[simp] theorem State.retire_addPool (n : Nat) : (s.retire n).addPool = s.addPool := rfl
@[simp] theorem State.retire_mulPool (n : Nat) : (s.retire n).mulPool = s.mulPool := rfl
@[simp] theorem State.retire_lsq (n : Nat) : (s.retire n).lsq = s.lsq := rfl
@[simp] theorem State.retire_mc (n : Nat) : (s.retire n).mc = s.mc := rfl
@[simp] theorem State.retire_cycle (n : Nat) : (s.retire n).cycle = s.cycle := rfl
@[simp] theorem State.retire_status (n : Nat) : (s.retire n).status = s.status := rfl
@[simp] theorem State.retire_event (n : Nat) : (s.retire n).event = s.event := rfl

/-! ## `mapStations` -/

@[simp] theorem State.mapStations_cfg (f : RsEntry → RsEntry) : (s.mapStations f).cfg = s.cfg := rfl
@[simp] theorem State.mapStations_x (f : RsEntry → RsEntry) : (s.mapStations f).x = s.x := rfl
@[simp] theorem State.mapStations_link (f : RsEntry → RsEntry) : (s.mapStations f).link = s.link := rfl
@[simp] theorem State.mapStations_table (f : RsEntry → RsEntry) : (s.mapStations f).table = s.table := rfl
@[simp] theorem State.mapStations_decodeErrors (f : RsEntry → RsEntry) : (s.mapStations f).decodeErrors = s.decodeErrors := rfl
@[simp] theorem State.mapStations_rob (f : RsEntry → RsEntry) : (s.mapStations f).rob = s.rob := rfl
@[simp] theorem State.mapStations_robHead (f : RsEntry → RsEntry) : (s.mapStations f).robHead = s.robHead := rfl
@[simp] theorem State.mapStations_robTail (f : RsEntry → RsEntry) : (s.mapStations f).robTail = s.robTail := rfl
@[simp] theorem State.mapStations_addPool (f : RsEntry → RsEntry) : (s.mapStations f).addPool = Pool.mapLive f s.addPool := rfl
@[simp] theorem State.mapStations_mulPool (f : RsEntry → RsEntry) : (s.mapStations f).mulPool = Pool.mapLive f s.mulPool := rfl
@[simp] theorem State.mapStations_lsq (f : RsEntry → RsEntry) : (s.mapStations f).lsq = Pool.mapLive f s.lsq := rfl
@[simp] theorem State.mapStations_mc (f : RsEntry → RsEntry) : (s.mapStations f).mc = s.mc := rfl
@[simp] theorem State.mapStations_cycle (f : RsEntry → RsEntry) : (s.mapStations f).cycle = s.cycle := rfl
@[simp] theorem State.mapStations_status (f : RsEntry → RsEntry) : (s.mapStations f).status = s.status := rfl
@[simp] theorem State.mapStations_event (f : RsEntry → RsEntry) : (s.mapStations f).event = s.event := rfl

/-! ## `clearSettle` -/

@[simp] theorem State.clearSettle_cfg : (s.clearSettle).cfg = s.cfg := rfl
@[simp] theorem State.clearSettle_x : (s.clearSettle).x = s.x := rfl
@[simp] theorem State.clearSettle_link : (s.clearSettle).link = s.link := rfl
@[simp] theorem State.clearSettle_table : (s.clearSettle).table = s.table := rfl
@[simp] theorem State.clearSettle_decodeErrors : (s.clearSettle).decodeErrors = s.decodeErrors := rfl
@[simp] theorem State.clearSettle_rob : (s.clearSettle).rob = s.rob := rfl
@[simp] theorem State.clearSettle_robHead : (s.clearSettle).robHead = s.robHead := rfl
@[simp] theorem State.clearSettle_robTail : (s.clearSettle).robTail = s.robTail := rfl
@[simp] theorem State.clearSettle_addPool : (s.clearSettle).addPool = Pool.mapLive (fun e => { e with settle := false }) s.addPool := rfl
@[simp] theorem State.clearSettle_mulPool : (s.clearSettle).mulPool = Pool.mapLive (fun e => { e with settle := false }) s.mulPool := rfl
@[simp] theorem State.clearSettle_lsq : (s.clearSettle).lsq = Pool.mapLive (fun e => { e with settle := false }) s.lsq := rfl
@[simp] theorem State.clearSettle_mc : (s.clearSettle).mc = s.mc := rfl
@[simp] theorem State.clearSettle_cycle : (s.clearSettle).cycle = s.cycle := rfl
@[simp] theorem State.clearSettle_status : (s.clearSettle).status = s.status := rfl
@[simp] theorem State.clearSettle_event : (s.clearSettle).event = s.event := rfl

/-! ## `reportDiv0` -/

@[simp] theorem State.reportDiv0_cfg (n : Nat) : (s.reportDiv0 n).cfg = s.cfg := rfl
@[simp] theorem State.reportDiv0_x (n : Nat) : (s.reportDiv0 n).x = s.x := rfl
@[simp] theorem State.reportDiv0_link (n : Nat) : (s.reportDiv0 n).link = s.link := rfl
@[simp] theorem State.reportDiv0_table (n : Nat) : (s.reportDiv0 n).table = s.table.modify n (fun t => { t with div0 := true }) := rfl
@[simp] theorem State.reportDiv0_decodeErrors (n : Nat) : (s.reportDiv0 n).decodeErrors = s.decodeErrors := rfl
@[simp] theorem State.reportDiv0_rob (n : Nat) : (s.reportDiv0 n).rob = s.rob := rfl
@[simp] theorem State.reportDiv0_robHead (n : Nat) : (s.reportDiv0 n).robHead = s.robHead := rfl
@[simp] theorem State.reportDiv0_robTail (n : Nat) : (s.reportDiv0 n).robTail = s.robTail := rfl
@[simp] theorem State.reportDiv0_addPool (n : Nat) : (s.reportDiv0 n).addPool = s.addPool := rfl
@[simp] theorem State.reportDiv0_mulPool (n : Nat) : (s.reportDiv0 n).mulPool = s.mulPool := rfl
@[simp] theorem State.reportDiv0_lsq (n : Nat) : (s.reportDiv0 n).lsq = s.lsq := rfl
@[simp] theorem State.reportDiv0_mc (n : Nat) : (s.reportDiv0 n).mc = { s.mc with cnt := { s.mc.cnt with div0 := s.mc.cnt.div0 + 1 } } := rfl
@[simp] theorem State.reportDiv0_cycle (n : Nat) : (s.reportDiv0 n).cycle = s.cycle := rfl
@[simp] theorem State.reportDiv0_status (n : Nat) : (s.reportDiv0 n).status = s.status := rfl
@[simp] theorem State.reportDiv0_event (n : Nat) : (s.reportDiv0 n).event = s.event := rfl

/-! ## `setBusy` -/

@[simp] theorem State.setBusy_cfg (ea : Word) : (s.setBusy ea).cfg = s.cfg := rfl
@[simp] theorem State.setBusy_x (ea : Word) : (s.setBusy ea).x = s.x := rfl
@[simp] theorem State.setBusy_link (ea : Word) : (s.setBusy ea).link = s.link := rfl
@[simp] theorem State.setBusy_table (ea : Word) : (s.setBusy ea).table = s.table := rfl
@[simp] theorem State.setBusy_decodeErrors (ea : Word) : (s.setBusy ea).decodeErrors = s.decodeErrors := rfl
@[simp] theorem State.setBusy_rob (ea : Word) : (s.setBusy ea).rob = s.rob := rfl
@[simp] theorem State.setBusy_robHead (ea : Word) : (s.setBusy ea).robHead = s.robHead := rfl
@[simp] theorem State.setBusy_robTail (ea : Word) : (s.setBusy ea).robTail = s.robTail := rfl
@[simp] theorem State.setBusy_addPool (ea : Word) : (s.setBusy ea).addPool = s.addPool := rfl
@[simp] theorem State.setBusy_mulPool (ea : Word) : (s.setBusy ea).mulPool = s.mulPool := rfl
@[simp] theorem State.setBusy_lsq (ea : Word) : (s.setBusy ea).lsq = s.lsq := rfl
@[simp] theorem State.setBusy_mc (ea : Word) : (s.setBusy ea).mc = { s.mc with busy := s.mc.busy.insert ea.toNat } := rfl
@[simp] theorem State.setBusy_cycle (ea : Word) : (s.setBusy ea).cycle = s.cycle := rfl
@[simp] theorem State.setBusy_status (ea : Word) : (s.setBusy ea).status = s.status := rfl
@[simp] theorem State.setBusy_event (ea : Word) : (s.setBusy ea).event = s.event := rfl

/-! ## `clearBusy` -/

@[simp] theorem State.clearBusy_cfg (ea : Word) : (s.clearBusy ea).cfg = s.cfg := rfl
@[simp] theorem State.clearBusy_x (ea : Word) : (s.clearBusy ea).x = s.x := rfl
@[simp] theorem State.clearBusy_link (ea : Word) : (s.clearBusy ea).link = s.link := rfl
@[simp] theorem State.clearBusy_table (ea : Word) : (s.clearBusy ea).table = s.table := rfl
@[simp] theorem State.clearBusy_decodeErrors (ea : Word) : (s.clearBusy ea).decodeErrors = s.decodeErrors := rfl
@[simp] theorem State.clearBusy_rob (ea : Word) : (s.clearBusy ea).rob = s.rob := rfl
@[simp] theorem State.clearBusy_robHead (ea : Word) : (s.clearBusy ea).robHead = s.robHead := rfl
@[simp] theorem State.clearBusy_robTail (ea : Word) : (s.clearBusy ea).robTail = s.robTail := rfl
@[simp] theorem State.clearBusy_addPool (ea : Word) : (s.clearBusy ea).addPool = s.addPool := rfl
@[simp] theorem State.clearBusy_mulPool (ea : Word) : (s.clearBusy ea).mulPool = s.mulPool := rfl
@[simp] theorem State.clearBusy_lsq (ea : Word) : (s.clearBusy ea).lsq = s.lsq := rfl
@[simp] theorem State.clearBusy_mc (ea : Word) : (s.clearBusy ea).mc = { s.mc with busy := s.mc.busy.erase ea.toNat } := rfl
@[simp] theorem State.clearBusy_cycle (ea : Word) : (s.clearBusy ea).cycle = s.cycle := rfl
@[simp] theorem State.clearBusy_status (ea : Word) : (s.clearBusy ea).status = s.status := rfl
@[simp] theorem State.clearBusy_event (ea : Word) : (s.clearBusy ea).event = s.event := rfl

/-! ## `markBroadcast` -/

@[simp] theorem State.markBroadcast_cfg (n : Nat) : (s.markBroadcast n).cfg = s.cfg := rfl
@[simp] theorem State.markBroadcast_x (n : Nat) : (s.markBroadcast n).x = s.x := rfl
@[simp] theorem State.markBroadcast_link (n : Nat) : (s.markBroadcast n).link = s.link := rfl
@[simp] theorem State.markBroadcast_table (n : Nat) : (s.markBroadcast n).table = s.table.modify n (fun t => { t with state := .broadcast, tBroadcast := some s.cycle }) := rfl
@[simp] theorem State.markBroadcast_decodeErrors (n : Nat) : (s.markBroadcast n).decodeErrors = s.decodeErrors := rfl
@[simp] theorem State.markBroadcast_rob (n : Nat) : (s.markBroadcast n).rob = s.rob := rfl
@[simp] theorem State.markBroadcast_robHead (n : Nat) : (s.markBroadcast n).robHead = s.robHead := rfl
@[simp] theorem State.markBroadcast_robTail (n : Nat) : (s.markBroadcast n).robTail = s.robTail := rfl
@[simp] theorem State.markBroadcast_addPool (n : Nat) : (s.markBroadcast n).addPool = s.addPool := rfl
@[simp] theorem State.markBroadcast_mulPool (n : Nat) : (s.markBroadcast n).mulPool = s.mulPool := rfl
@[simp] theorem State.markBroadcast_lsq (n : Nat) : (s.markBroadcast n).lsq = s.lsq := rfl
@[simp] theorem State.markBroadcast_mc (n : Nat) : (s.markBroadcast n).mc = s.mc := rfl
@[simp] theorem State.markBroadcast_cycle (n : Nat) : (s.markBroadcast n).cycle = s.cycle := rfl
@[simp] theorem State.markBroadcast_status (n : Nat) : (s.markBroadcast n).status = s.status := rfl
@[simp] theorem State.markBroadcast_event (n : Nat) : (s.markBroadcast n).event = s.event := rfl

/-! ## `setPool` and `pool` -/

@[simp] theorem State.setPool_cfg (p : PoolId) (slots : Pool) : (s.setPool p slots).cfg = s.cfg := by cases p <;> rfl
@[simp] theorem State.setPool_x (p : PoolId) (slots : Pool) : (s.setPool p slots).x = s.x := by cases p <;> rfl
@[simp] theorem State.setPool_link (p : PoolId) (slots : Pool) : (s.setPool p slots).link = s.link := by cases p <;> rfl
@[simp] theorem State.setPool_table (p : PoolId) (slots : Pool) : (s.setPool p slots).table = s.table := by cases p <;> rfl
@[simp] theorem State.setPool_decodeErrors (p : PoolId) (slots : Pool) : (s.setPool p slots).decodeErrors = s.decodeErrors := by cases p <;> rfl
@[simp] theorem State.setPool_rob (p : PoolId) (slots : Pool) : (s.setPool p slots).rob = s.rob := by cases p <;> rfl
@[simp] theorem State.setPool_robHead (p : PoolId) (slots : Pool) : (s.setPool p slots).robHead = s.robHead := by cases p <;> rfl
@[simp] theorem State.setPool_robTail (p : PoolId) (slots : Pool) : (s.setPool p slots).robTail = s.robTail := by cases p <;> rfl
@[simp] theorem State.setPool_mc (p : PoolId) (slots : Pool) : (s.setPool p slots).mc = s.mc := by cases p <;> rfl
@[simp] theorem State.setPool_cycle (p : PoolId) (slots : Pool) : (s.setPool p slots).cycle = s.cycle := by cases p <;> rfl
@[simp] theorem State.setPool_status (p : PoolId) (slots : Pool) : (s.setPool p slots).status = s.status := by cases p <;> rfl
@[simp] theorem State.setPool_event (p : PoolId) (slots : Pool) : (s.setPool p slots).event = s.event := by cases p <;> rfl
@[simp] theorem State.setPool_add_addPool (slots : Pool) : (s.setPool .add slots).addPool = slots := rfl
@[simp] theorem State.setPool_mul_addPool (slots : Pool) : (s.setPool .mul slots).addPool = s.addPool := rfl
@[simp] theorem State.setPool_lsq_addPool (slots : Pool) : (s.setPool .lsq slots).addPool = s.addPool := rfl
@[simp] theorem State.setPool_add_mulPool (slots : Pool) : (s.setPool .add slots).mulPool = s.mulPool := rfl
@[simp] theorem State.setPool_mul_mulPool (slots : Pool) : (s.setPool .mul slots).mulPool = slots := rfl
@[simp] theorem State.setPool_lsq_mulPool (slots : Pool) : (s.setPool .lsq slots).mulPool = s.mulPool := rfl
@[simp] theorem State.setPool_add_lsq (slots : Pool) : (s.setPool .add slots).lsq = s.lsq := rfl
@[simp] theorem State.setPool_mul_lsq (slots : Pool) : (s.setPool .mul slots).lsq = s.lsq := rfl
@[simp] theorem State.setPool_lsq_lsq (slots : Pool) : (s.setPool .lsq slots).lsq = slots := rfl
@[simp] theorem State.pool_add : s.pool .add = s.addPool := rfl
@[simp] theorem State.pool_mul : s.pool .mul = s.mulPool := rfl
@[simp] theorem State.pool_lsq : s.pool .lsq = s.lsq := rfl
@[simp] theorem State.pool_setPool_same (p : PoolId) (slots : Pool) : (s.setPool p slots).pool p = slots := by cases p <;> rfl
@[simp] theorem State.pool_setPool_other (p q : PoolId) (h : q ≠ p) (slots : Pool) : (s.setPool p slots).pool q = s.pool q := by
  cases p <;> cases q <;> first | rfl | exact absurd rfl h
@[simp] theorem State.pool_updEntry (p : PoolId) (n : Nat) (f : Entry → Entry) : (s.updEntry n f).pool p = s.pool p := by cases p <;> rfl
@[simp] theorem State.pool_mapStations (p : PoolId) (f : RsEntry → RsEntry) :
    (s.mapStations f).pool p = Pool.mapLive f (s.pool p) := by cases p <;> rfl

/-! ## `beginExec`, `startArith` and `issue` -/

@[simp] theorem State.beginExec_cfg (p : PoolId) (k n : Nat) (f : Entry → Entry) :
    (s.beginExec p k n f).cfg = s.cfg := by cases p <;> rfl
@[simp] theorem State.beginExec_x (p : PoolId) (k n : Nat) (f : Entry → Entry) :
    (s.beginExec p k n f).x = s.x := by cases p <;> rfl
@[simp] theorem State.beginExec_link (p : PoolId) (k n : Nat) (f : Entry → Entry) :
    (s.beginExec p k n f).link = s.link := by cases p <;> rfl
@[simp] theorem State.beginExec_table (p : PoolId) (k n : Nat) (f : Entry → Entry) :
    (s.beginExec p k n f).table = s.table.modify n (fun t => { f t with state := .executeStart, tExecStart := some s.cycle }) := by cases p <;> rfl
@[simp] theorem State.beginExec_decodeErrors (p : PoolId) (k n : Nat) (f : Entry → Entry) :
    (s.beginExec p k n f).decodeErrors = s.decodeErrors := by cases p <;> rfl
@[simp] theorem State.beginExec_rob (p : PoolId) (k n : Nat) (f : Entry → Entry) :
    (s.beginExec p k n f).rob = s.rob := by cases p <;> rfl
@[simp] theorem State.beginExec_robHead (p : PoolId) (k n : Nat) (f : Entry → Entry) :
    (s.beginExec p k n f).robHead = s.robHead := by cases p <;> rfl
@[simp] theorem State.beginExec_robTail (p : PoolId) (k n : Nat) (f : Entry → Entry) :
    (s.beginExec p k n f).robTail = s.robTail := by cases p <;> rfl
@[simp] theorem State.beginExec_mc (p : PoolId) (k n : Nat) (f : Entry → Entry) :
    (s.beginExec p k n f).mc = s.mc := by cases p <;> rfl
@[simp] theorem State.beginExec_cycle (p : PoolId) (k n : Nat) (f : Entry → Entry) :
    (s.beginExec p k n f).cycle = s.cycle := by cases p <;> rfl
@[simp] theorem State.beginExec_status (p : PoolId) (k n : Nat) (f : Entry → Entry) :
    (s.beginExec p k n f).status = s.status := by cases p <;> rfl
@[simp] theorem State.beginExec_event (p : PoolId) (k n : Nat) (f : Entry → Entry) :
    (s.beginExec p k n f).event = s.event := by cases p <;> rfl
@[simp] theorem State.beginExec_pool_same (p : PoolId) (k n : Nat) (f : Entry → Entry) :
    (s.beginExec p k n f).pool p = (s.pool p).set k none := by cases p <;> rfl
@[simp] theorem State.beginExec_pool_other (p q : PoolId) (h : q ≠ p) (k n : Nat) (f : Entry → Entry) :
    (s.beginExec p k n f).pool q = s.pool q := by
  cases p <;> cases q <;> first | rfl | exact absurd rfl h
@[simp] theorem State.startArith_cfg (p : PoolId) (k n : Nat) (r : Word) (lat : Nat) :
    (s.startArith p k n r lat).cfg = s.cfg := by cases p <;> rfl
@[simp] theorem State.startArith_x (p : PoolId) (k n : Nat) (r : Word) (lat : Nat) :
    (s.startArith p k n r lat).x = s.x := by cases p <;> rfl
@[simp] theorem State.startArith_link (p : PoolId) (k n : Nat) (r : Word) (lat : Nat) :
    (s.startArith p k n r lat).link = s.link := by cases p <;> rfl
@[simp] theorem State.startArith_table (p : PoolId) (k n : Nat) (r : Word) (lat : Nat) :
    (s.startArith p k n r lat).table = s.table.modify n (fun t => { t with result := some r, count := lat, state := .executeStart, tExecStart := some s.cycle }) := by cases p <;> rfl
@[simp] theorem State.startArith_decodeErrors (p : PoolId) (k n : Nat) (r : Word) (lat : Nat) :
    (s.startArith p k n r lat).decodeErrors = s.decodeErrors := by cases p <;> rfl
@[simp] theorem State.startArith_rob (p : PoolId) (k n : Nat) (r : Word) (lat : Nat) :
    (s.startArith p k n r lat).rob = s.rob := by cases p <;> rfl
@[simp] theorem State.startArith_robHead (p : PoolId) (k n : Nat) (r : Word) (lat : Nat) :
    (s.startArith p k n r lat).robHead = s.robHead := by cases p <;> rfl
@[simp] theorem State.startArith_robTail (p : PoolId) (k n : Nat) (r : Word) (lat : Nat) :
    (s.startArith p k n r lat).robTail = s.robTail := by cases p <;> rfl
@[simp] theorem State.startArith_mc (p : PoolId) (k n : Nat) (r : Word) (lat : Nat) :
    (s.startArith p k n r lat).mc = s.mc := by cases p <;> rfl
@[simp] theorem State.startArith_cycle (p : PoolId) (k n : Nat) (r : Word) (lat : Nat) :
    (s.startArith p k n r lat).cycle = s.cycle := by cases p <;> rfl
@[simp] theorem State.startArith_status (p : PoolId) (k n : Nat) (r : Word) (lat : Nat) :
    (s.startArith p k n r lat).status = s.status := by cases p <;> rfl
@[simp] theorem State.startArith_event (p : PoolId) (k n : Nat) (r : Word) (lat : Nat) :
    (s.startArith p k n r lat).event = s.event := by cases p <;> rfl
@[simp] theorem State.issue_cfg (p : PoolId) (n k : Nat) (c : Captured) : (s.issue p n k c).cfg = s.cfg := by cases p <;> rfl
@[simp] theorem State.issue_x (p : PoolId) (n k : Nat) (c : Captured) : (s.issue p n k c).x = s.x := by cases p <;> rfl
@[simp] theorem State.issue_link (p : PoolId) (n k : Nat) (c : Captured) : (s.issue p n k c).link = renamed s.link c.dest s.robHead := by cases p <;> rfl
@[simp] theorem State.issue_table (p : PoolId) (n k : Nat) (c : Captured) : (s.issue p n k c).table = s.table.modify n (fun t => { t with tag := some s.robHead, state := .rsWait, tIssue := some s.cycle }) := by cases p <;> rfl
@[simp] theorem State.issue_decodeErrors (p : PoolId) (n k : Nat) (c : Captured) : (s.issue p n k c).decodeErrors = s.decodeErrors := by cases p <;> rfl
@[simp] theorem State.issue_rob (p : PoolId) (n k : Nat) (c : Captured) : (s.issue p n k c).rob = s.rob.set s.robHead (some { instr := n, dest := c.dest, value := .unready }) := by cases p <;> rfl
@[simp] theorem State.issue_robHead (p : PoolId) (n k : Nat) (c : Captured) : (s.issue p n k c).robHead = s.nextSlot s.robHead := by cases p <;> rfl
@[simp] theorem State.issue_robTail (p : PoolId) (n k : Nat) (c : Captured) : (s.issue p n k c).robTail = s.robTail := by cases p <;> rfl
@[simp] theorem State.issue_mc (p : PoolId) (n k : Nat) (c : Captured) : (s.issue p n k c).mc = s.mc := by cases p <;> rfl
@[simp] theorem State.issue_cycle (p : PoolId) (n k : Nat) (c : Captured) : (s.issue p n k c).cycle = s.cycle := by cases p <;> rfl
@[simp] theorem State.issue_status (p : PoolId) (n k : Nat) (c : Captured) : (s.issue p n k c).status = s.status := by cases p <;> rfl
@[simp] theorem State.issue_event (p : PoolId) (n k : Nat) (c : Captured) : (s.issue p n k c).event = s.event := by cases p <;> rfl
@[simp] theorem State.issue_pool_same (p : PoolId) (n k : Nat) (c : Captured) :
    (s.issue p n k c).pool p = (s.pool p).set k
      (some { instr := n, dtag := s.robHead, j := c.j, k := c.k, imm := c.imm, settle := false }) := by cases p <;> rfl
@[simp] theorem State.issue_pool_other (p q : PoolId) (h : q ≠ p) (n k : Nat) (c : Captured) :
    (s.issue p n k c).pool q = s.pool q := by
  cases p <;> cases q <;> first | rfl | exact absurd rfl h

end Sys2Proof.Machine
end

