-- ==== Sys2Proof/Laws/Lifecycle.lean ====
section
/-! SUPPORT. One lemma per shared operation of an instruction's life and per stage of the tick: what it can have done when
it answers a next state. And the packaged induction: a property that serving an event keeps is kept by a step. -/

namespace Sys2Proof.Machine

/-! ## Sequencing -/

/-- A sequence answers when its first part answers, and the second runs only if the status is still Running. -/
theorem thenRun_next {o : Out} {f : State → Out} {t : State} :
    thenRun o f = .next t ↔
      ∃ s, o = .next s ∧ ((s.status = .running ∧ f s = .next t) ∨ (s.status ≠ .running ∧ t = s)) := by
  cases o with
  | next s =>
    simp only [thenRun]
    by_cases h : s.status = .running
    · rw [if_pos h]
      constructor
      · intro e
        exact ⟨s, rfl, .inl ⟨h, e⟩⟩
      · rintro ⟨s', e, h' | h'⟩
        · cases e
          exact h'.2
        · cases e
          exact absurd h h'.1
    · rw [if_neg h]
      constructor
      · intro e
        cases e
        exact ⟨_, rfl, .inr ⟨h, rfl⟩⟩
      · rintro ⟨s', e, h' | h'⟩
        · cases e
          exact absurd h'.1 h
        · cases e
          rw [h'.2]
  | fault r =>
    constructor
    · intro e
      cases e
    · rintro ⟨_, e, _⟩
      cases e
  | refused r =>
    constructor
    · intro e
      cases e
    · rintro ⟨_, e, _⟩
      cases e

/-- Serving answers when the meaning answers, with the event at rest again. -/
theorem serve_next {ev : Event} {i : Instr} {s t : State} :
    serve ev i s = .next t ↔ ∃ u, exec i { s with event := ev } = .next u ∧ t = { u with event := .dispatch } := by
  unfold serve
  split
  · rename_i u h
    rw [h]
    constructor
    · intro e
      cases e
      exact ⟨u, rfl, rfl⟩
    · rintro ⟨u', e, rfl⟩
      cases e
      rfl
  · rename_i h
    rw [h]
    constructor
    · intro e
      cases e
    · rintro ⟨_, e, _⟩
      cases e
  · rename_i h
    rw [h]
    constructor
    · intro e
      cases e
    · rintro ⟨_, e, _⟩
      cases e

/-- Continuing after a controller operation: its answer, or the raise of `DuplicateFill`. -/
theorem withCtl_next {α : Type} {s t : State} {r : Ctl α} {f : State → α → Out} :
    s.withCtl r f = .next t ↔
      (∃ m a, r = .ok m a ∧ f { s with mc := m } a = .next t) ∨
      (∃ m l a, r = .dup m l a ∧ t = State.raise { s with mc := m } (.duplicateFill l a s.cycle)) := by
  cases r with
  | ok m a =>
    constructor
    · intro h
      exact .inl ⟨m, a, rfl, h⟩
    · rintro (⟨_, _, e, h⟩ | ⟨_, _, _, e, _⟩)
      · cases e
        exact h
      · cases e
  | dup m l a =>
    constructor
    · intro h
      cases h
      exact .inr ⟨m, l, a, rfl, rfl⟩
    · rintro (⟨_, _, e, _⟩ | ⟨_, _, _, e, h⟩)
      · cases e
      · cases e
        rw [h]
        rfl

/-! ## Dispatch -/

/-- A dispatch that answers either changed nothing (R285, R287) or issued the first entry not started (R290 to R293). -/
theorem dispatchAs_next {p : PoolId} {capture : State → Option Captured} {s t : State}
    (h : dispatchAs p capture s = .next t) :
    ((s.dptr = none ∨ s.freeSlot p = none ∨ s.robFull = true) ∧ t = s) ∨
    (∃ n k c, s.dptr = some n ∧ s.freeSlot p = some k ∧ s.robFull = false ∧ capture s = some c ∧ t = s.issue p n k c) := by
  unfold dispatchAs at h
  split at h
  · cases h
    exact .inl ⟨.inl (by assumption), rfl⟩
  · split at h
    · cases h
      exact .inl ⟨.inr (.inl (by assumption)), rfl⟩
    · split at h
      · cases h
        exact .inl ⟨.inr (.inr (by assumption)), rfl⟩
      · split at h
        · cases h
        · cases h
          rename_i hr _ _ _
          exact .inr ⟨_, _, _, by assumption, by assumption, by simpa using hr, by assumption, rfl⟩

/-! ## Execute start -/

/-- The body of a start runs exactly for a live station with both operands values and no settle mark (R264). -/
theorem withCandidate_body {p : PoolId} {k : Nat} {s : State} {body : RsEntry → Word → Word → Out} {e : RsEntry}
    {a b : Word} (hs : s.slot p k = some e) (hj : e.j = .val a) (hk : e.k = .val b) (hset : e.settle = false)
    (hn : e.instr < s.table.length) : withCandidate p k s body = body e a b := by
  unfold withCandidate
  rw [hs]
  simp only [hj, hk, hset, Bool.false_eq_true, if_false, if_pos hn]

/-- A start that answers either changed nothing, or its body answered on a candidate (R264). -/
theorem withCandidate_next {p : PoolId} {k : Nat} {s t : State} {body : RsEntry → Word → Word → Out}
    (h : withCandidate p k s body = .next t) :
    t = s ∨ ∃ e a b, s.slot p k = some e ∧ e.j = .val a ∧ e.k = .val b ∧ e.settle = false ∧
      e.instr < s.table.length ∧ body e a b = .next t := by
  unfold withCandidate at h
  split at h
  · cases h
    exact .inl rfl
  · split at h
    · split at h
      · cases h
        exact .inl rfl
      · split at h
        · rename_i hset hn
          exact .inr ⟨_, _, _, by assumption, by assumption, by assumption, by simpa using hset, hn, h⟩
        · cases h
    all_goals
      cases h
      exact .inl rfl

/-! ## Countdown, broadcast, commit, store write -/

/-- A countdown that answers either went down by one, or ended and ran its release (R262). -/
theorem countdownThen_next {release : State → Entry → Out} {n : Nat} {s t : State}
    (h : countdownThen release n s = .next t) :
    ∃ e, s.table[n]? = some e ∧
      ((e.count ≠ 1 ∧ t = s.updEntry n (fun e => { e with count := e.count - 1 })) ∨
       (e.count = 1 ∧ release (s.updEntry n
          (fun e => { e with count := 0, state := .executeEnd, tExecEnd := some s.cycle })) e = .next t)) := by
  unfold countdownThen at h
  split at h
  · cases h
  · split at h
    · exact ⟨_, by assumption, .inr ⟨by assumption, h⟩⟩
    · cases h
      exact ⟨_, by assumption, .inl ⟨by assumption, rfl⟩⟩

/-- A broadcast of a result that answers has written it and woken its consumers (R242 to R246). -/
theorem broadcastResult_next {n : Nat} {s t : State} (h : broadcastResult n s = .next t) :
    ∃ e tag v, s.table[n]? = some e ∧ s.robSlotOf n = some tag ∧ e.result = some v ∧
      t = ((s.setRobValue tag (.ready v)).mapStations (RsEntry.wake tag v)).markBroadcast n := by
  unfold broadcastResult at h
  split at h
  · cases h
  · split at h
    · cases h
      exact ⟨_, _, _, by assumption, by assumption, by assumption, rfl⟩
    · cases h
    · cases h

/-- A broadcast of a store that answers has written the no-value marker (R243). -/
theorem broadcastNoValue_next {n : Nat} {s t : State} (h : broadcastNoValue n s = .next t) :
    ∃ tag, n < s.table.length ∧ s.robSlotOf n = some tag ∧ t = (s.setRobValue tag .noValue).markBroadcast n := by
  unfold broadcastNoValue at h
  split at h
  · split at h
    · cases h
      exact ⟨_, by assumption, by assumption, rfl⟩
    · cases h
  · cases h

/-- A store's commit that answers either stalled on a busy address or scheduled the write and retired (R234, R235). -/
theorem commitStore_next {n : Nat} {e : Entry} {s t : State} (h : commitStore n e s = .next t) :
    ∃ ea, e.ea = some ea ∧
      ((s.busyAt ea = true ∧ t = s) ∨
       (s.busyAt ea = false ∧ t = ((s.setBusy ea).updEntry n
          (fun e => { e with count := s.mc.probe s.cfg ea.toNat, writePending := true })).retire n)) := by
  unfold commitStore at h
  split at h
  · cases h
  · split at h
    · cases h
      exact ⟨_, by assumption, .inl ⟨by assumption, rfl⟩⟩
    · cases h
      rename_i hb
      exact ⟨_, by assumption, .inr ⟨by simpa using hb, rfl⟩⟩

/-- A commit by destination that answers (R232, R233, R234, R235). -/
theorem commitDest_next {n : Nat} {e : Entry} {r : RobEntry} {s t : State} (h : commitDest n e r s = .next t) :
    (∃ i w, r.dest = .reg i ∧ r.value = .ready w ∧ i.toNat < s.x.length ∧ t = (s.commitReg i w s.robTail).retire n) ∨
    (r.dest = .none ∧ t = s.retire n) ∨
    (r.dest = .mem ∧ commitStore n e s = .next t) := by
  unfold commitDest at h
  split at h
  · split at h
    · cases h
      exact .inl ⟨_, _, by assumption, by assumption, by assumption, rfl⟩
    · cases h
  · cases h
  · cases h
  · cases h
    exact .inr (.inl ⟨by assumption, rfl⟩)
  · exact .inr (.inr ⟨by assumption, h⟩)

/-- A commit that answers either found nothing to commit (R230) or committed the tail by its destination. -/
theorem commitTail_next {s t : State} (h : commitTail s = .next t) :
    (t = s ∧ (s.robAt s.robTail = none ∨ ∃ r, s.robAt s.robTail = some r ∧ r.value = .unready)) ∨
    (∃ r e, s.robAt s.robTail = some r ∧ r.value ≠ .unready ∧ s.table[r.instr]? = some e ∧
      commitDest r.instr e r s = .next t) := by
  unfold commitTail at h
  split at h
  · cases h
    exact .inl ⟨rfl, .inl (by assumption)⟩
  · split at h
    · cases h
      exact .inl ⟨rfl, .inr ⟨_, by assumption, by assumption⟩⟩
    · split at h
      · cases h
      · exact .inr ⟨_, _, by assumption, by assumption, by assumption, h⟩

/-- A store's write countdown that answers either went down by one, or wrote and released (R252, R253), or raised. -/
theorem storeWriteTick_next {n : Nat} {s t : State} (h : storeWriteTick n s = .next t) :
    ∃ e, s.table[n]? = some e ∧
      ((e.count ≠ 1 ∧ t = s.updEntry n (fun e => { e with count := e.count - 1 })) ∨
       (e.count = 1 ∧ ∃ ea v, e.ea = some ea ∧ e.data = some v ∧
        (s.updEntry n (fun e => { e with count := 0 })).withCtl (s.mc.write s.cfg s.cycle ea.toNat v) (fun s' _ =>
          .next ((s'.clearBusy ea).updEntry n
            (fun e => { e with writePending := false, state := .memoryWrite, tMemWrite := some s.cycle }))) =
          .next t)) := by
  unfold storeWriteTick at h
  split at h
  · cases h
  · split at h
    · split at h
      · exact ⟨_, by assumption, .inr ⟨by assumption, _, _, by assumption, by assumption, h⟩⟩
      · cases h
      · cases h
    · cases h
      exact ⟨_, by assumption, .inl ⟨by assumption, rfl⟩⟩

/-! ## The packaged induction -/

/-- A property of states that every part of a step keeps, each part in the states it runs in. -/
structure KeptByParts (P : State → Prop) : Prop where
  served   : ∀ ev i s t, P s → s.Serves ev i → serve ev i s = .next t → P t
  prefetch : ∀ s t, P s → prefetchTick s = .next t → P t
  settled  : ∀ s, P s → P s.clearSettle
  counted  : ∀ s, P s → P { s with cycle := s.cycle + 1 }
  ended    : ∀ s st, P s → P { s with status := st }

theorem KeptByParts.thenRun {P : State → Prop} {o : Out} {f : State → Out} {t : State}
    (ho : ∀ s, o = .next s → P s) (hf : ∀ s, P s → f s = .next t → P t) (h : thenRun o f = .next t) : P t := by
  obtain ⟨s, hs, ⟨_, hft⟩ | ⟨_, rfl⟩⟩ := thenRun_next.1 h
  · exact hf s (ho s hs) hft
  · exact ho _ hs

theorem KeptByParts.sweep {P : State → Prop} (hP : KeptByParts P) {pick : State → Entry → Bool} {ev : Nat → Event}
    (hev : ∀ (s : State) (n : Nat) (e : Entry), s.table[n]? = some e → pick s e = true → s.Serves (ev n) e.ins)
    (ns : List Nat) {s t : State} (hs : P s) (h : sweep pick ev ns s = .next t) : P t := by
  induction ns generalizing s with
  | nil =>
    cases h
    exact hs
  | cons n ns ih =>
    unfold Machine.sweep at h
    split at h
    · exact ih hs h
    · rename_i e he
      split at h
      · rename_i hp
        exact KeptByParts.thenRun (fun u hu => hP.served _ _ s u hs (hev s n e he hp) hu) (fun u hu hv => ih hu hv) h
      · exact ih hs h

theorem KeptByParts.tryStart {P : State → Prop} (hP : KeptByParts P) {p : PoolId} (ks : List Nat) {s t : State}
    (hs : P s) (h : tryStart p ks s = .next t) : P t := by
  induction ks generalizing s with
  | nil =>
    cases h
    exact hs
  | cons k ks ih =>
    unfold Machine.tryStart at h
    split at h
    · exact ih hs h
    · rename_i r hr
      split at h
      · cases h
      · rename_i e he
        refine KeptByParts.thenRun (fun u hu => hP.served (.start p k) _ s u hs ⟨r, e, hr, he, rfl⟩ hu)
          (fun u hu hv => ?_) h
        split at hv
        · cases hv
          exact hu
        · exact ih hu hv

theorem KeptByParts.commitStage {P : State → Prop} (hP : KeptByParts P) {s t : State} (hs : P s)
    (h : commitStage s = .next t) : P t := by
  unfold Machine.commitStage at h
  split at h
  · cases h
    exact hs
  · rename_i r hr
    split at h
    · cases h
    · rename_i e he
      exact hP.served .commit _ s t hs ⟨r, e, hr, he, rfl⟩ h

theorem KeptByParts.broadcastStage {P : State → Prop} (hP : KeptByParts P) {s t : State} (hs : P s)
    (h : broadcastStage s = .next t) : P t := by
  unfold Machine.broadcastStage at h
  split at h
  · cases h
    exact hs
  · rename_i n hn
    split at h
    · cases h
    · rename_i e he
      exact hP.served (.broadcast n) _ s t hs ⟨e, hn, he, rfl⟩ h

theorem KeptByParts.memTickStage {P : State → Prop} (hP : KeptByParts P) {s t : State} (hs : P s)
    (h : memTickStage s = .next t) : P t :=
  KeptByParts.thenRun
    (fun _ hu => hP.sweep (ev := Event.storeTick) (fun _ _ e he hp => ⟨e, he, hp, rfl⟩) _ hs hu)
    (fun u hu hv => hP.prefetch u t hu hv) h

theorem KeptByParts.executeStage {P : State → Prop} (hP : KeptByParts P) {s t : State} (hs : P s)
    (h : executeStage s = .next t) : P t :=
  KeptByParts.thenRun
    (fun _ hu => hP.sweep (ev := Event.countdown) (fun _ _ e he hp => ⟨e, he, hp, rfl⟩) _ hs hu)
    (fun _ h1 e1 => KeptByParts.thenRun (fun _ hu => hP.tryStart _ h1 hu)
      (fun _ h2 e2 => KeptByParts.thenRun (fun _ hu => hP.tryStart _ h2 hu)
        (fun _ h3 e3 => hP.tryStart _ h3 e3) e2) e1) h

theorem KeptByParts.dispatchStage {P : State → Prop} (hP : KeptByParts P) {s t : State} (hs : P s)
    (h : dispatchStage s = .next t) : P t := by
  unfold Machine.dispatchStage at h
  split at h
  · cases h
    exact hs
  · rename_i n hn
    split at h
    · cases h
    · rename_i e he
      exact hP.served .dispatch _ s t hs ⟨n, e, hn, he, rfl⟩ h

/-- A tick keeps what its parts keep. -/
theorem KeptByParts.tick {P : State → Prop} (hP : KeptByParts P) {s t : State} (hs : P s)
    (h : tick s = .next t) : P t :=
  KeptByParts.thenRun (fun _ hu => hP.commitStage (hP.counted s hs) hu)
    (fun _ h1 e1 => KeptByParts.thenRun (fun _ hu => hP.broadcastStage h1 hu)
      (fun _ h2 e2 => KeptByParts.thenRun (fun _ hu => hP.memTickStage h2 hu)
        (fun _ h3 e3 => KeptByParts.thenRun (fun _ hu => hP.executeStage h3 hu)
          (fun _ h4 e4 => KeptByParts.thenRun (fun _ hu => hP.dispatchStage h4 hu)
            (fun u h5 e5 => by
              cases e5
              exact hP.settled u h5) e4) e3) e2) e1) h

/-- A step keeps what its parts keep. -/
theorem KeptByParts.step {P : State → Prop} (hP : KeptByParts P) {s t : State} (hs : P s)
    (h : step s = .next t) : P t := by
  unfold Machine.step runPass at h
  split at h
  · split at h
    · cases h
      exact hP.ended s _ hs
    · split at h
      · cases h
        exact hP.ended s _ hs
      · exact hP.tick hs h
  · cases h

end Sys2Proof.Machine
end

