-- ==== Sys2Proof/Laws/Exec.lean ====
section
/-! SUPPORT. What `exec` is at each event of an instruction's life, and what the starts of LW and SW can have done when they
answer. -/

namespace Sys2Proof.Machine

/-! ## `exec` at an event -/

/-- The operand capture of an instruction (40_scheduler.md R289). -/
def captureOf : Instr → State → Option Captured
  | .add rd rs1 rs2  => captureReg rd rs1 rs2
  | .sub rd rs1 rs2  => captureReg rd rs1 rs2
  | .mul rd rs1 rs2  => captureReg rd rs1 rs2
  | .div rd rs1 rs2  => captureReg rd rs1 rs2
  | .addi rd rs1 imm => captureImm rd rs1 imm
  | .lw rd rs1 imm   => captureLoad rd rs1 imm
  | .sw rs1 rs2 imm  => captureStore rs1 rs2 imm
  | .beq rs1 rs2 imm => captureBranch rs1 rs2 imm
  | .bne rs1 rs2 imm => captureBranch rs1 rs2 imm

/-- The execute start of an operation. -/
def startOf : Op → PoolId → Nat → State → Out
  | .add  => startAdd
  | .sub  => startSub
  | .mul  => startMul
  | .div  => startDiv
  | .addi => startAddi
  | .lw   => startLw
  | .sw   => startSw
  | .beq  => startBeq
  | .bne  => startBne

theorem exec_dispatch {s : State} (i : Instr) (h : s.event = .dispatch) :
    exec i s = dispatchAs (poolOf i.op) (captureOf i) s := by
  cases i <;>
    simp only [exec, execAdd, execSub, execMul, execDiv, execAddi, execLw, execSw, execBeq, execBne, Meaning.run, h] <;> rfl

theorem exec_start {s : State} {p : PoolId} {k : Nat} (i : Instr) (h : s.event = .start p k) :
    exec i s = startOf i.op p k s := by
  cases i <;>
    simp only [exec, execAdd, execSub, execMul, execDiv, execAddi, execLw, execSw, execBeq, execBne, Meaning.run, h] <;> rfl

theorem exec_countdown {s : State} {n : Nat} (i : Instr) (h : s.event = .countdown n) :
    exec i s = if i.op = .lw then countdownThen releaseLoad n s else countdownPlain n s := by
  cases i <;>
    simp only [exec, execAdd, execSub, execMul, execDiv, execAddi, execLw, execSw, execBeq, execBne, Meaning.run, h] <;> rfl

theorem exec_broadcast {s : State} {n : Nat} (i : Instr) (h : s.event = .broadcast n) :
    exec i s = if i.op = .sw then broadcastNoValue n s else broadcastResult n s := by
  cases i <;>
    simp only [exec, execAdd, execSub, execMul, execDiv, execAddi, execLw, execSw, execBeq, execBne, Meaning.run, h] <;> rfl

theorem exec_commit {s : State} (i : Instr) (h : s.event = .commit) : exec i s = commitTail s := by
  cases i <;>
    simp only [exec, execAdd, execSub, execMul, execDiv, execAddi, execLw, execSw, execBeq, execBne, Meaning.run, h]

theorem exec_storeTick {s : State} {n : Nat} (i : Instr) (h : s.event = .storeTick n) : exec i s = storeWriteTick n s := by
  cases i <;>
    simp only [exec, execAdd, execSub, execMul, execDiv, execAddi, execLw, execSw, execBeq, execBne, Meaning.run, h]

/-! ## The starts of LW and SW -/

/-- A demand read that answers has read and issued a prefetch, or raised (40_scheduler.md R266). -/
theorem loadAccess_next {p : PoolId} {k n : Nat} {ea : Word} {s t : State} (h : loadAccess p k n ea s = .next t) :
    (∃ m v lat,
      MemCtl.read s.cfg s.cycle { s.mc with busy := s.mc.busy.insert ea.toNat } ea.toNat = .ok m (v, lat) ∧
      t = ({ s.updEntry n (fun t => { t with ea := some ea }) with
              mc := m.pfIssue s.cfg s.cycle ea.toNat } : State).beginExec p k n
            (fun t => { t with result := some v, count := lat })) ∨
    (∃ m l a,
      MemCtl.read s.cfg s.cycle { s.mc with busy := s.mc.busy.insert ea.toNat } ea.toNat = .dup m l a ∧
      t = State.raise { s.updEntry n (fun t => { t with ea := some ea }) with mc := m } (.duplicateFill l a s.cycle)) := by
  unfold loadAccess at h
  rcases withCtl_next.1 h with ⟨m, r, hr, ht⟩ | ⟨m, l, a, hr, ht⟩
  · cases ht
    exact .inl ⟨m, r.1, r.2, hr, rfl⟩
  · exact .inr ⟨m, l, a, hr, ht⟩

/-- LW's start that answers: nothing (no candidate, a busy address, a held port), a raise, or the access (R361, R363, R365). -/
theorem startLw_next {p : PoolId} {k : Nat} {s t : State} (h : startLw p k s = .next t) :
    t = s ∨ ∃ e a b, s.slot p k = some e ∧ e.j = .val a ∧ e.k = .val b ∧ e.settle = false ∧ e.instr < s.table.length ∧
      ((s.inRange (effectiveAddr a e.imm) = false ∧
          t = s.raise (.addressOutOfRange e.instr (effectiveAddr a e.imm) s.cycle)) ∨
       (s.inRange (effectiveAddr a e.imm) = true ∧ s.busyAt (effectiveAddr a e.imm) = false ∧ s.portBusy = false ∧
          loadAccess p k e.instr (effectiveAddr a e.imm) s = .next t)) := by
  rcases withCandidate_next h with h | ⟨e, a, b, h1, h2, h3, h4, h5, h⟩
  · exact .inl h
  · dsimp only at h
    split at h
    · rename_i hr
      split at h
      · cases h
        exact .inl rfl
      · rename_i hb
        split at h
        · cases h
          exact .inl rfl
        · rename_i hp
          exact .inr ⟨e, a, b, h1, h2, h3, h4, h5, .inr ⟨hr, by simpa using hb, by simpa using hp, h⟩⟩
    · rename_i hr
      cases h
      exact .inr ⟨e, a, b, h1, h2, h3, h4, h5, .inl ⟨by simpa using hr, rfl⟩⟩

/-- SW's start that answers: nothing (no candidate, a busy address), a raise, or the start (R362, R363, R365). -/
theorem startSw_next {p : PoolId} {k : Nat} {s t : State} (h : startSw p k s = .next t) :
    t = s ∨ ∃ e a b, s.slot p k = some e ∧ e.j = .val a ∧ e.k = .val b ∧ e.settle = false ∧ e.instr < s.table.length ∧
      ((s.inRange (effectiveAddr a e.imm) = false ∧
          t = s.raise (.addressOutOfRange e.instr (effectiveAddr a e.imm) s.cycle)) ∨
       (s.inRange (effectiveAddr a e.imm) = true ∧ s.busyAt (effectiveAddr a e.imm) = false ∧
          t = s.beginExec p k e.instr (fun t =>
            { t with
              ea := some (effectiveAddr a e.imm), data := some b
              count := s.mc.probe s.cfg (effectiveAddr a e.imm).toNat }))) := by
  rcases withCandidate_next h with h | ⟨e, a, b, h1, h2, h3, h4, h5, h⟩
  · exact .inl h
  · dsimp only at h
    split at h
    · rename_i hr
      split at h
      · cases h
        exact .inl rfl
      · rename_i hb
        cases h
        exact .inr ⟨e, a, b, h1, h2, h3, h4, h5, .inr ⟨hr, by simpa using hb, rfl⟩⟩
    · rename_i hr
      cases h
      exact .inr ⟨e, a, b, h1, h2, h3, h4, h5, .inl ⟨by simpa using hr, rfl⟩⟩

/-- A load's end that answers has released its busy bit (R262). -/
theorem releaseLoad_next {s t : State} {e : Entry} (h : releaseLoad s e = .next t) :
    ∃ ea, e.ea = some ea ∧ t = s.clearBusy ea := by
  unfold releaseLoad at h
  split at h
  · cases h
  · cases h
    exact ⟨_, by assumption, rfl⟩

end Sys2Proof.Machine
end

