-- ==== Sys2Proof/Laws/PerInstr.lean ====
section
/-! SUPPORT. Families of lemmas over the instructions, one lemma per constructor of `Instr`. -/

namespace Sys2Proof.Laws

/-! ## The fixed bits of an encoded word -/

/-- The mask of format R (30_encoding.md R189): funct7, funct3 and opcode. -/
abbrev maskR : Word := 0xFE00707F#32

/-- The mask of the other formats (R189): funct3 and opcode. -/
abbrev maskI : Word := 0x0000707F#32

theorem encodeR_maskR (f7 : BitVec 7) (rs2 rs1 : RegIdx) (f3 : BitVec 3) (rd : RegIdx) (op : BitVec 7) :
    encodeR f7 rs2 rs1 f3 rd op &&& maskR = encodeR f7 0#5 0#5 f3 0#5 op := by
  have h : maskR = BitVec.allOnes 7 ++ 0#5 ++ 0#5 ++ BitVec.allOnes 3 ++ 0#5 ++ BitVec.allOnes 7 := by decide
  rw [h]
  unfold encodeR
  rw [BitVec.and_append, BitVec.and_append, BitVec.and_append, BitVec.and_append, BitVec.and_append]
  simp only [BitVec.and_allOnes, BitVec.and_zero]

theorem encodeR_maskI (f7 : BitVec 7) (rs2 rs1 : RegIdx) (f3 : BitVec 3) (rd : RegIdx) (op : BitVec 7) :
    encodeR f7 rs2 rs1 f3 rd op &&& maskI = encodeR 0#7 0#5 0#5 f3 0#5 op := by
  have h : maskI = 0#7 ++ 0#5 ++ 0#5 ++ BitVec.allOnes 3 ++ 0#5 ++ BitVec.allOnes 7 := by decide
  rw [h]
  unfold encodeR
  rw [BitVec.and_append, BitVec.and_append, BitVec.and_append, BitVec.and_append, BitVec.and_append]
  simp only [BitVec.and_allOnes, BitVec.and_zero]

theorem encodeI_maskI (imm : BitVec 12) (rs1 : RegIdx) (f3 : BitVec 3) (rd : RegIdx) (op : BitVec 7) :
    encodeI imm rs1 f3 rd op &&& maskI = encodeI 0#12 0#5 f3 0#5 op := by
  have h : maskI = 0#12 ++ 0#5 ++ BitVec.allOnes 3 ++ 0#5 ++ BitVec.allOnes 7 := by decide
  rw [h]
  unfold encodeI
  rw [BitVec.and_append, BitVec.and_append, BitVec.and_append, BitVec.and_append]
  simp only [BitVec.and_allOnes, BitVec.and_zero]

theorem encodeS_maskI (imm : BitVec 12) (rs2 rs1 : RegIdx) (f3 : BitVec 3) (op : BitVec 7) :
    encodeS imm rs2 rs1 f3 op &&& maskI = encodeS 0#12 0#5 0#5 f3 op := by
  have h : maskI = 0#7 ++ 0#5 ++ 0#5 ++ BitVec.allOnes 3 ++ 0#5 ++ BitVec.allOnes 7 := by decide
  have h7 : BitVec.extractLsb' 5 7 0#12 = 0#7 := by decide
  have h5 : BitVec.extractLsb' 0 5 0#12 = 0#5 := by decide
  rw [h]
  unfold encodeS
  rw [BitVec.and_append, BitVec.and_append, BitVec.and_append, BitVec.and_append, BitVec.and_append]
  simp only [BitVec.and_allOnes, BitVec.and_zero, h7, h5]

theorem encodeB_maskI (imm : BitVec 13) (rs2 rs1 : RegIdx) (f3 : BitVec 3) (op : BitVec 7) :
    encodeB imm rs2 rs1 f3 op &&& maskI = encodeB 0#13 0#5 0#5 f3 op := by
  have h : maskI = 0#1 ++ 0#6 ++ 0#5 ++ 0#5 ++ BitVec.allOnes 3 ++ 0#4 ++ 0#1 ++ BitVec.allOnes 7 := by decide
  have h1 : BitVec.extractLsb' 12 1 0#13 = 0#1 := by decide
  have h6 : BitVec.extractLsb' 5 6 0#13 = 0#6 := by decide
  have h4 : BitVec.extractLsb' 1 4 0#13 = 0#4 := by decide
  have h0 : BitVec.extractLsb' 11 1 0#13 = 0#1 := by decide
  rw [h]
  unfold encodeB
  rw [BitVec.and_append, BitVec.and_append, BitVec.and_append, BitVec.and_append, BitVec.and_append, BitVec.and_append, BitVec.and_append]
  simp only [BitVec.and_allOnes, BitVec.and_zero, h1, h6, h4, h0]

/-! ## The family RowMatch -/

/-- The word of an instruction matches its own row of the decode table and no other (R189). -/
def RowMatch.Statement (i : Instr) : Prop :=
  ∀ row ∈ decodeTable, encode i &&& row.mask = row.mtch ↔ row.op = i.op

/-- A word that differs from a row under the smaller mask does not match it under the larger. -/
theorem ne_of_maskI {w m : Word} (h : w &&& maskI ≠ m &&& maskI) : w &&& maskR ≠ m := by
  intro e
  apply h
  rw [← e, BitVec.and_assoc]
  rfl

theorem RowMatch.add (rd rs1 rs2 : RegIdx) : RowMatch.Statement (.add rd rs1 rs2) := by
  simp only [RowMatch.Statement, decodeTable, List.forall_mem_cons, List.not_mem_nil, false_imp_iff, implies_true, encode, Instr.op,
    encodeR_maskR, encodeR_maskI]
  decide

theorem RowMatch.sub (rd rs1 rs2 : RegIdx) : RowMatch.Statement (.sub rd rs1 rs2) := by
  simp only [RowMatch.Statement, decodeTable, List.forall_mem_cons, List.not_mem_nil, false_imp_iff, implies_true, encode, Instr.op,
    encodeR_maskR, encodeR_maskI]
  decide

theorem RowMatch.mul (rd rs1 rs2 : RegIdx) : RowMatch.Statement (.mul rd rs1 rs2) := by
  simp only [RowMatch.Statement, decodeTable, List.forall_mem_cons, List.not_mem_nil, false_imp_iff, implies_true, encode, Instr.op,
    encodeR_maskR, encodeR_maskI]
  decide

theorem RowMatch.div (rd rs1 rs2 : RegIdx) : RowMatch.Statement (.div rd rs1 rs2) := by
  simp only [RowMatch.Statement, decodeTable, List.forall_mem_cons, List.not_mem_nil, false_imp_iff, implies_true, encode, Instr.op,
    encodeR_maskR, encodeR_maskI]
  decide

theorem RowMatch.addi (rd rs1 : RegIdx) (imm : BitVec 12) : RowMatch.Statement (.addi rd rs1 imm) := by
  have h : encode (.addi rd rs1 imm) &&& maskI = 0x00000013#32 := (encodeI_maskI ..).trans (by decide)
  simp only [RowMatch.Statement, decodeTable, List.forall_mem_cons, List.not_mem_nil, false_imp_iff, implies_true, and_true,
    Instr.op, h, iff_false, reduceCtorEq]
  refine ⟨ne_of_maskI (h ▸ ?_), ne_of_maskI (h ▸ ?_), ne_of_maskI (h ▸ ?_), ne_of_maskI (h ▸ ?_), ?_⟩ <;> decide

theorem RowMatch.lw (rd rs1 : RegIdx) (imm : BitVec 12) : RowMatch.Statement (.lw rd rs1 imm) := by
  have h : encode (.lw rd rs1 imm) &&& maskI = 0x00002003#32 := (encodeI_maskI ..).trans (by decide)
  simp only [RowMatch.Statement, decodeTable, List.forall_mem_cons, List.not_mem_nil, false_imp_iff, implies_true, and_true,
    Instr.op, h, iff_false, reduceCtorEq]
  refine ⟨ne_of_maskI (h ▸ ?_), ne_of_maskI (h ▸ ?_), ne_of_maskI (h ▸ ?_), ne_of_maskI (h ▸ ?_), ?_⟩ <;> decide

theorem RowMatch.sw (rs1 rs2 : RegIdx) (imm : BitVec 12) : RowMatch.Statement (.sw rs1 rs2 imm) := by
  have h : encode (.sw rs1 rs2 imm) &&& maskI = 0x00002023#32 := (encodeS_maskI ..).trans (by decide)
  simp only [RowMatch.Statement, decodeTable, List.forall_mem_cons, List.not_mem_nil, false_imp_iff, implies_true, and_true,
    Instr.op, h, iff_false, reduceCtorEq]
  refine ⟨ne_of_maskI (h ▸ ?_), ne_of_maskI (h ▸ ?_), ne_of_maskI (h ▸ ?_), ne_of_maskI (h ▸ ?_), ?_⟩ <;> decide

theorem RowMatch.beq (rs1 rs2 : RegIdx) (imm : BitVec 13) : RowMatch.Statement (.beq rs1 rs2 imm) := by
  have h : encode (.beq rs1 rs2 imm) &&& maskI = 0x00000063#32 := (encodeB_maskI ..).trans (by decide)
  simp only [RowMatch.Statement, decodeTable, List.forall_mem_cons, List.not_mem_nil, false_imp_iff, implies_true, and_true,
    Instr.op, h, iff_false, reduceCtorEq]
  refine ⟨ne_of_maskI (h ▸ ?_), ne_of_maskI (h ▸ ?_), ne_of_maskI (h ▸ ?_), ne_of_maskI (h ▸ ?_), ?_⟩ <;> decide

theorem RowMatch.bne (rs1 rs2 : RegIdx) (imm : BitVec 13) : RowMatch.Statement (.bne rs1 rs2 imm) := by
  have h : encode (.bne rs1 rs2 imm) &&& maskI = 0x00001063#32 := (encodeB_maskI ..).trans (by decide)
  simp only [RowMatch.Statement, decodeTable, List.forall_mem_cons, List.not_mem_nil, false_imp_iff, implies_true, and_true,
    Instr.op, h, iff_false, reduceCtorEq]
  refine ⟨ne_of_maskI (h ▸ ?_), ne_of_maskI (h ▸ ?_), ne_of_maskI (h ▸ ?_), ne_of_maskI (h ▸ ?_), ?_⟩ <;> decide

end Sys2Proof.Laws
end

