-- ==== Sys2Proof/Tests/Slice0.lean ====
section
/-! SUPPORT. The model's own tests: well-formedness, decoding of words written out from the spec's formats, single events
with results the spec states, and a witness for the hypotheses of each statement. -/

namespace Sys2Proof.Tests

open Sys2Proof Sys2Proof.Machine

/-! ## Well-formedness: an ill-formed term for each check -/

/-- 30_encoding.md R187: a destination at N_REGS. -/
theorem test_wf_refuses_rd : Instr.wf 4 (.add 4#5 1#5 2#5) = false := by decide

/-- R187: a first source at N_REGS. -/
theorem test_wf_refuses_rs1 : Instr.wf 4 (.lw 1#5 4#5 0#12) = false := by decide

/-- R187: a second source at N_REGS. -/
theorem test_wf_refuses_rs2 : Instr.wf 4 (.sw 1#5 4#5 0#12) = false := by decide

/-- R186: an odd B immediate. -/
theorem test_wf_refuses_odd_branch : Instr.wf 4 (.beq 1#5 2#5 7#13) = false ∧ Instr.wf 4 (.bne 1#5 2#5 1#13) = false := by
  decide

theorem test_wf_accepts : Instr.wf 4 (.add 3#5 1#5 2#5) = true ∧ Instr.wf 4 (.beq 1#5 2#5 8#13) = true := by decide

/-! ## Decoding: words written out by the formats of 30_encoding.md R182 to R185 and the rows of R189 -/

/-- R189: funct7 0000000, funct3 000, opcode 0110011. -/
theorem test_decode_add :
    decode 32 (0b0000000#7 ++ 0b00011#5 ++ 0b00010#5 ++ 0b000#3 ++ 0b00001#5 ++ 0b0110011#7) =
      some (.add 1#5 2#5 3#5) := by decide

/-- R189: funct7 0100000, funct3 000, opcode 0110011. -/
theorem test_decode_sub :
    decode 32 (0b0100000#7 ++ 0b00001#5 ++ 0b00100#5 ++ 0b000#3 ++ 0b00110#5 ++ 0b0110011#7) =
      some (.sub 6#5 4#5 1#5) := by decide

/-- R189: funct7 0000001, funct3 000, opcode 0110011. -/
theorem test_decode_mul :
    decode 32 (0b0000001#7 ++ 0b00010#5 ++ 0b00001#5 ++ 0b000#3 ++ 0b00011#5 ++ 0b0110011#7) =
      some (.mul 3#5 1#5 2#5) := by decide

/-- R189: funct7 0000001, funct3 100, opcode 0110011. -/
theorem test_decode_div :
    decode 32 (0b0000001#7 ++ 0b01001#5 ++ 0b01000#5 ++ 0b100#3 ++ 0b00111#5 ++ 0b0110011#7) =
      some (.div 7#5 8#5 9#5) := by decide

/-- R183: imm[11:0] in bits 31 to 20; here -2. -/
theorem test_decode_addi :
    decode 32 (0b111111111110#12 ++ 0b00010#5 ++ 0b000#3 ++ 0b00001#5 ++ 0b0010011#7) =
      some (.addi 1#5 2#5 (BitVec.ofInt 12 (-2))) := by decide

/-- R183: opcode 0000011, funct3 010. -/
theorem test_decode_lw :
    decode 32 (0b100000000001#12 ++ 0b00101#5 ++ 0b010#3 ++ 0b00001#5 ++ 0b0000011#7) =
      some (.lw 1#5 5#5 0x801#12) := by decide

/-- R184: imm[11:5] in bits 31 to 25, imm[4:0] in bits 11 to 7; imm is 1000000_00001. -/
theorem test_decode_sw :
    decode 32 (0b1000000#7 ++ 0b00010#5 ++ 0b00001#5 ++ 0b010#3 ++ 0b00001#5 ++ 0b0100011#7) =
      some (.sw 1#5 2#5 0b100000000001#12) := by decide

/-- R185: bit 31 is imm[12], bits 30 to 25 imm[10:5], bits 11 to 8 imm[4:1], bit 7 imm[11]; only imm[11] and imm[4] set. -/
theorem test_decode_beq :
    decode 32 (0b0#1 ++ 0b000000#6 ++ 0b00010#5 ++ 0b00001#5 ++ 0b000#3 ++ 0b1000#4 ++ 0b1#1 ++ 0b1100011#7) =
      some (.beq 1#5 2#5 0b0100000010000#13) := by decide

/-- R185: only imm[12] and imm[5] set. -/
theorem test_decode_bne :
    decode 32 (0b1#1 ++ 0b000001#6 ++ 0b00010#5 ++ 0b00001#5 ++ 0b001#3 ++ 0b0000#4 ++ 0b0#1 ++ 0b1100011#7) =
      some (.bne 1#5 2#5 0b1000000100000#13) := by decide

/-- R197: ECALL, JAL and a wrong funct7 are illegal; so is x4 on a machine with four registers (R187). -/
theorem test_decode_illegal :
    decode 32 0x00000073#32 = none ∧ decode 32 0x0000006F#32 = none ∧ decode 32 0x043100B3#32 = none ∧
      decode 4 0x00310233#32 = none := by decide

/-- R187: bits 24 to 20 of an I word are immediate bits, so they name no register. -/
theorem test_decode_immediate_is_no_register : decode 4 0x01F00093#32 = some (.addi 1#5 0#5 31#12) := by decide

/-- The opcode table's numbering, on BNE x1, x2, -4 (42_branch.md R341). -/
theorem test_decodeTableWord : decodeTableWord 32 0xFE209EE3 = some (.bne 1#5 2#5 0x1FFC#13) := by decide

/-- 30_encoding.md R201 and 10_state.md R80. -/
theorem test_text :
    Instr.disasm (.sw 1#5 2#5 (BitVec.ofInt 12 (-4))) = "SW x2, -4(x1)" ∧
      parseLine (List.replicate 30 '0' ++ ['1', '0']) = some 2#32 ∧
      parseLine ('1' :: List.replicate 31 '0') = some 0x80000000#32 ∧ parseLine ['1'] = none := by decide

/-! ## A small machine -/

/-- Four registers, four reorder-buffer slots, one line in each cache, four words of memory. -/
def cfg : Config :=
  { Config.default with
    nRegs := 4, nRob := 4, l1Rows := 1, l1Ways := 1, l2Rows := 1, l2Ways := 1, memSize := 4, pfQueueCap := 1,
    maxCycles := 100 }

/-- The reset state over a program, with x1 = 5, x2 = 7, x3 = 3 and memory 0, 11, 22, 0. -/
def fresh (is : List Instr) : State :=
  State.resetWith cfg (is.map Entry.fresh) [] [(1, 11#32), (2, 22#32)] [0#32, 5#32, 7#32, 3#32]

/-- A property of the next state, false when there is none. -/
def after (o : Out) (p : State → Bool) : Bool :=
  match o with
  | .next s => p s
  | .fault _ => false
  | .refused _ => false

/-- One instruction waiting in slot 0 of pool `p`, with operand values `a` and `b`, at its start event. -/
def ready (p : PoolId) (i : Instr) (a b imm : Word) : State :=
  let s := fresh [i]
  let station : RsEntry := ⟨0, 0, .val a, .val b, imm, false⟩
  { s.setPool p [some station, none] with
    table   := [{ Entry.fresh i with state := .rsWait, tag := some 0, tIssue := some 1 }]
    rob     := [some ⟨0, destOf cfg i, .unready⟩, none, none, none]
    robHead := 1
    cycle   := 2
    event   := .start p 0 }

def resultOf (s : State) : Option Word := (s.table[0]?).bind Entry.result

/-! ## Results, from the examples and corner cases of 41_integer.md, 42_branch.md and 43_loadstore.md -/

/-- R301: 0x7FFFFFFF + 1 = 0x80000000. -/
theorem test_add_wraps :
    after (exec (.add 1#5 2#5 3#5) (ready .add (.add 1#5 2#5 3#5) 0x7FFFFFFF#32 1#32 0#32))
      (fun s => resultOf s == some 0x80000000#32) = true := by decide

/-- R302: 0 - 0x00010000 = 0xFFFF0000. -/
theorem test_sub_order :
    after (exec (.sub 1#5 2#5 3#5) (ready .add (.sub 1#5 2#5 3#5) 0#32 0x00010000#32 0#32))
      (fun s => resultOf s == some 0xFFFF0000#32) = true := by decide

/-- R303: 0x00010000 * 0x00010001 = 0x00010000. -/
theorem test_mul_low_word :
    after (exec (.mul 1#5 2#5 3#5) (ready .mul (.mul 1#5 2#5 3#5) 0x00010000#32 0x00010001#32 0#32))
      (fun s => resultOf s == some 0x00010000#32) = true := by decide

/-- R304: -7 / 2 = -3, 7 / -2 = -3, -7 / -2 = 3. -/
theorem test_div_truncates :
    computeDiv (BitVec.ofInt 32 (-7)) 2#32 = BitVec.ofInt 32 (-3) ∧
      computeDiv 7#32 (BitVec.ofInt 32 (-2)) = BitVec.ofInt 32 (-3) ∧
      computeDiv (BitVec.ofInt 32 (-7)) (BitVec.ofInt 32 (-2)) = 3#32 ∧
      computeDiv 0x80000000#32 0xFFFFFFFF#32 = 0x80000000#32 := by decide

/-- R304: 0 / 0 = 0, reported in the entry and in the counter. -/
theorem test_div_by_zero_reported :
    after (exec (.div 1#5 2#5 3#5) (ready .mul (.div 1#5 2#5 3#5) 0#32 0#32 0#32))
      (fun s => resultOf s == some 0#32 && s.mc.cnt.div0 == 1 && s.table.all Entry.div0) = true := by decide

/-- R305: ADDI x1, x1, -1 with x1 = 0 gives 0xFFFFFFFF; the immediate is sign extended at dispatch. -/
theorem test_addi_immediate_sign_extended :
    after (exec (.addi 1#5 1#5 0xFFF#12) (fresh [.addi 1#5 1#5 0xFFF#12]))
      (fun s => (s.slot .add 0).map RsEntry.k == some (.val 0xFFFFFFFF#32)) = true ∧
    after (exec (.addi 1#5 1#5 0xFFF#12) (ready .add (.addi 1#5 1#5 0xFFF#12) 0#32 0xFFFFFFFF#32 0xFFFFFFFF#32))
      (fun s => resultOf s == some 0xFFFFFFFF#32) = true := by decide

/-- R340, R341: BEQ with 5, 5 gives 1 and BNE gives 0. -/
theorem test_branches_compare :
    after (exec (.beq 1#5 2#5 8#13) (ready .add (.beq 1#5 2#5 8#13) 5#32 5#32 8#32))
      (fun s => resultOf s == some 1#32) = true ∧
    after (exec (.bne 1#5 2#5 8#13) (ready .add (.bne 1#5 2#5 8#13) 5#32 5#32 8#32))
      (fun s => resultOf s == some 0#32) = true := by decide

/-- R361: a cold load is a full miss of latency 15, takes the word, holds the busy bit and prefetches the next address. -/
theorem test_lw_full_miss :
    after (exec (.lw 1#5 2#5 1#12) (ready .lsq (.lw 1#5 2#5 1#12) 1#32 0#32 1#32))
      (fun s => resultOf s == some 22#32 && s.table.all (fun t => t.count == 15) && s.mc.busy == [2] &&
        s.mc.pfq == [⟨3, 0#32, 10, 2⟩] && s.mc.cnt.l2Misses == 1) = true := by decide

/-- R361: a base of 0xFFFFFFFF and an offset of 1 wrap to address 0. -/
theorem test_lw_address_wraps :
    after (exec (.lw 1#5 2#5 1#12) (ready .lsq (.lw 1#5 2#5 1#12) 0xFFFFFFFF#32 0#32 1#32))
      (fun s => s.table.all (fun t => t.ea == some 0#32)) = true := by decide

/-- R362: a store records its address and data and disturbs no cache. -/
theorem test_sw_start :
    after (exec (.sw 1#5 2#5 1#12) (ready .lsq (.sw 1#5 2#5 1#12) 2#32 99#32 1#32))
      (fun s => s.table.all (fun t => t.ea == some 3#32 && t.data == some 99#32 && t.count == 15) &&
        s.mc == (fresh []).mc) = true := by decide

/-- R405: address 4 of a memory of four words raises, and the instruction stays in the queue. -/
theorem test_out_of_range :
    after (exec (.sw 1#5 2#5 1#12) (ready .lsq (.sw 1#5 2#5 1#12) 3#32 99#32 1#32))
      (fun s => s.status == .faulted ⟨3, some 0, none, some 4#32, 2⟩ && (s.slot .lsq 0).isSome) = true := by decide

/-- R253, R124: after the write the coherent view is the data, and backing memory is unchanged. -/
theorem test_store_write :
    after (exec (.sw 1#5 2#5 0#12)
      { ready .lsq (.sw 1#5 2#5 0#12) 0#32 0#32 0#32 with
        event := .storeTick 0
        table := [{ Entry.fresh (.sw 1#5 2#5 0#12) with
          state := .commit, ea := some 1#32, data := some 99#32, count := 1, writePending := true, tCommit := some 1 }] })
      (fun s => s.mc.view cfg 1 == 99#32 && Mem.read s.mc.mem 1 == 11#32 && s.table.all Entry.terminal) = true := by
  decide

/-! ## Steps -/

/-- R441: the step after a load dispatches the first instruction in cycle 1. -/
theorem test_first_step :
    after (step (State.reset.withFetchWord 32 0x003100B3))
      (fun s => s.cycle == 1 && s.table.map Entry.tIssue == [some 1] && s.link[1]? == some (some 0)) = true := by decide

/-- A loaded word that is illegal is recorded and leaves nothing to run (30_encoding.md R197). -/
theorem test_illegal_word_recorded :
    (State.reset.withFetchWord 32 0x00000073).decodeErrors = [(0, 0x00000073#32)] ∧
      (State.reset.withFetchWord 32 0x00000073).status = .completed := by decide

/-- 00_scope.md R7: a latency of 0 is refused. -/
theorem test_illegal_launch :
    (match State.load { cfg with latMul := 0 } [] [0#32, 0#32, 0#32, 0#32] [0#32, 0#32, 0#32, 0#32] with
      | .refused .illegalLaunch => true
      | _ => false) = true := by decide

/-! ## Checks that imply the invariants -/

/-- The occupied stations, with their pools and slots. -/
def stations (s : State) : List (PoolId × Nat × RsEntry) :=
  [PoolId.add, .mul, .lsq].flatMap fun p => (s.pool p).zipIdx.filterMap fun c => c.1.map fun e => (p, c.2, e)

theorem mem_stations (s : State) (p : PoolId) (k : Nat) (e : RsEntry) :
    s.slot p k = some e ↔ (p, k, e) ∈ stations s := by
  have h : s.slot p k = some e ↔ (s.pool p)[k]? = some (some e) := by
    simp only [State.slot]
    cases (s.pool p)[k]? <;> simp
  rw [h]
  cases p <;> simp [stations, List.mem_filterMap, List.mem_zipIdx_iff_getElem?]

/-- The occupied reorder-buffer slots. -/
def occupied (s : State) : List (Tag × RobEntry) := s.rob.zipIdx.filterMap fun c => c.1.map fun e => (c.2, e)

theorem mem_occupied (s : State) (i : Tag) (e : RobEntry) : s.robAt i = some e ↔ (i, e) ∈ occupied s := by
  have h : s.robAt i = some e ↔ s.rob[i]? = some (some e) := by
    simp only [State.robAt]
    cases s.rob[i]? <;> simp
  rw [h]
  simp [occupied, List.mem_filterMap, List.mem_zipIdx_iff_getElem?]

/-- The clauses of `Entry.Consistent`, as a check. -/
def entryCheck (t : Entry) : Bool :=
  decide ((t.state = .notStarted → t = Entry.fresh t.ins) ∧
    (t.state.started = true → t.ins.op ≠ .sw → t.result.isSome = true) ∧
    (t.state.started = true → (t.ins.op = .lw ∨ t.ins.op = .sw) → t.ea.isSome = true) ∧
    (t.state.started = true → t.ins.op = .sw → t.data.isSome = true) ∧
    (t.state = .executeStart → 1 ≤ t.count ∧ t.tExecStart.isSome = true) ∧
    (t.writePending = true ↔ (t.ins.op = .sw ∧ t.state = .commit)) ∧
    (t.writePending = true → t.ea.isSome = true ∧ t.data.isSome = true ∧ 1 ≤ t.count ∧ t.tCommit.isSome = true))

/-- A reorder-buffer entry `r` in slot `i` against the table entry `t` it names. -/
def robCheck (s : State) (i : Tag) (r : RobEntry) (t : Entry) : Bool :=
  decide (t.tag = some i ∧ t.state.inFlight = true ∧ r.dest = destOf s.cfg t.ins ∧
    (r.value = .unready ↔ t.state ≠ .broadcast) ∧ (r.value = .noValue → t.ins.op = .sw)) &&
  match r.value with
  | .ready _ => decide (t.ins.op ≠ .sw)
  | .unready => true
  | .noValue => true

/-- A waiting operand names an unready entry with a register destination. -/
def operandCheck (s : State) : Operand → Bool
  | .val _ => true
  | .wait i => (s.robAt i).any fun r => r.value == .unready && match r.dest with
    | .reg _ => true
    | .mem => false
    | .none => false

/-- The clauses of `State.Consistent`, as a check. -/
def consistentCheck (s : State) : Bool :=
  s.table.all entryCheck &&
  s.table.zipIdx.all (fun c => s.table.zipIdx.all fun d =>
    decide (c.2 ≤ d.2 → c.1.state = .notStarted → d.1.state = .notStarted)) &&
  (occupied s).all (fun c => (s.table[c.2.instr]?).any (robCheck s c.1 c.2)) &&
  s.table.zipIdx.all (fun c => decide (c.1.state.inFlight = true →
    ∃ r ∈ occupied s, c.1.tag = some r.1 ∧ r.2.instr = c.2)) &&
  (stations s).all (fun c => (s.table[c.2.2.instr]?).any fun t =>
    decide (t.state = .rsWait ∧ poolOf t.ins.op = c.1 ∧ t.tag = some c.2.2.dtag)) &&
  s.table.zipIdx.all (fun c => decide (c.1.state = .rsWait →
    ∃ d ∈ stations s, d.1 = poolOf c.1.ins.op ∧ d.2.2.instr = c.2)) &&
  (stations s).all (fun c => (stations s).all fun d =>
    decide (c.1 = d.1 → c.2.2.instr = d.2.2.instr → c.2.1 = d.2.1)) &&
  (stations s).all (fun c => operandCheck s c.2.2.j && operandCheck s c.2.2.k)

theorem entry_consistent (t : Entry) (h : entryCheck t = true) : t.Consistent := by
  obtain ⟨h1, h2, h3, h4, h5, h6, h7⟩ := of_decide_eq_true h
  exact ⟨h1, h2, h3, h4, h5, h6, h7⟩

theorem operand_waits (s : State) (i : Tag) (h : operandCheck s (.wait i) = true) :
    ∃ r, s.robAt i = some r ∧ r.value = .unready ∧ ∃ d : RegIdx, r.dest = .reg d := by
  obtain ⟨r, hr, h⟩ := (Option.any_eq_true _ _).1 h
  refine ⟨r, hr, ?_⟩
  revert h
  cases hd : r.dest <;> simp

theorem consistent_of_check (s : State) (h : consistentCheck s = true) : s.Consistent := by
  simp only [consistentCheck, Bool.and_eq_true, List.all_eq_true, Option.any_eq_true, decide_eq_true_eq] at h
  obtain ⟨⟨⟨⟨⟨⟨⟨h1, h2⟩, h3⟩, h4⟩, h5⟩, h6⟩, h7⟩, h8⟩ := h
  have ix {n : Nat} {t : Entry} (h : s.table[n]? = some t) : (t, n) ∈ s.table.zipIdx := List.mem_zipIdx_iff_getElem?.2 h
  exact
    { entry := fun t ht => entry_consistent t (h1 t ht)
      inOrder := fun m n t u hmn ht hu => h2 _ (ix ht) _ (ix hu) hmn
      robEntry := fun i e he => by
        obtain ⟨t, ht, hc⟩ := h3 _ ((mem_occupied s i e).1 he)
        obtain ⟨hc, hv⟩ := Bool.and_eq_true_iff.1 hc
        obtain ⟨c1, c2, c3, c4, c5⟩ := of_decide_eq_true hc
        refine ⟨t, ht, c1, c2, c3, c4, c5, fun ⟨w, hw⟩ => ?_⟩
        rw [hw] at hv
        exact of_decide_eq_true hv
      inFlight := fun n t ht hs => by
        obtain ⟨⟨i, e⟩, hr, hg, hn⟩ := h4 _ (ix ht) hs
        exact ⟨i, e, hg, (mem_occupied s i e).2 hr, hn⟩
      station := fun p k e he => h5 _ ((mem_stations s p k e).1 he)
      waiting := fun n t ht hs => by
        obtain ⟨⟨p, k, e⟩, hd, hp, hn⟩ := h6 _ (ix ht) hs
        cases hp
        exact ⟨k, e, (mem_stations s _ k e).2 hd, hn⟩
      oneStation := fun p k l e f he hf =>
        h7 _ ((mem_stations s p k e).1 he) _ ((mem_stations s p l f).1 hf) rfl
      operands := fun p k e i he hw => by
        obtain ⟨hj, hk⟩ := h8 _ ((mem_stations s p k e).1 he)
        rcases hw with hw | hw
        · exact operand_waits s i (hw ▸ hj)
        · exact operand_waits s i (hw ▸ hk) }

/-- The clauses of `State.Shaped` but for the controller's, as a check. -/
def shapeCheck (s : State) : Bool :=
  decide (s.cfg.Legal ∧ s.x.length = s.cfg.nRegs ∧ s.link.length = s.cfg.nRegs ∧ s.rob.length = s.cfg.nRob ∧
    s.robHead < s.cfg.nRob ∧ s.robTail < s.cfg.nRob ∧ s.addPool.length = s.cfg.capAdd ∧
    s.mulPool.length = s.cfg.capMul ∧ s.lsq.length = s.cfg.capLsq ∧ s.event = .dispatch ∧
    (s.cfg.x0Zero = true → s.x[0]? = some 0#32)) &&
  (s.table.all fun t => t.ins.wf s.cfg.nRegs && t.ea.all fun ea => decide (ea.toNat < s.cfg.memSize)) &&
  (!s.cfg.x0Zero || (occupied s).all fun c => decide (c.2.dest ≠ .reg 0#5))

theorem shaped_of_check (s : State) (h : shapeCheck s = true) (hm : s.mc.Shaped s.cfg) : s.Shaped := by
  simp only [shapeCheck, Bool.and_eq_true, Bool.or_eq_true, List.all_eq_true, decide_eq_true_eq, Bool.not_eq_true'] at h
  obtain ⟨⟨⟨h1, h2, h3, h4, h5, h6, h7, h8, h9, h10, h11⟩, ht⟩, hd⟩ := h
  refine ⟨h1, h2, h3, h4, h5, h6, h7, h8, h9, fun t m => (ht t m).1, fun t m ea hea => ?_, h11, fun hx e he => ?_, hm, h10⟩
  · simpa [hea] using (ht t m).2
  · obtain ⟨i, hi⟩ := List.mem_iff_getElem?.1 he
    rcases hd with hd | hd
    · rw [hd] at hx
      cases hx
    · exact hd (i, e) ((mem_occupied s i e).1 (by rw [State.robAt, hi]; rfl))

/-- The clause of `State.LinksNameProducers`, as a check. -/
def linkCheck (s : State) : Bool :=
  s.link.zipIdx.all fun c => c.1.all fun t =>
    (s.robAt t).any fun e => decide (e.dest = .reg (BitVec.ofNat 5 c.2) ∧ c.2 < 32)

theorem links_of_check (s : State) (h : linkCheck s = true) : s.LinksNameProducers := by
  intro r t hl
  have h' := List.all_eq_true.1 h (some t, r) (List.mem_zipIdx_iff_getElem?.2 hl)
  obtain ⟨e, he, hd⟩ := (Option.any_eq_true _ _).1 h'
  obtain ⟨hd, hr⟩ := of_decide_eq_true hd
  exact ⟨e, he, _, by simpa using Nat.mod_eq_of_lt hr, hd⟩

/-! ## A state in the middle of a run, and that it meets the invariants -/

/-- Instruction 0, a store to address 2, has committed and its write is due next cycle; instruction 1 executes; instruction
2, a load of address 3, is ready to start; instruction 3 has not started. -/
def mid : State :=
  let i0 : Instr := .sw 0#5 2#5 2#12
  let i1 : Instr := .add 1#5 2#5 3#5
  let i2 : Instr := .lw 2#5 3#5 0#12
  let i3 : Instr := .addi 3#5 3#5 1#12
  { fresh [i0, i1, i2, i3] with
    table :=
      [{ Entry.fresh i0 with
          state := .commit, tag := some 0, ea := some 2#32, data := some 7#32, count := 1, writePending := true
          tCommit := some 4 },
       { Entry.fresh i1 with
          state := .executeStart, tag := some 1, result := some 10#32, count := 1, tExecStart := some 4 },
       { Entry.fresh i2 with state := .rsWait, tag := some 2, tIssue := some 4 },
       Entry.fresh i3]
    rob     := [none, some ⟨1, .reg 1#5, .unready⟩, some ⟨2, .reg 2#5, .unready⟩, none]
    robHead := 3
    robTail := 1
    link    := [none, some 1, some 2, none]
    lsq     := [some ⟨2, 2, .val 3#32, .val 0#32, 0#32, false⟩, none]
    mc      := { (fresh []).mc with busy := [2] }
    cycle   := 5 }

/-- A property of every entry of a list with its index, checked entry by entry. -/
theorem forall_of_zipIdx {α : Type} {l : List α} {P : Nat → α → Prop} (h : ∀ c ∈ l.zipIdx, P c.2 c.1) (n : Nat) (a : α)
    (e : l[n]? = some a) : P n a :=
  h (a, n) (List.mem_zipIdx_iff_getElem?.2 e)

theorem cfg_legal : cfg.Legal := by decide

/-- One row of one invalid line. -/
theorem cold_level (c : CacheLevel) (hc : c.lines = [[CacheEntry.reset]]) (hr : c.ranks = [[0]]) :
    c.Shaped 1 1 ∧ c.UniqueTags ∧ (∀ n, c.InRange 1 n) ∧ ∀ a, c.find 1 a = none := by
  refine ⟨⟨by rw [hc]; rfl, by rw [hc]; decide, by rw [hr]; rfl, by rw [hr]; decide⟩, ?_, ?_, ?_⟩
  · intro row hrow v w d e hd he hv
    rw [hc] at hrow
    obtain rfl := List.mem_singleton.1 hrow
    obtain rfl := List.mem_singleton.1 (List.mem_of_getElem? hd)
    exact absurd hv (by decide)
  · intro n r w row e hrow he hv
    rw [hc] at hrow
    obtain rfl := List.mem_singleton.1 (List.mem_of_getElem? hrow)
    obtain rfl := List.mem_singleton.1 (List.mem_of_getElem? he)
    exact absurd hv (by decide)
  · intro a
    have hrow : c.row (a % 1) = [CacheEntry.reset] := by
      simp only [CacheLevel.row, hc, Nat.mod_one]
      rfl
    simp only [CacheLevel.find, hrow]
    rfl

theorem mid_mc_shaped : mid.mc.Shaped mid.cfg where
  l1        := (cold_level mid.mc.l1 rfl rfl).1
  l2        := (cold_level mid.mc.l2 rfl rfl).1
  unique1   := (cold_level mid.mc.l1 rfl rfl).2.1
  unique2   := (cold_level mid.mc.l2 rfl rfl).2.1
  range1    := (cold_level mid.mc.l1 rfl rfl).2.2.1 _
  range2    := (cold_level mid.mc.l2 rfl rfl).2.2.1 _
  memWf     := by decide
  memRange  := by decide
  busyWf    := by decide
  busyRange := by decide
  markWf    := by decide
  markRange := by decide
  pfqCap    := by decide
  pfqRange  := by decide
  pfqCount  := by decide

theorem mid_shaped : mid.Shaped := shaped_of_check mid (by decide) mid_mc_shaped

theorem mid_links : mid.LinksNameProducers := links_of_check mid (by decide)

theorem mid_coherent : mid.mc.Coherent mid.cfg where
  clean2 := fun a w e h => by
    have h' := ((cold_level mid.mc.l2 rfl rfl).2.2.2 a).symm.trans h
    cases h'
  clean1 := fun a w e h => by
    have h' := ((cold_level mid.mc.l1 rfl rfl).2.2.2 a).symm.trans h
    cases h'
  queued := fun q hq => by cases hq

theorem mid_rob (i : Tag) (e : RobEntry) (h : mid.robAt i = some e) :
    (i = 1 ∧ e = ⟨1, .reg 1#5, .unready⟩) ∨ (i = 2 ∧ e = ⟨2, .reg 2#5, .unready⟩) :=
  match i, h with
  | 0, h => by cases h
  | 1, h => by
    cases h
    exact .inl ⟨rfl, rfl⟩
  | 2, h => by
    cases h
    exact .inr ⟨rfl, rfl⟩
  | 3, h => by cases h
  | _ + 4, h => by cases h

theorem mid_consistent : mid.Consistent := consistent_of_check mid (by decide)

theorem mid_holds (n : Nat) (t : Entry) (a : Nat) (ht : mid.table[n]? = some t) (h : t.holdsBusy a) : n = 0 ∧ a = 2 := by
  have hd := forall_of_zipIdx (l := mid.table)
    (P := fun n t => (n = 0 ∧ t.ea = some 2#32) ∨ (¬(t.state = .executeStart ∧ t.ins.op = .lw) ∧ t.writePending = false))
    (by decide) n t ht
  obtain ⟨hh, ea, hea, rfl⟩ := h
  rcases hd with ⟨rfl, hd⟩ | ⟨hd, hw⟩
  · rw [hd] at hea
    cases hea
    exact ⟨rfl, rfl⟩
  · rcases hh with hh | hh
    · exact absurd hh hd
    · rw [hw] at hh
      cases hh

theorem mid_busy : mid.BusyHeld where
  held := fun a h => by
    have : a = 2 := by simpa [mid, AddrSet.has] using h
    exact ⟨0, _, rfl, .inr rfl, 2#32, rfl, this.symm⟩
  set := fun n t a ht h => by
    rw [(mid_holds n t a ht h).2]
    rfl
  single := fun m n t u a ht hu h h' => (mid_holds m t a ht h).1.trans (mid_holds n u a hu h').1.symm

theorem mid_ordered : mid.RobOrdered := by
  refine ⟨1, 2, by decide, by decide, ?_, ?_, ?_⟩
  · intro i hi
    match i, hi with
    | 0, _ => exact ⟨_, rfl, rfl⟩
    | 1, _ => exact ⟨_, rfl, rfl⟩
  · intro i h2 h4
    have h4' : i < 4 := h4
    obtain rfl | rfl : i = 2 ∨ i = 3 := by omega
    · rfl
    · rfl
  · exact fun n t h => forall_of_zipIdx (l := mid.table)
      (P := fun n t => (t.state.committed = true ↔ n < 1) ∧ (t.state = .notStarted ↔ 1 + 2 ≤ n)) (by decide) n t h

theorem mid_youngest : mid.LinksNameYoungest := by
  intro r t u e f hl he hf hd
  have h := forall_of_zipIdx (l := mid.link) (P := fun r l => l = none ∨ l = some r) (by decide) _ _ hl
  rcases h with h | h
  · cases h
  · cases h
    rcases mid_rob _ e he with ⟨h1, rfl⟩ | ⟨h1, rfl⟩ <;> rcases mid_rob u f hf with ⟨rfl, rfl⟩ | ⟨rfl, rfl⟩
    · exact Nat.le_refl _
    · cases hd
      exact absurd h1 (by decide)
    · cases hd
      exact absurd h1 (by decide)
    · exact Nat.le_refl _

/-- The state after a step, and that there is one. -/
def stepped (s : State) : State :=
  match step s with
  | .next t => t
  | .fault _ => s
  | .refused _ => s

theorem step_mid : step mid = .next (stepped mid) := by rfl

/-- What the step of `mid` does: the store writes, the add ends, the load starts on the new view, the ADDI is issued. -/
theorem test_step_mid :
    (stepped mid).table.map Entry.state = [.memoryWrite, .executeEnd, .executeStart, .rsWait] ∧
      (stepped mid).mc.view cfg 2 = 7#32 ∧ (stepped mid).mc.busy = [3] ∧ (stepped mid).status = .running := by decide

/-! ## States with a full reorder buffer, for the clauses on commit, broadcast and start -/

/-- Entry 0 has broadcast and is at the tail of a full reorder buffer, entry 1 has the bus, entry 2 waits for it or not,
entries 3 (a load of address `a`), 4 and 5 (a store to address 1) are ready. `busy` are the busy addresses. -/
def late (e0 : Entry) (r0 : RobEntry) (e1 : Entry) (d1 : Dest) (j : Operand) (a : Word) (busy : AddrSet) : State :=
  let waits (i : Instr) (tag : Tag) : Entry := { Entry.fresh i with state := .rsWait, tag := some tag, tIssue := some 4 }
  let i2 : Instr := .addi 3#5 1#5 1#12
  let i3 : Instr := .lw 2#5 3#5 0#12
  let i4 : Instr := .mul 1#5 2#5 3#5
  let i5 : Instr := .sw 0#5 2#5 1#12
  { fresh [] with
    cfg     := { cfg with nRob := 6 }
    table   := [e0, e1, waits i2 2, waits i3 3, waits i4 4, waits i5 5]
    rob     := [some r0, some ⟨1, d1, .unready⟩, some ⟨2, .reg 3#5, .unready⟩, some ⟨3, .reg 2#5, .unready⟩,
      some ⟨4, .reg 1#5, .unready⟩, some ⟨5, .mem, .unready⟩]
    link    := [none, some 4, some 3, some 2]
    addPool := [some ⟨2, 2, j, .val 1#32, 1#32, false⟩, none]
    mulPool := [some ⟨4, 4, .val 7#32, .val 3#32, 0#32, false⟩, none]
    lsq     := [some ⟨3, 3, .val a, .val 0#32, 0#32, false⟩, some ⟨5, 5, .val 0#32, .val 7#32, 1#32, false⟩]
    mc      := { (fresh []).mc with busy := busy }
    status  := .running
    cycle   := 5 }

/-- An instruction that has broadcast its result, in slot 0. -/
def doneEntry (i : Instr) : Entry :=
  { Entry.fresh i with
    state := .broadcast, tag := some 0, result := some 12#32, ea := some 2#32, data := some 7#32, tBroadcast := some 5 }

/-- An instruction that has executed, with result 10, in slot 1. -/
def endedEntry (i : Instr) : Entry :=
  { Entry.fresh i with state := .executeEnd, tag := some 1, result := some 10#32, ea := some 1#32, data := some 7#32 }

/-- A register result at the tail, an ADD that entry 2 waits for with the bus, and the load in range and not refused. -/
def lateReg : State :=
  late (doneEntry (.add 1#5 2#5 3#5)) ⟨0, .reg 1#5, .ready 12#32⟩ (endedEntry (.add 1#5 2#5 3#5)) (.reg 1#5) (.wait 1)
    3#32 []

/-- The same with the load at the first address out of range. -/
def lateBeyond : State :=
  late (doneEntry (.add 1#5 2#5 3#5)) ⟨0, .reg 1#5, .ready 12#32⟩ (endedEntry (.add 1#5 2#5 3#5)) (.reg 1#5) (.wait 1)
    4#32 []

/-- A branch at the tail; the load is refused and the store behind it is not. -/
def lateBranch : State :=
  late (doneEntry (.beq 1#5 2#5 8#13)) ⟨0, .none, .ready 12#32⟩ (endedEntry (.add 1#5 2#5 3#5)) (.reg 1#5) (.wait 1)
    3#32 [3]

/-- A store to a free address at the tail, a store with the bus; the load and the store behind it are refused. -/
def lateStore : State :=
  late (doneEntry (.sw 0#5 2#5 2#12)) ⟨0, .mem, .noValue⟩ (endedEntry (.sw 0#5 2#5 1#12)) .mem (.val 10#32) 3#32 [1, 3]

/-- A store to a busy address at the tail. -/
def lateStalled : State :=
  late (doneEntry (.sw 0#5 2#5 2#12)) ⟨0, .mem, .noValue⟩ (endedEntry (.sw 0#5 2#5 1#12)) .mem (.val 10#32) 3#32 [2]

def lates : List State := [lateReg, lateBeyond, lateBranch, lateStore, lateStalled]

theorem lates_consistent : ∀ s ∈ lates, s.Consistent := by
  have h : ∀ s ∈ lates, consistentCheck s = true := by decide
  exact fun s hs => consistent_of_check s (h s hs)

theorem late_mc_shaped (busy : AddrSet) (hw : AddrSet.wf busy) (hr : ∀ a ∈ busy, a < 4) :
    MemCtl.Shaped { cfg with nRob := 6 } { (fresh []).mc with busy := busy } :=
  { mid_mc_shaped with busyWf := hw, busyRange := hr }

theorem lates_links : ∀ s ∈ lates, s.LinksNameProducers := by
  have h : ∀ s ∈ lates, linkCheck s = true := by decide
  exact fun s hs => links_of_check s (h s hs)

theorem lates_shaped : ∀ s ∈ lates, s.Shaped := by
  have h : ∀ s ∈ lates, shapeCheck s = true := by decide
  refine fun s hs => shaped_of_check s (h s hs) ?_
  revert s
  simp only [lates, List.forall_mem_cons]
  exact ⟨late_mc_shaped _ (by decide) (by decide), late_mc_shaped _ (by decide) (by decide),
    late_mc_shaped _ (by decide) (by decide), late_mc_shaped _ (by decide) (by decide),
    late_mc_shaped _ (by decide) (by decide), fun _ h => by cases h⟩

theorem stepped_of_check (s : State) (h : after (step s) (fun _ => true) = true) : step s = .next (stepped s) := by
  unfold stepped
  cases hs : step s with
  | next t => rfl
  | fault r => rw [hs] at h; cases h
  | refused r => rw [hs] at h; cases h

/-- What the statements about a whole tick ask of a state. -/
theorem lates_meet (s : State) (hs : s ∈ lates) :
    (s.Shaped ∧ s.LinksNameProducers ∧ s.Consistent) ∧ s.status = .running ∧ s.allTerminal = false ∧
      s.cycle < s.cfg.maxCycles ∧ step s = .next (stepped s) := by
  have h : ∀ s ∈ lates, s.status = .running ∧ s.allTerminal = false ∧ s.cycle < s.cfg.maxCycles ∧
      after (step s) (fun _ => true) = true := by decide
  obtain ⟨h1, h2, h3, h4⟩ := h s hs
  exact ⟨⟨lates_shaped s hs, lates_links s hs, lates_consistent s hs⟩, h1, h2, h3, stepped_of_check s h4⟩

/-- The state in which the start phase of a tick begins, and that there is one. -/
def atStarts (s : State) : State :=
  let run (f : State → Out) (s : State) : State :=
    match f s with
    | .next t => t
    | .fault _ => s
    | .refused _ => s
  run finishPhase (run memTickStage (run broadcastStage (run commitStage { s with cycle := s.cycle + 1 })))

theorem lates_reach : ∀ s ∈ lates, s.ReachesStarts (atStarts s) := by
  simp only [lates, List.forall_mem_cons]
  refine ⟨?_, ?_, ?_, ?_, ?_, fun _ h => by cases h⟩ <;>
    exact ⟨_, _, _, by rfl, by rfl, by rfl, by rfl, by rfl, by rfl, by rfl, by rfl⟩

/-! ## Witnesses: for each statement with hypotheses, a state and operands that meet them, clause by clause -/

/-- The last register and an immediate of each end. -/
theorem witness_DecodeOfEncode :
    Instr.wf 4 (.sub 3#5 3#5 0#5) = true ∧ Instr.wf 1 (.lw 0#5 0#5 0x800#12) = true ∧
      Instr.wf 32 (.sw 31#5 31#5 0x7FF#12) = true ∧ Instr.wf 32 (.bne 31#5 0#5 0x1000#13) = true := by decide

theorem witness_EncodeOfDecode : decode 4 0x0031A0A3#32 = some (.sw 3#5 3#5 1#12) := by decide

theorem witness_DecodeTableRows :
    ∃ row ∈ decodeTable, ∃ row' ∈ decodeTable, (0x003100B3#32 &&& row.mask = row.mtch) ∧
      (0x003100B3#32 &&& row'.mask = row'.mtch) := by decide

theorem witness_LoadBuildsResetState :
    cfg.Legal ∧ [1#32, 2#32, 3#32, 4#32].length = cfg.memSize ∧ [9#32, 5#32, 6#32, 7#32].length = cfg.nRegs := by decide

/-- A program of one instruction and one illegal word. -/
def loaded : State :=
  match State.load cfg [0x003100B3#32, 0x00000073#32] [0#32, 0#32, 0#32, 0#32] [0#32, 5#32, 7#32, 3#32] with
  | .next s => s
  | .fault _ => mid
  | .refused _ => mid

theorem loaded_clean : State.CleanEntry cfg loaded :=
  ⟨[0x003100B3#32, 0x00000073#32], [0#32, 0#32, 0#32, 0#32], [0#32, 5#32, 7#32, 3#32], by rfl⟩

theorem witness_LoadMeetsInvariants : State.CleanEntry cfg loaded := loaded_clean

theorem witness_FirstInstructionDispatchesFirst :
    State.CleanEntry cfg loaded ∧ loaded.table = [Entry.fresh (.add 1#5 2#5 3#5)] ∧ 1 ≤ cfg.maxCycles ∧
      loaded.decodeErrors = [(1, 0x00000073#32)] :=
  ⟨loaded_clean, by decide, by decide, by decide⟩

/-- `mid` with x0 hard-wired. -/
def midX0 : State := { mid with cfg := { cfg with x0Zero := true } }

/-- `mid` with the add broadcast: its slot holds the value. -/
def midReady : State :=
  { mid with rob := [none, some ⟨1, .reg 1#5, .ready 10#32⟩, some ⟨2, .reg 2#5, .unready⟩, none] }

/-- Each clause of the capture: x0 under X0_ZERO, a free register, a producer that has broadcast, one that has not. -/
theorem witness_OperandCapture :
    (midX0.x[(0#5).toNat]? = some 0#32 ∧ midX0.link[(0#5).toNat]? = some none ∧ midX0.cfg.x0Zero = true) ∧
    (mid.x[(3#5).toNat]? = some 3#32 ∧ mid.link[(3#5).toNat]? = some none ∧ mid.cfg.x0Zero = false) ∧
    (midReady.x[(1#5).toNat]? = some 5#32 ∧ midReady.link[(1#5).toNat]? = some (some 1) ∧
      midReady.robAt 1 = some ⟨1, .reg 1#5, .ready 10#32⟩) ∧
    (mid.x[(1#5).toNat]? = some 5#32 ∧ mid.link[(1#5).toNat]? = some (some 1) ∧
      mid.robAt 1 = some ⟨1, .reg 1#5, .unready⟩ ∧ ∀ w, RobValue.unready ≠ .ready w) :=
  ⟨by decide, by decide, by decide, by decide, by decide, by decide, fun _ h => by cases h⟩

/-- `mid` with instruction 3 replaced: the state of a dispatch of `i`, from x3 (free), x1 (waiting). -/
def midWith (i : Instr) : State := { mid with table := mid.table.take 3 ++ [Entry.fresh i] }

theorem midWith_before (i : Instr) (m : Nat) (u : Entry) (hm : m < 3) (h : (midWith i).table[m]? = some u) :
    u.state ≠ .notStarted :=
  match m, hm, h with
  | 0, _, h => by
    cases h
    decide
  | 1, _, h => by
    cases h
    decide
  | 2, _, h => by
    cases h
    decide

theorem witness_DispatchToAddPool :
    let s := midWith (.addi 3#5 3#5 1#12)
    s.event = .dispatch ∧ s.table[3]? = some (Entry.fresh (.addi 3#5 3#5 1#12)) ∧
      (Entry.fresh (.addi 3#5 3#5 1#12)).state = .notStarted ∧
      (∀ (m : Nat) (u : Entry), m < 3 → s.table[m]? = some u → u.state ≠ .notStarted) ∧
      s.addPool[0]? = some none ∧ (∀ l < 0, s.addPool[l]? ≠ some none) ∧ s.robAt s.robHead = none ∧
      (3#5).toNat < s.x.length ∧ s.cap 3#5 = some (.val 3#32) ∧ s.cap 1#5 = some (.wait 1) :=
  ⟨rfl, rfl, rfl, midWith_before _, by decide, by decide, by decide, by decide, by decide, by decide⟩

/-- The first slot is taken here, so the instruction goes into the second. -/
theorem witness_DispatchToMulPool :
    let s := { midWith (.div 3#5 3#5 1#5) with mulPool := [some ⟨9, 9, .val 0#32, .val 0#32, 0#32, false⟩, none] }
    s.event = .dispatch ∧ s.table[3]? = some (Entry.fresh (.div 3#5 3#5 1#5)) ∧
      (Entry.fresh (.div 3#5 3#5 1#5)).state = .notStarted ∧
      (∀ (m : Nat) (u : Entry), m < 3 → s.table[m]? = some u → u.state ≠ .notStarted) ∧
      s.mulPool[1]? = some none ∧ (∀ l < 1, s.mulPool[l]? ≠ some none) ∧ s.robAt s.robHead = none ∧
      (3#5).toNat < s.x.length ∧ s.cap 3#5 = some (.val 3#32) ∧ s.cap 1#5 = some (.wait 1) :=
  ⟨rfl, rfl, rfl, midWith_before _, by decide, by decide, by decide, by decide, by decide, by decide⟩

theorem witness_DispatchToLoadStoreQueue :
    let s := midWith (.sw 3#5 1#5 4#12)
    s.event = .dispatch ∧ s.table[3]? = some (Entry.fresh (.sw 3#5 1#5 4#12)) ∧
      (Entry.fresh (.sw 3#5 1#5 4#12)).state = .notStarted ∧
      (∀ (m : Nat) (u : Entry), m < 3 → s.table[m]? = some u → u.state ≠ .notStarted) ∧
      s.lsq[1]? = some none ∧ (∀ l < 1, s.lsq[l]? ≠ some none) ∧ s.robAt s.robHead = none ∧
      (3#5).toNat < s.x.length ∧ s.cap 3#5 = some (.val 3#32) ∧ s.cap 1#5 = some (.wait 1) :=
  ⟨rfl, rfl, rfl, midWith_before _, by decide, by decide, by decide, by decide, by decide, by decide⟩

/-- The destination x0 under X0_ZERO meets the hypotheses of a dispatch too. -/
theorem witness_dispatch_to_x0 :
    midX0.cfg.x0Zero = true ∧ (0#5).toNat < midX0.x.length ∧ midX0.cap 0#5 = some (.val 0#32) ∧
      midX0.robAt midX0.robHead = none := by decide

/-- Each way to stall: a full pool, a full reorder buffer, nothing left to start. -/
theorem witness_DispatchStalls :
    (∀ e ∈ ({ mid with addPool := [some ⟨3, 3, .val 0#32, .val 0#32, 0#32, false⟩] } : State).pool (poolOf .add),
      e ≠ none) ∧
    ({ mid with robHead := 1 } : State).robAt 1 ≠ none ∧
    (∀ t ∈ ({ mid with table := mid.table.take 3 } : State).table, t.state ≠ .notStarted) ∧ mid.event = .dispatch := by
  decide

/-- `mid` under X0_ZERO has the shape too. -/
theorem midX0_shaped : midX0.Shaped := shaped_of_check midX0 (by decide) { mid_mc_shaped with }

/-- `mid` with x0 linked to slot 1, whose entry writes x0: not ready, or ready with 10. -/
def midLinked (v : RobValue) : State :=
  { mid with
    link := [some 1, none, some 2, none], rob := [none, some ⟨1, .reg 0#5, v⟩, some ⟨2, .reg 2#5, .unready⟩, none] }

theorem witness_X0HardwiredToZero :
    (midX0.cfg.x0Zero = true ∧ midX0.x[0]? = some 0#32 ∧ midX0.link[0]? ≠ none) ∧
    (mid.cfg.x0Zero = false ∧ mid.x[0]? = some 0#32 ∧ mid.link[0]? = some none) ∧
    (∀ v, (midLinked v).cfg.x0Zero = false ∧ (midLinked v).link[0]? = some (some 1) ∧
      (midLinked v).robAt 1 = some ⟨1, .reg 0#5, v⟩) ∧
    (∃ t, exec (.add 0#5 3#5 1#5) midX0 = .next t) ∧
    (mid.event = .dispatch ∧ ∃ t, exec (.lw 0#5 3#5 0#12) mid = .next t ∧ t.table ≠ mid.table) ∧
    (let s := { midLinked (.ready 10#32) with event := .commit };
      s.robAt s.robTail = some ⟨1, .reg 0#5, .ready 10#32⟩ ∧ (∃ u, s.table[1]? = some u) ∧ 0 < s.x.length) ∧
    (midX0.Shaped ∧ step midX0 = .next (stepped midX0)) :=
  ⟨by decide, by decide, fun _ => ⟨rfl, rfl, rfl⟩, ⟨_, by rfl⟩, ⟨rfl, _, by rfl, by decide⟩,
    ⟨rfl, ⟨_, rfl⟩, by decide⟩, midX0_shaped, by rfl⟩

theorem witness_OnlyReadyStationsStart :
    (({ mid with event := .start .add 0 } : State).slot .add 0 = none) ∧
    (({ mid with lsq := [some ⟨2, 2, .wait 1, .val 0#32, 0#32, false⟩] } : State).slot .lsq 0 =
      some ⟨2, 2, .wait 1, .val 0#32, 0#32, false⟩) ∧
    (({ mid with lsq := [some ⟨2, 2, .val 1#32, .wait 1, 0#32, false⟩] } : State).slot .lsq 0 =
      some ⟨2, 2, .val 1#32, .wait 1, 0#32, false⟩) ∧
    (({ mid with lsq := [some ⟨2, 2, .val 1#32, .val 0#32, 0#32, true⟩] } : State).slot .lsq 0 =
      some ⟨2, 2, .val 1#32, .val 0#32, 0#32, true⟩) := by decide

/-- Meets the hypotheses of a start in pool `p` with operands `a` and `b`. -/
theorem ready_meets (p : PoolId) (i : Instr) (a b imm : Word) :
    (ready p i a b imm).event = .start p 0 ∧ (ready p i a b imm).slot p 0 = some ⟨0, 0, .val a, .val b, imm, false⟩ ∧
      (ready p i a b imm).table[0]? =
        some { Entry.fresh i with state := .rsWait, tag := some 0, tIssue := some 1 } := by
  cases p <;> exact ⟨rfl, rfl, rfl⟩

/-- Every clause: no zero divisor, a zero divisor, the overflow, an ordinary division. -/
theorem witness_ArithmeticStart :
    ((ready .add (.add 1#5 2#5 3#5) 10#32 20#32 0#32).slot .add 0 = some ⟨0, 0, .val 10#32, .val 20#32, 0#32, false⟩) ∧
    ((ready .mul (.div 1#5 2#5 3#5) 7#32 0#32 0#32).slot .mul 0 = some ⟨0, 0, .val 7#32, .val 0#32, 0#32, false⟩) ∧
    ((ready .mul (.div 1#5 2#5 3#5) 0x80000000#32 0xFFFFFFFF#32 0#32).slot .mul 0 =
      some ⟨0, 0, .val 0x80000000#32, .val 0xFFFFFFFF#32, 0#32, false⟩ ∧ 0xFFFFFFFF#32 ≠ 0#32) ∧
    ((ready .mul (.div 1#5 2#5 3#5) 0x80000000#32 1#32 0#32).slot .mul 0 =
      some ⟨0, 0, .val 0x80000000#32, .val 1#32, 0#32, false⟩ ∧
      ¬(0x80000000#32 = 0x80000000#32 ∧ 1#32 = 0xFFFFFFFF#32)) :=
  ⟨(ready_meets ..).2.1, (ready_meets ..).2.1, ⟨(ready_meets ..).2.1, by decide⟩, (ready_meets ..).2.1, by decide⟩

theorem witness_ProductAndQuotientAsIntegers :
    (1#32 ≠ 0#32) ∧ ¬(0x80000000#32 = 0x80000000#32 ∧ 1#32 = 0xFFFFFFFF#32) ∧
      ¬(0x7FFFFFFF#32 = 0x80000000#32 ∧ 0xFFFFFFFF#32 = 0xFFFFFFFF#32) := by decide

/-- The last address in range, neither busy nor with a load executing. -/
theorem witness_LoadStart :
    let s := { mid with event := .start .lsq 0 }
    s.event = .start .lsq 0 ∧ s.lsq[0]? = some (some ⟨2, 2, .val 3#32, .val 0#32, 0#32, false⟩) ∧
      s.table[2]? = some { Entry.fresh (.lw 2#5 3#5 0#12) with state := .rsWait, tag := some 2, tIssue := some 4 } ∧
      (3#32 + 0#32).toNat < s.cfg.memSize ∧ s.mc.busy.has (3#32 + 0#32).toNat = false ∧
      (∀ u ∈ s.table, ¬(u.state = .executeStart ∧ u.ins.op = .lw)) :=
  ⟨rfl, rfl, rfl, by decide, by decide, by decide⟩

theorem witness_StoreStart :
    let s := ready .lsq (.sw 1#5 2#5 1#12) 2#32 99#32 1#32
    s.event = .start .lsq 0 ∧ s.lsq[0]? = some (some ⟨0, 0, .val 2#32, .val 99#32, 1#32, false⟩) ∧
      (∃ t, s.table[0]? = some t) ∧ (2#32 + 1#32).toNat < s.cfg.memSize ∧
      s.mc.busy.has (2#32 + 1#32).toNat = false :=
  ⟨rfl, rfl, ⟨_, rfl⟩, by decide, by decide⟩

/-- Address 2 of `mid` is busy; and with a load executing, every load is refused. -/
theorem witness_HazardsRefuseStart :
    let s := ready .lsq (.lw 1#5 2#5 1#12) 1#32 0#32 1#32
    let busy := { s with mc := { s.mc with busy := [2] } }
    let port := { s with table := s.table ++ [{ Entry.fresh (.lw 1#5 2#5 1#12) with state := .executeStart }] }
    (busy.event = .start .lsq 0 ∧ busy.lsq[0]? = some (some ⟨0, 0, .val 1#32, .val 0#32, 1#32, false⟩) ∧
      0 < busy.table.length ∧ (1#32 + 1#32).toNat < busy.cfg.memSize ∧
      busy.mc.busy.has (1#32 + 1#32).toNat = true) ∧
    (port.lsq[0]? = some (some ⟨0, 0, .val 1#32, .val 0#32, 1#32, false⟩) ∧
      ∃ u ∈ port.table, u.state = .executeStart ∧ u.ins.op = .lw) := by decide

/-- The first address out of range, and a station that is no candidate. -/
theorem witness_OutOfRangeRaises :
    let s := ready .lsq (.sw 1#5 2#5 1#12) 3#32 99#32 1#32
    let settling := { s with lsq := [some ⟨0, 0, .val 3#32, .val 99#32, 1#32, true⟩] }
    (s.event = .start .lsq 0 ∧ s.lsq[0]? = some (some ⟨0, 0, .val 3#32, .val 99#32, 1#32, false⟩) ∧
      0 < s.table.length ∧ s.cfg.memSize ≤ (3#32 + 1#32).toNat) ∧
    (settling.event = .start .lsq 0 ∧
      settling.lsq[0]? = some (some ⟨0, 0, .val 3#32, .val 99#32, 1#32, true⟩)) := by decide

/-- A countdown at 2, one at 1 of a branch, and one at 1 of a load with an address. -/
theorem witness_ExecutionCountdown :
    let t2 : Entry := { Entry.fresh (.mul 1#5 2#5 3#5) with state := .executeStart, count := 2 }
    let t1 : Entry := { Entry.fresh (.beq 1#5 2#5 8#13) with state := .executeStart, count := 1 }
    let tl : Entry := { Entry.fresh (.lw 1#5 2#5 0#12) with state := .executeStart, count := 1, ea := some 2#32 }
    (∀ t ∈ [t2, t1, tl], ({ mid with table := [t], event := .countdown 0 } : State).table[0]? = some t) ∧
      2 ≤ t2.count ∧ t1.count = 1 ∧ (Instr.beq 1#5 2#5 8#13).op ≠ .lw ∧ tl.count = 1 ∧ tl.ea = some 2#32 := by decide

/-- The add of `mid`, ended, with the only slot of its own. -/
theorem witness_BroadcastWritesAndWakes :
    let s := { mid with event := .broadcast 1 }
    s.event = .broadcast 1 ∧ (∃ t, s.table[1]? = some t ∧ t.result = some 10#32) ∧
      s.robAt 1 = some ⟨1, .reg 1#5, .unready⟩ ∧ (Instr.add 1#5 2#5 3#5).op ≠ .sw ∧
      (∀ (q' : Tag) (r' : RobEntry), s.robAt q' = some r' → r'.instr = 1 → q' = 1) :=
  ⟨rfl, ⟨_, rfl, rfl⟩, rfl, by decide, fun q' r' h hr => by
    rcases mid_rob q' r' h with ⟨rfl, rfl⟩ | ⟨rfl, rfl⟩
    · rfl
    · exact absurd hr (by decide)⟩

/-- Each case of the commit: not ready, a register, no destination, a store on a busy address and on a free one. -/
theorem witness_CommitByDestination :
    let s := { mid with event := .commit }
    let none' := { s with rob := [none, some ⟨1, .none, .ready 1#32⟩, none, none] }
    let store (ea : Word) : State :=
      { s with
        rob   := [none, some ⟨1, .mem, .noValue⟩, none, none]
        table := s.table.set 1 { Entry.fresh (.sw 1#5 2#5 0#12) with state := .broadcast, ea := some ea } }
    (s.event = .commit ∧ ∀ e, s.robAt s.robTail = some e → e.value = .unready) ∧
    (midReady.robAt midReady.robTail = some ⟨1, .reg 1#5, .ready 10#32⟩ ∧ (1#5).toNat < midReady.x.length ∧
      midReady.table[1]? = mid.table[1]?) ∧
    (none'.robAt none'.robTail = some ⟨1, .none, .ready 1#32⟩ ∧ RobValue.ready 1#32 ≠ .unready) ∧
    ((store 2#32).robAt 1 = some ⟨1, .mem, .noValue⟩ ∧ (store 2#32).mc.busy.has (2#32).toNat = true) ∧
    ((store 3#32).robAt 1 = some ⟨1, .mem, .noValue⟩ ∧ (store 3#32).mc.busy.has (3#32).toNat = false) := by
  refine ⟨⟨rfl, fun e h => ?_⟩, by decide, by decide, by decide, by decide⟩
  rcases mid_rob _ e h with ⟨_, rfl⟩ | ⟨_, rfl⟩ <;> rfl

theorem witness_StoreWrite :
    let s := { mid with event := .storeTick 0 }
    let waiting := { s with table := s.table.modify 0 (fun t => { t with count := 2 }) }
    (s.event = .storeTick 0 ∧ (∃ t, s.table[0]? = some t ∧ t.count = 1 ∧ t.ea = some 2#32 ∧ t.data = some 7#32) ∧
      s.cfg.Legal ∧ s.mc.Shaped s.cfg ∧ s.mc.Coherent s.cfg) ∧
    ∃ t, waiting.table[0]? = some t ∧ 2 ≤ t.count :=
  ⟨⟨rfl, ⟨_, rfl, rfl, rfl, rfl⟩, cfg_legal, mid_mc_shaped, mid_coherent⟩, _, rfl, by decide⟩

/-- A next state at each event that changes the table. -/
theorem witness_InstructionFrame :
    (∃ t, exec (.addi 3#5 3#5 1#12) mid = .next t ∧ t.table[3]? ≠ mid.table[3]?) ∧
    (∃ t, exec (.lw 2#5 3#5 0#12) { mid with event := .start .lsq 0 } = .next t ∧ t.table[2]? ≠ mid.table[2]?) ∧
    (∃ t, exec (.add 1#5 2#5 3#5) { mid with event := .countdown 1 } = .next t ∧ t.table[1]? ≠ mid.table[1]?) ∧
    (∃ t, exec (.add 1#5 2#5 3#5) { mid with event := .broadcast 1 } = .next t ∧ t.table[1]? ≠ mid.table[1]?) ∧
    (∃ t, exec (.add 1#5 2#5 3#5) { midReady with event := .commit } = .next t ∧ t.table[1]? ≠ mid.table[1]?) ∧
    (∃ t, exec (.sw 0#5 2#5 2#12) { mid with event := .storeTick 0 } = .next t ∧ t.table[0]? ≠ mid.table[0]?) ∧
    (mid.cfg.Legal ∧ mid.mc.Shaped mid.cfg ∧ mid.mc.Coherent mid.cfg) :=
  ⟨⟨_, by rfl, by decide⟩, ⟨_, by rfl, by decide⟩, ⟨_, by rfl, by decide⟩, ⟨_, by rfl, by decide⟩,
    ⟨_, by rfl, by decide⟩, ⟨_, by rfl, by decide⟩, cfg_legal, mid_mc_shaped, mid_coherent⟩

/-- One row with a valid line of address 3 and an invalid one. -/
def level : CacheLevel := ⟨[[⟨true, true, 3, 9#32⟩, CacheEntry.reset]], [[0, 1]]⟩

theorem level_unique : level.UniqueTags := by
  intro row hrow v w d e hd he hv hw _
  obtain rfl := List.mem_singleton.1 hrow
  have h := forall_of_zipIdx (l := [(⟨true, true, 3, 9#32⟩ : CacheEntry), CacheEntry.reset])
    (P := fun n e => n = 0 ∨ e.valid = false) (by decide)
  rcases h v d hd with rfl | h1
  · rcases h w e he with rfl | h2
    · rfl
    · rw [h2] at hw
      cases hw
  · rw [h1] at hv
    cases hv

theorem witness_LookupByRowAndTag :
    1 ≤ 1 ∧ level.UniqueTags ∧ level.find 1 3 = some (0, ⟨true, true, 3, 9#32⟩) ∧ 0 < 1 :=
  ⟨by decide, level_unique, by decide, by decide⟩

theorem witness_TouchAndVictim :
    level.ranks[0]? = some [0, 1] ∧ [0, 1].Nodup ∧ [0, 1] ≠ [] ∧ (1 : Nat) ≠ 0 := by decide

theorem witness_DemandReadAnswers : cfg.Legal ∧ mid.mc.Shaped cfg := ⟨cfg_legal, mid_mc_shaped⟩

theorem witness_HitAndMissCounters :
    (∃ m r, MemCtl.read cfg 5 mid.mc 1 = .ok m r) ∧ (∃ m, MemCtl.write cfg 5 mid.mc 1 9#32 = .ok m ()) ∧
      ∃ m, MemCtl.pfTick cfg 5 { mid.mc with pfq := [⟨3, 0#32, 1, 4⟩] } = .ok m () :=
  ⟨⟨_, _, by rfl⟩, ⟨_, by rfl⟩, ⟨_, by rfl⟩⟩

/-- Every clause on the controller of `mid`, and an install on the same with a request queued. -/
theorem witness_CoherentView :
    let m := { mid.mc with pfq := [⟨3, 0#32, 1, 4⟩] }
    (cfg.Legal ∧ mid.mc.Shaped cfg ∧ mid.mc.Coherent cfg) ∧
    (∃ m' v lat, MemCtl.read cfg 5 mid.mc 1 = .ok m' (v, lat)) ∧
    (∃ m', MemCtl.write cfg 5 mid.mc 1 9#32 = .ok m' ()) ∧
    (∃ m', MemCtl.fill1 cfg 5 mid.mc 1 (mid.mc.view cfg 1) false = .ok m' ()) ∧
    (∃ m', MemCtl.fill2 cfg 5 mid.mc 1 (Mem.read mid.mc.mem 1) false = .ok m' ()) ∧
    (∃ m', MemCtl.evict1 cfg 5 mid.mc 1 = .ok m' ()) ∧
    (m.Coherent cfg ∧ ∃ q ∈ m.pfq, ∃ m', MemCtl.pfInstall cfg 5 m q = .ok m' ()) ∧
    ∃ m', MemCtl.pfTick cfg 5 m = .ok m' () :=
  ⟨⟨cfg_legal, mid_mc_shaped, mid_coherent⟩, ⟨_, _, _, by rfl⟩, ⟨_, by rfl⟩, ⟨_, by rfl⟩, ⟨_, by rfl⟩, ⟨_, by rfl⟩,
    ⟨⟨mid_coherent.clean2, mid_coherent.clean1, by decide⟩, _, List.mem_singleton.2 rfl, _, by rfl⟩, ⟨_, by rfl⟩⟩

/-- Two requests that pass the first clause; a controller whose level 2 holds a request's address, and the cold one, whose
level 2 does not. -/
theorem witness_PrefetchTickIsOnePass :
    (∀ q ∈ [(⟨3, 0#32, 1, 4⟩ : PfReq), ⟨1, 11#32, 5, 5⟩], 1 ≤ q.count) ∧
    ({ mid.mc with l2 := ⟨[[⟨true, false, 3, 0#32⟩]], [[0]]⟩ } : MemCtl).l2.holds cfg.l2Rows 3 = true ∧
    (mid.mc.l2.holds cfg.l2Rows 3 = false ∧ cfg.Legal ∧ mid.mc.Shaped cfg) :=
  ⟨by decide, by decide, by decide, cfg_legal, mid_mc_shaped⟩

/-- The install into a full row evicts the line of address 1: its mark goes, that of address 3 is set (R115, R116). -/
theorem test_install_moves_mark :
    (match MemCtl.pfInstall cfg 5
        { mid.mc with l2 := ⟨[[⟨true, false, 1, 11#32⟩]], [[0]]⟩, pfMark := [1, 2] } ⟨3, 0#32, 1, 4⟩ with
      | .ok m _ => m.pfMark == [2, 3] && m.cnt.pfFilled == 1 && m.l2.lines == [[⟨true, false, 3, 0#32⟩]]
      | .dup _ _ _ => false) = true := by decide

theorem witness_BusArbitration :
    ({ mid with table := mid.table.map (fun t => { t with state := .executeEnd }) } : State).busWinner = some 0 := by
  decide

/-- `CandidatesOldestFirst` has no hypothesis; `mid` has one candidate. -/
theorem test_candidates : mid.candidates .lsq = [0] ∧ mid.candidates .add = [] := by decide

theorem witness_RunLoopPass :
    ({ mid with status := .completed } : State).status ≠ .running ∧
    (mid.status = .running ∧ ∀ t ∈ ({ mid with table := [] } : State).table, t.state = .memoryWrite) ∧
    (¬∀ t ∈ mid.table, (t.state = .commit ∧ t.ins.op ≠ .sw) ∨ t.state = .memoryWrite) ∧
    (({ mid with cycle := 100 } : State).cfg.maxCycles ≤ 100) ∧
    (mid.cycle < mid.cfg.maxCycles ∧ step mid = .next (stepped mid)) :=
  ⟨by decide, by decide, by decide, by decide, by decide, step_mid⟩

/-- The stages of `mid`'s tick one by one; the last entry dispatches. -/
theorem witness_StepServesDispatchedInstruction :
    ∃ (s1 s2 s3 s4 u : State) (t : Entry),
      mid.status = .running ∧ mid.allTerminal = false ∧ mid.cycle < mid.cfg.maxCycles ∧
      commitStage { mid with cycle := mid.cycle + 1 } = .next s1 ∧ s1.status = .running ∧
      broadcastStage s1 = .next s2 ∧ s2.status = .running ∧ memTickStage s2 = .next s3 ∧ s3.status = .running ∧
      executeStage s3 = .next s4 ∧ s4.status = .running ∧ s4.dptr = some 3 ∧ s4.table[3]? = some t ∧
      exec t.ins { s4 with event := .dispatch } = .next u :=
  ⟨_, _, _, _, _, _, by rfl, by rfl, by decide, by rfl, by rfl, by rfl, by rfl, by rfl, by rfl, by rfl, by rfl, by rfl,
    by rfl, by rfl⟩

theorem witness_StepRunsLoadedWord : decodeTableWord 32 0x003100B3 = some (.add 1#5 2#5 3#5) := by decide

/-- The statements about a step from any state: `mid` steps, the run goes on, and a station is live afterwards
(`SettleClearedAtEndOfTick`, `StepKeepsProgramAndConfig`, `WriteOutLogRecordsMemory`, `OnlyCommitWritesRegisters`). -/
theorem witness_SettleClearedAtEndOfTick :
    step mid = .next (stepped mid) ∧ (stepped mid).status = .running ∧ ∃ e, some e ∈ (stepped mid).pool .add :=
  ⟨step_mid, by decide, _, List.mem_cons_self ..⟩

theorem witness_StepKeepsProgramAndConfig : step mid = .next (stepped mid) := step_mid

theorem witness_WriteOutLogRecordsMemory : step mid = .next (stepped mid) := step_mid

/-- The step of `midReady` commits x1; the step of `mid` renames x3. -/
theorem witness_OnlyCommitWritesRegisters :
    (step midReady = .next (stepped midReady) ∧ (stepped midReady).x[1]? = some 10#32) ∧
    step mid = .next (stepped mid) ∧ (stepped mid).link[3]? = some (some 3) ∧ mid.link[3]? ≠ some (some 3) :=
  ⟨⟨by rfl, by decide⟩, step_mid, by decide, by decide⟩

/-- `mid` with the load's base one word beyond memory. -/
def midBeyond : State := { mid with lsq := [some ⟨2, 2, .val 4#32, .val 0#32, 0#32, false⟩, none] }

theorem witness_OnlyOutOfRangeFaults :
    midBeyond.status = .running ∧ step midBeyond = .next (stepped midBeyond) ∧
      (stepped midBeyond).status = .faulted ⟨3, some 2, none, some 4#32, 6⟩ :=
  ⟨rfl, by rfl, by decide⟩

theorem witness_CountdownEveryStep :
    (mid.Shaped ∧ mid.LinksNameProducers ∧ mid.Consistent) ∧ mid.status = .running ∧ mid.allTerminal = false ∧
      mid.cycle < mid.cfg.maxCycles ∧ step mid = .next (stepped mid) ∧
      ∃ e, mid.table[1]? = some e ∧ e.state = .executeStart ∧ before e.tExecStart (mid.cycle + 1) = true :=
  ⟨⟨mid_shaped, mid_links, mid_consistent⟩, rfl, by decide, by decide, step_mid, _, rfl, rfl, by decide⟩

theorem witness_OneTransitionPerStep :
    (mid.Shaped ∧ mid.LinksNameProducers ∧ mid.Consistent) ∧ step mid = .next (stepped mid) ∧
      ∃ e, mid.table[0]? = some e :=
  ⟨⟨mid_shaped, mid_links, mid_consistent⟩, step_mid, _, rfl⟩

/-- In the step of `mid` instruction 3 dispatches and instruction 2 starts. -/
theorem witness_AtMostOneOfEachPerStep :
    (mid.Shaped ∧ mid.LinksNameProducers ∧ mid.Consistent) ∧ step mid = .next (stepped mid) ∧
      (∃ e f, mid.table[3]? = some e ∧ (stepped mid).table[3]? = some f ∧ e.state ≠ f.state ∧ f.state = .rsWait) ∧
      ∃ e f, mid.table[2]? = some e ∧ (stepped mid).table[2]? = some f ∧ e.state ≠ f.state ∧ f.state = .executeStart :=
  ⟨⟨mid_shaped, mid_links, mid_consistent⟩, step_mid, ⟨_, _, rfl, by rfl, by decide, by rfl⟩,
    ⟨_, _, rfl, by rfl, by decide, by rfl⟩⟩

/-- Each case of the tail (not ready, a register, no destination, a store on a free and on a busy address) and of the bus (no
winner, a result with a consumer, a store). -/
theorem witness_StepCommitsTailAndServesBus :
    (∀ s ∈ lates, (s.Shaped ∧ s.LinksNameProducers ∧ s.Consistent) ∧ s.status = .running ∧ s.allTerminal = false ∧
      s.cycle < s.cfg.maxCycles ∧ step s = .next (stepped s)) ∧
    (mid.robAt mid.robTail = some ⟨1, .reg 1#5, .unready⟩ ∧ mid.busWinner = none ∧
      (∃ e, mid.table[1]? = some e ∧ e.state ≠ .broadcast) ∧ step mid = .next (stepped mid)) ∧
    (lateReg ∈ lates ∧ lateReg.robAt lateReg.robTail = some ⟨0, .reg 1#5, .ready 12#32⟩ ∧ lateReg.busWinner = some 1 ∧
      (∃ u, lateReg.table[1]? = some u ∧ u.ins.op ≠ .sw ∧ u.result = some 10#32) ∧
      (stepped lateReg).status = .running ∧ ∃ e, lateReg.slot .add 0 = some e ∧ e.j = .wait 1) ∧
    (lateBranch ∈ lates ∧ lateBranch.robAt lateBranch.robTail = some ⟨0, .none, .ready 12#32⟩) ∧
    (lateStore ∈ lates ∧ lateStore.robAt lateStore.robTail = some ⟨0, .mem, .noValue⟩ ∧
      (∃ u, lateStore.table[0]? = some u ∧ u.ea = some 2#32) ∧ lateStore.mc.busy.has 2 = false ∧
      lateStore.busWinner = some 1 ∧ ∃ u, lateStore.table[1]? = some u ∧ u.ins.op = .sw) ∧
    (lateStalled ∈ lates ∧ lateStalled.robAt lateStalled.robTail = some ⟨0, .mem, .noValue⟩ ∧
      (∃ u, lateStalled.table[0]? = some u ∧ u.ea = some 2#32) ∧ lateStalled.mc.busy.has 2 = true) :=
  ⟨lates_meet, ⟨rfl, by decide, ⟨_, rfl, by decide⟩, step_mid⟩,
    ⟨by simp [lates], rfl, by decide, ⟨_, rfl, by decide, rfl⟩, by decide, _, rfl, rfl⟩, ⟨by simp [lates], rfl⟩,
    ⟨by simp [lates], rfl, ⟨_, rfl, rfl⟩, by decide, by decide, _, rfl, rfl⟩,
    ⟨by simp [lates], rfl, ⟨_, rfl, rfl⟩, by decide⟩⟩

/-- Each case of the start phase: the oldest candidate in range and not refused, or out of range; a younger one behind a refused
one; all refused; and the oldest of the other two pools. -/
theorem witness_StepStartsOldestAccepted :
    (∀ s ∈ lates, ((s.Shaped ∧ s.LinksNameProducers ∧ s.Consistent) ∧ s.status = .running ∧ s.allTerminal = false ∧
      s.cycle < s.cfg.maxCycles ∧ step s = .next (stepped s)) ∧ s.ReachesStarts (atStarts s)) ∧
    (let u := atStarts lateReg;
      u.candidates .lsq = [] ++ 0 :: [1] ∧ (∃ e, u.slot .lsq 0 = some e ∧ e.j = .val 3#32 ∧ e.k = .val 0#32 ∧ e.imm = 0#32) ∧
        u.mc.busy.has 3 = false ∧ (∀ t ∈ u.table, t.state ≠ .executeStart) ∧ u.candidates .mul = 0 :: [] ∧
        u.candidates .add = [] ∧ (stepped lateReg).status = .running) ∧
    (let u := atStarts lateBeyond;
      u.candidates .lsq = [] ++ 0 :: [1] ∧
        (∃ e, u.slot .lsq 0 = some e ∧ e.j = .val 4#32 ∧ e.k = .val 0#32 ∧ lateBeyond.cfg.memSize ≤ (4#32 + e.imm).toNat)) ∧
    (let u := atStarts lateBranch;
      u.candidates .lsq = [0] ++ 1 :: [] ∧ (∀ k ∈ [0], u.LsqRefuses k) ∧
        (∃ e f, u.slot .lsq 1 = some e ∧ e.j = .val 0#32 ∧ e.k = .val 7#32 ∧ u.table[e.instr]? = some f ∧
          (0#32 + e.imm).toNat < lateBranch.cfg.memSize ∧ u.mc.busy.has (0#32 + e.imm).toNat = false ∧ f.ins.op ≠ .lw)) ∧
    (let u := atStarts lateStore;
      u.candidates .lsq = [0, 1] ∧ (∀ k ∈ [0, 1], u.LsqRefuses k) ∧ u.candidates .add = 0 :: [] ∧
        (stepped lateStore).status = .running) := by
  refine ⟨fun s hs => ⟨lates_meet s hs, lates_reach s hs⟩, ?_, ?_, ?_, ?_⟩
  · exact ⟨by decide, ⟨_, rfl, rfl, rfl, rfl⟩, by decide, by decide, by decide, by decide, by decide⟩
  · exact ⟨by decide, ⟨_, rfl, rfl, rfl, by decide⟩⟩
  · refine ⟨by decide, ?_, ⟨_, _, rfl, rfl, rfl, rfl, by decide, by decide, by decide⟩⟩
    intro k hk
    obtain rfl := List.mem_singleton.1 hk
    exact ⟨_, 3#32, 0#32, _, rfl, rfl, rfl, rfl, by decide, .inl (by decide)⟩
  · refine ⟨by decide, ?_, by decide, by decide⟩
    simp only [List.forall_mem_cons]
    exact ⟨⟨_, 3#32, 0#32, _, rfl, rfl, rfl, rfl, by decide, .inl (by decide)⟩,
      ⟨_, 0#32, 7#32, _, rfl, rfl, rfl, rfl, by decide, .inl (by decide)⟩, fun _ h => by cases h⟩

/-- What the step of `lateReg` does: entry 0 commits x1, entry 1 broadcasts and wakes entry 2, which stays, and the load and the
multiplication start; the store does not. -/
theorem test_step_late :
    (stepped lateReg).table.map Entry.state = [.commit, .broadcast, .rsWait, .executeStart, .executeStart, .rsWait] ∧
      (stepped lateReg).x[1]? = some 12#32 ∧ ((stepped lateReg).slot .add 0).map RsEntry.j = some (.val 10#32) := by decide

/-- The due store of `mid`, and address 3, at which no store is due. -/
theorem witness_OnlyDueStoresChangeMemory :
    (mid.Shaped ∧ mid.LinksNameProducers ∧ mid.mc.Coherent mid.cfg ∧ mid.Consistent ∧ mid.BusyHeld) ∧
      (mid.status = .running ∧ mid.allTerminal = false ∧ mid.cycle < mid.cfg.maxCycles ∧
        step mid = .next (stepped mid)) ∧
      (∃ e, mid.table[0]? = some e ∧ e.writeDue (mid.cycle + 1) ∧ e.ea = some 2#32 ∧ e.data = some 7#32) ∧
      ∀ (n : Nat) (e : Entry) (ea : Word), mid.table[n]? = some e → e.writeDue (mid.cycle + 1) → e.ea = some ea →
        ea.toNat ≠ 3 := by
  refine ⟨⟨mid_shaped, mid_links, mid_coherent, mid_consistent, mid_busy⟩,
    ⟨rfl, by decide, by decide, step_mid⟩, ⟨_, rfl, ⟨rfl, by decide, rfl⟩, rfl, rfl⟩, ?_⟩
  intro n e ea h _ hea
  rcases forall_of_zipIdx (l := mid.table) (P := fun _ t => t.ea = none ∨ t.ea = some 2#32) (by decide) n e h with h' | h'
  · rw [h'] at hea
    cases hea
  · rw [h'] at hea
    cases hea
    decide

theorem witness_LoadTakesCoherentView :
    (mid.Shaped ∧ mid.LinksNameProducers ∧ mid.mc.Coherent mid.cfg ∧ mid.Consistent) ∧
      step mid = .next (stepped mid) ∧
      ∃ e f, mid.table[2]? = some e ∧ (stepped mid).table[2]? = some f ∧ e.ins.op = .lw ∧ e.state = .rsWait ∧
        f.state = .executeStart :=
  ⟨⟨mid_shaped, mid_links, mid_coherent, mid_consistent⟩, step_mid, _, _, rfl, by rfl, rfl, rfl, by rfl⟩

theorem witness_StepKeepsShape : mid.Shaped ∧ step mid = .next (stepped mid) := ⟨mid_shaped, step_mid⟩

theorem witness_StepKeepsLinksNamingProducers :
    mid.Shaped ∧ mid.LinksNameProducers ∧ step mid = .next (stepped mid) := ⟨mid_shaped, mid_links, step_mid⟩

theorem witness_StepKeepsCoherence :
    mid.Shaped ∧ mid.mc.Coherent mid.cfg ∧ step mid = .next (stepped mid) := ⟨mid_shaped, mid_coherent, step_mid⟩

theorem witness_StepAnswersAndKeepsConsistency :
    mid.Shaped ∧ mid.LinksNameProducers ∧ mid.Consistent ∧ mid.status = .running :=
  ⟨mid_shaped, mid_links, mid_consistent, rfl⟩

theorem witness_StepKeepsBusyHeld :
    mid.Shaped ∧ mid.LinksNameProducers ∧ mid.Consistent ∧ mid.BusyHeld ∧ step mid = .next (stepped mid) :=
  ⟨mid_shaped, mid_links, mid_consistent, mid_busy, step_mid⟩

theorem witness_StepKeepsProgramOrder :
    mid.Shaped ∧ mid.LinksNameProducers ∧ mid.Consistent ∧ mid.RobOrdered ∧ mid.LinksNameYoungest ∧
      step mid = .next (stepped mid) :=
  ⟨mid_shaped, mid_links, mid_consistent, mid_ordered, mid_youngest, step_mid⟩

theorem witness_OccupiedSlotsCountInFlight : mid.Shaped ∧ mid.Consistent := ⟨mid_shaped, mid_consistent⟩

end Sys2Proof.Tests
end

section
/-! SUPPORT. One cache level: what a lookup finds after a line is written or a fill is put, and that both keep the level's
shape, its distinct tags and its address range. -/

namespace Sys2Proof.Machine

/-! ## Rows -/

theorem CacheLevel.row_mem {c : CacheLevel} {row : List CacheEntry} (h : row ∈ c.lines) : ∃ r, c.row r = row := by
  obtain ⟨r, hr⟩ := List.mem_iff_getElem?.1 h
  exact ⟨r, by rw [CacheLevel.row, hr, Option.getD_some]⟩

/-- A line of a row is a line of a row that the level has. -/
theorem CacheLevel.row_line {c : CacheLevel} {r w : Nat} {e : CacheEntry} (h : (c.row r)[w]? = some e) :
    c.lines[r]? = some (c.row r) := by
  unfold CacheLevel.row at h ⊢
  cases hr : c.lines[r]? with
  | none => simp [hr] at h
  | some row => rfl

/-- Writing a line writes it in its row and in no other. -/
theorem CacheLevel.setLine_row (c : CacheLevel) (r w q : Nat) (e : CacheEntry) :
    (c.setLine r w e).row q = if r = q then (c.row q).set w e else c.row q := by
  simp only [CacheLevel.row, CacheLevel.setLine, List.getElem?_modify]
  cases c.lines[q]? <;> split <;> simp

/-- The rows after a fill (20_memory.md R110). -/
theorem CacheLevel.put_row (rows : Nat) (c : CacheLevel) (a q : Nat) (v : Word) (d : Bool) :
    (c.put rows a v d).row q =
      if a % rows = q then (c.row q).set (c.victim (a % rows)) ⟨true, d, a / rows, v⟩ else c.row q := by
  rw [CacheLevel.put, CacheLevel.touch_row, CacheLevel.setLine_row]

/-- The rows after a write hit (20_memory.md R112). -/
theorem CacheLevel.writeHit_row (rows : Nat) (c : CacheLevel) (a w q : Nat) (e : CacheEntry) (v : Word) :
    (c.writeHit rows a w e v).row q =
      if a % rows = q then (c.row q).set w { e with value := v, dirty := true } else c.row q := by
  rw [CacheLevel.writeHit, CacheLevel.touch_row, CacheLevel.setLine_row]

/-- Two addresses of one row with one tag are one address (20_memory.md R100). -/
theorem addr_eq_of_row_tag {rows a b : Nat} (hr : a % rows = b % rows) (ht : a / rows = b / rows) : a = b := by
  rw [← Nat.div_add_mod a rows, ← Nat.div_add_mod b rows, hr, ht]

/-- The address of a line, by R100, lies in the line's row and has the line's tag. -/
theorem row_tag_of_addr {rows tag r : Nat} (h : r < rows) : (tag * rows + r) % rows = r ∧ (tag * rows + r) / rows = tag := by
  have h0 : 0 < rows := by omega
  rw [Nat.mul_comm]
  exact ⟨by rw [Nat.mul_add_mod, Nat.mod_eq_of_lt h], by rw [Nat.mul_add_div h0, Nat.div_eq_of_lt h, Nat.add_zero]⟩

/-! ## A good level -/

/-- The clauses of `MemCtl.Shaped` about one level: its arrays, its distinct tags and its address range. -/
structure CacheLevel.Good (rows ways memSize : Nat) (c : CacheLevel) : Prop where
  shaped : c.Shaped rows ways
  unique : c.UniqueTags
  range  : c.InRange rows memSize

/-- The lines of one row have distinct tags where they are valid. -/
theorem CacheLevel.UniqueTags.row {c : CacheLevel} (h : c.UniqueTags) {r v w : Nat} {d e : CacheEntry}
    (hd : (c.row r)[v]? = some d) (he : (c.row r)[w]? = some e) (vd : d.valid = true) (ve : e.valid = true)
    (ht : d.tag = e.tag) : v = w :=
  h (c.row r) (List.mem_of_getElem? (CacheLevel.row_line hd)) v w d e hd he vd ve ht

theorem CacheLevel.uniqueTags_of_rows {c : CacheLevel}
    (h : ∀ (r v w : Nat) (d e : CacheEntry), (c.row r)[v]? = some d → (c.row r)[w]? = some e →
      d.valid = true → e.valid = true → d.tag = e.tag → v = w) : c.UniqueTags := by
  intro row hrow
  obtain ⟨r, rfl⟩ := CacheLevel.row_mem hrow
  exact h r

theorem CacheLevel.InRange.row {rows n : Nat} {c : CacheLevel} (h : c.InRange rows n) {r w : Nat} {e : CacheEntry}
    (he : (c.row r)[w]? = some e) (ve : e.valid = true) : e.tag * rows + r < n :=
  h r w (c.row r) e (CacheLevel.row_line he) he ve

theorem CacheLevel.inRange_of_rows {rows n : Nat} {c : CacheLevel}
    (h : ∀ (r w : Nat) (e : CacheEntry), (c.row r)[w]? = some e → e.valid = true → e.tag * rows + r < n) :
    c.InRange rows n := by
  intro r w row e hrow he ve
  have : c.row r = row := by rw [CacheLevel.row, hrow, Option.getD_some]
  exact h r w e (this ▸ he) ve

/-- Every row of a shaped level has its ways. -/
theorem CacheLevel.Shaped.row_length {rows ways : Nat} {c : CacheLevel} (h : c.Shaped rows ways) {r : Nat}
    (hr : r < rows) : (c.row r).length = ways := by
  have hlt : r < c.lines.length := h.lines ▸ hr
  rw [CacheLevel.row, List.getElem?_eq_getElem hlt, Option.getD_some]
  exact h.lineRow _ (List.getElem_mem hlt)

theorem CacheLevel.Shaped.setLine {rows ways : Nat} {c : CacheLevel} (h : c.Shaped rows ways) (r w : Nat)
    (e : CacheEntry) : (c.setLine r w e).Shaped rows ways where
  lines   := by simp only [CacheLevel.setLine, List.length_modify]; exact h.lines
  lineRow := by
    intro row hrow
    obtain ⟨q, hq⟩ := List.mem_iff_getElem?.1 hrow
    simp only [CacheLevel.setLine, List.getElem?_modify] at hq
    obtain ⟨old, ho, rfl⟩ := Option.map_eq_some_iff.1 hq
    have hl := h.lineRow old (List.mem_of_getElem? ho)
    split
    · rw [List.length_set]; exact hl
    · exact hl
  ranks   := h.ranks
  rankRow := h.rankRow

theorem CacheLevel.Shaped.touch {rows ways : Nat} {c : CacheLevel} (h : c.Shaped rows ways) (r w : Nat) :
    (c.touch r w).Shaped rows ways where
  lines   := h.lines
  lineRow := h.lineRow
  ranks   := by simp only [CacheLevel.touch, List.length_modify]; exact h.ranks
  rankRow := by
    intro row hrow
    obtain ⟨q, hq⟩ := List.mem_iff_getElem?.1 hrow
    simp only [CacheLevel.touch, List.getElem?_modify] at hq
    obtain ⟨old, ho, rfl⟩ := Option.map_eq_some_iff.1 hq
    have hl := h.rankRow old (List.mem_of_getElem? ho)
    split
    · rw [List.length_mapIdx]; exact hl
    · exact hl

/-- A touch changes no line (20_memory.md R105). -/
theorem CacheLevel.Good.touch {rows ways n : Nat} {c : CacheLevel} (h : c.Good rows ways n) (r w : Nat) :
    (c.touch r w).Good rows ways n :=
  ⟨h.shaped.touch r w, h.unique, h.range⟩

/-- Writing a line keeps a good level good when the line's tag is new among the other valid lines of its row and its address
is in range. -/
theorem CacheLevel.Good.setLine {rows ways n : Nat} {c : CacheLevel} (h : c.Good rows ways n) {r w : Nat}
    {e : CacheEntry} (hnew : ∀ v d, (c.row r)[v]? = some d → d.valid = true → d.tag = e.tag → v = w)
    (hrange : e.tag * rows + r < n) : (c.setLine r w e).Good rows ways n where
  shaped := h.shaped.setLine r w e
  unique := by
    refine CacheLevel.uniqueTags_of_rows fun q v u d f hd hf vd vf ht => ?_
    rw [CacheLevel.setLine_row] at hd hf
    split at hd
    · rename_i hq
      subst hq
      rw [if_pos rfl, List.getElem?_set] at hf
      rw [List.getElem?_set] at hd
      by_cases hv : w = v <;> by_cases hu : w = u
      · omega
      · rw [if_pos hv] at hd
        rw [if_neg hu] at hf
        split at hd
        · cases hd
          exact absurd (hnew u f hf vf ht.symm).symm hu
        · cases hd
      · rw [if_neg hv] at hd
        rw [if_pos hu] at hf
        split at hf
        · cases hf
          exact absurd (hnew v d hd vd ht).symm hv
        · cases hf
      · rw [if_neg hv] at hd
        rw [if_neg hu] at hf
        exact h.unique.row hd hf vd vf ht
    · rename_i hq
      rw [if_neg hq] at hf
      exact h.unique.row hd hf vd vf ht
  range := by
    refine CacheLevel.inRange_of_rows fun q v d hd vd => ?_
    rw [CacheLevel.setLine_row] at hd
    split at hd
    · rename_i hq
      subst hq
      rw [List.getElem?_set] at hd
      split at hd
      · split at hd
        · cases hd; exact hrange
        · cases hd
      · exact h.range.row hd vd
    · exact h.range.row hd vd

/-- A fill of an address that the level does not hold keeps the level good (20_memory.md R102, R110). -/
theorem CacheLevel.Good.put {rows ways n : Nat} {c : CacheLevel} (h : c.Good rows ways n) {a : Nat} (v : Word)
    (d : Bool) (ha : a < n) (hnone : c.find rows a = none) : (c.put rows a v d).Good rows ways n := by
  refine (h.setLine (fun w f hf vf ht => ?_) ?_).touch _ _
  · exact absurd ⟨vf, ht⟩ (CacheLevel.find_none.1 hnone f (List.mem_of_getElem? hf))
  · simp only
    rw [Nat.mul_comm, Nat.div_add_mod]
    exact ha

/-- A write hit keeps the level good. -/
theorem CacheLevel.Good.writeHit {rows ways n : Nat} {c : CacheLevel} (h : c.Good rows ways n) {a w : Nat}
    {e : CacheEntry} (v : Word) (hf : c.find rows a = some (w, e)) : (c.writeHit rows a w e v).Good rows ways n := by
  obtain ⟨he, ve, te⟩ := CacheLevel.find_some hf
  refine (h.setLine (fun u f hf vf ht => ?_) ?_).touch _ _
  · exact h.unique.row hf he vf ve ht
  · show e.tag * rows + a % rows < n
    exact h.range.row he ve

/-- A victim line is the valid line in the victim way of the addressed row, with its address, value and dirty bit
(20_memory.md R110). -/
theorem CacheLevel.victimLine_some {rows : Nat} {c : CacheLevel} {a oa : Nat} {ov : Word} {d : Bool}
    (h : c.victimLine rows a = some (oa, ov, d)) :
    ∃ e, (c.row (a % rows))[c.victim (a % rows)]? = some e ∧ e.valid = true ∧ oa = e.tag * rows + a % rows ∧
      ov = e.value ∧ d = e.dirty := by
  unfold CacheLevel.victimLine at h
  split at h
  · rename_i e he
    split at h
    · rename_i hv
      cases h
      exact ⟨e, he, hv, rfl, rfl, rfl⟩
    · cases h
  · cases h

/-! ## What is found -/

/-- With distinct tags, what is found is the one valid line of the addressed row with the addressed tag (20_memory.md R101). -/
theorem CacheLevel.find_iff {rows : Nat} {c : CacheLevel} (h : c.UniqueTags) {a w : Nat} {e : CacheEntry} :
    c.find rows a = some (w, e) ↔ (c.row (a % rows))[w]? = some e ∧ e.valid = true ∧ e.tag = a / rows := by
  refine ⟨CacheLevel.find_some, fun ⟨he, ve, te⟩ => ?_⟩
  cases hf : c.find rows a with
  | none => exact absurd ⟨ve, te⟩ (CacheLevel.find_none.1 hf e (List.mem_of_getElem? he))
  | some p =>
    obtain ⟨v, d⟩ := p
    obtain ⟨hd, vd, td⟩ := CacheLevel.find_some hf
    have hvw : v = w := h.row hd he vd ve (td.trans te.symm)
    subst hvw
    rw [hd] at he
    rw [Option.some.inj he]

/-- A valid victim line is found at its own address (20_memory.md R110). -/
theorem CacheLevel.find_victim {rows : Nat} {c : CacheLevel} (h : c.UniqueTags) (hr : 1 ≤ rows) {a oa : Nat} {ov : Word}
    {d : Bool} (hv : c.victimLine rows a = some (oa, ov, d)) :
    ∃ e, c.find rows oa = some (c.victim (a % rows), e) ∧ e.value = ov ∧ e.dirty = d ∧ oa % rows = a % rows := by
  obtain ⟨e, he, ve, rfl, rfl, rfl⟩ := CacheLevel.victimLine_some hv
  obtain ⟨hrow, htag⟩ := row_tag_of_addr (tag := e.tag) (Nat.mod_lt a hr)
  refine ⟨e, (CacheLevel.find_iff h).2 ⟨?_, ve, htag.symm⟩, rfl, rfl, hrow⟩
  rw [hrow]
  exact he

/-- What is found in the victim's row at an address other than the victim's is not in the victim's way. -/
theorem CacheLevel.find_ne_victim {rows : Nat} {c : CacheLevel} {a b w : Nat} {e : CacheEntry}
    (hv : ∀ ov d, c.victimLine rows a ≠ some (b, ov, d)) (hrow : b % rows = a % rows)
    (hf : c.find rows b = some (w, e)) : w ≠ c.victim (a % rows) := by
  rintro rfl
  obtain ⟨he, ve, te⟩ := CacheLevel.find_some hf
  rw [hrow] at he
  refine hv e.value e.dirty ?_
  unfold CacheLevel.victimLine
  rw [he]
  simp only [ve, if_true, Option.some.injEq, Prod.mk.injEq, and_true]
  rw [te, ← hrow, Nat.mul_comm, Nat.div_add_mod]

/-- After a fill the filled address is found, with the line the fill made (20_memory.md R110). -/
theorem CacheLevel.Good.find_put_same {rows ways n : Nat} {c : CacheLevel} (h : c.Good rows ways n) {a : Nat} {v : Word}
    {d : Bool} (ha : a < n) (hnone : c.find rows a = none)
    (hvict : c.victim (a % rows) < (c.row (a % rows)).length) :
    (c.put rows a v d).find rows a = some (c.victim (a % rows), ⟨true, d, a / rows, v⟩) := by
  refine (CacheLevel.find_iff (h.put v d ha hnone).unique).2 ⟨?_, rfl, rfl⟩
  rw [CacheLevel.put_row, if_pos rfl, List.getElem?_set_self hvict]

/-- After a fill an address that is neither the filled one nor the victim's is found as before. -/
theorem CacheLevel.Good.find_put_other {rows ways n : Nat} {c : CacheLevel} (h : c.Good rows ways n) {a b : Nat}
    {v : Word} {d : Bool} (ha : a < n) (hnone : c.find rows a = none) (hab : b ≠ a)
    (hv : ∀ ov e, c.victimLine rows a ≠ some (b, ov, e)) : (c.put rows a v d).find rows b = c.find rows b := by
  apply Option.ext
  rintro ⟨w, e⟩
  rw [CacheLevel.find_iff (h.put v d ha hnone).unique, CacheLevel.put_row]
  split
  · rename_i hrow
    rw [List.getElem?_set]
    constructor
    · rintro ⟨he, ve, te⟩
      split at he
      · split at he
        · cases he
          exact absurd (addr_eq_of_row_tag hrow te) (Ne.symm hab)
        · cases he
      · exact (CacheLevel.find_iff h.unique).2 ⟨he, ve, te⟩
    · intro hf
      have hw := CacheLevel.find_ne_victim hv hrow.symm hf
      rw [if_neg (Ne.symm hw)]
      exact CacheLevel.find_some hf
  · rw [CacheLevel.find_iff h.unique]

/-- After a fill the victim's address is not found (20_memory.md R110). -/
theorem CacheLevel.Good.find_put_victim {rows ways n : Nat} {c : CacheLevel} (h : c.Good rows ways n) (hr : 1 ≤ rows)
    {a oa : Nat} {v ov : Word} {d e : Bool} (ha : a < n) (hnone : c.find rows a = none)
    (hv : c.victimLine rows a = some (oa, ov, e)) : (c.put rows a v d).find rows oa = none := by
  obtain ⟨f, hf, -, -, hrow⟩ := CacheLevel.find_victim h.unique hr hv
  obtain ⟨hfl, vf, tf⟩ := CacheLevel.find_some hf
  have hne : oa ≠ a := by
    rintro rfl
    rw [hnone] at hf
    cases hf
  cases hp : (c.put rows a v d).find rows oa with
  | none => rfl
  | some p =>
    obtain ⟨w, g⟩ := p
    obtain ⟨hg, vg, tg⟩ := CacheLevel.find_some hp
    rw [CacheLevel.put_row, if_pos hrow.symm, List.getElem?_set] at hg
    split at hg
    · split at hg
      · cases hg
        exact absurd (addr_eq_of_row_tag hrow.symm tg) (Ne.symm hne)
      · cases hg
    · rename_i hw
      exact absurd (h.unique.row hfl hg vf vg (tf.trans tg.symm)) hw

/-- After a write hit the address is found with the new value, dirty; every other address is found as before. -/
theorem CacheLevel.Good.find_writeHit {rows ways n : Nat} {c : CacheLevel} (h : c.Good rows ways n) {a w : Nat}
    {e : CacheEntry} (v : Word) (hf : c.find rows a = some (w, e)) (b : Nat) :
    (c.writeHit rows a w e v).find rows b =
      if b = a then some (w, { e with value := v, dirty := true }) else c.find rows b := by
  obtain ⟨he, ve, te⟩ := CacheLevel.find_some hf
  obtain ⟨hw, -⟩ := List.getElem?_eq_some_iff.1 he
  split
  · rename_i hb
    subst hb
    refine (CacheLevel.find_iff (h.writeHit v hf).unique).2 ⟨?_, ve, te⟩
    rw [CacheLevel.writeHit_row, if_pos rfl, List.getElem?_set_self hw]
  · rename_i hb
    apply Option.ext
    rintro ⟨u, f⟩
    rw [CacheLevel.find_iff (h.writeHit v hf).unique, CacheLevel.find_iff h.unique, CacheLevel.writeHit_row]
    split
    · rename_i hrow
      rw [List.getElem?_set]
      by_cases hu : w = u
      · subst hu
        have tne : e.tag ≠ b / rows := fun tb => hb (addr_eq_of_row_tag hrow.symm (tb.symm.trans te))
        rw [← hrow, he, if_pos rfl, if_pos hw]
        constructor
        · rintro ⟨hfe, -, tf⟩
          cases hfe
          exact absurd tf tne
        · rintro ⟨hfe, -, tf⟩
          cases hfe
          exact absurd tf tne
      · rw [if_neg hu]
    · rfl

/-! ## The victim way -/

theorem maxRankFrom_lt (ks : List Nat) (best at' i : Nat) (h : at' < i) : maxRankFrom best at' i ks < i + ks.length := by
  induction ks generalizing best at' i with
  | nil => exact h
  | cons k ks ih =>
    unfold maxRankFrom
    rw [List.length_cons]
    split
    · have := ih k i (i + 1) (by omega)
      omega
    · have := ih best at' (i + 1) (by omega)
      omega

/-- The victim is a way of its row (20_memory.md R106). -/
theorem CacheLevel.Shaped.victim_lt {rows ways : Nat} {c : CacheLevel} (h : c.Shaped rows ways) (hw : 1 ≤ ways) {r : Nat}
    (hr : r < rows) : c.victim r < (c.row r).length := by
  rw [h.row_length hr]
  have hlt : r < c.ranks.length := h.ranks ▸ hr
  have hlen : (c.rankRow r).length = ways := by
    rw [CacheLevel.rankRow, List.getElem?_eq_getElem hlt, Option.getD_some]
    exact h.rankRow _ (List.getElem_mem hlt)
  unfold CacheLevel.victim
  split
  · exact hw
  · rename_i k ks hk
    have := maxRankFrom_lt ks k 0 1 (by omega)
    rw [hk, List.length_cons] at hlen
    omega

end Sys2Proof.Machine
end

section
/-! SUPPORT. The controller's operations: none raises `DuplicateFill`; none touches a busy bit or takes a counter down, and
memory changes by the writes each logs; each keeps the controller's shape. -/

namespace Sys2Proof.Machine

/-! ## No operation raises (20_memory.md R102, 60_exceptions.md R406) -/

theorem CacheLevel.holds_eq_false {rows : Nat} {c : CacheLevel} {a : Nat} :
    c.holds rows a = false ↔ c.find rows a = none := by
  unfold CacheLevel.holds
  cases c.find rows a <;> simp

theorem MemCtl.writeback2_answers (cfg : Config) (cycle : Nat) (m : MemCtl) (a : Nat) (v : Word) :
    ∃ m', m.writeback2 cfg cycle a v = .ok m' () := by
  unfold MemCtl.writeback2
  split
  · exact ⟨_, rfl⟩
  · rename_i h
    exact ⟨_, (MemCtl.fill2_ok cfg cycle m _ a v true ()).2 ⟨CacheLevel.holds_eq_false.2 h, rfl⟩⟩

theorem MemCtl.evict1_answers (cfg : Config) (cycle : Nat) (m : MemCtl) (a : Nat) :
    ∃ m', m.evict1 cfg cycle a = .ok m' () := by
  unfold MemCtl.evict1
  split
  · exact MemCtl.writeback2_answers cfg cycle m _ _
  · exact ⟨_, rfl⟩
  · exact ⟨_, rfl⟩

theorem MemCtl.fill1_answers (cfg : Config) (cycle : Nat) (m : MemCtl) (a : Nat) (v : Word) (d : Bool)
    (h : m.l1.find cfg.l1Rows a = none) : ∃ m', m.fill1 cfg cycle a v d = .ok m' () := by
  obtain ⟨m1, h1⟩ := MemCtl.evict1_answers cfg cycle m a
  exact ⟨_, (MemCtl.fill1_ok cfg cycle m _ a v d ()).2 ⟨CacheLevel.holds_eq_false.2 h, m1, h1, rfl⟩⟩

/-- A level-2 fill leaves level 1 alone. -/
theorem MemCtl.fill2_l1 {cfg : Config} {cycle : Nat} {m m' : MemCtl} {a : Nat} {v : Word} {d : Bool}
    (h : m.fill2 cfg cycle a v d = .ok m' ()) : m'.l1 = m.l1 := by
  obtain ⟨-, rfl⟩ := (MemCtl.fill2_ok cfg cycle m m' a v d ()).1 h
  exact MemCtl.evict2_l1 cfg cycle m a

theorem MemCtl.readMiss_answers (cfg : Config) (cycle : Nat) (m : MemCtl) (a : Nat)
    (h1 : m.l1.find cfg.l1Rows a = none) (h2 : m.l2.find cfg.l2Rows a = none) :
    ∃ m' r, m.readMiss cfg cycle a = .ok m' r := by
  have hf := (MemCtl.fill2_ok cfg cycle { m with cnt := { m.cnt with l2Misses := m.cnt.l2Misses + 1 } } _ a
    (Mem.read m.mem a) false ()).2 ⟨CacheLevel.holds_eq_false.2 h2, rfl⟩
  obtain ⟨m3, h3⟩ := MemCtl.fill1_answers cfg cycle _ a (Mem.read m.mem a) false ((MemCtl.fill2_l1 hf).symm ▸ h1)
  exact ⟨m3, _, Ctl.bind_ok.2 ⟨_, (), hf, Ctl.bind_ok.2 ⟨m3, (), h3, rfl⟩⟩⟩

/-- The controller in which a demand read that hits at level 2 promotes the line: touched and counted (20_memory.md R121). -/
def MemCtl.countHit2 (cfg : Config) (m : MemCtl) (a w : Nat) : MemCtl :=
  if m.pfMark.has a then
    { m with
      l2 := m.l2.touch (a % cfg.l2Rows) w
      cnt := { m.cnt with pfHits := m.cnt.pfHits + 1 }
      pfMark := m.pfMark.erase a }
  else { m with l2 := m.l2.touch (a % cfg.l2Rows) w, cnt := { m.cnt with l2Hits := m.cnt.l2Hits + 1 } }

theorem MemCtl.readHit2_eq (cfg : Config) (cycle : Nat) (m : MemCtl) (a w : Nat) (e : CacheEntry) :
    m.readHit2 cfg cycle a w e =
      ((m.countHit2 cfg a w).fill1 cfg cycle a e.value false).bind (fun m' _ => .ok m' (e.value, latL2 cfg)) := rfl

@[simp] theorem MemCtl.countHit2_l1 (cfg : Config) (m : MemCtl) (a w : Nat) : (m.countHit2 cfg a w).l1 = m.l1 := by
  unfold MemCtl.countHit2
  split <;> rfl

@[simp] theorem MemCtl.countHit2_l2 (cfg : Config) (m : MemCtl) (a w : Nat) :
    (m.countHit2 cfg a w).l2 = m.l2.touch (a % cfg.l2Rows) w := by
  unfold MemCtl.countHit2
  split <;> rfl

@[simp] theorem MemCtl.countHit2_mem (cfg : Config) (m : MemCtl) (a w : Nat) : (m.countHit2 cfg a w).mem = m.mem := by
  unfold MemCtl.countHit2
  split <;> rfl

@[simp] theorem MemCtl.countHit2_pfq (cfg : Config) (m : MemCtl) (a w : Nat) : (m.countHit2 cfg a w).pfq = m.pfq := by
  unfold MemCtl.countHit2
  split <;> rfl

/-- A demand read answers. -/
theorem MemCtl.read_answers (cfg : Config) (cycle : Nat) (m : MemCtl) (a : Nat) :
    ∃ m' r, MemCtl.read cfg cycle m a = .ok m' r := by
  unfold MemCtl.read
  split
  · exact ⟨_, _, rfl⟩
  · rename_i h1
    dsimp only
    split
    · rename_i w e h2
      rw [MemCtl.readHit2_eq]
      obtain ⟨m', h'⟩ := MemCtl.fill1_answers cfg cycle
        (MemCtl.countHit2 cfg { m with cnt := { m.cnt with l1Misses := m.cnt.l1Misses + 1 } } a w) a e.value false
        (by rw [MemCtl.countHit2_l1]; exact h1)
      exact ⟨m', _, Ctl.bind_ok.2 ⟨m', (), h', rfl⟩⟩
    · rename_i h2
      exact MemCtl.readMiss_answers cfg cycle _ a h1 h2

/-- A store write answers. -/
theorem MemCtl.write_answers (cfg : Config) (cycle : Nat) (m : MemCtl) (a : Nat) (v : Word) :
    ∃ m', MemCtl.write cfg cycle m a v = .ok m' () := by
  unfold MemCtl.write
  split
  · exact ⟨_, rfl⟩
  · exact MemCtl.fill1_answers cfg cycle m a v true (by assumption)

theorem MemCtl.pfInstall_answers (cfg : Config) (cycle : Nat) (m : MemCtl) (q : PfReq) :
    ∃ m', m.pfInstall cfg cycle q = .ok m' () := by
  unfold MemCtl.pfInstall
  split
  · exact ⟨_, rfl⟩
  · rename_i h
    have hf := (MemCtl.fill2_ok cfg cycle m _ q.addr q.value false ()).2 ⟨by simpa using h, rfl⟩
    exact ⟨_, Ctl.bind_ok.2 ⟨_, (), hf, rfl⟩⟩

theorem MemCtl.pfDrain_answers (cfg : Config) (cycle : Nat) (m : MemCtl) (qs : List PfReq) :
    ∃ m', m.pfDrain cfg cycle qs = .ok m' () := by
  induction qs generalizing m with
  | nil => exact ⟨m, rfl⟩
  | cons q qs ih =>
    unfold MemCtl.pfDrain
    split
    · obtain ⟨m1, h1⟩ := MemCtl.pfInstall_answers cfg cycle { m with pfq := m.pfq.erase q } q
      obtain ⟨m2, h2⟩ := ih m1
      exact ⟨m2, Ctl.bind_ok.2 ⟨m1, (), h1, h2⟩⟩
    · exact ih m

/-- A prefetch tick answers. -/
theorem MemCtl.pfTick_answers (cfg : Config) (cycle : Nat) (m : MemCtl) : ∃ m', m.pfTick cfg cycle = .ok m' () :=
  MemCtl.pfDrain_answers cfg cycle _ _

/-! ## Counters, the write-out log and the queue -/

/-- No counter is less (20_memory.md R141). -/
structure Counters.Le (c d : Counters) : Prop where
  l1Hits   : c.l1Hits ≤ d.l1Hits
  l1Misses : c.l1Misses ≤ d.l1Misses
  l2Hits   : c.l2Hits ≤ d.l2Hits
  l2Misses : c.l2Misses ≤ d.l2Misses
  pfHits   : c.pfHits ≤ d.pfHits
  pfIssued : c.pfIssued ≤ d.pfIssued
  pfFilled : c.pfFilled ≤ d.pfFilled
  div0     : c.div0 ≤ d.div0

theorem Counters.Le.refl (c : Counters) : c.Le c :=
  ⟨le_rfl, le_rfl, le_rfl, le_rfl, le_rfl, le_rfl, le_rfl, le_rfl⟩

theorem Counters.Le.trans {c d e : Counters} (h : c.Le d) (g : d.Le e) : c.Le e :=
  ⟨h.l1Hits.trans g.l1Hits, h.l1Misses.trans g.l1Misses, h.l2Hits.trans g.l2Hits, h.l2Misses.trans g.l2Misses,
    h.pfHits.trans g.pfHits, h.pfIssued.trans g.pfIssued, h.pfFilled.trans g.pfFilled, h.div0.trans g.div0⟩

/-- Memory changes by exactly the records of cycle `cycle` added to the write-out log (10_state.md R73). -/
def MemCtl.Logged (cycle : Nat) (m m' : MemCtl) : Prop :=
  ∃ writes : List (Nat × Nat × Word), m'.out = m.out ++ writes ∧ (∀ r ∈ writes, r.1 = cycle) ∧
    m'.mem = writes.foldl (fun m r => Mem.write m r.2.1 r.2.2) m.mem

theorem MemCtl.Logged.of_eq {cycle : Nat} {m m' : MemCtl} (ho : m'.out = m.out) (hm : m'.mem = m.mem) :
    m.Logged cycle m' :=
  ⟨[], by rw [ho, List.append_nil], fun _ h => absurd h List.not_mem_nil, hm⟩

theorem MemCtl.Logged.trans {cycle : Nat} {m m' m'' : MemCtl} (h : m.Logged cycle m') (g : m'.Logged cycle m'') :
    m.Logged cycle m'' := by
  obtain ⟨ws, ho, hc, hm⟩ := h
  obtain ⟨vs, go, gc, gm⟩ := g
  refine ⟨ws ++ vs, by rw [go, ho, List.append_assoc], fun r hr => ?_, by rw [gm, hm, List.foldl_append]⟩
  exact (List.mem_append.1 hr).elim (hc r) (gc r)

/-- What every operation of the hierarchy leaves of the controller: the busy bits; counters that do not fall; memory but for
logged writes; and a queue from which requests were only removed. -/
structure MemCtl.Extends (cycle : Nat) (m m' : MemCtl) : Prop where
  busy  : m'.busy = m.busy
  cnt   : m.cnt.Le m'.cnt
  log   : m.Logged cycle m'
  queue : m'.pfq.Sublist m.pfq

theorem MemCtl.Extends.refl (cycle : Nat) (m : MemCtl) : m.Extends cycle m :=
  ⟨rfl, .refl _, .of_eq rfl rfl, .refl _⟩

theorem MemCtl.Extends.trans {cycle : Nat} {m m' m'' : MemCtl} (h : m.Extends cycle m') (g : m'.Extends cycle m'') :
    m.Extends cycle m'' :=
  ⟨g.busy.trans h.busy, h.cnt.trans g.cnt, h.log.trans g.log, g.queue.trans h.queue⟩

/-- What follows an operation extends what was before it. -/
theorem MemCtl.Extends.bind {cycle : Nat} {α β : Type} {m : MemCtl} {r : Ctl α} {f : MemCtl → α → Ctl β}
    (hr : r.Leaves (m.Extends cycle)) (hf : ∀ m' a, (f m' a).Leaves (m'.Extends cycle)) :
    (r.bind f).Leaves (m.Extends cycle) := by
  refine hr.bind fun m' a hm => ?_
  have := hf m' a
  cases hfa : f m' a with
  | ok m'' b => rw [hfa] at this; exact hm.trans this
  | dup m'' l b => rw [hfa] at this; exact hm.trans this

theorem MemCtl.memWrite_extends (cycle : Nat) (m : MemCtl) (a : Nat) (v : Word) :
    m.Extends cycle (m.memWrite cycle a v) :=
  ⟨rfl, .refl _, ⟨[(cycle, a, v)], rfl, by simp, rfl⟩, List.filter_sublist⟩

theorem MemCtl.evict2_extends (cfg : Config) (cycle : Nat) (m : MemCtl) (a : Nat) :
    m.Extends cycle (m.evict2 cfg cycle a) := by
  rcases m.evict2_cases cfg cycle a with ⟨-, h⟩ | ⟨oa, ov, -, h⟩ | ⟨oa, ov, -, h⟩
  · rw [h]; exact .refl _ _
  · rw [h]; exact ⟨rfl, .refl _, .of_eq rfl rfl, .refl _⟩
  · rw [h]
    have hw := m.memWrite_extends cycle oa ov
    exact ⟨hw.busy, hw.cnt, hw.log, hw.queue⟩

theorem MemCtl.fill2_extends (cfg : Config) (cycle : Nat) (m : MemCtl) (a : Nat) (v : Word) (d : Bool) :
    (m.fill2 cfg cycle a v d).Leaves (m.Extends cycle) := by
  unfold MemCtl.fill2
  split
  · exact .refl _ _
  · have he := m.evict2_extends cfg cycle a
    exact ⟨he.busy, he.cnt, he.log, he.queue⟩

theorem MemCtl.writeback2_extends (cfg : Config) (cycle : Nat) (m : MemCtl) (a : Nat) (v : Word) :
    (m.writeback2 cfg cycle a v).Leaves (m.Extends cycle) := by
  unfold MemCtl.writeback2
  split
  · exact ⟨rfl, .refl _, .of_eq rfl rfl, .refl _⟩
  · exact m.fill2_extends cfg cycle a v true

theorem MemCtl.evict1_extends (cfg : Config) (cycle : Nat) (m : MemCtl) (a : Nat) :
    (m.evict1 cfg cycle a).Leaves (m.Extends cycle) := by
  unfold MemCtl.evict1
  split
  · exact m.writeback2_extends cfg cycle _ _
  · exact .refl _ _
  · exact .refl _ _

theorem MemCtl.fill1_extends (cfg : Config) (cycle : Nat) (m : MemCtl) (a : Nat) (v : Word) (d : Bool) :
    (m.fill1 cfg cycle a v d).Leaves (m.Extends cycle) := by
  unfold MemCtl.fill1
  split
  · exact .refl _ _
  · exact MemCtl.Extends.bind (m.evict1_extends cfg cycle a) fun m' _ => ⟨rfl, .refl _, .of_eq rfl rfl, .refl _⟩

theorem MemCtl.countHit2_extends (cfg : Config) (cycle : Nat) (m : MemCtl) (a w : Nat) :
    m.Extends cycle (m.countHit2 cfg a w) := by
  unfold MemCtl.countHit2
  split
  · exact ⟨rfl, { Counters.Le.refl m.cnt with pfHits := Nat.le_succ _ }, .of_eq rfl rfl, .refl _⟩
  · exact ⟨rfl, { Counters.Le.refl m.cnt with l2Hits := Nat.le_succ _ }, .of_eq rfl rfl, .refl _⟩

/-- An operation on an extension extends. -/
theorem MemCtl.Extends.after {cycle : Nat} {α : Type} {m m' : MemCtl} {r : Ctl α} (hm : m.Extends cycle m')
    (hr : r.Leaves (m'.Extends cycle)) : r.Leaves (m.Extends cycle) := by
  cases r with
  | ok _ _ => exact hm.trans hr
  | dup _ _ _ => exact hm.trans hr

theorem MemCtl.readHit2_extends (cfg : Config) (cycle : Nat) (m : MemCtl) (a w : Nat) (e : CacheEntry) :
    (m.readHit2 cfg cycle a w e).Leaves (m.Extends cycle) := by
  rw [MemCtl.readHit2_eq]
  exact MemCtl.Extends.bind ((m.countHit2_extends cfg cycle a w).after (MemCtl.fill1_extends cfg cycle _ a e.value false))
    fun m' _ => MemCtl.Extends.refl _ _

theorem MemCtl.readMiss_extends (cfg : Config) (cycle : Nat) (m : MemCtl) (a : Nat) :
    (m.readMiss cfg cycle a).Leaves (m.Extends cycle) := by
  have hc : m.Extends cycle { m with cnt := { m.cnt with l2Misses := m.cnt.l2Misses + 1 } } :=
    ⟨rfl, { Counters.Le.refl m.cnt with l2Misses := Nat.le_succ _ }, .of_eq rfl rfl, .refl _⟩
  exact MemCtl.Extends.bind (hc.after (MemCtl.fill2_extends cfg cycle _ a _ false)) fun m2 _ =>
    MemCtl.Extends.bind (m2.fill1_extends cfg cycle a _ false) fun m3 _ => MemCtl.Extends.refl _ _

theorem MemCtl.read_extends (cfg : Config) (cycle : Nat) (m : MemCtl) (a : Nat) :
    (MemCtl.read cfg cycle m a).Leaves (m.Extends cycle) := by
  unfold MemCtl.read
  split
  · exact ⟨rfl, { Counters.Le.refl m.cnt with l1Hits := Nat.le_succ _ }, .of_eq rfl rfl, .refl _⟩
  · have hc : m.Extends cycle { m with cnt := { m.cnt with l1Misses := m.cnt.l1Misses + 1 } } :=
      ⟨rfl, { Counters.Le.refl m.cnt with l1Misses := Nat.le_succ _ }, .of_eq rfl rfl, .refl _⟩
    dsimp only
    split
    · exact hc.after (MemCtl.readHit2_extends cfg cycle _ a _ _)
    · exact hc.after (MemCtl.readMiss_extends cfg cycle _ a)

theorem MemCtl.write_extends (cfg : Config) (cycle : Nat) (m : MemCtl) (a : Nat) (v : Word) :
    (MemCtl.write cfg cycle m a v).Leaves (m.Extends cycle) := by
  unfold MemCtl.write
  split
  · exact ⟨rfl, .refl _, .of_eq rfl rfl, .refl _⟩
  · exact m.fill1_extends cfg cycle a v true

theorem MemCtl.pfInstall_extends (cfg : Config) (cycle : Nat) (m : MemCtl) (q : PfReq) :
    (m.pfInstall cfg cycle q).Leaves (m.Extends cycle) := by
  unfold MemCtl.pfInstall
  split
  · exact .refl _ _
  · exact MemCtl.Extends.bind (m.fill2_extends cfg cycle q.addr q.value false) fun m' _ =>
      ⟨rfl, { Counters.Le.refl m'.cnt with pfFilled := Nat.le_succ _ }, .of_eq rfl rfl, .refl _⟩

theorem MemCtl.pfDrain_extends (cfg : Config) (cycle : Nat) (m : MemCtl) (qs : List PfReq) :
    (m.pfDrain cfg cycle qs).Leaves (m.Extends cycle) := by
  induction qs generalizing m with
  | nil => exact .refl _ _
  | cons q qs ih =>
    unfold MemCtl.pfDrain
    split
    · have he : m.Extends cycle { m with pfq := m.pfq.erase q } :=
        ⟨rfl, .refl _, .of_eq rfl rfl, List.erase_sublist⟩
      exact MemCtl.Extends.bind (he.after (MemCtl.pfInstall_extends cfg cycle _ q)) fun m' _ => ih m'
    · exact ih m

/-- A prefetch tick extends the controller in which the queue has aged. -/
theorem MemCtl.pfTick_extends (cfg : Config) (cycle : Nat) (m : MemCtl) :
    (m.pfTick cfg cycle).Leaves (MemCtl.Extends cycle { m with pfq := m.pfq.map (PfReq.age cycle) }) :=
  MemCtl.pfDrain_extends cfg cycle _ _

/-- Issuing a prefetch does nothing, or queues the next address and counts it (20_memory.md R117). -/
theorem MemCtl.pfIssue_cases (cfg : Config) (cycle : Nat) (m : MemCtl) (a : Nat) :
    m.pfIssue cfg cycle a = m ∨
    (m.pfq.length < cfg.pfQueueCap ∧
      m.pfIssue cfg cycle a = { m with
        pfq := m.pfq ++ [⟨(a + 1) % cfg.memSize, Mem.read m.mem ((a + 1) % cfg.memSize), cfg.memLat, cycle⟩]
        cnt := { m.cnt with pfIssued := m.cnt.pfIssued + 1 } }) := by
  unfold MemCtl.pfIssue
  dsimp only
  split
  · exact .inl rfl
  · split
    · exact .inl rfl
    · split
      · exact .inl rfl
      · exact .inr ⟨by omega, rfl⟩

/-- Issuing a prefetch touches the queue and one counter. -/
theorem MemCtl.pfIssue_frame (cfg : Config) (cycle : Nat) (m : MemCtl) (a : Nat) :
    (m.pfIssue cfg cycle a).busy = m.busy ∧ (m.pfIssue cfg cycle a).l1 = m.l1 ∧ (m.pfIssue cfg cycle a).l2 = m.l2 ∧
      (m.pfIssue cfg cycle a).out = m.out ∧ m.cnt.Le (m.pfIssue cfg cycle a).cnt := by
  rcases m.pfIssue_cases cfg cycle a with h | ⟨-, h⟩
  · rw [h]; exact ⟨rfl, rfl, rfl, rfl, .refl _⟩
  · rw [h]; exact ⟨rfl, rfl, rfl, rfl, { Counters.Le.refl m.cnt with pfIssued := Nat.le_succ _ }⟩

end Sys2Proof.Machine
end

section
/-! SUPPORT. The controller's shape is kept by its operations (20_memory.md R102, R128, 10_state.md R65 to R71). -/

namespace Sys2Proof.Machine

/-- The clauses of `MemCtl.Shaped` that neither the busy bits nor the queue decide: the two levels, memory and the marks. -/
structure MemCtl.Hierarchy (cfg : Config) (m : MemCtl) : Prop where
  l1        : m.l1.Good cfg.l1Rows cfg.l1Ways cfg.memSize
  l2        : m.l2.Good cfg.l2Rows cfg.l2Ways cfg.memSize
  memWf     : Mem.wf m.mem
  memRange  : ∀ c ∈ m.mem, c.1 < cfg.memSize
  markWf    : AddrSet.wf m.pfMark
  markRange : ∀ a ∈ m.pfMark, a < cfg.memSize

theorem MemCtl.Shaped.hierarchy {cfg : Config} {m : MemCtl} (h : m.Shaped cfg) : m.Hierarchy cfg :=
  ⟨⟨h.l1, h.unique1, h.range1⟩, ⟨h.l2, h.unique2, h.range2⟩, h.memWf, h.memRange, h.markWf, h.markRange⟩

/-- A hierarchy in shape with busy bits and a queue in shape is a controller in shape. -/
theorem MemCtl.Hierarchy.shaped {cfg : Config} {m : MemCtl} (h : m.Hierarchy cfg) (busyWf : AddrSet.wf m.busy)
    (busyRange : ∀ a ∈ m.busy, a < cfg.memSize) (cap : m.pfq.length ≤ cfg.pfQueueCap)
    (queue : ∀ q ∈ m.pfq, q.addr < cfg.memSize ∧ 1 ≤ q.count) : m.Shaped cfg :=
  ⟨h.l1.shaped, h.l2.shaped, h.l1.unique, h.l2.unique, h.l1.range, h.l2.range, h.memWf, h.memRange, busyWf, busyRange,
    h.markWf, h.markRange, cap, fun q hq => (queue q hq).1, fun q hq => (queue q hq).2⟩

section
variable {cfg : Config} {m m' : MemCtl} (h : m.Hierarchy cfg) (cycle : Nat)
include h

theorem MemCtl.Hierarchy.memWrite {a : Nat} (v : Word) (ha : a < cfg.memSize) :
    (m.memWrite cycle a v).Hierarchy cfg :=
  { h with
    memWf := Mem.write_wf _ _ _ h.memWf
    memRange := fun c hc => (Mem.mem_write _ _ _ c hc).elim (fun e => e.1 ▸ ha) (h.memRange c) }

theorem MemCtl.Hierarchy.unmark (a : Nat) : MemCtl.Hierarchy cfg { m with pfMark := m.pfMark.erase a } :=
  { h with
    markWf := AddrSet.erase_wf _ _ h.markWf
    markRange := fun b hb => h.markRange b ((AddrSet.mem_erase _ _ _).1 hb).1 }

/-- The victim's address is in range. -/
theorem MemCtl.Hierarchy.victim2_lt {a oa : Nat} {ov : Word} {d : Bool}
    (hv : m.l2.victimLine cfg.l2Rows a = some (oa, ov, d)) : oa < cfg.memSize := by
  obtain ⟨e, he, ve, rfl, -, -⟩ := CacheLevel.victimLine_some hv
  exact h.l2.range.row he ve

theorem MemCtl.Hierarchy.victim1_lt {a oa : Nat} {ov : Word} {d : Bool}
    (hv : m.l1.victimLine cfg.l1Rows a = some (oa, ov, d)) : oa < cfg.memSize := by
  obtain ⟨e, he, ve, rfl, -, -⟩ := CacheLevel.victimLine_some hv
  exact h.l1.range.row he ve

theorem MemCtl.Hierarchy.evict2 (a : Nat) : (m.evict2 cfg cycle a).Hierarchy cfg := by
  rcases m.evict2_cases cfg cycle a with ⟨-, e⟩ | ⟨oa, ov, -, e⟩ | ⟨oa, ov, hv, e⟩
  · rw [e]; exact h
  · rw [e]; exact h.unmark oa
  · rw [e]; exact (h.memWrite cycle ov (h.victim2_lt hv)).unmark oa

theorem MemCtl.Hierarchy.fill2 {a : Nat} {v : Word} {d : Bool} (ha : a < cfg.memSize)
    (e : m.fill2 cfg cycle a v d = .ok m' ()) : m'.Hierarchy cfg := by
  obtain ⟨hno, rfl⟩ := (MemCtl.fill2_ok cfg cycle m m' a v d ()).1 e
  exact { h.evict2 cycle a with l2 := h.l2.put v d ha (CacheLevel.holds_eq_false.1 hno) }

theorem MemCtl.Hierarchy.writeback2 {a : Nat} {v : Word} (ha : a < cfg.memSize)
    (e : m.writeback2 cfg cycle a v = .ok m' ()) : m'.Hierarchy cfg := by
  unfold MemCtl.writeback2 at e
  split at e
  · rename_i w l hf
    cases e
    exact { h with l2 := h.l2.writeHit v hf }
  · exact h.fill2 cycle ha e

theorem MemCtl.Hierarchy.evict1 {a : Nat} (e : m.evict1 cfg cycle a = .ok m' ()) : m'.Hierarchy cfg := by
  unfold MemCtl.evict1 at e
  split at e
  · rename_i oa ov hv
    exact h.writeback2 cycle (h.victim1_lt hv) e
  · cases e; exact h
  · cases e; exact h

omit h in
/-- An eviction of level 1 leaves level 1 as it is. -/
theorem MemCtl.evict1_l1 {a : Nat} (e : m.evict1 cfg cycle a = .ok m' ()) : m'.l1 = m.l1 := by
  unfold MemCtl.evict1 at e
  split at e
  · unfold MemCtl.writeback2 at e
    split at e
    · cases e; rfl
    · exact MemCtl.fill2_l1 e
  · cases e; rfl
  · cases e; rfl

theorem MemCtl.Hierarchy.fill1 {a : Nat} {v : Word} {d : Bool} (ha : a < cfg.memSize)
    (e : m.fill1 cfg cycle a v d = .ok m' ()) : m'.Hierarchy cfg := by
  obtain ⟨hno, m1, h1, rfl⟩ := (MemCtl.fill1_ok cfg cycle m m' a v d ()).1 e
  have hm1 := h.evict1 cycle h1
  refine { hm1 with l1 := hm1.l1.put v d ha ?_ }
  rw [MemCtl.evict1_l1 cycle h1]
  exact CacheLevel.holds_eq_false.1 hno

theorem MemCtl.Hierarchy.countHit2 (a w : Nat) : (m.countHit2 cfg a w).Hierarchy cfg := by
  have hl2 := h.l2.touch (a % cfg.l2Rows) w
  unfold MemCtl.countHit2
  split
  · exact { h.unmark a with l2 := hl2 }
  · exact { h with l2 := hl2 }

theorem MemCtl.Hierarchy.readHit2 {a w : Nat} {l : CacheEntry} {r : Word × Nat} (ha : a < cfg.memSize)
    (e : m.readHit2 cfg cycle a w l = .ok m' r) : m'.Hierarchy cfg := by
  rw [MemCtl.readHit2_eq] at e
  obtain ⟨m1, _, h1, e⟩ := Ctl.bind_ok.1 e
  cases e
  exact (h.countHit2 a w).fill1 cycle ha h1

theorem MemCtl.Hierarchy.readMiss {a : Nat} {r : Word × Nat} (ha : a < cfg.memSize)
    (e : m.readMiss cfg cycle a = .ok m' r) : m'.Hierarchy cfg := by
  obtain ⟨m2, _, h2, e⟩ := Ctl.bind_ok.1 e
  obtain ⟨m3, _, h3, e⟩ := Ctl.bind_ok.1 e
  cases e
  have hc : MemCtl.Hierarchy cfg { m with cnt := { m.cnt with l2Misses := m.cnt.l2Misses + 1 } } := { h with }
  exact (hc.fill2 cycle ha h2).fill1 cycle ha h3

/-- A demand read keeps the hierarchy in shape. -/
theorem MemCtl.Hierarchy.read {a : Nat} {r : Word × Nat} (ha : a < cfg.memSize)
    (e : MemCtl.read cfg cycle m a = .ok m' r) : m'.Hierarchy cfg := by
  unfold MemCtl.read at e
  have hc : MemCtl.Hierarchy cfg { m with cnt := { m.cnt with l1Misses := m.cnt.l1Misses + 1 } } := { h with }
  split at e
  · cases e
    exact { h with l1 := h.l1.touch _ _ }
  · dsimp only at e
    split at e
    · exact hc.readHit2 cycle ha e
    · exact hc.readMiss cycle ha e

/-- A store write keeps the hierarchy in shape. -/
theorem MemCtl.Hierarchy.write {a : Nat} {v : Word} (ha : a < cfg.memSize)
    (e : MemCtl.write cfg cycle m a v = .ok m' ()) : m'.Hierarchy cfg := by
  unfold MemCtl.write at e
  split at e
  · rename_i w l hf
    cases e
    exact { h with l1 := h.l1.writeHit v hf }
  · exact h.fill1 cycle ha e

theorem MemCtl.Hierarchy.pfInstall {q : PfReq} (hq : q.addr < cfg.memSize)
    (e : m.pfInstall cfg cycle q = .ok m' ()) : m'.Hierarchy cfg := by
  unfold MemCtl.pfInstall at e
  split at e
  · cases e; exact h
  · obtain ⟨m1, _, h1, e⟩ := Ctl.bind_ok.1 e
    cases e
    have hm1 := h.fill2 cycle hq h1
    exact { hm1 with
      markWf := AddrSet.insert_wf _ _ hm1.markWf
      markRange := fun b hb => ((AddrSet.mem_insert _ _ _).1 hb).elim (fun e => e ▸ hq) (hm1.markRange b) }

theorem MemCtl.Hierarchy.pfDrain {qs : List PfReq} (hq : ∀ q ∈ qs, q.addr < cfg.memSize)
    (e : m.pfDrain cfg cycle qs = .ok m' ()) : m'.Hierarchy cfg := by
  induction qs generalizing m with
  | nil => cases e; exact h
  | cons q qs ih =>
    have hqs : ∀ q ∈ qs, q.addr < cfg.memSize := fun p hp => hq p (List.mem_cons_of_mem _ hp)
    unfold MemCtl.pfDrain at e
    split at e
    · obtain ⟨m1, _, h1, e⟩ := Ctl.bind_ok.1 e
      have herase : MemCtl.Hierarchy cfg { m with pfq := m.pfq.erase q } := { h with }
      exact ih (herase.pfInstall cycle (hq q List.mem_cons_self) h1) hqs e
    · exact ih h hqs e

end

/-! ## The queue -/

@[simp] theorem PfReq.age_addr (cycle : Nat) (q : PfReq) : (q.age cycle).addr = q.addr := by
  unfold PfReq.age
  split <;> rfl

/-- A request whose count was at least 1 is at 0 after ageing exactly when it expires (20_memory.md R116). -/
theorem PfReq.age_count_eq_zero {cycle : Nat} {q : PfReq} (h : 1 ≤ q.count) :
    (q.age cycle).count = 0 ↔ q.expires cycle = true := by
  simp only [PfReq.age, PfReq.expires, Bool.and_eq_true, decide_eq_true_eq, beq_iff_eq]
  split
  · rename_i hm
    simp only [hm, true_and]
    omega
  · rename_i hm
    simp only [hm, false_and, iff_false]
    omega

/-- A drain leaves no request at 0 when every request at 0 is still to be drained, as often as it is queued. -/
theorem MemCtl.pfDrain_count {cfg : Config} {cycle : Nat} {m m' : MemCtl} {qs : List PfReq}
    (hq : ∀ q, q.count = 0 → m.pfq.count q ≤ qs.count q) (e : m.pfDrain cfg cycle qs = .ok m' ()) :
    ∀ q ∈ m'.pfq, 1 ≤ q.count := by
  induction qs generalizing m with
  | nil =>
    cases e
    intro q hmem
    by_contra hc
    have h0 := hq q (by omega)
    rw [List.count_nil] at h0
    have := List.count_pos_iff.2 hmem
    omega
  | cons p qs ih =>
    unfold MemCtl.pfDrain at e
    split at e
    · obtain ⟨m1, _, h1, e⟩ := Ctl.bind_ok.1 e
      have hsub := MemCtl.pfInstall_extends cfg cycle { m with pfq := m.pfq.erase p } p
      rw [h1] at hsub
      refine ih (fun q h0 => (hsub.queue.count_le q).trans ?_) e
      have := hq q h0
      rw [List.count_cons] at this
      rw [List.count_erase]
      omega
    · rename_i hno
      refine ih (fun q h0 => ?_) e
      by_cases hqp : q = p
      · subst hqp
        rw [List.count_eq_zero_of_not_mem (by simpa using hno)]
        exact Nat.zero_le _
      · have := hq q h0
        rwa [List.count_cons_of_ne (Ne.symm hqp)] at this

/-- A prefetch tick keeps the controller's shape. -/
theorem MemCtl.Shaped.pfTick {cfg : Config} {cycle : Nat} {m m' : MemCtl} (h : m.Shaped cfg)
    (e : m.pfTick cfg cycle = .ok m' ()) : m'.Shaped cfg := by
  have hext := m.pfTick_extends cfg cycle
  rw [e] at hext
  have haged : ∀ q ∈ m.pfq.map (PfReq.age cycle), q.addr < cfg.memSize := by
    intro q hq
    obtain ⟨p, hp, rfl⟩ := List.mem_map.1 hq
    rw [PfReq.age_addr]
    exact h.pfqRange p hp
  have hdrain : ∀ q ∈ (m.pfq.filter (PfReq.expires cycle)).map (PfReq.age cycle), q.addr < cfg.memSize :=
    fun q hq => haged q ((List.filter_sublist.map _).subset hq)
  have hh : MemCtl.Hierarchy cfg { m with pfq := m.pfq.map (PfReq.age cycle) } := { h.hierarchy with }
  have hcount : ∀ q : PfReq, q.count = 0 →
      (m.pfq.map (PfReq.age cycle)).count q ≤ ((m.pfq.filter (PfReq.expires cycle)).map (PfReq.age cycle)).count q := by
    intro q h0
    rw [List.count_eq_countP, List.count_eq_countP, List.countP_map, List.countP_map, List.countP_filter]
    refine List.countP_mono_left fun p hp hpq => ?_
    have hage : PfReq.age cycle p = q := by simpa using hpq
    simp only [Function.comp_apply, hage, beq_self_eq_true, Bool.true_and]
    exact (PfReq.age_count_eq_zero (h.pfqCount p hp)).1 (hage ▸ h0)
  refine (hh.pfDrain cycle hdrain e).shaped (hext.busy ▸ h.busyWf) (hext.busy ▸ h.busyRange) ?_ fun q hq => ⟨?_, ?_⟩
  · have := hext.queue.length_le
    rw [List.length_map] at this
    exact this.trans h.pfqCap
  · exact haged q (hext.queue.subset hq)
  · exact MemCtl.pfDrain_count hcount e q hq

/-- What extends a shaped controller and leaves the hierarchy in shape is shaped. -/
theorem MemCtl.Shaped.extends {cfg : Config} {cycle : Nat} {m m' : MemCtl} (h : m.Shaped cfg)
    (he : m.Extends cycle m') (hh : m'.Hierarchy cfg) : m'.Shaped cfg :=
  hh.shaped (he.busy ▸ h.busyWf) (he.busy ▸ h.busyRange) (he.queue.length_le.trans h.pfqCap)
    fun q hq => ⟨h.pfqRange q (he.queue.subset hq), h.pfqCount q (he.queue.subset hq)⟩

/-- A demand read of an address in range keeps the controller's shape. -/
theorem MemCtl.Shaped.read {cfg : Config} {cycle : Nat} {m m' : MemCtl} {a : Nat} {r : Word × Nat} (h : m.Shaped cfg)
    (ha : a < cfg.memSize) (e : MemCtl.read cfg cycle m a = .ok m' r) : m'.Shaped cfg := by
  have hext := MemCtl.read_extends cfg cycle m a
  rw [e] at hext
  exact h.extends hext (h.hierarchy.read cycle ha e)

/-- A store write to an address in range keeps the controller's shape. -/
theorem MemCtl.Shaped.write {cfg : Config} {cycle : Nat} {m m' : MemCtl} {a : Nat} {v : Word} (h : m.Shaped cfg)
    (ha : a < cfg.memSize) (e : MemCtl.write cfg cycle m a v = .ok m' ()) : m'.Shaped cfg := by
  have hext := MemCtl.write_extends cfg cycle m a v
  rw [e] at hext
  exact h.extends hext (h.hierarchy.write cycle ha e)

/-- Issuing a prefetch keeps the controller's shape (20_memory.md R117). -/
theorem MemCtl.Shaped.pfIssue {cfg : Config} {cycle : Nat} {m : MemCtl} (h : m.Shaped cfg) (legal : cfg.Legal) (a : Nat) :
    (m.pfIssue cfg cycle a).Shaped cfg := by
  obtain ⟨_, _, _, _, _, ⟨_, _, hlat⟩, hsize, _⟩ := legal
  rcases m.pfIssue_cases cfg cycle a with e | ⟨hcap, e⟩
  · rw [e]; exact h
  · rw [e]
    refine MemCtl.Hierarchy.shaped { h.hierarchy with } h.busyWf h.busyRange ?_ fun q hq => ?_
    · rw [List.length_append]; exact hcap
    · rcases List.mem_append.1 hq with hq | hq
      · exact ⟨h.pfqRange q hq, h.pfqCount q hq⟩
      · rw [List.mem_singleton.1 hq]
        exact ⟨Nat.mod_lt _ hsize, hlat⟩

theorem MemCtl.Shaped.setBusy {cfg : Config} {m : MemCtl} (h : m.Shaped cfg) {a : Nat} (ha : a < cfg.memSize) :
    MemCtl.Shaped cfg { m with busy := m.busy.insert a } :=
  { h with
    busyWf := AddrSet.insert_wf _ _ h.busyWf
    busyRange := fun b hb => ((AddrSet.mem_insert _ _ _).1 hb).elim (fun e => e ▸ ha) (h.busyRange b) }

theorem MemCtl.Shaped.clearBusy {cfg : Config} {m : MemCtl} (h : m.Shaped cfg) (a : Nat) :
    MemCtl.Shaped cfg { m with busy := m.busy.erase a } :=
  { h with
    busyWf := AddrSet.erase_wf _ _ h.busyWf
    busyRange := fun b hb => h.busyRange b ((AddrSet.mem_erase _ _ _).1 hb).1 }

end Sys2Proof.Machine
end

section
/-! SUPPORT. Everything that serving one event of an instruction can do to the state, said once: `Served`. The proofs about
steps are case analyses over it. -/

namespace Sys2Proof.Machine

/-! ## The operations of an instruction's life, by name

`simp` unfolds them to the model's operations, whose fields Laws/State.lean gives. -/

/-- One cycle of a countdown that does not end (R252, R262). -/
@[simp] def State.countDown (s : State) (n : Nat) : State := s.updEntry n (fun e => { e with count := e.count - 1 })

/-- The end of a countdown (R262). -/
@[simp] def State.endExec (s : State) (n : Nat) : State :=
  s.updEntry n (fun e => { e with count := 0, state := .executeEnd, tExecEnd := some s.cycle })

/-- A load's start: its address is recorded, and the controller `m` that its read left issues a prefetch (R266, R361). -/
@[simp] def State.startLoad (s : State) (p : PoolId) (k n : Nat) (ea : Word) (m : MemCtl) (v : Word) (lat : Nat) : State :=
  ({ s.updEntry n (fun t => { t with ea := some ea }) with
      mc := m.pfIssue s.cfg s.cycle ea.toNat } : State).beginExec p k n
    (fun t => { t with result := some v, count := lat })

/-- A store's start: its address and data are recorded (R266, R362). -/
@[simp] def State.startStore (s : State) (p : PoolId) (k n : Nat) (ea b : Word) : State :=
  s.beginExec p k n (fun t => { t with ea := some ea, data := some b, count := s.mc.probe s.cfg ea.toNat })

/-- A store's commit: its address becomes busy and its write is scheduled (R234). -/
@[simp] def State.scheduleWrite (s : State) (n : Nat) (ea : Word) : State :=
  (((s.setBusy ea).updEntry n
    (fun t => { t with count := s.mc.probe s.cfg ea.toNat, writePending := true })).retire n)

/-- A store's write, `m` being the controller it left (R253). -/
@[simp] def State.performWrite (s : State) (n : Nat) (ea : Word) (m : MemCtl) : State :=
  ((({ s.updEntry n (fun e => { e with count := 0 }) with mc := m } : State).clearBusy ea).updEntry n
    (fun e => { e with writePending := false, state := .memoryWrite, tMemWrite := some s.cycle }))

/-- A broadcast of a value: its reorder-buffer slot gets it and the operands that wait on the slot wake (R243, R244). -/
@[simp] def State.sendValue (s : State) (n : Nat) (q : Tag) (v : Word) : State :=
  (((s.setRobValue q (.ready v)).mapStations (RsEntry.wake q v)).markBroadcast n)

/-! ## What serving an event does -/

/-- The events that can leave the state as it was: a dispatch that stalls (40_scheduler.md R287), a start that is refused
(R264, R266), a commit that waits (R230, R234). -/
def Event.mayIdle : Event → Bool
  | .dispatch    => true
  | .start _ _   => true
  | .countdown _ => false
  | .broadcast _ => false
  | .commit      => true
  | .storeTick _ => false

/-- The candidate of a start: the live station `e` in slot `k` of pool `p`, with operand values `a` and `b` (R264). -/
structure State.Candidate (s : State) (p : PoolId) (k : Nat) (e : RsEntry) (a b : Word) : Prop where
  slot   : s.slot p k = some e
  j      : e.j = .val a
  k      : e.k = .val b
  settle : e.settle = false
  entry  : e.instr < s.table.length

/-- `Served s i ev t`: serving event `ev` of instruction `i` takes `s` to `t`. -/
inductive Served (s : State) (i : Instr) : Event → State → Prop where
  /-- Nothing happens. -/
  | idle {ev : Event} : ev.mayIdle = true → Served s i ev s
  /-- R290 to R293: the first entry not started is issued. -/
  | issued {n k : Nat} {c : Captured} : s.dptr = some n → s.freeSlot (poolOf i.op) = some k → s.robFull = false →
      captureOf i s = some c → Served s i .dispatch (s.issue (poolOf i.op) n k c)
  /-- R363: a load or a store whose address is out of range raises. -/
  | raised {p : PoolId} {k : Nat} {e : RsEntry} {a b : Word} : s.Candidate p k e a b → (i.op = .lw ∨ i.op = .sw) →
      s.inRange (effectiveAddr a e.imm) = false →
      Served s i (.start p k) (s.raise (.addressOutOfRange e.instr (effectiveAddr a e.imm) s.cycle))
  /-- R265: an arithmetic start. -/
  | arith {p : PoolId} {k : Nat} {e : RsEntry} {a b : Word} {r : Word} {lat : Nat} : s.Candidate p k e a b →
      i.op ≠ .lw → i.op ≠ .sw → (s.cfg.Legal → 1 ≤ lat) →
      Served s i (.start p k) (s.startArith p k e.instr r lat)
  /-- R304: a division by zero is reported at its start. -/
  | div0 {p : PoolId} {k : Nat} {e : RsEntry} {a b : Word} {r : Word} {lat : Nat} : s.Candidate p k e a b →
      i.op = .div → b = 0#32 → (s.cfg.Legal → 1 ≤ lat) →
      Served s i (.start p k) ((s.reportDiv0 e.instr).startArith p k e.instr r lat)
  /-- R266, R361: a load reads. -/
  | load {p : PoolId} {k : Nat} {e : RsEntry} {a b : Word} {m : MemCtl} {v : Word} {lat : Nat} :
      s.Candidate p k e a b → i.op = .lw → s.inRange (effectiveAddr a e.imm) = true →
      s.busyAt (effectiveAddr a e.imm) = false → s.portBusy = false →
      MemCtl.read s.cfg s.cycle { s.mc with busy := s.mc.busy.insert (effectiveAddr a e.imm).toNat }
        (effectiveAddr a e.imm).toNat = .ok m (v, lat) →
      Served s i (.start p k) (s.startLoad p k e.instr (effectiveAddr a e.imm) m v lat)
  /-- R266, R362: a store records its address and data. -/
  | store {p : PoolId} {k : Nat} {e : RsEntry} {a b : Word} : s.Candidate p k e a b → i.op = .sw →
      s.inRange (effectiveAddr a e.imm) = true → s.busyAt (effectiveAddr a e.imm) = false →
      Served s i (.start p k) (s.startStore p k e.instr (effectiveAddr a e.imm) b)
  /-- R262: one cycle of a countdown that does not end. -/
  | counted {n : Nat} {e : Entry} : s.table[n]? = some e → e.count ≠ 1 →
      Served s i (.countdown n) (s.countDown n)
  /-- R262: the end of a countdown. -/
  | ended {n : Nat} {e : Entry} : s.table[n]? = some e → e.count = 1 → i.op ≠ .lw →
      Served s i (.countdown n) (s.endExec n)
  /-- R262: the end of a load's countdown releases its busy bit. -/
  | loadEnded {n : Nat} {e : Entry} {ea : Word} : s.table[n]? = some e → e.count = 1 → i.op = .lw → e.ea = some ea →
      Served s i (.countdown n) ((s.endExec n).clearBusy ea)
  /-- R242 to R246: a result is broadcast. -/
  | valueSent {n : Nat} {e : Entry} {q : Tag} {v : Word} : s.table[n]? = some e → s.robSlotOf n = some q →
      e.result = some v → i.op ≠ .sw →
      Served s i (.broadcast n) (s.sendValue n q v)
  /-- R243: a store's no-value marker. -/
  | markSent {n : Nat} {q : Tag} : n < s.table.length → s.robSlotOf n = some q → i.op = .sw →
      Served s i (.broadcast n) ((s.setRobValue q .noValue).markBroadcast n)
  /-- R232: a commit to a register. -/
  | toReg {e : RobEntry} {u : Entry} {r : RegIdx} {w : Word} : s.robAt s.robTail = some e →
      s.table[e.instr]? = some u → e.dest = .reg r → e.value = .ready w → r.toNat < s.x.length →
      Served s i .commit ((s.commitReg r w s.robTail).retire e.instr)
  /-- R233: a commit without a destination. -/
  | toNone {e : RobEntry} {u : Entry} : s.robAt s.robTail = some e → s.table[e.instr]? = some u → e.dest = .none →
      e.value ≠ .unready → Served s i .commit (s.retire e.instr)
  /-- R234: a store's commit schedules its write. -/
  | toMem {e : RobEntry} {u : Entry} {ea : Word} : s.robAt s.robTail = some e → s.table[e.instr]? = some u →
      e.dest = .mem → e.value ≠ .unready → u.ea = some ea → s.busyAt ea = false →
      Served s i .commit (s.scheduleWrite e.instr ea)
  /-- R252: one cycle of a store's write countdown that does not end. -/
  | writeCounted {n : Nat} {e : Entry} : s.table[n]? = some e → e.count ≠ 1 →
      Served s i (.storeTick n) (s.countDown n)
  /-- R253: a store's write. -/
  | written {n : Nat} {e : Entry} {ea v : Word} {m : MemCtl} : s.table[n]? = some e → e.count = 1 → e.ea = some ea →
      e.data = some v → MemCtl.write s.cfg s.cycle s.mc ea.toNat v = .ok m () →
      Served s i (.storeTick n) (s.performWrite n ea m)

/-! ## What `exec` does is `Served` -/

/-- A start that computes on a candidate is an arithmetic start. -/
theorem withCandidate_arith {s t : State} {i : Instr} {p : PoolId} {k : Nat} {compute : Word → Word → Word} {lat : Nat}
    (hl : i.op ≠ .lw) (hs : i.op ≠ .sw) (hlat : s.cfg.Legal → 1 ≤ lat)
    (h : withCandidate p k s (fun e a b => .next (s.startArith p k e.instr (compute a b) lat)) = .next t) :
    Served s i (.start p k) t := by
  rcases withCandidate_next h with rfl | ⟨e, a, b, h1, h2, h3, h4, h5, h⟩
  · exact .idle rfl
  · cases h
    exact .arith ⟨h1, h2, h3, h4, h5⟩ hl hs hlat

theorem startDiv_served {s t : State} {i : Instr} {p : PoolId} {k : Nat} (hi : i.op = .div)
    (h : startDiv p k s = .next t) : Served s i (.start p k) t := by
  have hlat : s.cfg.Legal → 1 ≤ s.cfg.latDiv := fun ⟨_, _, _, ⟨_, _, _, _, _, _, hd⟩, _⟩ => hd
  rcases withCandidate_next h with rfl | ⟨e, a, b, h1, h2, h3, h4, h5, h⟩
  · exact .idle rfl
  · dsimp only at h
    split at h
    · cases h
      exact .div0 ⟨h1, h2, h3, h4, h5⟩ hi (by assumption) hlat
    · cases h
      exact .arith ⟨h1, h2, h3, h4, h5⟩ (by rw [hi]; decide) (by rw [hi]; decide) hlat

theorem startLw_served {s t : State} {i : Instr} {p : PoolId} {k : Nat} (hi : i.op = .lw)
    (h : startLw p k s = .next t) : Served s i (.start p k) t := by
  rcases startLw_next h with rfl | ⟨e, a, b, h1, h2, h3, h4, h5, ⟨hr, rfl⟩ | ⟨hr, hb, hp, h⟩⟩
  · exact .idle rfl
  · exact .raised ⟨h1, h2, h3, h4, h5⟩ (.inl hi) hr
  · rcases loadAccess_next h with ⟨m, v, lat, hm, rfl⟩ | ⟨m, l, c, hm, -⟩
    · exact .load ⟨h1, h2, h3, h4, h5⟩ hi hr hb hp hm
    · obtain ⟨m', r, hm'⟩ := MemCtl.read_answers s.cfg s.cycle
        { s.mc with busy := s.mc.busy.insert (effectiveAddr a e.imm).toNat } (effectiveAddr a e.imm).toNat
      rw [hm] at hm'
      cases hm'

theorem startSw_served {s t : State} {i : Instr} {p : PoolId} {k : Nat} (hi : i.op = .sw)
    (h : startSw p k s = .next t) : Served s i (.start p k) t := by
  rcases startSw_next h with rfl | ⟨e, a, b, h1, h2, h3, h4, h5, ⟨hr, rfl⟩ | ⟨hr, hb, rfl⟩⟩
  · exact .idle rfl
  · exact .raised ⟨h1, h2, h3, h4, h5⟩ (.inr hi) hr
  · exact .store ⟨h1, h2, h3, h4, h5⟩ hi hr hb

theorem startOf_served {s t : State} {i : Instr} {p : PoolId} {k : Nat} (h : startOf i.op p k s = .next t) :
    Served s i (.start p k) t := by
  cases i with
  | add | sub | mul | addi | beq | bne =>
    refine withCandidate_arith nofun nofun ?_ h
    rintro ⟨_, _, _, ⟨_, _, _, _, _, _, _⟩, _⟩
    assumption
  | div => exact startDiv_served rfl h
  | lw  => exact startLw_served rfl h
  | sw  => exact startSw_served rfl h

theorem countdown_served {s t : State} {i : Instr} {n : Nat}
    (h : (if i.op = .lw then countdownThen releaseLoad n s else countdownPlain n s) = .next t) :
    Served s i (.countdown n) t := by
  split at h
  · rename_i hi
    obtain ⟨e, he, ⟨hc, rfl⟩ | ⟨hc, h⟩⟩ := countdownThen_next h
    · exact .counted he hc
    · obtain ⟨ea, hea, rfl⟩ := releaseLoad_next h
      exact .loadEnded he hc hi hea
  · rename_i hi
    obtain ⟨e, he, ⟨hc, rfl⟩ | ⟨hc, h⟩⟩ := countdownThen_next h
    · exact .counted he hc
    · cases h
      exact .ended he hc hi

theorem broadcast_served {s t : State} {i : Instr} {n : Nat}
    (h : (if i.op = .sw then broadcastNoValue n s else broadcastResult n s) = .next t) :
    Served s i (.broadcast n) t := by
  split at h
  · obtain ⟨q, hn, hq, rfl⟩ := broadcastNoValue_next h
    exact .markSent hn hq (by assumption)
  · obtain ⟨e, q, v, he, hq, hv, rfl⟩ := broadcastResult_next h
    exact .valueSent he hq hv (by assumption)

theorem commitTail_served {s t : State} {i : Instr} (h : commitTail s = .next t) : Served s i .commit t := by
  rcases commitTail_next h with ⟨rfl, -⟩ | ⟨r, e, hr, hv, he, h⟩
  · exact .idle rfl
  · rcases commitDest_next h with ⟨x, w, hd, hw, hx, rfl⟩ | ⟨hd, rfl⟩ | ⟨hd, h⟩
    · exact .toReg hr he hd hw hx
    · exact .toNone hr he hd hv
    · obtain ⟨ea, hea, ⟨-, rfl⟩ | ⟨hb, rfl⟩⟩ := commitStore_next h
      · exact .idle rfl
      · exact .toMem hr he hd hv hea hb

theorem storeWriteTick_served {s t : State} {i : Instr} {n : Nat} (h : storeWriteTick n s = .next t) :
    Served s i (.storeTick n) t := by
  obtain ⟨e, he, ⟨hc, rfl⟩ | ⟨hc, ea, v, hea, hv, h⟩⟩ := storeWriteTick_next h
  · exact .writeCounted he hc
  · obtain ⟨m, hm⟩ := MemCtl.write_answers s.cfg s.cycle s.mc ea.toNat v
    rw [hm] at h
    cases h
    exact .written he hc hea hv hm

/-- An instruction that answers has done one of the things `Served` lists for the event the state names. -/
theorem exec_served {i : Instr} {s t : State} (h : exec i s = .next t) : Served s i s.event t := by
  cases hev : s.event with
  | dispatch =>
    rw [exec_dispatch i hev] at h
    rcases dispatchAs_next h with ⟨-, rfl⟩ | ⟨n, k, c, hn, hk, hr, hc, rfl⟩
    · exact .idle rfl
    · exact .issued hn hk hr hc
  | start p k => exact startOf_served (exec_start i hev ▸ h)
  | countdown n => exact countdown_served (exec_countdown i hev ▸ h)
  | broadcast n => exact broadcast_served (exec_broadcast i hev ▸ h)
  | commit => exact commitTail_served (exec_commit i hev ▸ h)
  | storeTick n => exact storeWriteTick_served (exec_storeTick i hev ▸ h)

/-! ## The event field plays no part -/

theorem captureOf_withEvent (i : Instr) (s : State) (x : Event) : captureOf i { s with event := x } = captureOf i s := by
  cases i <;> rfl

theorem freeSlot_withEvent (s : State) (p : PoolId) (x : Event) :
    State.freeSlot { s with event := x } p = s.freeSlot p := by
  cases p <;> rfl

theorem issue_withEvent (s : State) (p : PoolId) (n k : Nat) (c : Captured) (x : Event) :
    State.issue { s with event := x } p n k c = { s.issue p n k c with event := x } := by
  cases p <;> rfl

/-- What is served does not depend on the event field, and does not touch it (log 5). -/
theorem Served.withEvent {s t : State} {i : Instr} {ev : Event} (h : Served s i ev t) (x : Event) :
    Served { s with event := x } i ev { t with event := x } := by
  cases h with
  | idle h => exact .idle h
  | issued hn hk hr hc =>
    have hc' := (captureOf_withEvent i s x).trans hc
    have hi := Served.issued (s := { s with event := x }) hn ((freeSlot_withEvent s _ x).trans hk) hr hc'
    rwa [issue_withEvent] at hi
  | raised hc hi hr => cases ‹PoolId› <;> exact .raised ⟨hc.slot, hc.j, hc.k, hc.settle, hc.entry⟩ hi hr
  | arith hc hl hs hlat => cases ‹PoolId› <;> exact .arith ⟨hc.slot, hc.j, hc.k, hc.settle, hc.entry⟩ hl hs hlat
  | div0 hc hi hb hlat => cases ‹PoolId› <;> exact .div0 ⟨hc.slot, hc.j, hc.k, hc.settle, hc.entry⟩ hi hb hlat
  | load hc hi hr hb hp hm => cases ‹PoolId› <;> exact .load ⟨hc.slot, hc.j, hc.k, hc.settle, hc.entry⟩ hi hr hb hp hm
  | store hc hi hr hb => cases ‹PoolId› <;> exact .store ⟨hc.slot, hc.j, hc.k, hc.settle, hc.entry⟩ hi hr hb
  | counted he hc => exact .counted he hc
  | ended he hc hi => exact .ended he hc hi
  | loadEnded he hc hi hea => exact .loadEnded he hc hi hea
  | valueSent he hq hv hi => exact .valueSent he hq hv hi
  | markSent hn hq hi => exact .markSent hn hq hi
  | toReg hr he hd hw hx => exact .toReg hr he hd hw hx
  | toNone hr he hd hv => exact .toNone hr he hd hv
  | toMem hr he hd hv hea hb => exact .toMem hr he hd hv hea hb
  | writeCounted he hc => exact .writeCounted he hc
  | written he hc hea hv hm => exact .written he hc hea hv hm

/-- Serving an event of an instruction, from a state whose event field is at rest, does one of the things `Served` lists. -/
theorem serve_served {ev : Event} {i : Instr} {s t : State} (hs : s.event = .dispatch) (h : serve ev i s = .next t) :
    Served s i ev t := by
  obtain ⟨u, hu, rfl⟩ := serve_next.1 h
  have hu' := (exec_served hu).withEvent .dispatch
  have hrest : ({ { s with event := ev } with event := .dispatch } : State) = s := by
    cases s
    cases hs
    rfl
  rwa [hrest] at hu'

end Sys2Proof.Machine
end

section
/-! SUPPORT and PROOF. The shape of the state is kept by each of its operations, so by every step. -/

namespace Sys2Proof.Machine

/-! ## Captured destinations -/

theorem State.destReg_some {s : State} {rd : RegIdx} {d : Dest} (h : s.destReg rd = some d) :
    rd.toNat < s.x.length ∧ d = if s.cfg.x0Zero ∧ rd = 0#5 then .none else .reg rd := by
  unfold State.destReg at h
  split at h
  · rename_i hlt
    refine ⟨hlt, ?_⟩
    split at h <;> rename_i hx <;> cases h
    · rw [if_pos hx]
    · rw [if_neg hx]
  · cases h

theorem captureReg_some {rd rs1 rs2 : RegIdx} {s : State} {c : Captured} (h : captureReg rd rs1 rs2 s = some c) :
    ∃ j k d, s.cap rs1 = some j ∧ s.cap rs2 = some k ∧ s.destReg rd = some d ∧ c = ⟨j, k, 0#32, d⟩ := by
  unfold captureReg at h
  split at h
  · cases h
    exact ⟨_, _, _, by assumption, by assumption, by assumption, rfl⟩
  · cases h

theorem captureImm_some {rd rs1 : RegIdx} {imm : BitVec 12} {s : State} {c : Captured}
    (h : captureImm rd rs1 imm s = some c) :
    ∃ j d, s.cap rs1 = some j ∧ s.destReg rd = some d ∧ c = ⟨j, .val (imm.signExtend 32), imm.signExtend 32, d⟩ := by
  unfold captureImm at h
  split at h
  · cases h
    exact ⟨_, _, by assumption, by assumption, rfl⟩
  · cases h

theorem captureLoad_some {rd rs1 : RegIdx} {imm : BitVec 12} {s : State} {c : Captured}
    (h : captureLoad rd rs1 imm s = some c) :
    ∃ j d, s.cap rs1 = some j ∧ s.destReg rd = some d ∧ c = ⟨j, .val 0#32, imm.signExtend 32, d⟩ := by
  unfold captureLoad at h
  split at h
  · cases h
    exact ⟨_, _, by assumption, by assumption, rfl⟩
  · cases h

theorem captureStore_some {rs1 rs2 : RegIdx} {imm : BitVec 12} {s : State} {c : Captured}
    (h : captureStore rs1 rs2 imm s = some c) :
    ∃ j k, s.cap rs1 = some j ∧ s.cap rs2 = some k ∧ c = ⟨j, k, imm.signExtend 32, .mem⟩ := by
  unfold captureStore at h
  split at h
  · cases h
    exact ⟨_, _, by assumption, by assumption, rfl⟩
  · cases h

theorem captureBranch_some {rs1 rs2 : RegIdx} {imm : BitVec 13} {s : State} {c : Captured}
    (h : captureBranch rs1 rs2 imm s = some c) :
    ∃ j k, s.cap rs1 = some j ∧ s.cap rs2 = some k ∧ c = ⟨j, k, imm.signExtend 32, .none⟩ := by
  unfold captureBranch at h
  split at h
  · cases h
    exact ⟨_, _, by assumption, by assumption, rfl⟩
  · cases h

/-- An operand that a dispatch captures is an immediate word or what `cap` gives for a register. -/
def State.Captures (s : State) (o : Operand) : Prop := (∃ w, o = .val w) ∨ ∃ r, s.cap r = some o

/-- What dispatch captures (40_scheduler.md R289): the destination of the instruction, which is a register that exists, and
operands that are words or what `cap` gives. -/
theorem captureOf_some {i : Instr} {s : State} {c : Captured} (h : captureOf i s = some c) :
    c.dest = destOf s.cfg i ∧ (∀ r, c.dest = .reg r → r.toNat < s.x.length) ∧ s.Captures c.j ∧ s.Captures c.k := by
  have regDest : ∀ {rd : RegIdx} {d : Dest}, s.destReg rd = some d →
      (d = if s.cfg.x0Zero ∧ rd = 0#5 then .none else .reg rd) ∧ ∀ r, d = .reg r → r.toNat < s.x.length := by
    intro rd d hd
    obtain ⟨hlt, rfl⟩ := State.destReg_some hd
    refine ⟨rfl, fun r hr => ?_⟩
    split at hr
    · cases hr
    · cases hr
      exact hlt
  cases i with
  | add rd rs1 rs2 | sub rd rs1 rs2 | mul rd rs1 rs2 | div rd rs1 rs2 =>
    obtain ⟨j, k, d, hj, hk, hd, rfl⟩ := captureReg_some h
    obtain ⟨hdest, hreg⟩ := regDest hd
    exact ⟨hdest, hreg, .inr ⟨_, hj⟩, .inr ⟨_, hk⟩⟩
  | addi rd rs1 imm =>
    obtain ⟨j, d, hj, hd, rfl⟩ := captureImm_some h
    obtain ⟨hdest, hreg⟩ := regDest hd
    exact ⟨hdest, hreg, .inr ⟨_, hj⟩, .inl ⟨_, rfl⟩⟩
  | lw rd rs1 imm =>
    obtain ⟨j, d, hj, hd, rfl⟩ := captureLoad_some h
    obtain ⟨hdest, hreg⟩ := regDest hd
    exact ⟨hdest, hreg, .inr ⟨_, hj⟩, .inl ⟨_, rfl⟩⟩
  | sw rs1 rs2 imm =>
    obtain ⟨j, k, hj, hk, rfl⟩ := captureStore_some h
    exact ⟨rfl, nofun, .inr ⟨_, hj⟩, .inr ⟨_, hk⟩⟩
  | beq rs1 rs2 imm | bne rs1 rs2 imm =>
    obtain ⟨j, k, hj, hk, rfl⟩ := captureBranch_some h
    exact ⟨rfl, nofun, .inr ⟨_, hj⟩, .inr ⟨_, hk⟩⟩

/-- Under X0_ZERO no instruction has the destination `Reg(0)` (10_state.md R34). -/
theorem destOf_ne_x0 {cfg : Config} (hx : cfg.x0Zero = true) (i : Instr) : destOf cfg i ≠ .reg 0#5 := by
  have key (rd : RegIdx) : (if cfg.x0Zero ∧ rd = 0#5 then Dest.none else .reg rd) ≠ .reg 0#5 := by
    split
    · nofun
    · rename_i h
      rintro e
      exact h ⟨hx, by injection e⟩
  cases i with
  | add rd _ _ | sub rd _ _ | mul rd _ _ | div rd _ _ | addi rd _ _ | lw rd _ _ => exact key rd
  | sw _ _ _ | beq _ _ _ | bne _ _ _ => nofun

/-! ## Shape, operation by operation -/

theorem forall_mem_modify {α : Type} {P : α → Prop} {l : List α} {f : α → α} (n : Nat) (h : ∀ a ∈ l, P a)
    (hf : ∀ a, P a → P (f a)) : ∀ a ∈ l.modify n f, P a := by
  intro a ha
  obtain ⟨i, hi⟩ := List.mem_iff_getElem?.1 ha
  rw [List.getElem?_modify] at hi
  obtain ⟨b, hb, rfl⟩ := Option.map_eq_some_iff.1 hi
  have hPb := h b (List.mem_of_getElem? hb)
  split
  · exact hf b hPb
  · exact hPb

namespace State.Shaped
variable {s : State} (h : s.Shaped)
include h

theorem withStatus (st : Status) : State.Shaped { s with status := st } := { h with }

theorem withCycle (c : Nat) : State.Shaped { s with cycle := c } := { h with }

theorem withMc {m : MemCtl} (hm : m.Shaped s.cfg) : State.Shaped { s with mc := m } := { h with mc := hm }

theorem setBusy {ea : Word} (hea : ea.toNat < s.cfg.memSize) : (s.setBusy ea).Shaped := h.withMc (h.mc.setBusy hea)

theorem clearBusy (ea : Word) : (s.clearBusy ea).Shaped := h.withMc (h.mc.clearBusy _)

/-- An entry may change but for its instruction, and a new address must be in range. -/
theorem updEntry (n : Nat) {f : Entry → Entry} (hi : ∀ e, (f e).ins = e.ins)
    (hea : ∀ e ea, (f e).ea = some ea → e.ea = some ea ∨ ea.toNat < s.cfg.memSize) : (s.updEntry n f).Shaped :=
  { h with
    ins := forall_mem_modify n h.ins fun e he => (hi e).symm ▸ he
    ea := forall_mem_modify n h.ea fun e he _ hf => (hea e _ hf).elim (he _) id }

/-- An entry's update that touches neither its instruction nor its address. -/
theorem updEntry_keep (n : Nat) {f : Entry → Entry} (hf : ∀ e, (f e).ins = e.ins ∧ (f e).ea = e.ea) :
    (s.updEntry n f).Shaped :=
  h.updEntry n (fun e => (hf e).1) fun e _ hea => .inl ((hf e).2 ▸ hea)

theorem setPool (p : PoolId) {slots : Pool} (hl : slots.length = (s.pool p).length) : (s.setPool p slots).Shaped := by
  cases p
  · exact { h with addPool := hl.trans h.addPool }
  · exact { h with mulPool := hl.trans h.mulPool }
  · exact { h with lsq := hl.trans h.lsq }

theorem mapStations (f : RsEntry → RsEntry) : (s.mapStations f).Shaped :=
  { h with
    addPool := (List.length_map _).trans h.addPool
    mulPool := (List.length_map _).trans h.mulPool
    lsq := (List.length_map _).trans h.lsq }

theorem setRobValue (q : Tag) (v : RobValue) : (s.setRobValue q v).Shaped :=
  { h with
    rob := (List.length_modify _ _ _).trans h.rob
    x0Dest := fun hx => by
      have := forall_mem_modify (P := fun o => ∀ e, o = some e → e.dest ≠ .reg 0#5)
        (f := Option.map (fun e => { e with value := v })) q (fun o ho e he => h.x0Dest hx e (he ▸ ho)) fun o ho e he => by
          obtain ⟨d, rfl, rfl⟩ := Option.map_eq_some_iff.1 he
          exact ho d rfl
      exact fun e he => this _ he e rfl }

theorem setRob (t : Tag) {o : Option RobEntry} (ho : s.cfg.x0Zero = true → ∀ e, o = some e → e.dest ≠ .reg 0#5) :
    State.Shaped { s with rob := s.rob.set t o } :=
  { h with
    rob := List.length_set.trans h.rob
    x0Dest := fun hx e he => (List.mem_or_eq_of_mem_set he).elim (h.x0Dest hx e) fun e' => ho hx e e'.symm }

theorem nextSlot_lt (t : Tag) : s.nextSlot t < s.cfg.nRob := by
  obtain ⟨_, hrob, _⟩ := h.legal
  exact Nat.mod_lt _ hrob

theorem retire (n : Nat) : (s.retire n).Shaped := by
  have h1 := (h.setRob s.robTail (o := none) (fun _ _ => nofun)).updEntry_keep n
    (f := fun t => { t with state := .commit, tCommit := some s.cycle }) fun _ => ⟨rfl, rfl⟩
  exact { h1 with robTail := h.nextSlot_lt s.robTail }

/-- A commit to a register other than x0 under X0_ZERO (10_state.md R34). -/
theorem commitReg {r : RegIdx} (w : Word) (t : Tag) (hr : s.cfg.x0Zero = true → r ≠ 0#5) :
    (s.commitReg r w t).Shaped := by
  refine { h with x := List.length_set.trans h.x, link := ?_, x0 := fun hx => ?_ }
  · rw [State.commitReg_link]
    split
    · exact List.length_set.trans h.link
    · exact h.link
  · have hne : r.toNat ≠ 0 := fun e => hr hx (BitVec.eq_of_toNat_eq (by simpa using e))
    rw [State.commitReg_x, List.getElem?_set_ne hne]
    exact h.x0 hx

theorem beginExec (p : PoolId) (k n : Nat) {f : Entry → Entry} (hi : ∀ e, (f e).ins = e.ins)
    (hea : ∀ e ea, (f e).ea = some ea → e.ea = some ea ∨ ea.toNat < s.cfg.memSize) : (s.beginExec p k n f).Shaped :=
  (h.setPool p List.length_set).updEntry n hi (by rw [State.setPool_cfg]; exact hea)

theorem startArith (p : PoolId) (k n : Nat) (r : Word) (lat : Nat) : (s.startArith p k n r lat).Shaped :=
  h.beginExec p k n (fun _ => rfl) fun _ _ => .inl

theorem reportDiv0 (n : Nat) : (s.reportDiv0 n).Shaped :=
  (h.updEntry_keep n (f := fun t => { t with div0 := true }) fun _ => ⟨rfl, rfl⟩).withMc { h.mc with }

theorem issue (p : PoolId) (n k : Nat) {c : Captured} (hd : s.cfg.x0Zero = true → c.dest ≠ .reg 0#5) :
    (s.issue p n k c).Shaped := by
  have hlink : (renamed s.link c.dest s.robHead).length = s.cfg.nRegs := by
    unfold renamed
    split
    · exact List.length_set.trans h.link
    · exact h.link
    · exact h.link
  have h1 : State.Shaped { s with
      rob := s.rob.set s.robHead (some ⟨n, c.dest, .unready⟩), robHead := s.nextSlot s.robHead
      link := renamed s.link c.dest s.robHead } :=
    { h.setRob s.robHead (o := some ⟨n, c.dest, .unready⟩) (fun hx e he => by cases he; exact hd hx) with
      robHead := h.nextSlot_lt s.robHead
      link := hlink }
  exact (h1.setPool p List.length_set).updEntry_keep n fun _ => ⟨rfl, rfl⟩

omit h in
theorem inRange_lt {ea : Word} (hr : s.inRange ea = true) : ea.toNat < s.cfg.memSize := by
  simpa [State.inRange] using hr

theorem countDown (n : Nat) : (s.countDown n).Shaped := h.updEntry_keep n fun _ => ⟨rfl, rfl⟩

theorem endExec (n : Nat) : (s.endExec n).Shaped := h.updEntry_keep n fun _ => ⟨rfl, rfl⟩

theorem startLoad (p : PoolId) (k n : Nat) {ea : Word} {m : MemCtl} (v : Word) (lat : Nat)
    (hea : ea.toNat < s.cfg.memSize) (hm : m.Shaped s.cfg) : (s.startLoad p k n ea m v lat).Shaped := by
  have h1 := h.updEntry n (f := fun t => { t with ea := some ea }) (fun _ => rfl)
    fun _ _ h => .inr (by cases h; exact hea)
  exact (h1.withMc (hm.pfIssue h.legal _)).beginExec p k n (fun _ => rfl) fun _ _ => .inl

theorem startStore (p : PoolId) (k n : Nat) {ea : Word} (b : Word) (hea : ea.toNat < s.cfg.memSize) :
    (s.startStore p k n ea b).Shaped :=
  h.beginExec p k n (fun _ => rfl) fun _ _ h => .inr (by cases h; exact hea)

theorem markBroadcast (n : Nat) : (s.markBroadcast n).Shaped := h.updEntry_keep n fun _ => ⟨rfl, rfl⟩

theorem sendValue (n : Nat) (q : Tag) (v : Word) : (s.sendValue n q v).Shaped :=
  ((h.setRobValue q _).mapStations _).markBroadcast n

theorem scheduleWrite (n : Nat) {ea : Word} (hea : ea.toNat < s.cfg.memSize) : (s.scheduleWrite n ea).Shaped :=
  State.Shaped.retire
    ((h.setBusy hea).updEntry_keep n
      (f := fun t => { t with count := s.mc.probe s.cfg ea.toNat, writePending := true }) fun _ => ⟨rfl, rfl⟩) n

theorem performWrite (n : Nat) (ea : Word) {m : MemCtl} (hm : m.Shaped s.cfg) : (s.performWrite n ea m).Shaped := by
  have h1 := (h.updEntry_keep n (f := fun e => { e with count := 0 }) fun _ => ⟨rfl, rfl⟩).withMc hm
  exact (h1.clearBusy ea).updEntry_keep n fun _ => ⟨rfl, rfl⟩

/-- The address of a table entry is in range. -/
theorem ea_lt {n : Nat} {e : Entry} {ea : Word} (he : s.table[n]? = some e) (hea : e.ea = some ea) :
    ea.toNat < s.cfg.memSize :=
  h.ea e (List.mem_of_getElem? he) ea hea

/-- Serving an event keeps the shape. -/
theorem served {t : State} {i : Instr} {ev : Event} (hst : Served s i ev t) : t.Shaped := by
  cases hst with
  | idle _ => exact h
  | issued _ _ _ hc =>
    obtain ⟨hd, -⟩ := captureOf_some hc
    exact h.issue _ _ _ fun hx => hd ▸ destOf_ne_x0 hx i
  | raised _ _ _ => exact h.withStatus _
  | arith _ _ _ _ => exact h.startArith _ _ _ _ _
  | div0 _ _ _ _ => exact (h.reportDiv0 _).startArith _ _ _ _ _
  | load _ _ hr _ _ hm =>
    have hlt := inRange_lt hr
    exact h.startLoad _ _ _ _ _ hlt ((h.mc.setBusy hlt).read hlt hm)
  | store _ _ hr _ => exact h.startStore _ _ _ _ (inRange_lt hr)
  | counted _ _ => exact h.countDown _
  | ended _ _ _ => exact h.endExec _
  | loadEnded _ _ _ _ => exact (h.endExec _).clearBusy _
  | valueSent _ _ _ _ => exact h.sendValue _ _ _
  | markSent _ _ _ => exact (h.setRobValue _ _).markBroadcast _
  | toReg he _ hd _ _ =>
    refine (h.commitReg _ _ fun hx hr => ?_).retire _
    exact h.x0Dest hx _ (List.mem_of_getElem? (Option.join_eq_some_iff.1 he)) (hr ▸ hd)
  | toNone _ _ _ _ => exact h.retire _
  | toMem _ hu _ _ hea _ => exact h.scheduleWrite _ (h.ea_lt hu hea)
  | writeCounted _ _ => exact h.countDown _
  | written he _ hea _ hm => exact h.performWrite _ _ (h.mc.write (h.ea_lt he hea) hm)

end State.Shaped

/-- A prefetch tick of the machine replaces the controller by what `pfTick` answers; it does not raise (R254). -/
theorem prefetchTick_next {s t : State} (h : prefetchTick s = .next t) :
    ∃ m, s.mc.pfTick s.cfg s.cycle = .ok m () ∧ t = { s with mc := m } := by
  obtain ⟨m, hm⟩ := MemCtl.pfTick_answers s.cfg s.cycle s.mc
  unfold prefetchTick at h
  rw [hm] at h
  cases h
  exact ⟨m, hm, rfl⟩

theorem shaped_keptByParts : KeptByParts State.Shaped where
  served   := fun _ _ _ _ hs _ hst => hs.served (serve_served hs.event hst)
  prefetch := fun s t hs hst => by
    obtain ⟨m, hm, rfl⟩ := prefetchTick_next hst
    exact hs.withMc (hs.mc.pfTick hm)
  settled  := fun _ hs => hs.mapStations _
  counted  := fun _ hs => hs.withCycle _
  ended    := fun _ st hs => hs.withStatus st

/-- Settles O52: each operation of the state keeps its shape, so a step does. -/
theorem stepKeepsShape : Obligations.StepKeepsShape := by
  intro s t hs hst
  exact shaped_keptByParts.step hs hst

end Sys2Proof.Machine
end

section
/-! SUPPORT. One rule per operation for what is read after it: a reorder-buffer slot, a station's slot, a table entry. And
what serving an event leaves unchanged. -/

namespace Sys2Proof.Machine

/-! ## Reorder-buffer slots -/

theorem State.robAt_congr {s t : State} (h : t.rob = s.rob) (i : Tag) : t.robAt i = s.robAt i := by
  rw [State.robAt, State.robAt, h]

/-- A retirement empties the tail slot and no other. -/
theorem State.robAt_retire (s : State) (n : Nat) (i : Tag) :
    (s.retire n).robAt i = if i = s.robTail then none else s.robAt i := by
  rw [State.robAt, State.retire_rob, List.getElem?_set]
  by_cases h : i = s.robTail
  · subst h
    rw [if_pos rfl, if_pos rfl]
    split <;> rfl
  · rw [if_neg (Ne.symm h), if_neg h]
    rfl

/-- Writing a value writes it in its slot and in no other. -/
theorem State.robAt_setRobValue (s : State) (q : Tag) (v : RobValue) (i : Tag) :
    (s.setRobValue q v).robAt i = if i = q then (s.robAt i).map (fun e => { e with value := v }) else s.robAt i := by
  rw [State.robAt, State.setRobValue_rob, List.getElem?_modify, State.robAt]
  by_cases h : i = q
  · subst h
    simp only [if_true]
    cases s.rob[i]? <;> rfl
  · rw [if_neg h]
    simp only [Ne.symm h, if_false]
    cases s.rob[i]? <;> rfl

/-- An issue fills the head slot and no other. -/
theorem State.robAt_issue (s : State) (p : PoolId) (n k : Nat) (c : Captured) (h : s.robHead < s.rob.length) (i : Tag) :
    (s.issue p n k c).robAt i = if i = s.robHead then some ⟨n, c.dest, .unready⟩ else s.robAt i := by
  rw [State.robAt, State.issue_rob, List.getElem?_set]
  by_cases hi : i = s.robHead
  · subst hi
    rw [if_pos rfl, if_pos h, if_pos rfl]
    rfl
  · rw [if_neg (Ne.symm hi), if_neg hi]
    rfl

/-- A slot found for an instruction holds the entry of that instruction (40_scheduler.md R242). -/
theorem State.robSlotOf_some {s : State} {n : Nat} {q : Tag} (h : s.robSlotOf n = some q) :
    ∃ e, s.robAt q = some e ∧ e.instr = n := by
  obtain ⟨hlt, hp, -⟩ := List.findIdx?_eq_some_iff_getElem.1 h
  cases he : s.rob[q] with
  | none => simp [he] at hp
  | some e =>
    refine ⟨e, ?_, by simpa [he] using hp⟩
    rw [State.robAt, List.getElem?_eq_getElem hlt, he]
    rfl

/-- A slot is found for an instruction that has an entry. -/
theorem State.robSlotOf_of_robAt {s : State} {q : Tag} {e : RobEntry} (h : s.robAt q = some e) :
    ∃ q', s.robSlotOf e.instr = some q' := by
  cases hf : s.robSlotOf e.instr with
  | some q' => exact ⟨q', rfl⟩
  | none =>
    have := List.findIdx?_eq_none_iff.1 hf (some e) (List.mem_of_getElem? (Option.join_eq_some_iff.1 h))
    simp at this

/-! ## Stations -/

theorem State.slot_congr {s t : State} {p : PoolId} (h : t.pool p = s.pool p) (k : Nat) : t.slot p k = s.slot p k := by
  rw [State.slot, State.slot, h]

/-- A start empties its slot and no other (40_scheduler.md R259). -/
theorem State.slot_beginExec (s : State) (p q : PoolId) (k l n : Nat) (f : Entry → Entry) :
    (s.beginExec p k n f).slot q l = if q = p ∧ l = k then none else s.slot q l := by
  by_cases hq : q = p
  · subst hq
    rw [State.slot, State.beginExec_pool_same, List.getElem?_set]
    by_cases hl : l = k
    · subst hl
      simp only [and_self, if_true]
      split <;> rfl
    · rw [if_neg (Ne.symm hl), if_neg (fun h => hl h.2)]
      rfl
  · rw [if_neg (fun h => hq h.1)]
    exact State.slot_congr (State.beginExec_pool_other s p q hq k n f) l

theorem State.slot_startArith (s : State) (p q : PoolId) (k l n : Nat) (r : Word) (lat : Nat) :
    (s.startArith p k n r lat).slot q l = if q = p ∧ l = k then none else s.slot q l :=
  State.slot_beginExec s p q k l n _

/-- An issue fills its slot and no other (40_scheduler.md R292). -/
theorem State.slot_issue (s : State) (p q : PoolId) (n k l : Nat) (c : Captured) (h : k < (s.pool p).length) :
    (s.issue p n k c).slot q l =
      if q = p ∧ l = k then some ⟨n, s.robHead, c.j, c.k, c.imm, false⟩ else s.slot q l := by
  by_cases hq : q = p
  · subst hq
    rw [State.slot, State.issue_pool_same, List.getElem?_set]
    by_cases hl : l = k
    · subst hl
      simp only [and_self, if_true, if_pos h]
      rfl
    · rw [if_neg (Ne.symm hl), if_neg (fun h => hl h.2)]
      rfl
  · rw [if_neg (fun h => hq h.1)]
    exact State.slot_congr (State.issue_pool_other s p q hq n k c) l

/-- A change of every live station changes each in its slot. -/
theorem State.slot_mapStations (s : State) (f : RsEntry → RsEntry) (q : PoolId) (l : Nat) :
    (s.mapStations f).slot q l = (s.slot q l).map f := by
  rw [State.slot, State.pool_mapStations, Pool.mapLive, List.getElem?_map, State.slot]
  cases (s.pool q)[l]? <;> rfl

/-- A free slot is a slot of its pool, and it is empty (10_state.md R59). -/
theorem State.freeSlot_some {s : State} {p : PoolId} {k : Nat} (h : s.freeSlot p = some k) :
    k < (s.pool p).length ∧ s.slot p k = none := by
  obtain ⟨hlt, hp, -⟩ := List.findIdx?_eq_some_iff_getElem.1 h
  refine ⟨hlt, ?_⟩
  rw [State.slot, List.getElem?_eq_getElem hlt]
  exact Option.isNone_iff_eq_none.1 hp

/-! ## Table entries -/

/-- The dispatch pointer is at the first entry not started (10_state.md R33). -/
theorem State.dptr_some {s : State} {n : Nat} (h : s.dptr = some n) :
    ∃ e, s.table[n]? = some e ∧ e.state = .notStarted ∧
      ∀ (m : Nat) (d : Entry), m < n → s.table[m]? = some d → d.state ≠ .notStarted := by
  obtain ⟨hlt, hp, hmin⟩ := List.findIdx?_eq_some_iff_getElem.1 h
  refine ⟨s.table[n], List.getElem?_eq_getElem hlt, by simpa using hp, fun m d hm hd hs => ?_⟩
  obtain ⟨hm', rfl⟩ := List.getElem?_eq_some_iff.1 hd
  exact absurd (beq_iff_eq.2 hs) (by simpa using hmin m hm)

theorem busWinnerFrom_some (best : Option (Nat × Nat)) (n : Nat) (ts : List Entry) {r m : Nat}
    (h : busWinnerFrom best n ts = some (r, m)) :
    best = some (r, m) ∨ ∃ k t, ts[k]? = some t ∧ t.state = .executeEnd ∧ m = n + k := by
  induction ts generalizing best n with
  | nil => exact .inl h
  | cons t ts ih =>
    have hrest {b : Option (Nat × Nat)} (h : busWinnerFrom b (n + 1) ts = some (r, m)) :
        b = some (r, m) ∨ ∃ k u, (t :: ts)[k]? = some u ∧ u.state = .executeEnd ∧ m = n + k := by
      rcases ih b (n + 1) h with hb | ⟨k, u, hu, hs, hm⟩
      · exact .inl hb
      · exact .inr ⟨k + 1, u, by simpa using hu, hs, by omega⟩
    unfold busWinnerFrom at h
    split at h
    · rename_i hs
      have hhere {r' : Nat} (h : busWinnerFrom (some (r', n)) (n + 1) ts = some (r, m)) :
          best = some (r, m) ∨ ∃ k u, (t :: ts)[k]? = some u ∧ u.state = .executeEnd ∧ m = n + k := by
        rcases hrest h with hb | hb
        · cases hb
          exact .inr ⟨0, t, rfl, hs, rfl⟩
        · exact .inr hb
      split at h
      · exact hhere h
      · split at h
        · exact hhere h
        · exact hrest h
    · exact hrest h

/-- The winner of the bus is at the end of its execution (40_scheduler.md R240). -/
theorem State.busWinner_some {s : State} {n : Nat} (h : s.busWinner = some n) :
    ∃ t, s.table[n]? = some t ∧ t.state = .executeEnd := by
  obtain ⟨⟨r, m⟩, hb, rfl⟩ := Option.map_eq_some_iff.1 h
  rcases busWinnerFrom_some none 0 s.table hb with hn | ⟨k, t, ht, hs, hm⟩
  · cases hn
  · exact ⟨t, by rw [hm, Nat.zero_add]; exact ht, hs⟩

/-! ## What serving an event leaves unchanged -/

namespace Served
variable {s t : State} {i : Instr} {ev : Event} (h : Served s i ev t)
include h

theorem cfg_eq : t.cfg = s.cfg := by cases h <;> simp
theorem decodeErrors_eq : t.decodeErrors = s.decodeErrors := by cases h <;> simp
theorem cycle_eq : t.cycle = s.cycle := by cases h <;> simp
theorem event_eq : t.event = s.event := by cases h <;> simp
theorem table_length : t.table.length = s.table.length := by cases h <;> simp

/-- The instructions of the table stay (10_state.md R37). -/
theorem ins_eq : t.table.map Entry.ins = s.table.map Entry.ins := by
  have hmod (l : List Entry) (n : Nat) (f : Entry → Entry) (hf : ∀ e, (f e).ins = e.ins) :
      (l.modify n f).map Entry.ins = l.map Entry.ins := by
    apply List.ext_getElem?
    intro m
    rw [List.getElem?_map, List.getElem?_map, List.getElem?_modify]
    cases l[m]? with
    | none => rfl
    | some e =>
      by_cases hm : n = m
      · simp [hm, hf]
      · simp [hm]
  cases h <;> simp [hmod]

/-- Registers and the tail change only at a commit (10_state.md R32, R45). -/
theorem regs_eq (hc : ev ≠ .commit) : t.x = s.x ∧ t.robTail = s.robTail := by
  cases h with
  | toReg _ _ _ _ _ | toNone _ _ _ _ | toMem _ _ _ _ _ _ => exact absurd rfl hc
  | _ => simp

theorem link_eq (hc : ev ≠ .commit) (hd : ev ≠ .dispatch) : t.link = s.link := by
  cases h with
  | toReg _ _ _ _ _ | toNone _ _ _ _ | toMem _ _ _ _ _ _ => exact absurd rfl hc
  | issued _ _ _ _ => exact absurd rfl hd
  | _ => simp

theorem robHead_eq (hd : ev ≠ .dispatch) : t.robHead = s.robHead := by
  cases h with
  | issued _ _ _ _ => exact absurd rfl hd
  | _ => simp

theorem rob_eq (hc : ev ≠ .commit) (hd : ev ≠ .dispatch) (hb : ∀ n, ev ≠ .broadcast n) : t.rob = s.rob := by
  cases h with
  | toReg _ _ _ _ _ | toNone _ _ _ _ | toMem _ _ _ _ _ _ => exact absurd rfl hc
  | issued _ _ _ _ => exact absurd rfl hd
  | valueSent _ _ _ _ | markSent _ _ _ => exact absurd rfl (hb _)
  | _ => simp

theorem pools_eq (hd : ev ≠ .dispatch) (hb : ∀ n, ev ≠ .broadcast n) (hs : ∀ p k, ev ≠ .start p k) :
    t.addPool = s.addPool ∧ t.mulPool = s.mulPool ∧ t.lsq = s.lsq := by
  cases h with
  | issued _ _ _ _ => exact absurd rfl hd
  | valueSent _ _ _ _ | markSent _ _ _ => exact absurd rfl (hb _)
  | raised _ _ _ | arith _ _ _ _ | div0 _ _ _ _ | load _ _ _ _ _ _ | store _ _ _ _ => exact absurd rfl (hs _ _)
  | _ => simp

/-- A dispatch and a broadcast leave the controller and the status. -/
theorem ctl_eq (he : ev = .dispatch ∨ ∃ n, ev = .broadcast n) : t.mc = s.mc ∧ t.status = s.status := by
  cases h with
  | idle _ | issued _ _ _ _ | valueSent _ _ _ _ | markSent _ _ _ => simp
  | _ => rcases he with he | ⟨_, he⟩ <;> cases he

end Served

end Sys2Proof.Machine
end

section
/-! SUPPORT and PROOF. Links name producers (10_state.md R86 (a)) after every step. -/

namespace Sys2Proof.Machine

/-- A reorder buffer that is not full has an empty head slot (10_state.md R49). -/
theorem State.robAt_head_of_not_full {s : State} (h : s.robFull = false) : s.robAt s.robHead = none := by
  simpa [State.robFull] using h

theorem State.Shaped.robHead_lt {s : State} (h : s.Shaped) : s.robHead < s.rob.length := h.rob.symm ▸ h.robHead

namespace State.LinksNameProducers
variable {s : State} (h : s.LinksNameProducers)
include h

theorem congr {t : State} (hl : t.link = s.link) (hr : t.rob = s.rob) : t.LinksNameProducers := by
  intro r q hq
  rw [hl] at hq
  rw [State.robAt_congr hr]
  exact h r q hq

/-- The new link names the issued entry; the older ones do not name the head slot, which was empty. -/
theorem issue (hs : s.Shaped) (hfull : s.robFull = false) (p : PoolId) (n k : Nat) (c : Captured) :
    (s.issue p n k c).LinksNameProducers := by
  have old (r : Nat) (q : Tag) (hq : s.link[r]? = some (some q)) :
      ∃ e, (s.issue p n k c).robAt q = some e ∧ ∃ i : RegIdx, i.toNat = r ∧ e.dest = .reg i := by
    obtain ⟨e, he, hd⟩ := h r q hq
    have hne : q ≠ s.robHead := by
      rintro rfl
      rw [State.robAt_head_of_not_full hfull] at he
      cases he
    exact ⟨e, by rw [State.robAt_issue s p n k c hs.robHead_lt, if_neg hne]; exact he, hd⟩
  intro r q hq
  rw [State.issue_link] at hq
  unfold renamed at hq
  split at hq
  · rename_i x hx
    rw [List.getElem?_set] at hq
    split at hq
    · rename_i hr
      split at hq
      · cases hq
        exact ⟨_, by rw [State.robAt_issue s p n k c hs.robHead_lt, if_pos rfl], x, hr, hx⟩
      · cases hq
    · exact old r q hq
  · exact old r q hq
  · exact old r q hq

theorem setRobValue (q : Tag) (v : RobValue) : (s.setRobValue q v).LinksNameProducers := by
  intro r t ht
  obtain ⟨e, he, i, hi, hd⟩ := h r t ht
  rw [State.robAt_setRobValue, he]
  split
  · exact ⟨_, rfl, i, hi, hd⟩
  · exact ⟨_, rfl, i, hi, hd⟩

/-- Freeing the tail keeps the links right when none names the tail. -/
theorem retire (n : Nat) (hno : ∀ r : Nat, s.link[r]? ≠ some (some s.robTail)) : (s.retire n).LinksNameProducers := by
  intro r q hq
  have hne : q ≠ s.robTail := by
    rintro rfl
    exact hno r hq
  rw [State.robAt_retire, if_neg hne]
  exact h r q hq

/-- The links that name a slot are those of the register its entry writes. -/
theorem link_of_dest {e : RobEntry} {q : Tag} (he : s.robAt q = some e) {r : Nat} (hr : s.link[r]? = some (some q)) :
    ∃ i : RegIdx, i.toNat = r ∧ e.dest = .reg i := by
  obtain ⟨e', he', hd⟩ := h r q hr
  rw [he] at he'
  cases he'
  exact hd

/-- A commit to a register clears its link if it names the tail, and no other link names the tail (40_scheduler.md R232). -/
theorem commitReg_retire {e : RobEntry} {x : RegIdx} (w : Word) (n : Nat) (he : s.robAt s.robTail = some e)
    (hd : e.dest = .reg x) : ((s.commitReg x w s.robTail).retire n).LinksNameProducers := by
  have hsub : ∀ (r : Nat) (q : Tag), (s.commitReg x w s.robTail).link[r]? = some (some q) →
      s.link[r]? = some (some q) ∧ q ≠ s.robTail := by
    intro r q hq
    rw [State.commitReg_link] at hq
    have hold (hr : s.link[r]? = some (some s.robTail)) : r = x.toNat := by
      obtain ⟨i, hi, hd'⟩ := h.link_of_dest he hr
      rw [hd] at hd'
      cases hd'
      exact hi.symm
    split at hq
    · rw [List.getElem?_set] at hq
      split at hq
      · split at hq <;> cases hq
      · rename_i hne
        refine ⟨hq, ?_⟩
        rintro rfl
        exact hne (hold hq).symm
    · rename_i hno
      refine ⟨hq, ?_⟩
      rintro rfl
      exact hno (hold hq ▸ hq)
  have hcommit : (s.commitReg x w s.robTail).LinksNameProducers := fun r q hq => h r q (hsub r q hq).1
  exact hcommit.retire n fun r hr => (hsub r _ hr).2 rfl

/-- A commit to no register frees a slot that no link names. -/
theorem retire_of_dest {e : RobEntry} (n : Nat) (he : s.robAt s.robTail = some e) (hd : ∀ i, e.dest ≠ .reg i) :
    (s.retire n).LinksNameProducers :=
  h.retire n fun r hr => by
    obtain ⟨i, -, hi⟩ := h.link_of_dest he hr
    exact hd i hi

/-- Serving an event keeps the links naming producers. -/
theorem served {t : State} {i : Instr} {ev : Event} (hs : s.Shaped) (hst : Served s i ev t) : t.LinksNameProducers := by
  cases ev with
  | dispatch =>
    cases hst with
    | idle _ => exact h
    | issued _ _ hfull _ => exact h.issue hs hfull _ _ _ _
  | broadcast n =>
    cases hst with
    | idle _ => exact h
    | valueSent _ _ _ _ => exact (h.setRobValue _ _).congr rfl rfl
    | markSent _ _ _ => exact (h.setRobValue _ _).congr rfl rfl
  | commit =>
    cases hst with
    | idle _ => exact h
    | toReg he _ hd _ _ => exact h.commitReg_retire _ _ he hd
    | toNone he _ hd _ => exact h.retire_of_dest _ he (hd ▸ nofun)
    | @toMem e u ea he _ hd _ _ _ =>
      have hbusy : State.LinksNameProducers ((s.setBusy ea).updEntry e.instr
          (fun t => { t with count := s.mc.probe s.cfg ea.toNat, writePending := true })) := h.congr rfl rfl
      exact hbusy.retire_of_dest _ he (hd ▸ nofun)
  | start _ _ | countdown _ | storeTick _ =>
    exact h.congr (hst.link_eq nofun nofun) (hst.rob_eq nofun nofun nofun)

end State.LinksNameProducers

/-- The shape and the links together, part by part of a step. -/
theorem links_keptByParts : KeptByParts (fun s => s.Shaped ∧ s.LinksNameProducers) where
  served   := fun ev i s t hs hev hst =>
    ⟨shaped_keptByParts.served ev i s t hs.1 hev hst, hs.2.served hs.1 (serve_served hs.1.event hst)⟩
  prefetch := fun s t hs hst => by
    refine ⟨shaped_keptByParts.prefetch s t hs.1 hst, ?_⟩
    obtain ⟨m, -, rfl⟩ := prefetchTick_next hst
    exact hs.2.congr rfl rfl
  settled  := fun s hs => ⟨shaped_keptByParts.settled s hs.1, hs.2.congr rfl rfl⟩
  counted  := fun s hs => ⟨shaped_keptByParts.counted s hs.1, hs.2.congr rfl rfl⟩
  ended    := fun s st hs => ⟨shaped_keptByParts.ended s st hs.1, hs.2.congr rfl rfl⟩

/-- Settles O53: a link changes only with the reorder-buffer slot it names, at dispatch and at commit. -/
theorem stepKeepsLinksNamingProducers : Obligations.StepKeepsLinksNamingProducers := by
  intro s t hs hl hst
  exact (links_keptByParts.step ⟨hs, hl⟩ hst).2

end Sys2Proof.Machine
end

section
/-! SUPPORT. The agreement of table, reorder buffer and pools (`State.Consistent`) is kept when one entry of the table moves
on: by a tick of a countdown or the end of an execution or of a store's write; by a start; by a broadcast; by a commit; by an
issue. -/

namespace Sys2Proof.Machine

/-! ## One entry changes -/

/-- From `s` to `t` the table changes at entry `n` alone, from `e` to `e'`, which is the same instruction. -/
structure State.OneEntry (s t : State) (n : Nat) (e e' : Entry) : Prop where
  cfg    : t.cfg = s.cfg
  before : s.table[n]? = some e
  after  : ∀ m, t.table[m]? = if m = n then some e' else s.table[m]?
  ins    : e'.ins = e.ins

/-- An entry's update changes that entry alone. -/
theorem getElem?_modify_at {l : List Entry} {n : Nat} {e : Entry} (f : Entry → Entry) (h : l[n]? = some e) (m : Nat) :
    (l.modify n f)[m]? = if m = n then some (f e) else l[m]? := by
  rw [List.getElem?_modify]
  by_cases hm : m = n
  · subst hm
    rw [h, if_pos rfl]
    simp
  · rw [if_neg hm]
    simp [Ne.symm hm]

namespace State.OneEntry
variable {s t : State} {n : Nat} {e e' : Entry} (h : s.OneEntry t n e e')
include h

theorem at_n : t.table[n]? = some e' := by rw [h.after, if_pos rfl]

theorem other {m : Nat} (hm : m ≠ n) : t.table[m]? = s.table[m]? := by rw [h.after, if_neg hm]

/-- What an entry after the change was before it. -/
theorem was {m : Nat} {f : Entry} (hf : t.table[m]? = some f) :
    (m = n ∧ f = e') ∨ (m ≠ n ∧ s.table[m]? = some f) := by
  rw [h.after] at hf
  split at hf
  · cases hf
    exact .inl ⟨by assumption, rfl⟩
  · exact .inr ⟨by assumption, hf⟩

/-- Every entry stays consistent when the new one is. -/
theorem entries (hs : ∀ f ∈ s.table, f.Consistent) (he' : e'.Consistent) : ∀ f ∈ t.table, f.Consistent := by
  intro f hf
  obtain ⟨m, hm⟩ := List.mem_iff_getElem?.1 hf
  rcases h.was hm with ⟨-, rfl⟩ | ⟨-, hf⟩
  · exact he'
  · exact hs f (List.mem_of_getElem? hf)

/-- Dispatch stays in program order when the entry has started before and after. -/
theorem inOrder (hs : s.Consistent) (he : e.state = .notStarted ↔ e'.state = .notStarted) (i j : Nat) (f g : Entry)
    (hij : i ≤ j) (hf : t.table[i]? = some f) (hg : t.table[j]? = some g) (hfs : f.state = .notStarted) :
    g.state = .notStarted := by
  have old {m : Nat} {f : Entry} (hf : t.table[m]? = some f) :
      ∃ d, s.table[m]? = some d ∧ (d.state = .notStarted ↔ f.state = .notStarted) := by
    rcases h.was hf with ⟨rfl, rfl⟩ | ⟨-, hf⟩
    · exact ⟨e, h.before, he⟩
    · exact ⟨f, hf, Iff.rfl⟩
  obtain ⟨d, hd, hdf⟩ := old hf
  obtain ⟨c, hc, hcg⟩ := old hg
  exact hcg.1 (hs.inOrder i j d c hij hd hc (hdf.2 hfs))

end State.OneEntry

/-- The clauses of `State.Consistent` that a reorder-buffer entry `r` in slot `i` states of its instruction's entry `f`. -/
structure RobEntry.Fits (cfg : Config) (r : RobEntry) (i : Tag) (f : Entry) : Prop where
  tag      : f.tag = some i
  inFlight : f.state.inFlight = true
  dest     : r.dest = destOf cfg f.ins
  unready  : r.value = .unready ↔ f.state ≠ .broadcast
  noValue  : r.value = .noValue → f.ins.op = .sw
  ready    : (∃ w, r.value = .ready w) → f.ins.op ≠ .sw

theorem State.Consistent.fits {s : State} (h : s.Consistent) {i : Tag} {r : RobEntry} (hr : s.robAt i = some r) :
    ∃ f, s.table[r.instr]? = some f ∧ r.Fits s.cfg i f := by
  obtain ⟨f, hf, h1, h2, h3, h4, h5, h6⟩ := h.robEntry i r hr
  exact ⟨f, hf, h1, h2, h3, h4, h5, h6⟩

/-- The entry that a reorder-buffer entry names fits it. -/
theorem State.Consistent.fits_at {s : State} (h : s.Consistent) {i : Tag} {r : RobEntry} (hr : s.robAt i = some r)
    {f : Entry} (hf : s.table[r.instr]? = some f) : r.Fits s.cfg i f := by
  obtain ⟨f', hf', hfit⟩ := h.fits hr
  rw [hf] at hf'
  cases hf'
  exact hfit

/-- An instruction in flight has one reorder-buffer entry. -/
theorem State.Consistent.robAt_unique {s : State} (h : s.Consistent) {i j : Tag} {r q : RobEntry}
    (hr : s.robAt i = some r) (hq : s.robAt j = some q) (hn : r.instr = q.instr) : i = j := by
  obtain ⟨f, hf, hfit⟩ := h.fits hr
  have := (h.fits_at hq (hn ▸ hf)).tag
  rw [hfit.tag] at this
  exact Option.some.inj this

/-- The entry a station names waits, belongs to the pool and has the station's tag. -/
theorem State.Consistent.station_at {s : State} (h : s.Consistent) {p : PoolId} {k : Nat} {st : RsEntry}
    (hst : s.slot p k = some st) {f : Entry} (hf : s.table[st.instr]? = some f) :
    f.state = .rsWait ∧ poolOf f.ins.op = p ∧ f.tag = some st.dtag := by
  obtain ⟨f', hf', hs⟩ := h.station p k st hst
  rw [hf] at hf'
  cases hf'
  exact hs

/-! ## The five ways an entry moves on -/

/-- Two lifecycle states that the reorder buffer and the pools do not tell apart. -/
structure LifeState.Alike (a b : LifeState) : Prop where
  fresh     : a = .notStarted ↔ b = .notStarted
  waiting   : a = .rsWait ↔ b = .rsWait
  inFlight  : a.inFlight = b.inFlight
  broadcast : a = .broadcast ↔ b = .broadcast

theorem LifeState.Alike.refl (a : LifeState) : a.Alike a := ⟨Iff.rfl, Iff.rfl, rfl, Iff.rfl⟩

section
variable {s t : State} {n : Nat} {e e' : Entry} (h : s.Consistent) (ht : s.OneEntry t n e e')
include h ht

/-- An entry moves on where neither the reorder buffer nor a pool is concerned. -/
theorem State.Consistent.tweak (hrob : ∀ i, t.robAt i = s.robAt i) (hslot : ∀ p k, t.slot p k = s.slot p k)
    (htag : e'.tag = e.tag) (hlife : e.state.Alike e'.state) (he' : e'.Consistent) : t.Consistent where
  entry   := ht.entries h.entry he'
  inOrder := ht.inOrder h hlife.fresh
  robEntry := by
    intro i r hr
    rw [hrob] at hr
    obtain ⟨f, hf, hfit⟩ := h.fits hr
    rw [ht.cfg]
    by_cases hm : r.instr = n
    · rw [hm, ht.before] at hf
      cases hf
      refine ⟨e', hm ▸ ht.at_n, htag.trans hfit.tag, hlife.inFlight ▸ hfit.inFlight, ht.ins ▸ hfit.dest, ?_,
        ht.ins ▸ hfit.noValue, ht.ins ▸ hfit.ready⟩
      exact hfit.unready.trans (not_congr hlife.broadcast)
    · exact ⟨f, (ht.other hm).trans hf, hfit.tag, hfit.inFlight, hfit.dest, hfit.unready, hfit.noValue, hfit.ready⟩
  inFlight := by
    intro m f hf hs
    rcases ht.was hf with ⟨rfl, rfl⟩ | ⟨-, hf⟩
    · obtain ⟨i, r, hi, hr, hn⟩ := h.inFlight m e ht.before (hlife.inFlight ▸ hs)
      exact ⟨i, r, htag.trans hi, (hrob i).trans hr, hn⟩
    · obtain ⟨i, r, hi, hr, hn⟩ := h.inFlight m f hf hs
      exact ⟨i, r, hi, (hrob i).trans hr, hn⟩
  station := by
    intro p k st hst
    rw [hslot] at hst
    obtain ⟨f, hf, hs, hp, hg⟩ := h.station p k st hst
    by_cases hm : st.instr = n
    · rw [hm, ht.before] at hf
      cases hf
      exact ⟨e', hm ▸ ht.at_n, hlife.waiting.1 hs, ht.ins ▸ hp, htag.trans hg⟩
    · exact ⟨f, (ht.other hm).trans hf, hs, hp, hg⟩
  waiting := by
    intro m f hf hs
    rcases ht.was hf with ⟨rfl, rfl⟩ | ⟨-, hf⟩
    · obtain ⟨k, st, hk, hn⟩ := h.waiting m e ht.before (hlife.waiting.2 hs)
      exact ⟨k, st, by rw [hslot, ht.ins]; exact hk, hn⟩
    · obtain ⟨k, st, hk, hn⟩ := h.waiting m f hf hs
      exact ⟨k, st, (hslot _ k).trans hk, hn⟩
  oneStation := fun p k l a b ha hb => h.oneStation p k l a b ((hslot p k).symm.trans ha) ((hslot p l).symm.trans hb)
  operands := by
    intro p k st i hst hw
    rw [hslot] at hst
    rw [hrob]
    exact h.operands p k st i hst hw

/-- A start: the entry's one station leaves its slot (40_scheduler.md R259). -/
theorem State.Consistent.start {p : PoolId} {k : Nat} {st : RsEntry} (hst : s.slot p k = some st) (hn : st.instr = n)
    (hrob : ∀ i, t.robAt i = s.robAt i) (hslot : ∀ q l, t.slot q l = if q = p ∧ l = k then none else s.slot q l)
    (htag : e'.tag = e.tag) (hlife : e'.state = .executeStart) (he' : e'.Consistent) : t.Consistent := by
  obtain ⟨hwait, hpool, -⟩ := h.station_at hst (hn ▸ ht.before)
  have hsub {q : PoolId} {l : Nat} {a : RsEntry} (ha : t.slot q l = some a) :
      s.slot q l = some a ∧ ¬(q = p ∧ l = k) := by
    rw [hslot] at ha
    split at ha
    · cases ha
    · exact ⟨ha, by assumption⟩
  exact
    { entry := ht.entries h.entry he'
      inOrder := ht.inOrder h (by rw [hwait, hlife]; decide)
      robEntry := by
        intro i r hr
        rw [hrob] at hr
        obtain ⟨f, hf, hfit⟩ := h.fits hr
        rw [ht.cfg]
        by_cases hm : r.instr = n
        · rw [hm, ht.before] at hf
          cases hf
          refine ⟨e', hm ▸ ht.at_n, htag.trans hfit.tag, by rw [hlife]; rfl, ht.ins ▸ hfit.dest, ?_,
            ht.ins ▸ hfit.noValue, ht.ins ▸ hfit.ready⟩
          rw [hfit.unready, hwait, hlife]
          decide
        · exact ⟨f, (ht.other hm).trans hf, hfit.tag, hfit.inFlight, hfit.dest, hfit.unready, hfit.noValue, hfit.ready⟩
      inFlight := by
        intro m f hf hs
        rcases ht.was hf with ⟨rfl, rfl⟩ | ⟨-, hf⟩
        · obtain ⟨i, r, hi, hr, hn⟩ := h.inFlight m e ht.before (by rw [hwait]; rfl)
          exact ⟨i, r, htag.trans hi, (hrob i).trans hr, hn⟩
        · obtain ⟨i, r, hi, hr, hn⟩ := h.inFlight m f hf hs
          exact ⟨i, r, hi, (hrob i).trans hr, hn⟩
      station := by
        intro q l a ha
        obtain ⟨ha, hne⟩ := hsub ha
        obtain ⟨f, hf, hs, hq, hg⟩ := h.station q l a ha
        have hm : a.instr ≠ n := by
          intro hm
          rw [hm, ht.before] at hf
          cases hf
          have hqp : q = p := hq.symm.trans hpool
          subst hqp
          exact hne ⟨rfl, h.oneStation q l k a st ha hst (hm.trans hn.symm)⟩
        exact ⟨f, (ht.other hm).trans hf, hs, hq, hg⟩
      waiting := by
        intro m f hf hs
        rcases ht.was hf with ⟨rfl, rfl⟩ | ⟨hm, hf⟩
        · rw [hlife] at hs
          cases hs
        · obtain ⟨l, a, hl, ha⟩ := h.waiting m f hf hs
          refine ⟨l, a, ?_, ha⟩
          rw [hslot, if_neg]
          · exact hl
          · rintro ⟨hq, rfl⟩
            rw [hq, hst] at hl
            cases hl
            exact hm (ha.symm.trans hn)
      oneStation := fun q l l' a b ha hb => h.oneStation q l l' a b (hsub ha).1 (hsub hb).1
      operands := by
        intro q l a i ha hw
        rw [hrob]
        exact h.operands q l a i (hsub ha).1 hw }

/-- A broadcast: the reorder-buffer entry of the instruction gets a value, and no operand waits on its slot any more
(40_scheduler.md R243, R244). -/
theorem State.Consistent.send {q : Tag} {r : RobEntry} {v : RobValue} {g : RsEntry → RsEntry}
    (hq : s.robAt q = some r) (hn : r.instr = n)
    (hrob : ∀ i, t.robAt i = if i = q then (s.robAt i).map (fun e => { e with value := v }) else s.robAt i)
    (hslot : ∀ p k, t.slot p k = (s.slot p k).map g)
    (hg : ∀ a, (g a).instr = a.instr ∧ (g a).dtag = a.dtag)
    (hwait : ∀ (p : PoolId) (k : Nat) (a : RsEntry) (i : Tag), s.slot p k = some a →
      ((g a).j = .wait i ∨ (g a).k = .wait i) → (a.j = .wait i ∨ a.k = .wait i) ∧ i ≠ q)
    (hv : v ≠ .unready) (hno : v = .noValue → e.ins.op = .sw) (hready : (∃ w, v = .ready w) → e.ins.op ≠ .sw)
    (htag : e'.tag = e.tag) (hend : e.state = .executeEnd) (hlife : e'.state = .broadcast) (he' : e'.Consistent) :
    t.Consistent := by
  have hfit := h.fits_at hq (hn ▸ ht.before)
  have hsub {p : PoolId} {k : Nat} {b : RsEntry} (hb : t.slot p k = some b) : ∃ a, s.slot p k = some a ∧ b = g a := by
    rw [hslot] at hb
    obtain ⟨a, ha, rfl⟩ := Option.map_eq_some_iff.1 hb
    exact ⟨a, ha, rfl⟩
  exact
    { entry := ht.entries h.entry he'
      inOrder := ht.inOrder h (by rw [hend, hlife]; decide)
      robEntry := by
        intro i r' hr'
        rw [ht.cfg]
        rw [hrob] at hr'
        split at hr'
        · rename_i hi
          subst hi
          rw [hq] at hr'
          cases hr'
          refine ⟨e', hn ▸ ht.at_n, htag.trans hfit.tag, by rw [hlife]; rfl, ht.ins ▸ hfit.dest, ?_, ht.ins ▸ hno,
            ht.ins ▸ hready⟩
          rw [hlife]
          exact ⟨fun e => absurd e hv, fun e => absurd rfl e⟩
        · rename_i hi
          obtain ⟨f, hf, hfit'⟩ := h.fits hr'
          have hm : r'.instr ≠ n := fun hm => hi (h.robAt_unique hr' hq (hm.trans hn.symm))
          exact ⟨f, (ht.other hm).trans hf, hfit'.tag, hfit'.inFlight, hfit'.dest, hfit'.unready, hfit'.noValue,
            hfit'.ready⟩
      inFlight := by
        have hkeep {i : Tag} {r' : RobEntry} (hr' : s.robAt i = some r') :
            ∃ r'', t.robAt i = some r'' ∧ r''.instr = r'.instr := by
          rw [hrob]
          split
          · exact ⟨{ r' with value := v }, by rw [hr']; rfl, rfl⟩
          · exact ⟨r', hr', rfl⟩
        intro m f hf hs
        have hold : ∃ d, s.table[m]? = some d ∧ d.state.inFlight = true ∧ f.tag = d.tag := by
          rcases ht.was hf with ⟨rfl, rfl⟩ | ⟨-, hf⟩
          · exact ⟨e, ht.before, by rw [hend]; rfl, htag⟩
          · exact ⟨f, hf, hs, rfl⟩
        obtain ⟨d, hd, hds, hdt⟩ := hold
        obtain ⟨i, r', hi, hr', hn'⟩ := h.inFlight m d hd hds
        obtain ⟨r'', hr'', hn''⟩ := hkeep hr'
        exact ⟨i, r'', hdt.trans hi, hr'', hn''.trans hn'⟩
      station := by
        intro p k b hb
        obtain ⟨a, ha, rfl⟩ := hsub hb
        obtain ⟨f, hf, hs, hp, hd⟩ := h.station p k a ha
        obtain ⟨hi, hdt⟩ := hg a
        have hm : a.instr ≠ n := by
          intro hm
          rw [hm, ht.before] at hf
          cases hf
          rw [hend] at hs
          cases hs
        exact ⟨f, by rw [hi, ht.other hm]; exact hf, hs, hp, hdt ▸ hd⟩
      waiting := by
        intro m f hf hs
        rcases ht.was hf with ⟨rfl, rfl⟩ | ⟨-, hf⟩
        · rw [hlife] at hs
          cases hs
        · obtain ⟨k, a, hk, ha⟩ := h.waiting m f hf hs
          exact ⟨k, g a, by rw [hslot, hk]; rfl, (hg a).1.trans ha⟩
      oneStation := by
        intro p k l b b' hb hb' hbb
        obtain ⟨a, ha, rfl⟩ := hsub hb
        obtain ⟨a', ha', rfl⟩ := hsub hb'
        exact h.oneStation p k l a a' ha ha' ((hg a).1.symm.trans (hbb.trans (hg a').1))
      operands := by
        intro p k b i hb hw
        obtain ⟨a, ha, rfl⟩ := hsub hb
        obtain ⟨hw, hi⟩ := hwait p k a i ha hw
        rw [hrob, if_neg hi]
        exact h.operands p k a i ha hw }

/-- A commit: the tail slot, whose entry has broadcast, is freed (40_scheduler.md R235). -/
theorem State.Consistent.commit {q : Tag} {r : RobEntry} (hq : s.robAt q = some r) (hn : r.instr = n)
    (hrob : ∀ i, t.robAt i = if i = q then none else s.robAt i) (hslot : ∀ p k, t.slot p k = s.slot p k)
    (hv : r.value ≠ .unready) (hlife : e'.state = .commit) (he' : e'.Consistent) : t.Consistent := by
  have hfit := h.fits_at hq (hn ▸ ht.before)
  have hsent : e.state = .broadcast := by
    by_contra hne
    exact hv (hfit.unready.2 hne)
  exact
    { entry := ht.entries h.entry he'
      inOrder := ht.inOrder h (by rw [hsent, hlife]; decide)
      robEntry := by
        intro i r' hr'
        rw [hrob] at hr'
        split at hr'
        · cases hr'
        · rename_i hi
          obtain ⟨f, hf, hfit'⟩ := h.fits hr'
          have hm : r'.instr ≠ n := fun hm => hi (h.robAt_unique hr' hq (hm.trans hn.symm))
          rw [ht.cfg]
          exact ⟨f, (ht.other hm).trans hf, hfit'.tag, hfit'.inFlight, hfit'.dest, hfit'.unready, hfit'.noValue,
            hfit'.ready⟩
      inFlight := by
        intro m f hf hs
        rcases ht.was hf with ⟨rfl, rfl⟩ | ⟨hm, hf⟩
        · rw [hlife] at hs
          cases hs
        · obtain ⟨i, r', hi, hr', hn'⟩ := h.inFlight m f hf hs
          refine ⟨i, r', hi, ?_, hn'⟩
          rw [hrob, if_neg]
          · exact hr'
          · rintro rfl
            rw [hq] at hr'
            cases hr'
            exact hm (hn'.symm.trans hn)
      station := by
        intro p k a ha
        rw [hslot] at ha
        obtain ⟨f, hf, hs, hp, hd⟩ := h.station p k a ha
        have hm : a.instr ≠ n := by
          intro hm
          rw [hm, ht.before] at hf
          cases hf
          rw [hsent] at hs
          cases hs
        exact ⟨f, (ht.other hm).trans hf, hs, hp, hd⟩
      waiting := by
        intro m f hf hs
        rcases ht.was hf with ⟨rfl, rfl⟩ | ⟨-, hf⟩
        · rw [hlife] at hs
          cases hs
        · obtain ⟨k, a, hk, ha⟩ := h.waiting m f hf hs
          exact ⟨k, a, (hslot _ k).trans hk, ha⟩
      oneStation := fun p k l a b ha hb =>
        h.oneStation p k l a b ((hslot p k).symm.trans ha) ((hslot p l).symm.trans hb)
      operands := by
        intro p k a i ha hw
        rw [hslot] at ha
        obtain ⟨r', hr', hu, hd⟩ := h.operands p k a i ha hw
        have hi : i ≠ q := by
          rintro rfl
          rw [hq] at hr'
          cases hr'
          exact hv hu
        exact ⟨r', by rw [hrob, if_neg hi]; exact hr', hu, hd⟩ }

/-- An issue: the first entry not started gets an empty reorder-buffer slot and an empty slot of its pool, and its operands
wait on entries that have not broadcast (40_scheduler.md R290 to R293). -/
theorem State.Consistent.dispatch {q : Tag} {k : Nat} {r : RobEntry} {st : RsEntry}
    (hfresh : e.state = .notStarted)
    (hfirst : ∀ (m : Nat) (d : Entry), m < n → s.table[m]? = some d → d.state ≠ .notStarted)
    (hq : s.robAt q = none) (hk : s.slot (poolOf e.ins.op) k = none)
    (hrob : ∀ i, t.robAt i = if i = q then some r else s.robAt i)
    (hslot : ∀ p l, t.slot p l = if p = poolOf e.ins.op ∧ l = k then some st else s.slot p l)
    (hri : r.instr = n) (hrd : r.dest = destOf s.cfg e.ins) (hrv : r.value = .unready)
    (hsti : st.instr = n) (hstd : st.dtag = q)
    (hops : ∀ i, (st.j = .wait i ∨ st.k = .wait i) →
      ∃ r, s.robAt i = some r ∧ r.value = .unready ∧ ∃ d : RegIdx, r.dest = .reg d)
    (htag : e'.tag = some q) (hlife : e'.state = .rsWait) (he' : e'.Consistent) : t.Consistent := by
  have hrobNe {i : Tag} {r' : RobEntry} (hr' : s.robAt i = some r') : i ≠ q := by
    rintro rfl
    rw [hq] at hr'
    cases hr'
  have hstNe {p : PoolId} {l : Nat} {a : RsEntry} (ha : s.slot p l = some a) : a.instr ≠ n := by
    intro hm
    obtain ⟨f, hf, hs, -⟩ := h.station p l a ha
    rw [hm, ht.before] at hf
    cases hf
    rw [hfresh] at hs
    cases hs
  have hslotCases {p : PoolId} {l : Nat} {a : RsEntry} (ha : t.slot p l = some a) :
      ((p = poolOf e.ins.op ∧ l = k) ∧ a = st) ∨ s.slot p l = some a := by
    rw [hslot] at ha
    split at ha
    · cases ha
      exact .inl ⟨by assumption, rfl⟩
    · exact .inr ha
  exact
    { entry := ht.entries h.entry he'
      inOrder := by
        intro i j f g hij hf hg hfs
        rcases ht.was hf with ⟨rfl, rfl⟩ | ⟨hi, hf⟩
        · rw [hlife] at hfs
          cases hfs
        · rcases ht.was hg with ⟨rfl, rfl⟩ | ⟨-, hg⟩
          · exact absurd hfs (hfirst i f (by omega) hf)
          · exact h.inOrder i j f g hij hf hg hfs
      robEntry := by
        intro i r' hr'
        rw [ht.cfg]
        rw [hrob] at hr'
        split at hr'
        · rename_i hi
          subst hi
          cases hr'
          refine ⟨e', hri ▸ ht.at_n, htag, by rw [hlife]; rfl, ht.ins ▸ hrd, ?_, ?_, ?_⟩
          · rw [hrv, hlife]
            decide
          · rw [hrv]
            nofun
          · rw [hrv]
            nofun
        · obtain ⟨f, hf, hfit⟩ := h.fits hr'
          have hm : r'.instr ≠ n := by
            intro hm
            rw [hm, ht.before] at hf
            cases hf
            have := hfit.inFlight
            rw [hfresh] at this
            cases this
          exact ⟨f, (ht.other hm).trans hf, hfit.tag, hfit.inFlight, hfit.dest, hfit.unready, hfit.noValue, hfit.ready⟩
      inFlight := by
        intro m f hf hs
        rcases ht.was hf with ⟨rfl, rfl⟩ | ⟨-, hf⟩
        · exact ⟨q, r, htag, by rw [hrob, if_pos rfl], hri⟩
        · obtain ⟨i, r', hi, hr', hn'⟩ := h.inFlight m f hf hs
          exact ⟨i, r', hi, by rw [hrob, if_neg (hrobNe hr')]; exact hr', hn'⟩
      station := by
        intro p l a ha
        rcases hslotCases ha with ⟨⟨rfl, rfl⟩, rfl⟩ | ha
        · exact ⟨e', hsti ▸ ht.at_n, hlife, by rw [ht.ins], by rw [htag, hstd]⟩
        · obtain ⟨f, hf, hs, hp, hd⟩ := h.station p l a ha
          exact ⟨f, (ht.other (hstNe ha)).trans hf, hs, hp, hd⟩
      waiting := by
        intro m f hf hs
        rcases ht.was hf with ⟨rfl, rfl⟩ | ⟨-, hf⟩
        · exact ⟨k, st, by rw [hslot, ht.ins, if_pos ⟨rfl, rfl⟩], hsti⟩
        · obtain ⟨l, a, hl, ha⟩ := h.waiting m f hf hs
          refine ⟨l, a, ?_, ha⟩
          rw [hslot, if_neg]
          · exact hl
          · rintro ⟨hp, rfl⟩
            rw [hp, hk] at hl
            cases hl
      oneStation := by
        intro p l l' a b ha hb hab
        rcases hslotCases ha with ⟨⟨rfl, rfl⟩, rfl⟩ | ha <;> rcases hslotCases hb with ⟨⟨hp, rfl⟩, rfl⟩ | hb
        · rfl
        · exact absurd (hab.symm.trans hsti) (hstNe hb)
        · exact absurd (hab.trans hsti) (hstNe ha)
        · exact h.oneStation p l l' a b ha hb hab
      operands := by
        intro p l a i ha hw
        have hold : ∃ r, s.robAt i = some r ∧ r.value = .unready ∧ ∃ d : RegIdx, r.dest = .reg d := by
          rcases hslotCases ha with ⟨-, rfl⟩ | ha
          · exact hops i hw
          · exact h.operands p l a i ha hw
        obtain ⟨r', hr', hu, hd⟩ := hold
        exact ⟨r', by rw [hrob, if_neg (hrobNe hr')]; exact hr', hu, hd⟩ }

end

/-- A state with the same table, reorder buffer and pools is as consistent. -/
theorem State.Consistent.congr {s t : State} (h : s.Consistent) (hcfg : t.cfg = s.cfg) (htable : t.table = s.table)
    (hrob : ∀ i, t.robAt i = s.robAt i) (hslot : ∀ p k, t.slot p k = s.slot p k) : t.Consistent where
  entry      := htable ▸ h.entry
  inOrder    := htable ▸ h.inOrder
  robEntry   := by
    intro i r hr
    rw [htable, hcfg]
    exact h.robEntry i r ((hrob i).symm.trans hr)
  inFlight   := by
    intro n e he hs
    rw [htable] at he
    simp only [hrob]
    exact h.inFlight n e he hs
  station    := by
    intro p k st hst
    rw [htable]
    exact h.station p k st ((hslot p k).symm.trans hst)
  waiting    := by
    intro n e he hs
    rw [htable] at he
    simp only [hslot]
    exact h.waiting n e he hs
  oneStation := fun p k l a b ha hb =>
    h.oneStation p k l a b ((hslot p k).symm.trans ha) ((hslot p l).symm.trans hb)
  operands   := by
    intro p k st i hst hw
    rw [hrob]
    exact h.operands p k st i ((hslot p k).symm.trans hst) hw

end Sys2Proof.Machine
end

section
/-! SUPPORT. Serving an event keeps table, reorder buffer and pools consistent. -/

namespace Sys2Proof.Machine

/-! ## Each operation changes one entry -/

section
variable {s : State} {n : Nat} {e : Entry} (he : s.table[n]? = some e)
include he

theorem State.oneEntry_updEntry (f : Entry → Entry) (hins : (f e).ins = e.ins) :
    s.OneEntry (s.updEntry n f) n e (f e) :=
  ⟨rfl, he, getElem?_modify_at f he, hins⟩

theorem State.oneEntry_beginExec (p : PoolId) (k : Nat) (f : Entry → Entry) (hins : (f e).ins = e.ins) :
    s.OneEntry (s.beginExec p k n f) n e { f e with state := .executeStart, tExecStart := some s.cycle } :=
  ⟨State.beginExec_cfg s p k n f, he, fun m => by rw [State.beginExec_table, getElem?_modify_at _ he], hins⟩

theorem State.oneEntry_startArith (p : PoolId) (k : Nat) (r : Word) (lat : Nat) :
    s.OneEntry (s.startArith p k n r lat) n e
      { e with result := some r, count := lat, state := .executeStart, tExecStart := some s.cycle } :=
  State.oneEntry_beginExec he p k _ rfl

theorem State.oneEntry_retire : s.OneEntry (s.retire n) n e { e with state := .commit, tCommit := some s.cycle } :=
  ⟨rfl, he, getElem?_modify_at _ he, rfl⟩

theorem State.oneEntry_issue (p : PoolId) (k : Nat) (c : Captured) :
    s.OneEntry (s.issue p n k c) n e { e with tag := some s.robHead, state := .rsWait, tIssue := some s.cycle } :=
  ⟨State.issue_cfg s p n k c, he, fun m => by rw [State.issue_table, getElem?_modify_at _ he], rfl⟩

theorem State.oneEntry_reportDiv0 : s.OneEntry (s.reportDiv0 n) n e { e with div0 := true } :=
  ⟨rfl, he, getElem?_modify_at _ he, rfl⟩

end

/-- Two changes of one entry are one. -/
theorem State.OneEntry.trans {s t u : State} {n : Nat} {e e' e'' : Entry} (h : s.OneEntry t n e e')
    (g : t.OneEntry u n e' e'') : s.OneEntry u n e e'' where
  cfg    := g.cfg.trans h.cfg
  before := h.before
  after  := fun m => by
    rw [g.after, h.after]
    split <;> rfl
  ins    := g.ins.trans h.ins

/-- What the table does not show makes no difference. -/
theorem State.OneEntry.congr {s t u : State} {n : Nat} {e e' : Entry} (h : s.OneEntry t n e e') (hc : u.cfg = t.cfg)
    (ht : u.table = t.table) : s.OneEntry u n e e' :=
  ⟨hc.trans h.cfg, h.before, fun m => by rw [ht, h.after], h.ins⟩

section
variable {s : State} {n : Nat} {e : Entry} (he : s.table[n]? = some e)
include he

theorem State.oneEntry_countDown : s.OneEntry (s.countDown n) n e { e with count := e.count - 1 } :=
  State.oneEntry_updEntry he _ rfl

theorem State.oneEntry_endExec :
    s.OneEntry (s.endExec n) n e { e with count := 0, state := .executeEnd, tExecEnd := some s.cycle } :=
  State.oneEntry_updEntry he _ rfl

theorem State.oneEntry_div0 (p : PoolId) (k : Nat) (r : Word) (lat : Nat) :
    s.OneEntry ((s.reportDiv0 n).startArith p k n r lat) n e
      { e with
        div0 := true, result := some r, count := lat, state := .executeStart, tExecStart := some s.cycle } :=
  (State.oneEntry_reportDiv0 he).trans (State.oneEntry_startArith (State.oneEntry_reportDiv0 he).at_n p k r lat)

theorem State.oneEntry_startLoad (p : PoolId) (k : Nat) (ea : Word) (m : MemCtl) (v : Word) (lat : Nat) :
    s.OneEntry (s.startLoad p k n ea m v lat) n e
      { e with
        ea := some ea, result := some v, count := lat, state := .executeStart, tExecStart := some s.cycle } := by
  have h1 := (State.oneEntry_updEntry he (fun t => { t with ea := some ea }) rfl).congr
    (u := { s.updEntry n (fun t => { t with ea := some ea }) with mc := m.pfIssue s.cfg s.cycle ea.toNat }) rfl rfl
  exact h1.trans (State.oneEntry_beginExec h1.at_n p k _ rfl)

theorem State.oneEntry_startStore (p : PoolId) (k : Nat) (ea b : Word) :
    s.OneEntry (s.startStore p k n ea b) n e
      { e with
        ea := some ea, data := some b, count := s.mc.probe s.cfg ea.toNat, state := .executeStart
        tExecStart := some s.cycle } :=
  State.oneEntry_beginExec he p k _ rfl

theorem State.oneEntry_markBroadcast :
    s.OneEntry (s.markBroadcast n) n e { e with state := .broadcast, tBroadcast := some s.cycle } :=
  State.oneEntry_updEntry he _ rfl

theorem State.oneEntry_sendValue (q : Tag) (v : Word) :
    s.OneEntry (s.sendValue n q v) n e { e with state := .broadcast, tBroadcast := some s.cycle } :=
  (State.oneEntry_markBroadcast he).congr rfl rfl

theorem State.oneEntry_sendMark (q : Tag) :
    s.OneEntry ((s.setRobValue q .noValue).markBroadcast n) n e
      { e with state := .broadcast, tBroadcast := some s.cycle } :=
  (State.oneEntry_markBroadcast he).congr rfl rfl

theorem State.oneEntry_commitReg_retire (r : RegIdx) (w : Word) :
    s.OneEntry ((s.commitReg r w s.robTail).retire n) n e { e with state := .commit, tCommit := some s.cycle } :=
  (State.oneEntry_retire he).congr rfl rfl

theorem State.oneEntry_scheduleWrite (ea : Word) :
    s.OneEntry (s.scheduleWrite n ea) n e
      { e with
        count := s.mc.probe s.cfg ea.toNat, writePending := true, state := .commit, tCommit := some s.cycle } := by
  have h1 := State.oneEntry_updEntry he
    (fun t => { t with count := s.mc.probe s.cfg ea.toNat, writePending := true }) rfl
  exact (h1.trans (State.oneEntry_retire h1.at_n)).congr rfl rfl

theorem State.oneEntry_performWrite (ea : Word) (m : MemCtl) :
    s.OneEntry (s.performWrite n ea m) n e
      { e with count := 0, writePending := false, state := .memoryWrite, tMemWrite := some s.cycle } := by
  have h1 := State.oneEntry_updEntry he (fun e => { e with count := 0 }) rfl
  exact (h1.trans (State.oneEntry_updEntry h1.at_n (fun e =>
    { e with writePending := false, state := .memoryWrite, tMemWrite := some s.cycle }) rfl)).congr rfl rfl

end

/-! ## The entry that an event is about -/

/-- The instruction a start serves is that of the candidate's entry. -/
theorem State.Serves.start_ins {s : State} {i : Instr} {p : PoolId} {k : Nat} (hev : s.Serves (.start p k) i)
    {st : RsEntry} {e : Entry} (hslot : s.slot p k = some st) (he : s.table[st.instr]? = some e) : e.ins = i := by
  obtain ⟨st', e', hslot', he', hi⟩ := hev
  rw [hslot'] at hslot
  cases hslot
  rw [he'] at he
  cases he
  exact hi

/-- A countdown serves an executing entry (40_scheduler.md R262). -/
theorem State.Serves.countdown {s : State} {i : Instr} {n : Nat} (hev : s.Serves (.countdown n) i) :
    ∃ e, s.table[n]? = some e ∧ e.state = .executeStart ∧ before e.tExecStart s.cycle = true ∧ e.ins = i := by
  obtain ⟨e, he, hpick, hi⟩ := hev
  obtain ⟨hs, hb⟩ := Bool.and_eq_true_iff.1 hpick
  exact ⟨e, he, beq_iff_eq.1 hs, hb, hi⟩

/-- A write countdown serves an entry with a write pending (40_scheduler.md R252). -/
theorem State.Serves.storeTick {s : State} {i : Instr} {n : Nat} (hev : s.Serves (.storeTick n) i) :
    ∃ e, s.table[n]? = some e ∧ e.writePending = true ∧ before e.tCommit s.cycle = true ∧ e.ins = i := by
  obtain ⟨e, he, hpick, hi⟩ := hev
  obtain ⟨hp, hb⟩ := Bool.and_eq_true_iff.1 hpick
  exact ⟨e, he, hp, hb, hi⟩

/-- A broadcast serves an entry at the end of its execution (40_scheduler.md R240). -/
theorem State.Serves.broadcast {s : State} {i : Instr} {n : Nat} (hev : s.Serves (.broadcast n) i) :
    ∃ e, s.table[n]? = some e ∧ e.state = .executeEnd ∧ e.ins = i := by
  obtain ⟨e, hwin, he, hi⟩ := hev
  obtain ⟨e', he', hs⟩ := State.busWinner_some hwin
  rw [he] at he'
  cases he'
  exact ⟨e, he, hs, hi⟩

/-- A dispatch serves the first entry not started (40_scheduler.md R285). -/
theorem State.Serves.dispatch {s : State} {i : Instr} {n : Nat} (hev : s.Serves .dispatch i) (hn : s.dptr = some n) :
    ∃ e, s.table[n]? = some e ∧ e.state = .notStarted ∧ e.ins = i ∧
      ∀ (m : Nat) (d : Entry), m < n → s.table[m]? = some d → d.state ≠ .notStarted := by
  obtain ⟨n', e, hn', he, hi⟩ := hev
  rw [hn] at hn'
  cases hn'
  obtain ⟨e', he', hs, hfirst⟩ := State.dptr_some hn
  rw [he] at he'
  cases he'
  exact ⟨e, he, hs, hi, hfirst⟩

/-- The entry of a candidate waits in its station. -/
theorem State.Consistent.candidate {s : State} (h : s.Consistent) {p : PoolId} {k : Nat} {st : RsEntry} {a b : Word}
    (hc : s.Candidate p k st a b) : ∃ e, s.table[st.instr]? = some e ∧ e.state = .rsWait ∧ e.Consistent := by
  obtain ⟨e, he, hs, -⟩ := h.station p k st hc.slot
  exact ⟨e, he, hs, h.entry e (List.mem_of_getElem? he)⟩

/-- The entry of a reorder-buffer slot whose value is there has broadcast (10_state.md R48). -/
theorem State.Consistent.sent {s : State} (h : s.Consistent) {q : Tag} {r : RobEntry} {e : Entry}
    (hr : s.robAt q = some r) (hv : r.value ≠ .unready) (he : s.table[r.instr]? = some e) :
    e.Consistent ∧ e.state = .broadcast := by
  refine ⟨h.entry e (List.mem_of_getElem? he), ?_⟩
  by_contra hne
  exact hv ((h.fits_at hr he).unready.2 hne)

/-! ## Entries -/

theorem Entry.Consistent.not_pending {e : Entry} (h : e.Consistent) (hs : e.state ≠ .commit) : e.writePending = false := by
  cases hp : e.writePending with
  | false => rfl
  | true => exact absurd (h.pending.1 hp).2 hs

/-- An entry that has started its life and has no write pending has the fields its state needs. -/
theorem Entry.consistent_of_not_pending {e : Entry} (h0 : e.state ≠ .notStarted) (hp : e.writePending = false)
    (hc : ¬(e.ins.op = .sw ∧ e.state = .commit))
    (hstarted : e.state.started = true → (e.ins.op ≠ .sw → e.result.isSome = true) ∧
      (e.ins.op = .lw ∨ e.ins.op = .sw → e.ea.isSome = true) ∧ (e.ins.op = .sw → e.data.isSome = true))
    (hrun : e.state = .executeStart → 1 ≤ e.count ∧ e.tExecStart.isSome = true) : e.Consistent where
  fresh   := fun h => absurd h h0
  result  := fun h => (hstarted h).1
  address := fun h => (hstarted h).2.1
  data    := fun h => (hstarted h).2.2
  running := hrun
  pending := ⟨fun h => absurd (hp.symm.trans h) Bool.false_ne_true, fun h => absurd h hc⟩
  write   := fun h => absurd (hp.symm.trans h) Bool.false_ne_true

/-- An entry waiting in a station with its operands starts. -/
theorem Entry.Consistent.started {e e' : Entry} (h : e.Consistent) (hw : e.state = .rsWait)
    (hs : e'.state = .executeStart) (hp : e'.writePending = e.writePending) (hcount : 1 ≤ e'.count)
    (hstamp : e'.tExecStart.isSome = true) (hres : e'.ins.op ≠ .sw → e'.result.isSome = true)
    (hea : e'.ins.op = .lw ∨ e'.ins.op = .sw → e'.ea.isSome = true)
    (hdata : e'.ins.op = .sw → e'.data.isSome = true) : e'.Consistent :=
  Entry.consistent_of_not_pending (by rw [hs]; decide) (hp.trans (h.not_pending (by rw [hw]; decide)))
    (by rw [hs]; simp) (fun _ => ⟨hres, hea, hdata⟩) fun _ => ⟨hcount, hstamp⟩

/-- An entry that has started goes on to the end of its execution or to its broadcast. -/
theorem Entry.Consistent.moved {e e' : Entry} (h : e.Consistent) (hw : e.state.started = true)
    (hs : e'.state = .executeEnd ∨ e'.state = .broadcast) (hins : e'.ins = e.ins) (hp : e'.writePending = e.writePending)
    (hres : e'.result = e.result) (hea : e'.ea = e.ea) (hdata : e'.data = e.data) : e'.Consistent := by
  have hne : e.state ≠ .commit := by
    intro hc
    rw [hc] at hw
    cases hw
  refine Entry.consistent_of_not_pending ?_ (hp.trans (h.not_pending hne)) ?_ ?_ ?_
  · rcases hs with hs | hs <;> rw [hs] <;> decide
  · rcases hs with hs | hs <;> rw [hs] <;> simp
  · rw [hins, hres, hea, hdata]
    exact fun _ => ⟨h.result hw, h.address hw, h.data hw⟩
  · rcases hs with hs | hs <;> rw [hs] <;> nofun

/-- An executing entry counts down and does not end (40_scheduler.md R262). -/
theorem Entry.Consistent.counted {e : Entry} (h : e.Consistent) (hs : e.state = .executeStart) (hc : e.count ≠ 1) :
    ({ e with count := e.count - 1 } : Entry).Consistent := by
  obtain ⟨h1, h2⟩ := h.running hs
  exact Entry.consistent_of_not_pending (by simp [hs]) (h.not_pending (by simp [hs])) (by simp [hs])
    (fun hst => ⟨h.result hst, h.address hst, h.data hst⟩) fun _ => ⟨by simp only; omega, h2⟩

/-- A committed store counts down and its write is not yet due (40_scheduler.md R252). -/
theorem Entry.Consistent.writeCounted {e : Entry} (h : e.Consistent) (hp : e.writePending = true) (hc : e.count ≠ 1) :
    ({ e with count := e.count - 1 } : Entry).Consistent := by
  obtain ⟨hea, hd, h1, ht⟩ := h.write hp
  obtain ⟨-, hs⟩ := h.pending.1 hp
  exact
    { fresh   := fun h0 => absurd (hs.symm.trans h0) (by decide)
      result  := h.result
      address := h.address
      data    := h.data
      running := fun h0 => absurd (hs.symm.trans h0) (by decide)
      pending := h.pending
      write   := fun _ => ⟨hea, hd, by simp only; omega, ht⟩ }

/-- A store's commit schedules its write (40_scheduler.md R234). -/
theorem Entry.Consistent.scheduled {e : Entry} {c lat : Nat} (h : e.Consistent) (hs : e.state = .broadcast)
    (hi : e.ins.op = .sw) (hlat : 1 ≤ lat) :
    ({ e with count := lat, writePending := true, state := .commit, tCommit := some c } : Entry).Consistent where
  fresh   := nofun
  result  := nofun
  address := nofun
  data    := nofun
  running := nofun
  pending := ⟨fun _ => ⟨hi, rfl⟩, fun _ => rfl⟩
  write   := fun _ => ⟨h.address (by rw [hs]; rfl) (.inr hi), h.data (by rw [hs]; rfl) hi, hlat, rfl⟩

/-! ## Latencies -/

theorem latencies_pos {cfg : Config} (legal : cfg.Legal) : 1 ≤ latL1 cfg ∧ 1 ≤ latL2 cfg ∧ 1 ≤ latMem cfg := by
  obtain ⟨_, _, _, _, _, ⟨h1, h2, h3⟩, _⟩ := legal
  simp only [latL1, latL2, latMem]
  omega

theorem MemCtl.probe_pos {cfg : Config} (legal : cfg.Legal) (m : MemCtl) (a : Nat) : 1 ≤ m.probe cfg a := by
  obtain ⟨h1, h2, h3⟩ := latencies_pos legal
  unfold MemCtl.probe
  split
  · exact h1
  · split
    · exact h2
    · exact h3

/-- A demand read takes at least one cycle (20_memory.md R122). -/
theorem MemCtl.read_lat_pos {cfg : Config} {cycle : Nat} {m m' : MemCtl} {a lat : Nat} {v : Word} (legal : cfg.Legal)
    (h : MemCtl.read cfg cycle m a = .ok m' (v, lat)) : 1 ≤ lat := by
  obtain ⟨h1, h2, h3⟩ := latencies_pos legal
  unfold MemCtl.read at h
  split at h
  · cases h
    exact h1
  · dsimp only at h
    split at h
    · obtain ⟨_, _, -, h⟩ := Ctl.bind_ok.1 h
      cases h
      exact h2
    · obtain ⟨_, _, -, h⟩ := Ctl.bind_ok.1 h
      obtain ⟨_, _, -, h⟩ := Ctl.bind_ok.1 h
      cases h
      exact h3

/-! ## Captured operands wait on entries that have not broadcast -/

/-- A register whose capture waits is linked to the tag, and no ready value is there (40_scheduler.md R288). -/
theorem State.cap_wait {s : State} {r : RegIdx} {q : Tag} (h : s.cap r = some (.wait q)) :
    s.link[r.toNat]? = some (some q) ∧ ∀ e w, s.robAt q = some e → e.value ≠ .ready w := by
  unfold State.cap at h
  split at h
  · rename_i hl
    split at h
    · cases h
    · split at h
      · cases h
      · split at h
        · rename_i hq
          split at h
          · cases h
          all_goals
            rename_i hv
            cases h
            refine ⟨hl, fun e w he hw => ?_⟩
            rw [hq] at he
            cases he
            rw [hv] at hw
            cases hw
        · rename_i hq
          cases h
          refine ⟨hl, fun e w he => ?_⟩
          rw [hq] at he
          cases he
  · cases h

/-- A store, and nothing else, has memory as its destination (40_scheduler.md R289). -/
theorem destOf_eq_mem {cfg : Config} {i : Instr} : destOf cfg i = .mem ↔ i.op = .sw := by
  cases i <;> simp only [destOf, Instr.op, reduceCtorEq, iff_false] <;> split <;> nofun

/-- So it waits on an entry with a register destination that has not broadcast. -/
theorem State.Consistent.cap_unready {s : State} (h : s.Consistent) (hl : s.LinksNameProducers) {r : RegIdx} {q : Tag}
    (hc : s.cap r = some (.wait q)) : ∃ e, s.robAt q = some e ∧ e.value = .unready ∧ ∃ d : RegIdx, e.dest = .reg d := by
  obtain ⟨hlink, hnot⟩ := State.cap_wait hc
  obtain ⟨e, he, d, -, hd⟩ := hl _ _ hlink
  refine ⟨e, he, ?_, d, hd⟩
  cases hv : e.value with
  | unready => rfl
  | ready w => exact absurd hv (hnot e w he)
  | noValue =>
    obtain ⟨f, -, hfit⟩ := h.fits he
    have hmem := destOf_eq_mem (cfg := s.cfg).2 (hfit.noValue hv)
    rw [← hfit.dest, hd] at hmem
    cases hmem

theorem State.Consistent.captures_unready {s : State} (h : s.Consistent) (hl : s.LinksNameProducers) {o : Operand}
    (ho : s.Captures o) {q : Tag} (hq : o = .wait q) :
    ∃ e, s.robAt q = some e ∧ e.value = .unready ∧ ∃ d : RegIdx, e.dest = .reg d := by
  subst hq
  rcases ho with ⟨w, hw⟩ | ⟨r, hr⟩
  · cases hw
  · exact h.cap_unready hl hr

/-! ## Wake-up -/

/-- After a wake-up an operand waits on a tag only if it did before and the tag is another one (40_scheduler.md R244). -/
theorem Operand.resolve_wait {q i : Tag} {v : Word} {o : Operand} (h : o.resolve q v = .wait i) : o = .wait i ∧ i ≠ q := by
  unfold Operand.resolve at h
  split at h
  · cases h
  · rename_i hne
    exact ⟨h, fun hi => hne (hi ▸ h)⟩

end Sys2Proof.Machine
end

section
/-! SUPPORT. Serving an event keeps table, reorder buffer and pools consistent. -/

namespace Sys2Proof.Machine

namespace State.Consistent
variable {s t : State} {i : Instr} (h : s.Consistent)
include h

theorem served_start {p : PoolId} {k : Nat} (hs : s.Shaped) (hev : s.Serves (.start p k) i)
    (hst : Served s i (.start p k) t) : t.Consistent := by
  cases hst with
  | idle _ => exact h
  | raised _ _ _ => exact h.congr rfl rfl (fun _ => rfl) fun p _ => by cases p <;> rfl
  | @arith _ _ st a b r lat hc hl hsw hlat =>
    obtain ⟨e, he, hw, hcons⟩ := h.candidate hc
    have hi := hev.start_ins hc.slot he
    refine h.start (State.oneEntry_startArith he p k r lat) hc.slot rfl (State.robAt_congr (State.startArith_rob ..))
      (fun q l => State.slot_startArith s p q k l _ r lat) rfl rfl ?_
    exact hcons.started hw rfl rfl (hlat hs.legal) rfl (fun _ => rfl)
      (fun hls => absurd hls (by simp [hi, hl, hsw])) fun hls => absurd hls (by simp [hi, hsw])
  | @div0 _ _ st a b r lat hc hd _ hlat =>
    obtain ⟨e, he, hw, hcons⟩ := h.candidate hc
    have hi := hev.start_ins hc.slot he
    refine h.start (State.oneEntry_div0 he p k r lat) hc.slot rfl
      (State.robAt_congr (State.startArith_rob ..)) (fun q l => ?_) rfl rfl ?_
    · rw [State.slot_startArith]
      cases q <;> rfl
    · exact hcons.started hw rfl rfl (hlat hs.legal) rfl (fun _ => rfl)
        (fun hls => absurd hls (by simp [hi, hd])) fun hls => absurd hls (by simp [hi, hd])
  | @load _ _ st a b m v lat hc hl _ _ _ hm =>
    obtain ⟨e, he, hw, hcons⟩ := h.candidate hc
    have hi := hev.start_ins hc.slot he
    refine h.start (State.oneEntry_startLoad he p k _ m v lat) hc.slot rfl
      (State.robAt_congr (State.beginExec_rob ..)) (fun q l => ?_) rfl rfl ?_
    · refine (State.slot_beginExec _ p q k l _ _).trans ?_
      cases q <;> rfl
    · exact hcons.started hw rfl rfl (MemCtl.read_lat_pos hs.legal hm) rfl (fun _ => rfl) (fun _ => rfl)
        fun hsw => absurd hsw (by simp [hi, hl])
  | @store _ _ st a b hc hsw _ _ =>
    obtain ⟨e, he, hw, hcons⟩ := h.candidate hc
    have hi := hev.start_ins hc.slot he
    refine h.start (State.oneEntry_startStore he p k _ b) hc.slot rfl (State.robAt_congr (State.beginExec_rob ..))
      (fun q l => State.slot_beginExec s p q k l _ _) rfl rfl ?_
    exact hcons.started hw rfl rfl (MemCtl.probe_pos hs.legal _ _) rfl (fun hne => absurd (hi ▸ hsw) hne) (fun _ => rfl)
      fun _ => rfl

theorem served_countdown {n : Nat} (hev : s.Serves (.countdown n) i) (hst : Served s i (.countdown n) t) :
    t.Consistent := by
  obtain ⟨e, he, hs, -, rfl⟩ := hev.countdown
  have hcons := h.entry e (List.mem_of_getElem? he)
  have hend : LifeState.Alike e.state .executeEnd := by rw [hs]; constructor <;> decide
  have hmoved (c : Nat) : ({ e with count := 0, state := .executeEnd, tExecEnd := some c } : Entry).Consistent :=
    hcons.moved (by rw [hs]; rfl) (.inl rfl) rfl rfl rfl rfl rfl
  cases hst with
  | idle hidle => cases hidle
  | counted he' hc =>
    rw [he] at he'
    cases he'
    exact h.tweak (State.oneEntry_countDown he) (fun _ => rfl) (fun p _ => by cases p <;> rfl) rfl (.refl _)
      (hcons.counted hs hc)
  | ended _ _ _ =>
    exact h.tweak (State.oneEntry_endExec he) (fun _ => rfl) (fun p _ => by cases p <;> rfl) rfl hend (hmoved _)
  | loadEnded _ _ _ _ =>
    exact h.tweak ((State.oneEntry_endExec he).congr rfl rfl) (fun _ => rfl) (fun p _ => by cases p <;> rfl) rfl hend
      (hmoved _)

theorem served_storeTick {n : Nat} (hev : s.Serves (.storeTick n) i) (hst : Served s i (.storeTick n) t) :
    t.Consistent := by
  obtain ⟨e, he, hp, -, rfl⟩ := hev.storeTick
  have hcons := h.entry e (List.mem_of_getElem? he)
  obtain ⟨-, hs⟩ := hcons.pending.1 hp
  have hdone : LifeState.Alike e.state .memoryWrite := by rw [hs]; constructor <;> decide
  cases hst with
  | idle hidle => cases hidle
  | writeCounted he' hc =>
    rw [he] at he'
    cases he'
    exact h.tweak (State.oneEntry_countDown he) (fun _ => rfl) (fun p _ => by cases p <;> rfl) rfl (.refl _)
      (hcons.writeCounted hp hc)
  | written _ _ _ _ _ =>
    exact h.tweak (State.oneEntry_performWrite he _ _) (fun _ => rfl) (fun p _ => by cases p <;> rfl) rfl hdone
      (Entry.consistent_of_not_pending nofun rfl nofun nofun nofun)

theorem served_broadcast {n : Nat} (hev : s.Serves (.broadcast n) i) (hst : Served s i (.broadcast n) t) :
    t.Consistent := by
  obtain ⟨e, he, hs, rfl⟩ := hev.broadcast
  have hmoved (c : Nat) : ({ e with state := .broadcast, tBroadcast := some c } : Entry).Consistent :=
    (h.entry e (List.mem_of_getElem? he)).moved (by rw [hs]; rfl) (.inr rfl) rfl rfl rfl rfl rfl
  cases hst with
  | idle hidle => cases hidle
  | @valueSent _ _ q v _ hq _ hi =>
    obtain ⟨r, hr, hn⟩ := State.robSlotOf_some hq
    refine h.send (g := RsEntry.wake q v) (State.oneEntry_sendValue he q v) hr hn
      (State.robAt_setRobValue s q (.ready v)) (fun p k => ?_) (fun _ => ⟨rfl, rfl⟩) (fun p k a i _ hw => ?_) nofun nofun
      (fun _ => hi) rfl hs rfl (hmoved s.cycle)
    · refine Eq.trans ?_ (State.slot_mapStations s (RsEntry.wake q v) p k)
      cases p <;> rfl
    · rcases hw with hw | hw
      · obtain ⟨hj, hne⟩ := Operand.resolve_wait hw
        exact ⟨.inl hj, hne⟩
      · obtain ⟨hk, hne⟩ := Operand.resolve_wait hw
        exact ⟨.inr hk, hne⟩
  | @markSent _ q _ hq hi =>
    obtain ⟨r, hr, hn⟩ := State.robSlotOf_some hq
    have hmem : r.dest = .mem := (h.fits_at hr (hn ▸ he)).dest.trans (destOf_eq_mem.2 hi)
    refine h.send (g := id) (State.oneEntry_sendMark he q) hr hn (State.robAt_setRobValue s q .noValue) (fun p k => ?_)
      (fun _ => ⟨rfl, rfl⟩) (fun p k a i ha hw => ⟨hw, ?_⟩) nofun (fun _ => hi) nofun rfl hs rfl (hmoved s.cycle)
    · rw [Option.map_id]
      cases p <;> rfl
    · rintro rfl
      obtain ⟨r', hr', -, d, hd⟩ := h.operands p k a i ha hw
      rw [hr] at hr'
      cases hr'
      rw [hmem] at hd
      cases hd

theorem served_commit (hs : s.Shaped) (hst : Served s i .commit t) : t.Consistent := by
  have hrobTail {u : State} (n : Nat) (hr : u.rob = s.rob) (ht : u.robTail = s.robTail) (j : Tag) :
      (u.retire n).robAt j = if j = s.robTail then none else s.robAt j := by
    rw [State.robAt_retire, ht, State.robAt_congr hr]
  have hplain {r : RobEntry} {e : Entry} (hr : s.robAt s.robTail = some r) (hv : r.value ≠ .unready)
      (he : s.table[r.instr]? = some e) (hd : r.dest ≠ .mem) :
      ({ e with state := .commit, tCommit := some s.cycle } : Entry).Consistent := by
    obtain ⟨hcons, hb⟩ := h.sent hr hv he
    have hsw : e.ins.op ≠ .sw := fun hsw => hd ((h.fits_at hr he).dest.trans (destOf_eq_mem.2 hsw))
    exact Entry.consistent_of_not_pending nofun (hcons.not_pending (by rw [hb]; decide)) (fun hc => hsw hc.1) nofun nofun
  cases hst with
  | idle _ => exact h
  | @toReg r e x w hr he hd hv _ =>
    have hv' : r.value ≠ .unready := by rw [hv]; nofun
    exact h.commit (State.oneEntry_commitReg_retire he x w) hr rfl (hrobTail _ rfl rfl) (fun p _ => by cases p <;> rfl)
      hv' rfl (hplain hr hv' he (by rw [hd]; nofun))
  | @toNone r e hr he hd hv =>
    exact h.commit (State.oneEntry_retire he) hr rfl (hrobTail _ rfl rfl) (fun p _ => by cases p <;> rfl) hv rfl
      (hplain hr hv he (by rw [hd]; nofun))
  | @toMem r e ea hr he hd hv hea _ =>
    obtain ⟨hcons, hb⟩ := h.sent hr hv he
    have hsw : e.ins.op = .sw := destOf_eq_mem.1 ((h.fits_at hr he).dest.symm.trans hd)
    exact h.commit (State.oneEntry_scheduleWrite he ea) hr rfl (hrobTail _ rfl rfl) (fun p _ => by cases p <;> rfl) hv rfl
      (hcons.scheduled hb hsw (MemCtl.probe_pos hs.legal _ _))

theorem served_dispatch (hs : s.Shaped) (hl : s.LinksNameProducers) (hev : s.Serves .dispatch i)
    (hst : Served s i .dispatch t) : t.Consistent := by
  cases hst with
  | idle _ => exact h
  | @issued n k c hn hk hfull hc =>
    obtain ⟨e, he, hfresh, rfl, hfirst⟩ := hev.dispatch hn
    obtain ⟨hklt, hkfree⟩ := State.freeSlot_some hk
    obtain ⟨hdest, -, hj, hk'⟩ := captureOf_some hc
    have hnew : ({ e with tag := some s.robHead, state := .rsWait, tIssue := some s.cycle } : Entry).Consistent := by
      refine Entry.consistent_of_not_pending nofun ?_ nofun nofun nofun
      exact (h.entry e (List.mem_of_getElem? he)).not_pending (by rw [hfresh]; decide)
    exact h.dispatch (State.oneEntry_issue he _ k c) hfresh hfirst (State.robAt_head_of_not_full hfull) hkfree
      (State.robAt_issue s _ n k c hs.robHead_lt) (fun p l => State.slot_issue s _ p n k l c hklt) rfl hdest rfl rfl rfl
      (fun j hw => hw.elim (h.captures_unready hl hj) (h.captures_unready hl hk')) rfl rfl hnew

/-- Serving an event keeps table, reorder buffer and pools consistent. -/
theorem served {ev : Event} (hs : s.Shaped) (hl : s.LinksNameProducers) (hev : s.Serves ev i) (hst : Served s i ev t) :
    t.Consistent := by
  cases ev with
  | dispatch    => exact h.served_dispatch hs hl hev hst
  | start p k   => exact h.served_start hs hev hst
  | countdown n => exact h.served_countdown hev hst
  | broadcast n => exact h.served_broadcast hev hst
  | commit      => exact h.served_commit hs hst
  | storeTick n => exact h.served_storeTick hev hst

end State.Consistent

end Sys2Proof.Machine
end

section
/-! SUPPORT and PROOF. From a shaped, linked and consistent state every event of a tick is answered, so a running machine
always has a next state, and it is consistent. -/

namespace Sys2Proof.Machine

/-! ## The three invariants together -/

/-- The invariants that the proofs about steps use together: shape, links and agreement of what is in flight. -/
structure State.Sound (s : State) : Prop where
  shaped     : s.Shaped
  links      : s.LinksNameProducers
  consistent : s.Consistent

theorem State.Sound.served {s t : State} {i : Instr} {ev : Event} (h : s.Sound) (hev : s.Serves ev i)
    (hst : Served s i ev t) : t.Sound :=
  ⟨h.shaped.served hst, h.links.served h.shaped hst, h.consistent.served h.shaped h.links hev hst⟩

theorem sound_keptByParts : KeptByParts State.Sound where
  served   := fun _ _ _ _ hs hev hst => hs.served hev (serve_served hs.shaped.event hst)
  prefetch := fun s t hs hst => by
    obtain ⟨hshaped, hlinks⟩ := links_keptByParts.prefetch s t ⟨hs.shaped, hs.links⟩ hst
    obtain ⟨m, -, rfl⟩ := prefetchTick_next hst
    exact ⟨hshaped, hlinks, hs.consistent.congr rfl rfl (fun _ => rfl) fun p _ => by cases p <;> rfl⟩
  settled  := fun s hs => by
    obtain ⟨hshaped, hlinks⟩ := links_keptByParts.settled s ⟨hs.shaped, hs.links⟩
    have hslot (p : PoolId) (k : Nat) :
        s.clearSettle.slot p k = (s.slot p k).map (fun e => { e with settle := false }) :=
      State.slot_mapStations s _ p k
    have hof {p : PoolId} {k : Nat} {e : RsEntry} (he : s.clearSettle.slot p k = some e) :
        ∃ d, s.slot p k = some d ∧ e = { d with settle := false } := by
      rw [hslot] at he
      obtain ⟨d, hd, rfl⟩ := Option.map_eq_some_iff.1 he
      exact ⟨d, hd, rfl⟩
    have hc := hs.consistent
    exact ⟨hshaped, hlinks,
      { entry := hc.entry
        inOrder := hc.inOrder
        robEntry := hc.robEntry
        inFlight := hc.inFlight
        station := fun p k e he => by
          obtain ⟨d, hd, rfl⟩ := hof he
          exact hc.station p k d hd
        waiting := fun n t ht hw => by
          obtain ⟨k, e, he, hn⟩ := hc.waiting n t ht hw
          exact ⟨k, { e with settle := false }, by rw [hslot, he]; rfl, hn⟩
        oneStation := fun p k l e f he hf hef => by
          obtain ⟨d, hd, rfl⟩ := hof he
          obtain ⟨g, hg, rfl⟩ := hof hf
          exact hc.oneStation p k l d g hd hg hef
        operands := fun p k e i he hw => by
          obtain ⟨d, hd, rfl⟩ := hof he
          exact hc.operands p k d i hd hw }⟩
  counted  := fun s hs => ⟨hs.shaped.withCycle _, hs.links.congr rfl rfl,
    hs.consistent.congr rfl rfl (fun _ => rfl) fun p _ => by cases p <;> rfl⟩
  ended    := fun s st hs => ⟨hs.shaped.withStatus st, hs.links.congr rfl rfl,
    hs.consistent.congr rfl rfl (fun _ => rfl) fun p _ => by cases p <;> rfl⟩

/-- The event field plays no part in the invariants but for being at rest. -/
theorem State.slot_withEvent (s : State) (x : Event) (p : PoolId) (k : Nat) :
    State.slot { s with event := x } p k = s.slot p k := by
  cases p <;> rfl

/-! ## Captures answer -/

theorem State.cap_answers {s : State} {r : RegIdx} (hx : r.toNat < s.x.length) (hl : r.toNat < s.link.length) :
    ∃ o, s.cap r = some o := by
  unfold State.cap
  rw [List.getElem?_eq_getElem hx, List.getElem?_eq_getElem hl]
  dsimp only
  split
  · exact ⟨_, rfl⟩
  · split
    · exact ⟨_, rfl⟩
    · split
      · split <;> exact ⟨_, rfl⟩
      · exact ⟨_, rfl⟩

theorem State.destReg_answers {s : State} {rd : RegIdx} (hx : rd.toNat < s.x.length) : ∃ d, s.destReg rd = some d := by
  unfold State.destReg
  rw [if_pos hx]
  split <;> exact ⟨_, rfl⟩

/-- The capture of an instruction whose registers exist answers (40_scheduler.md R288, R289, 30_encoding.md R187). -/
theorem captureOf_answers {s : State} {i : Instr} (hx : ∀ r ∈ i.regs, r.toNat < s.x.length)
    (hl : ∀ r ∈ i.regs, r.toNat < s.link.length) : ∃ c, captureOf i s = some c := by
  have hcap {r : RegIdx} (hr : r ∈ i.regs) : ∃ o, s.cap r = some o := State.cap_answers (hx r hr) (hl r hr)
  have hdest {r : RegIdx} (hr : r ∈ i.regs) : ∃ d, s.destReg r = some d := State.destReg_answers (hx r hr)
  cases i with
  | add rd rs1 rs2 | sub rd rs1 rs2 | mul rd rs1 rs2 | div rd rs1 rs2 =>
    obtain ⟨d, hd⟩ := hdest (r := rd) (by simp [Instr.regs])
    obtain ⟨j, hj⟩ := hcap (r := rs1) (by simp [Instr.regs])
    obtain ⟨k, hk⟩ := hcap (r := rs2) (by simp [Instr.regs])
    exact ⟨_, by simp only [captureOf, captureReg, hj, hk, hd]; rfl⟩
  | addi rd rs1 imm =>
    obtain ⟨d, hd⟩ := hdest (r := rd) (by simp [Instr.regs])
    obtain ⟨j, hj⟩ := hcap (r := rs1) (by simp [Instr.regs])
    exact ⟨_, by simp only [captureOf, captureImm, hj, hd]; rfl⟩
  | lw rd rs1 imm =>
    obtain ⟨d, hd⟩ := hdest (r := rd) (by simp [Instr.regs])
    obtain ⟨j, hj⟩ := hcap (r := rs1) (by simp [Instr.regs])
    exact ⟨_, by simp only [captureOf, captureLoad, hj, hd]; rfl⟩
  | sw rs1 rs2 imm =>
    obtain ⟨j, hj⟩ := hcap (r := rs1) (by simp [Instr.regs])
    obtain ⟨k, hk⟩ := hcap (r := rs2) (by simp [Instr.regs])
    exact ⟨_, by simp only [captureOf, captureStore, hj, hk]; rfl⟩
  | beq rs1 rs2 imm | bne rs1 rs2 imm =>
    obtain ⟨j, hj⟩ := hcap (r := rs1) (by simp [Instr.regs])
    obtain ⟨k, hk⟩ := hcap (r := rs2) (by simp [Instr.regs])
    exact ⟨_, by simp only [captureOf, captureBranch, hj, hk]; rfl⟩

theorem Instr.regs_lt_of_wf {n : Nat} {i : Instr} (h : i.wf n = true) : ∀ r ∈ i.regs, r.toNat < n := by
  intro r hr
  have := List.all_eq_true.1 (Bool.and_eq_true_iff.1 h).1 r hr
  simpa using this

/-- The register that a well-formed instruction writes exists. -/
theorem destOf_reg_lt {cfg : Config} {n : Nat} {i : Instr} {r : RegIdx} (h : i.wf n = true)
    (hd : destOf cfg i = .reg r) : r.toNat < n := by
  have key {rd : RegIdx} (hrd : rd ∈ i.regs) (hd : (if cfg.x0Zero ∧ rd = 0#5 then Dest.none else .reg rd) = .reg r) :
      r.toNat < n := by
    split at hd
    · cases hd
    · cases hd
      exact Instr.regs_lt_of_wf h _ hrd
  cases i with
  | add | sub | mul | div | addi | lw => exact key (by simp [Instr.regs]) hd
  | sw | beq | bne => cases hd

/-! ## Operations answer -/

theorem dispatchAs_answers {p : PoolId} {capture : State → Option Captured} {s : State} {c : Captured}
    (h : capture s = some c) : ∃ t, dispatchAs p capture s = .next t := by
  unfold dispatchAs
  split
  · exact ⟨_, rfl⟩
  · split
    · exact ⟨_, rfl⟩
    · split
      · exact ⟨_, rfl⟩
      · rw [h]
        exact ⟨_, rfl⟩

theorem withCandidate_answers {p : PoolId} {k : Nat} {s : State} {body : RsEntry → Word → Word → Out}
    (hn : ∀ e, s.slot p k = some e → e.instr < s.table.length) (hb : ∀ e a b, ∃ t, body e a b = .next t) :
    ∃ t, withCandidate p k s body = .next t := by
  unfold withCandidate
  split
  · exact ⟨_, rfl⟩
  · rename_i e he
    split
    · split
      · exact ⟨_, rfl⟩
      · rw [if_pos (hn e he)]
        exact hb _ _ _
    all_goals exact ⟨_, rfl⟩

theorem withCtl_answers {α : Type} {s : State} {r : Ctl α} {f : State → α → Out} (hf : ∀ s a, ∃ t, f s a = .next t) :
    ∃ t, s.withCtl r f = .next t := by
  cases r with
  | ok m a => exact hf _ a
  | dup m l a => exact ⟨_, rfl⟩

theorem startOf_answers {op : Op} {p : PoolId} {k : Nat} {s : State}
    (hn : ∀ e, s.slot p k = some e → e.instr < s.table.length) : ∃ t, startOf op p k s = .next t := by
  cases op with
  | add | sub | mul | div | addi | beq | bne => exact withCandidate_answers hn fun _ _ _ => ⟨_, rfl⟩
  | lw =>
    refine withCandidate_answers hn fun e a b => ?_
    dsimp only
    split
    · split
      · exact ⟨_, rfl⟩
      · split
        · exact ⟨_, rfl⟩
        · unfold loadAccess
          exact withCtl_answers fun _ _ => ⟨_, rfl⟩
    · exact ⟨_, rfl⟩
  | sw =>
    refine withCandidate_answers hn fun e a b => ?_
    dsimp only
    split
    · split <;> exact ⟨_, rfl⟩
    · exact ⟨_, rfl⟩

theorem countdownThen_answers {release : State → Entry → Out} {n : Nat} {s : State} {e : Entry}
    (he : s.table[n]? = some e) (hr : ∀ u, ∃ t, release u e = .next t) : ∃ t, countdownThen release n s = .next t := by
  unfold countdownThen
  rw [he]
  dsimp only
  split
  · exact hr _
  · exact ⟨_, rfl⟩

theorem broadcastResult_answers {n : Nat} {s : State} {e : Entry} {q : Tag} {v : Word} (he : s.table[n]? = some e)
    (hq : s.robSlotOf n = some q) (hv : e.result = some v) : ∃ t, broadcastResult n s = .next t := by
  unfold broadcastResult
  rw [he]
  dsimp only
  rw [hq, hv]
  exact ⟨_, rfl⟩

theorem broadcastNoValue_answers {n : Nat} {s : State} {e : Entry} {q : Tag} (he : s.table[n]? = some e)
    (hq : s.robSlotOf n = some q) : ∃ t, broadcastNoValue n s = .next t := by
  unfold broadcastNoValue
  rw [if_pos (List.getElem?_eq_some_iff.1 he).1, hq]
  exact ⟨_, rfl⟩

theorem commitStore_answers {n : Nat} {e : Entry} {s : State} {ea : Word} (hea : e.ea = some ea) :
    ∃ t, commitStore n e s = .next t := by
  unfold commitStore
  rw [hea]
  dsimp only
  split <;> exact ⟨_, rfl⟩

theorem storeWriteTick_answers {n : Nat} {s : State} {e : Entry} {ea v : Word} (he : s.table[n]? = some e)
    (hea : e.ea = some ea) (hv : e.data = some v) : ∃ t, storeWriteTick n s = .next t := by
  unfold storeWriteTick
  rw [he]
  dsimp only
  split
  · rw [hea, hv]
    exact withCtl_answers fun _ _ => ⟨_, rfl⟩
  · exact ⟨_, rfl⟩

theorem serve_answers {ev : Event} {i : Instr} {s : State} (h : ∃ u, exec i { s with event := ev } = .next u) :
    ∃ t, serve ev i s = .next t := by
  obtain ⟨u, hu⟩ := h
  exact ⟨_, serve_next.2 ⟨u, hu, rfl⟩⟩

/-! ## Every event of a tick is answered -/

namespace State.Sound
variable {s : State} {i : Instr} (h : s.Sound)
include h

theorem serve_dispatch_answers (hev : s.Serves .dispatch i) : ∃ t, serve .dispatch i s = .next t := by
  obtain ⟨n, e, -, he, rfl⟩ := hev
  have hwf := Instr.regs_lt_of_wf (h.shaped.ins e (List.mem_of_getElem? he))
  obtain ⟨c, hc⟩ := captureOf_answers (s := s) (i := e.ins) (h.shaped.x.symm ▸ hwf) (h.shaped.link.symm ▸ hwf)
  refine serve_answers ?_
  rw [exec_dispatch e.ins rfl]
  exact dispatchAs_answers ((captureOf_withEvent e.ins s .dispatch).trans hc)

theorem serve_start_answers {p : PoolId} {k : Nat} : ∃ t, serve (.start p k) i s = .next t := by
  refine serve_answers ?_
  rw [exec_start i rfl]
  refine startOf_answers fun st hst => ?_
  rw [State.slot_withEvent] at hst
  obtain ⟨e, he, -⟩ := h.consistent.station p k st hst
  exact (List.getElem?_eq_some_iff.1 he).1

theorem serve_countdown_answers {n : Nat} (hev : s.Serves (.countdown n) i) :
    ∃ t, serve (.countdown n) i s = .next t := by
  obtain ⟨e, he, hpick, rfl⟩ := hev
  have hs : e.state = .executeStart := beq_iff_eq.1 (Bool.and_eq_true_iff.1 hpick).1
  refine serve_answers ?_
  rw [exec_countdown e.ins rfl]
  split
  · rename_i hi
    refine countdownThen_answers he fun u => ?_
    obtain ⟨ea, hea⟩ := Option.isSome_iff_exists.1
      ((h.consistent.entry e (List.mem_of_getElem? he)).address (by rw [hs]; rfl) (.inl hi))
    exact ⟨_, by rw [releaseLoad, hea]⟩
  · exact countdownThen_answers he fun u => ⟨_, rfl⟩

theorem serve_broadcast_answers {n : Nat} (hev : s.Serves (.broadcast n) i) :
    ∃ t, serve (.broadcast n) i s = .next t := by
  obtain ⟨e, hwin, he, rfl⟩ := hev
  obtain ⟨e', he', hs⟩ := State.busWinner_some hwin
  rw [he] at he'
  cases he'
  obtain ⟨q, r, -, hr, rfl⟩ := h.consistent.inFlight n e he (by rw [hs]; rfl)
  obtain ⟨q', hq'⟩ := State.robSlotOf_of_robAt hr
  refine serve_answers ?_
  rw [exec_broadcast e.ins rfl]
  split
  · exact broadcastNoValue_answers he hq'
  · rename_i hi
    obtain ⟨v, hv⟩ := Option.isSome_iff_exists.1
      ((h.consistent.entry e (List.mem_of_getElem? he)).result (by rw [hs]; rfl) hi)
    exact broadcastResult_answers he hq' hv

theorem serve_commit_answers (hev : s.Serves .commit i) : ∃ t, serve .commit i s = .next t := by
  obtain ⟨r, e, hr, he, rfl⟩ := hev
  have hfit := h.consistent.fits_at hr he
  refine serve_answers ?_
  rw [exec_commit e.ins rfl]
  have hr' : State.robAt { s with event := .commit } s.robTail = some r := hr
  unfold commitTail
  rw [hr']
  dsimp only
  split
  · exact ⟨_, rfl⟩
  · rename_i hv
    have hsent : e.state = .broadcast := by
      by_contra hne
      exact hv (hfit.unready.2 hne)
    rw [he]
    dsimp only
    cases hd : r.dest with
    | none => exact ⟨_, by rw [commitDest, hd]⟩
    | mem =>
      have hsw : e.ins.op = .sw := destOf_eq_mem.1 (hfit.dest.symm.trans hd)
      obtain ⟨ea, hea⟩ := Option.isSome_iff_exists.1
        ((h.consistent.entry e (List.mem_of_getElem? he)).address (by rw [hsent]; rfl) (.inr hsw))
      rw [commitDest, hd]
      exact commitStore_answers hea
    | reg x =>
      cases hw : r.value with
      | unready => exact absurd hw hv
      | noValue =>
        have hmem := hfit.dest.trans (destOf_eq_mem.2 (hfit.noValue hw))
        rw [hd] at hmem
        cases hmem
      | ready w =>
        have hlt : x.toNat < s.x.length := by
          rw [h.shaped.x]
          exact destOf_reg_lt (h.shaped.ins e (List.mem_of_getElem? he)) (hfit.dest.symm.trans hd)
        rw [commitDest, hd, hw]
        exact ⟨_, if_pos hlt⟩

theorem serve_storeTick_answers {n : Nat} (hev : s.Serves (.storeTick n) i) :
    ∃ t, serve (.storeTick n) i s = .next t := by
  obtain ⟨e, he, hpick, rfl⟩ := hev
  obtain ⟨hea, hd, -⟩ :=
    (h.consistent.entry e (List.mem_of_getElem? he)).write (Bool.and_eq_true_iff.1 hpick).1
  obtain ⟨ea, hea⟩ := Option.isSome_iff_exists.1 hea
  obtain ⟨v, hv⟩ := Option.isSome_iff_exists.1 hd
  refine serve_answers ?_
  rw [exec_storeTick e.ins rfl]
  exact storeWriteTick_answers he hea hv

/-- In a sound state every event that a stage serves is answered. -/
theorem serve_answers {ev : Event} (hev : s.Serves ev i) : ∃ t, serve ev i s = .next t := by
  cases ev with
  | dispatch    => exact h.serve_dispatch_answers hev
  | start p k   => exact h.serve_start_answers
  | countdown n => exact h.serve_countdown_answers hev
  | broadcast n => exact h.serve_broadcast_answers hev
  | commit      => exact h.serve_commit_answers hev
  | storeTick n => exact h.serve_storeTick_answers hev

end State.Sound

/-! ## Every stage answers -/

theorem thenRun_answers {P : State → Prop} {o : Out} {f : State → Out} (ho : ∃ s, o = .next s ∧ P s)
    (hf : ∀ s, P s → ∃ t, f s = .next t) : ∃ t, thenRun o f = .next t := by
  obtain ⟨s, rfl, hs⟩ := ho
  unfold thenRun
  dsimp only
  split
  · exact hf s hs
  · exact ⟨s, rfl⟩

/-- An answer that is kept: the state answered is sound. -/
theorem answers_sound {o : Out} (h : ∃ t, o = .next t) (hk : ∀ t, o = .next t → t.Sound) : ∃ t, o = .next t ∧ t.Sound := by
  obtain ⟨t, ht⟩ := h
  exact ⟨t, ht, hk t ht⟩

theorem sweep_answers {pick : State → Entry → Bool} {ev : Nat → Event}
    (hev : ∀ (s : State) (n : Nat) (e : Entry), s.table[n]? = some e → pick s e = true → s.Serves (ev n) e.ins)
    (ns : List Nat) {s : State} (hs : s.Sound) : ∃ t, sweep pick ev ns s = .next t := by
  induction ns generalizing s with
  | nil => exact ⟨s, rfl⟩
  | cons n ns ih =>
    unfold sweep
    split
    · exact ih hs
    · rename_i e he
      split
      · rename_i hp
        have hserves := hev s n e he hp
        exact thenRun_answers
          (answers_sound (hs.serve_answers hserves) fun t ht => sound_keptByParts.served _ _ s t hs hserves ht)
          fun u hu => ih hu
      · exact ih hs

theorem tryStart_answers {p : PoolId} (ks : List Nat) {s : State} (hs : s.Sound) : ∃ t, tryStart p ks s = .next t := by
  induction ks generalizing s with
  | nil => exact ⟨s, rfl⟩
  | cons k ks ih =>
    unfold tryStart
    split
    · exact ih hs
    · rename_i st hst
      obtain ⟨e, he, -⟩ := hs.consistent.station p k st hst
      rw [he]
      dsimp only
      have hserves : s.Serves (.start p k) e.ins := ⟨st, e, hst, he, rfl⟩
      refine thenRun_answers
        (answers_sound (hs.serve_answers hserves) fun t ht => sound_keptByParts.served _ _ s t hs hserves ht)
        fun u hu => ?_
      split
      · exact ⟨u, rfl⟩
      · exact ih hu

theorem commitStage_answers {s : State} (hs : s.Sound) : ∃ t, commitStage s = .next t := by
  unfold commitStage
  split
  · exact ⟨s, rfl⟩
  · rename_i r hr
    obtain ⟨e, he, -⟩ := hs.consistent.fits hr
    rw [he]
    exact hs.serve_answers ⟨r, e, hr, he, rfl⟩

theorem broadcastStage_answers {s : State} (hs : s.Sound) : ∃ t, broadcastStage s = .next t := by
  unfold broadcastStage
  split
  · exact ⟨s, rfl⟩
  · rename_i n hn
    obtain ⟨e, he, -⟩ := State.busWinner_some hn
    rw [he]
    exact hs.serve_answers ⟨e, hn, he, rfl⟩

theorem memTickStage_answers {s : State} (hs : s.Sound) : ∃ t, memTickStage s = .next t :=
  thenRun_answers
    (answers_sound (sweep_answers (ev := Event.storeTick) (fun _ _ e he hp => ⟨e, he, hp, rfl⟩) _ hs) fun _ ht =>
      sound_keptByParts.sweep (ev := Event.storeTick) (fun _ _ e he hp => ⟨e, he, hp, rfl⟩) _ hs ht)
    fun _ _ => withCtl_answers fun _ _ => ⟨_, rfl⟩

theorem executeStage_answers {s : State} (hs : s.Sound) : ∃ t, executeStage s = .next t := by
  have hstart (p : PoolId) {u : State} (hu : u.Sound) : ∃ t, startPool p u = .next t ∧ t.Sound :=
    answers_sound (tryStart_answers _ hu) fun _ ht => sound_keptByParts.tryStart _ hu ht
  refine thenRun_answers
    (answers_sound (sweep_answers (ev := Event.countdown) (fun _ _ e he hp => ⟨e, he, hp, rfl⟩) _ hs) fun _ ht =>
      sound_keptByParts.sweep (ev := Event.countdown) (fun _ _ e he hp => ⟨e, he, hp, rfl⟩) _ hs ht) fun u hu => ?_
  refine thenRun_answers (hstart .lsq hu) fun v hv => ?_
  exact thenRun_answers (hstart .add hv) fun w hw => tryStart_answers _ hw

theorem dispatchStage_answers {s : State} (hs : s.Sound) : ∃ t, dispatchStage s = .next t := by
  unfold dispatchStage
  split
  · exact ⟨s, rfl⟩
  · rename_i n hn
    obtain ⟨e, he, -⟩ := State.dptr_some hn
    rw [he]
    exact hs.serve_answers ⟨n, e, hn, he, rfl⟩

/-- A tick from a sound state answers. -/
theorem tick_answers {s : State} (hs : s.Sound) : ∃ t, tick s = .next t := by
  have h0 := sound_keptByParts.counted s hs
  refine thenRun_answers (answers_sound (commitStage_answers h0) fun _ => sound_keptByParts.commitStage h0) fun a ha => ?_
  refine thenRun_answers
    (answers_sound (broadcastStage_answers ha) fun _ => sound_keptByParts.broadcastStage ha) fun b hb => ?_
  refine thenRun_answers
    (answers_sound (memTickStage_answers hb) fun _ => sound_keptByParts.memTickStage hb) fun c hc => ?_
  refine thenRun_answers
    (answers_sound (executeStage_answers hc) fun _ => sound_keptByParts.executeStage hc) fun d hd => ?_
  exact thenRun_answers
    (answers_sound (dispatchStage_answers hd) fun _ => sound_keptByParts.dispatchStage hd) fun _ _ => ⟨_, rfl⟩

/-- A running sound state has a next state. -/
theorem step_answers {s : State} (hs : s.Sound) (hrun : s.status = .running) : ∃ t, step s = .next t := by
  unfold step runPass
  rw [if_pos hrun]
  split
  · exact ⟨_, rfl⟩
  · split
    · exact ⟨_, rfl⟩
    · exact tick_answers hs

/-- Settles O55: every event is answered in a sound state, and serving it leaves a sound state. -/
theorem stepAnswersAndKeepsConsistency : Obligations.StepAnswersAndKeepsConsistency := by
  intro s hs hl hc hrun
  have hsound : s.Sound := ⟨hs, hl, hc⟩
  obtain ⟨t, ht⟩ := step_answers hsound hrun
  exact ⟨t, ht, (sound_keptByParts.step hsound ht).consistent⟩

end Sys2Proof.Machine
end

section
/-! SUPPORT and PROOF. Each busy bit is held by exactly one operation in flight after every step (10_state.md R86 (c), R87
(f)). -/

namespace Sys2Proof.Machine

/-! ## Who holds a busy bit -/

theorem Entry.not_holdsBusy {e : Entry} (hl : ¬(e.state = .executeStart ∧ e.ins.op = .lw))
    (hp : e.writePending = false) (a : Nat) : ¬e.holdsBusy a := by
  rintro ⟨h | h, -⟩
  · exact hl h
  · rw [hp] at h
    cases h

/-- A consistent entry that is neither an executing load nor a committed store holds no busy bit. -/
theorem Entry.Consistent.not_holdsBusy {e : Entry} (h : e.Consistent) (hs : e.state ≠ .executeStart ∨ e.ins.op ≠ .lw)
    (hc : e.state ≠ .commit) (a : Nat) : ¬e.holdsBusy a :=
  Entry.not_holdsBusy (fun ⟨h1, h2⟩ => hs.elim (· h1) (· h2)) (h.not_pending hc) a

/-- Two entries that hold no busy bit hold the same. -/
theorem Entry.Consistent.holdsBusy_iff {e f : Entry} (h : e.Consistent) (he : e.state ≠ .executeStart ∨ e.ins.op ≠ .lw)
    (hec : e.state ≠ .commit) (hf : f.state ≠ .executeStart ∨ f.ins.op ≠ .lw) (hp : f.writePending = e.writePending)
    (a : Nat) : f.holdsBusy a ↔ e.holdsBusy a :=
  iff_of_false
    (Entry.not_holdsBusy (fun ⟨h1, h2⟩ => hf.elim (· h1) (· h2)) (hp.trans (h.not_pending hec)) a)
    (h.not_holdsBusy he hec a)

theorem Entry.holdsBusy_at {e : Entry} {ea : Word} (hk : (e.state = .executeStart ∧ e.ins.op = .lw) ∨ e.writePending = true)
    (hea : e.ea = some ea) (a : Nat) : e.holdsBusy a ↔ a = ea.toNat := by
  constructor
  · rintro ⟨-, ea', h, rfl⟩
    rw [hea] at h
    cases h
    rfl
  · rintro rfl
    exact ⟨hk, ea, hea, rfl⟩

/-! ## The three ways the busy bits move -/

namespace State.BusyHeld
variable {s t : State} (h : s.BusyHeld)
include h

theorem congr (htable : t.table = s.table) (hbusy : t.mc.busy = s.mc.busy) : t.BusyHeld where
  held   := by rw [htable, hbusy]; exact h.held
  set    := by rw [htable, hbusy]; exact h.set
  single := by rw [htable]; exact h.single

variable {n : Nat} {e e' : Entry} (ht : s.OneEntry t n e e')
include ht

/-- The entry that changes holds what it held. -/
theorem keep (hbusy : t.mc.busy = s.mc.busy) (hh : ∀ a, e'.holdsBusy a ↔ e.holdsBusy a) : t.BusyHeld := by
  have old {m : Nat} {f : Entry} (hf : t.table[m]? = some f) :
      ∃ d, s.table[m]? = some d ∧ ∀ a, f.holdsBusy a ↔ d.holdsBusy a := by
    rcases ht.was hf with ⟨rfl, rfl⟩ | ⟨-, hf⟩
    · exact ⟨e, ht.before, hh⟩
    · exact ⟨f, hf, fun _ => Iff.rfl⟩
  refine ⟨fun a ha => ?_, fun m f a hf ha => ?_, fun i j f g a hf hg ha hb => ?_⟩
  · rw [hbusy] at ha
    obtain ⟨m, f, hf, hold⟩ := h.held a ha
    by_cases hm : m = n
    · subst hm
      rw [ht.before] at hf
      cases hf
      exact ⟨m, e', ht.at_n, (hh a).2 hold⟩
    · exact ⟨m, f, (ht.other hm).trans hf, hold⟩
  · obtain ⟨d, hd, hfd⟩ := old hf
    rw [hbusy]
    exact h.set m d a hd ((hfd a).1 ha)
  · obtain ⟨d, hd, hfd⟩ := old hf
    obtain ⟨c, hc, hgc⟩ := old hg
    exact h.single i j d c a hd hc ((hfd a).1 ha) ((hgc a).1 hb)

/-- The entry that changes takes a busy bit that was free (20_memory.md R120). -/
theorem acquire {b : Nat} (hfree : s.mc.busy.has b = false) (hbusy : t.mc.busy = s.mc.busy.insert b)
    (hno : ∀ a, ¬e.holdsBusy a) (hh : ∀ a, e'.holdsBusy a ↔ a = b) : t.BusyHeld := by
  have other {m : Nat} {f : Entry} {a : Nat} (hf : s.table[m]? = some f) (ha : f.holdsBusy a) : a ≠ b := by
    rintro rfl
    rw [h.set m f a hf ha] at hfree
    cases hfree
  refine ⟨fun a ha => ?_, fun m f a hf ha => ?_, fun i j f g a hf hg ha hb => ?_⟩
  · rw [hbusy, AddrSet.has_insert, Bool.or_eq_true, decide_eq_true_iff] at ha
    rcases ha with rfl | ha
    · exact ⟨n, e', ht.at_n, (hh a).2 rfl⟩
    · obtain ⟨m, f, hf, hold⟩ := h.held a ha
      have hm : m ≠ n := by
        rintro rfl
        rw [ht.before] at hf
        cases hf
        exact hno a hold
      exact ⟨m, f, (ht.other hm).trans hf, hold⟩
  · rw [hbusy, AddrSet.has_insert, Bool.or_eq_true, decide_eq_true_iff]
    rcases ht.was hf with ⟨rfl, rfl⟩ | ⟨-, hf⟩
    · exact .inl ((hh a).1 ha)
    · exact .inr (h.set m f a hf ha)
  · rcases ht.was hf with ⟨rfl, rfl⟩ | ⟨-, hf⟩ <;> rcases ht.was hg with ⟨rfl, rfl⟩ | ⟨-, hg⟩
    · rfl
    · exact absurd ((hh a).1 ha) (other hg hb)
    · exact absurd ((hh a).1 hb) (other hf ha)
    · exact h.single i j f g a hf hg ha hb

/-- The entry that changes gives its busy bit up (20_memory.md R120). -/
theorem release {b : Nat} (hbusy : t.mc.busy = s.mc.busy.erase b) (hhad : ∀ a, e.holdsBusy a ↔ a = b)
    (hno : ∀ a, ¬e'.holdsBusy a) : t.BusyHeld := by
  have old {m : Nat} {f : Entry} {a : Nat} (hf : t.table[m]? = some f) (ha : f.holdsBusy a) :
      m ≠ n ∧ s.table[m]? = some f := by
    rcases ht.was hf with ⟨rfl, rfl⟩ | hf
    · exact absurd ha (hno a)
    · exact hf
  refine ⟨fun a ha => ?_, fun m f a hf ha => ?_, fun i j f g a hf hg ha hb => ?_⟩
  · rw [hbusy, AddrSet.has_erase, Bool.and_eq_true, decide_eq_true_iff] at ha
    obtain ⟨m, f, hf, hold⟩ := h.held a ha.1
    have hm : m ≠ n := by
      rintro rfl
      rw [ht.before] at hf
      cases hf
      exact ha.2 ((hhad a).1 hold)
    exact ⟨m, f, (ht.other hm).trans hf, hold⟩
  · obtain ⟨hm, hf⟩ := old hf ha
    rw [hbusy, AddrSet.has_erase, Bool.and_eq_true, decide_eq_true_iff]
    refine ⟨h.set m f a hf ha, fun hab => hm ?_⟩
    exact h.single m n f e a hf ht.before ha ((hhad a).2 hab)
  · exact h.single i j f g a (old hf ha).2 (old hg hb).2 ha hb

end State.BusyHeld

/-! ## Serving an event -/

namespace State.BusyHeld
variable {s t : State} {i : Instr} (h : s.BusyHeld) (hc : s.Consistent)
include h hc

theorem served_start {p : PoolId} {k : Nat} (hev : s.Serves (.start p k) i) (hst : Served s i (.start p k) t) :
    t.BusyHeld := by
  have hfree {e : Entry} (hcons : e.Consistent) (hw : e.state = .rsWait) (a : Nat) : ¬e.holdsBusy a :=
    hcons.not_holdsBusy (.inl (by rw [hw]; decide)) (by rw [hw]; decide) a
  have hquiet {e f : Entry} (hcons : e.Consistent) (hw : e.state = .rsWait) (hl : f.ins.op ≠ .lw)
      (hp : f.writePending = e.writePending) (a : Nat) : f.holdsBusy a ↔ e.holdsBusy a :=
    hcons.holdsBusy_iff (.inl (by rw [hw]; decide)) (by rw [hw]; decide) (.inr hl) hp a
  cases hst with
  | idle _ => exact h
  | raised _ _ _ => exact h.congr rfl rfl
  | @arith _ _ st a b r lat hcand hl _ _ =>
    obtain ⟨e, he, hw, hcons⟩ := hc.candidate hcand
    rw [← hev.start_ins hcand.slot he] at hl
    exact h.keep (State.oneEntry_startArith he p k r lat) (by rw [State.startArith_mc]) (hquiet hcons hw hl rfl)
  | @div0 _ _ st a b r lat hcand hd _ _ =>
    obtain ⟨e, he, hw, hcons⟩ := hc.candidate hcand
    rw [← hev.start_ins hcand.slot he] at hd
    exact h.keep (State.oneEntry_div0 he p k r lat) (by rw [State.startArith_mc]; rfl)
      (hquiet hcons hw (by simp [hd]) rfl)
  | @load _ _ st a b m v lat hcand hl _ hb _ hm =>
    obtain ⟨e, he, hw, hcons⟩ := hc.candidate hcand
    rw [← hev.start_ins hcand.slot he] at hl
    have hbusy : (m.pfIssue s.cfg s.cycle (effectiveAddr a st.imm).toNat).busy =
        s.mc.busy.insert (effectiveAddr a st.imm).toNat := by
      have hread := MemCtl.read_extends s.cfg s.cycle
        { s.mc with busy := s.mc.busy.insert (effectiveAddr a st.imm).toNat } (effectiveAddr a st.imm).toNat
      rw [hm] at hread
      exact (MemCtl.pfIssue_frame s.cfg s.cycle m _).1.trans hread.busy
    exact h.acquire (State.oneEntry_startLoad he p k _ m v lat) hb ((congrArg _ (State.beginExec_mc ..)).trans hbusy)
      (hfree hcons hw) (Entry.holdsBusy_at (.inl ⟨rfl, hl⟩) rfl)
  | @store _ _ st a b hcand hsw _ _ =>
    obtain ⟨e, he, hw, hcons⟩ := hc.candidate hcand
    rw [← hev.start_ins hcand.slot he] at hsw
    exact h.keep (State.oneEntry_startStore he p k _ b) (congrArg _ (State.beginExec_mc ..))
      (hquiet hcons hw (by simp [hsw]) rfl)

theorem served_countdown {n : Nat} (hev : s.Serves (.countdown n) i) (hst : Served s i (.countdown n) t) :
    t.BusyHeld := by
  obtain ⟨e, he, hs, -, rfl⟩ := hev.countdown
  have hcons := hc.entry e (List.mem_of_getElem? he)
  have hne : e.state ≠ .commit := by rw [hs]; decide
  cases hst with
  | idle hidle => cases hidle
  | counted _ _ => exact h.keep (State.oneEntry_countDown he) rfl fun _ => Iff.rfl
  | ended _ _ hl =>
    exact h.keep (State.oneEntry_endExec he) rfl (hcons.holdsBusy_iff (.inr hl) hne (.inr hl) rfl)
  | loadEnded he' _ hl hea =>
    rw [he] at he'
    cases he'
    exact h.release ((State.oneEntry_endExec he).congr rfl rfl) rfl (Entry.holdsBusy_at (.inl ⟨hs, hl⟩) hea)
      (Entry.not_holdsBusy (e := { e with count := 0, state := .executeEnd, tExecEnd := some s.cycle }) nofun
        (hcons.not_pending hne))

omit hc in
theorem served_storeTick {n : Nat} (hev : s.Serves (.storeTick n) i) (hst : Served s i (.storeTick n) t) :
    t.BusyHeld := by
  obtain ⟨e, he, hp, -, rfl⟩ := hev.storeTick
  cases hst with
  | idle hidle => cases hidle
  | writeCounted _ _ => exact h.keep (State.oneEntry_countDown he) rfl fun _ => Iff.rfl
  | @written _ _ ea v m he' _ hea _ hm =>
    rw [he] at he'
    cases he'
    have hwrite := MemCtl.write_extends s.cfg s.cycle s.mc ea.toNat v
    rw [hm] at hwrite
    exact h.release (State.oneEntry_performWrite he ea m) (congrArg (AddrSet.erase · ea.toNat) hwrite.busy)
      (Entry.holdsBusy_at (.inr hp) hea) (Entry.not_holdsBusy (fun hx => nomatch hx.1) rfl)

theorem served_broadcast {n : Nat} (hev : s.Serves (.broadcast n) i) (hst : Served s i (.broadcast n) t) :
    t.BusyHeld := by
  obtain ⟨e, he, hs, rfl⟩ := hev.broadcast
  have hcons := hc.entry e (List.mem_of_getElem? he)
  have hh (c : Nat) : ∀ a,
      ({ e with state := .broadcast, tBroadcast := some c } : Entry).holdsBusy a ↔ e.holdsBusy a :=
    hcons.holdsBusy_iff (.inl (by rw [hs]; decide)) (by rw [hs]; decide) (.inl nofun) rfl
  cases hst with
  | idle hidle => cases hidle
  | valueSent _ _ _ _ => exact h.keep (State.oneEntry_sendValue he _ _) rfl (hh _)
  | markSent _ _ _ => exact h.keep (State.oneEntry_sendMark he _) rfl (hh _)

theorem served_commit (hst : Served s i .commit t) : t.BusyHeld := by
  have hno {e : Entry} (hcons : e.Consistent) (hb : e.state = .broadcast) (a : Nat) : ¬e.holdsBusy a :=
    hcons.not_holdsBusy (.inl (by rw [hb]; decide)) (by rw [hb]; decide) a
  have hh {e : Entry} (hcons : e.Consistent) (hb : e.state = .broadcast) : ∀ a,
      ({ e with state := .commit, tCommit := some s.cycle } : Entry).holdsBusy a ↔ e.holdsBusy a :=
    hcons.holdsBusy_iff (.inl (by rw [hb]; decide)) (by rw [hb]; decide) (.inl nofun) rfl
  cases hst with
  | idle _ => exact h
  | toReg hr he _ hv _ =>
    obtain ⟨hcons, hb⟩ := hc.sent hr (by rw [hv]; nofun) he
    exact h.keep (State.oneEntry_commitReg_retire he _ _) rfl (hh hcons hb)
  | toNone hr he _ hv =>
    obtain ⟨hcons, hb⟩ := hc.sent hr hv he
    exact h.keep (State.oneEntry_retire he) rfl (hh hcons hb)
  | toMem hr he _ hv hea hfree =>
    obtain ⟨hcons, hb⟩ := hc.sent hr hv he
    exact h.acquire (State.oneEntry_scheduleWrite he _) hfree rfl (hno hcons hb) (Entry.holdsBusy_at (.inr rfl) hea)

theorem served_dispatch (hev : s.Serves .dispatch i) (hst : Served s i .dispatch t) : t.BusyHeld := by
  cases hst with
  | idle _ => exact h
  | @issued n k c hn _ _ _ =>
    obtain ⟨e, he, hfresh, -⟩ := hev.dispatch hn
    have hcons := hc.entry e (List.mem_of_getElem? he)
    exact h.keep (State.oneEntry_issue he _ k c) (by rw [State.issue_mc])
      (hcons.holdsBusy_iff (.inl (by rw [hfresh]; decide)) (by rw [hfresh]; decide) (.inl nofun) rfl)

/-- Serving an event keeps each busy bit held by one operation. -/
theorem served {ev : Event} (hev : s.Serves ev i) (hst : Served s i ev t) : t.BusyHeld := by
  cases ev with
  | dispatch    => exact h.served_dispatch hc hev hst
  | start p k   => exact h.served_start hc hev hst
  | countdown n => exact h.served_countdown hc hev hst
  | broadcast n => exact h.served_broadcast hc hev hst
  | commit      => exact h.served_commit hc hst
  | storeTick n => exact h.served_storeTick hev hst

end State.BusyHeld

theorem busyHeld_keptByParts : KeptByParts (fun s => s.Sound ∧ s.BusyHeld) where
  served   := fun ev i s t hs hev hst =>
    ⟨sound_keptByParts.served ev i s t hs.1 hev hst,
      hs.2.served hs.1.consistent hev (serve_served hs.1.shaped.event hst)⟩
  prefetch := fun s t hs hst => by
    refine ⟨sound_keptByParts.prefetch s t hs.1 hst, ?_⟩
    obtain ⟨m, hm, rfl⟩ := prefetchTick_next hst
    have hext := s.mc.pfTick_extends s.cfg s.cycle
    rw [hm] at hext
    exact hs.2.congr rfl hext.busy
  settled  := fun s hs => ⟨sound_keptByParts.settled s hs.1, hs.2.congr rfl rfl⟩
  counted  := fun s hs => ⟨sound_keptByParts.counted s hs.1, hs.2.congr rfl rfl⟩
  ended    := fun s st hs => ⟨sound_keptByParts.ended s st hs.1, hs.2.congr rfl rfl⟩

/-- Settles O56: a busy bit is taken by a load's start and a store's commit and given up by the same entry. -/
theorem stepKeepsBusyHeld : Obligations.StepKeepsBusyHeld := by
  intro s t hs hl hc hb hst
  exact (busyHeld_keptByParts.step ⟨⟨hs, hl, hc⟩, hb⟩ hst).2

end Sys2Proof.Machine
end

section
/-! SUPPORT and PROOF. The reorder buffer stays in program order and links stay youngest (10_state.md R45, R49, R86 (b), R87
(g)). -/

namespace Sys2Proof.Machine

/-! ## Slots of the ring -/

/-- Two offsets below N_ROB from one slot reach one slot only if they are equal. -/
theorem ring_inj {n a i j : Nat} (hi : i < n) (hj : j < n) (h : (a + i) % n = (a + j) % n) : i = j :=
  Nat.ModEq.eq_of_lt_of_lt (Nat.ModEq.add_left_cancel' a h) hi hj

theorem ring_next (n a i : Nat) : ((a + 1) % n + i) % n = (a + (i + 1)) % n := by
  rw [Nat.mod_add_mod]
  congr 1
  omega

/-- The part of a reorder-buffer entry that a broadcast leaves: whose it is and where it goes. -/
def RobEntry.key (r : RobEntry) : Nat × Dest := (r.instr, r.dest)

theorem robAt_of_key {s t : State} (h : ∀ i, (t.robAt i).map RobEntry.key = (s.robAt i).map RobEntry.key) {i : Tag}
    {r : RobEntry} (hr : t.robAt i = some r) : ∃ r', s.robAt i = some r' ∧ r'.instr = r.instr ∧ r'.dest = r.dest := by
  have hi := h i
  rw [hr, Option.map_some] at hi
  obtain ⟨r', hr', hk⟩ := Option.map_eq_some_iff.1 hi.symm
  simp only [RobEntry.key, Prod.mk.injEq] at hk
  exact ⟨r', hr', hk⟩

/-- Writing values leaves the keys. -/
theorem State.setRobValue_key (s : State) (q : Tag) (v : RobValue) (i : Tag) :
    ((s.setRobValue q v).robAt i).map RobEntry.key = (s.robAt i).map RobEntry.key := by
  rw [State.robAt_setRobValue]
  split
  · rw [Option.map_map]
    rfl
  · rfl

/-- The two statements about program order together. -/
structure State.Ordered (s : State) : Prop where
  rob      : s.RobOrdered
  youngest : s.LinksNameYoungest

namespace State.Ordered
variable {s t : State} (h : s.Ordered)
include h

theorem congr (hcfg : t.cfg = s.cfg) (htable : t.table = s.table) (hrob : t.rob = s.rob)
    (hhead : t.robHead = s.robHead) (htail : t.robTail = s.robTail) (hlink : t.link = s.link) : t.Ordered := by
  have hat : ∀ i, t.robAt i = s.robAt i := State.robAt_congr hrob
  obtain ⟨base, count, hh⟩ := h.rob
  refine ⟨⟨base, count, ?_⟩, ?_⟩
  · unfold State.RobHolds
    simp only [hcfg, htable, hhead, htail, hat]
    exact hh
  · unfold State.LinksNameYoungest
    simp only [hlink, hat]
    exact h.youngest

/-! ## The three ways the order moves -/

section
variable {n : Nat} {e e' : Entry} (ht : s.OneEntry t n e e')
include ht

/-- An entry that moves between dispatch and commit, or after its commit, leaves the order. -/
theorem keep (hhead : t.robHead = s.robHead) (htail : t.robTail = s.robTail) (hlink : t.link = s.link)
    (hkey : ∀ i, (t.robAt i).map RobEntry.key = (s.robAt i).map RobEntry.key)
    (hcom : e'.state.committed = e.state.committed) (hfresh : e'.state = .notStarted ↔ e.state = .notStarted) :
    t.Ordered := by
  obtain ⟨base, count, hcount, hring, hheld, hfree, htable⟩ := h.rob
  refine ⟨⟨base, count, ?_⟩, fun r q u a b hq ha hb hd => ?_⟩
  · unfold State.RobHolds
    rw [ht.cfg, hhead, htail]
    refine ⟨hcount, hring, fun i hi => ?_, fun i hi hn => ?_, fun m f hf => ?_⟩
    · obtain ⟨r, hr, hri⟩ := hheld i hi
      obtain ⟨r', hr', hk, -⟩ := robAt_of_key (fun i => (hkey i).symm) hr
      exact ⟨r', hr', hk.trans hri⟩
    · have := hkey ((s.robTail + i) % s.cfg.nRob)
      rw [hfree i hi hn] at this
      exact Option.map_eq_none_iff.1 this
    · rcases ht.was hf with ⟨rfl, rfl⟩ | ⟨-, hf⟩
      · rw [hcom, hfresh]
        exact htable m e ht.before
      · exact htable m f hf
  · rw [hlink] at hq
    obtain ⟨a', ha', hai, -⟩ := robAt_of_key hkey ha
    obtain ⟨b', hb', hbi, hbd⟩ := robAt_of_key hkey hb
    rw [← hai, ← hbi]
    exact h.youngest r q u a' b' hq ha' hb' (hbd.trans hd)

/-- A commit: the order's first instruction leaves it (40_scheduler.md R235). -/
theorem retire {r : RobEntry} (hs : s.Shaped) (hr : s.robAt s.robTail = some r) (hn : r.instr = n)
    (hhead : t.robHead = s.robHead) (htail : t.robTail = (s.robTail + 1) % s.cfg.nRob)
    (hrob : ∀ i, t.robAt i = if i = s.robTail then none else s.robAt i)
    (hlink : ∀ (r : Nat) (q : Tag), t.link[r]? = some (some q) → s.link[r]? = some (some q))
    (hlife : e'.state = .commit) : t.Ordered := by
  obtain ⟨base, count, hcount, hring, hheld, hfree, htable⟩ := h.rob
  have htailmod : s.robTail % s.cfg.nRob = s.robTail := Nat.mod_eq_of_lt hs.robTail
  have hpos : 0 < s.cfg.nRob := by have := hs.robTail; omega
  have hcount0 : 0 < count := by
    by_contra h0
    have := hfree 0 (by omega) hpos
    rw [Nat.add_zero, htailmod, hr] at this
    cases this
  have hbase : n = base := by
    obtain ⟨r', hr', hri⟩ := hheld 0 hcount0
    rw [Nat.add_zero, htailmod, hr] at hr'
    cases hr'
    omega
  have hne {i : Nat} (hi : i + 1 < s.cfg.nRob) : (s.robTail + (i + 1)) % s.cfg.nRob ≠ s.robTail := by
    intro heq
    have := ring_inj (i := i + 1) (j := 0) hi hpos (by rw [heq, Nat.add_zero, htailmod])
    omega
  refine ⟨⟨base + 1, count - 1, ?_⟩, fun r q u a b hq ha hb hd => ?_⟩
  · unfold State.RobHolds
    rw [ht.cfg, hhead, htail]
    refine ⟨by omega, ?_, fun i hi => ?_, fun i hi hlt => ?_, fun m f hf => ?_⟩
    · rw [ring_next, show count - 1 + 1 = count by omega]
      exact hring
    · rw [ring_next, hrob, if_neg (hne (by omega))]
      obtain ⟨r', hr', hri⟩ := hheld (i + 1) (by omega)
      exact ⟨r', hr', by omega⟩
    · rw [ring_next, hrob]
      split
      · rfl
      · rename_i hnt
        refine hfree (i + 1) (by omega) ?_
        by_contra hge
        rw [show i + 1 = s.cfg.nRob by omega, Nat.add_mod_right] at hnt
        exact hnt htailmod
    · rcases ht.was hf with ⟨rfl, rfl⟩ | ⟨hm, hf⟩
      · rw [hlife]
        constructor
        · exact ⟨fun _ => by omega, fun _ => rfl⟩
        · exact ⟨nofun, fun hle => by omega⟩
      · obtain ⟨h1, h2⟩ := htable m f hf
        rw [h1, h2]
        omega
  · have hold {i : Tag} {a : RobEntry} (ha : t.robAt i = some a) : s.robAt i = some a := by
      rw [hrob] at ha
      split at ha
      · cases ha
      · exact ha
    exact h.youngest r q u a b (hlink _ _ hq) (hold ha) (hold hb) hd

/-- An issue: the first instruction not started joins the order at its end, and its register's link names it
(40_scheduler.md R290, R291). -/
theorem issue {d : Dest} (hs : s.Shaped) (hc : s.Consistent) (hstart : e.state = .notStarted)
    (hfirst : ∀ (m : Nat) (f : Entry), m < n → s.table[m]? = some f → f.state ≠ .notStarted)
    (hempty : s.robAt s.robHead = none)
    (hhead : t.robHead = (s.robHead + 1) % s.cfg.nRob) (htail : t.robTail = s.robTail)
    (hrob : ∀ i, t.robAt i = if i = s.robHead then some ⟨n, d, .unready⟩ else s.robAt i)
    (hlink : t.link = renamed s.link d s.robHead) (hreg : ∀ r, d = .reg r → r.toNat < s.link.length)
    (hlife : e'.state = .rsWait) : t.Ordered := by
  obtain ⟨base, count, hcount, hring, hheld, hfree, htable⟩ := h.rob
  have htailmod : s.robTail % s.cfg.nRob = s.robTail := Nat.mod_eq_of_lt hs.robTail
  have hpos : 0 < s.cfg.nRob := by have := hs.robTail; omega
  have hlt : count < s.cfg.nRob := by
    by_contra hge
    obtain ⟨r, hr, -⟩ := hheld 0 (by omega)
    rw [hring, show count = s.cfg.nRob by omega, Nat.add_mod_right] at hempty
    rw [Nat.add_zero, hempty] at hr
    cases hr
  have hn : n = base + count := by
    have hle := (htable n e ht.before).2.1 hstart
    by_contra hne
    have hlen := (List.getElem?_eq_some_iff.1 ht.before).1
    have hbc : s.table[base + count]? = some (s.table[base + count]'(by omega)) := List.getElem?_eq_getElem _
    exact hfirst _ _ (by omega) hbc ((htable _ _ hbc).2.2 le_rfl)
  have hbefore {i : Tag} {r : RobEntry} (hr : s.robAt i = some r) : r.instr < n := by
    obtain ⟨f, hf, hfit⟩ := hc.fits hr
    by_contra hge
    have hfresh := (htable _ _ hf).2.2 (by omega)
    have := hfit.inFlight
    rw [hfresh] at this
    cases this
  refine ⟨⟨base, count + 1, ?_⟩, fun r q u a b hq ha hb hd => ?_⟩
  · unfold State.RobHolds
    rw [ht.cfg, hhead, htail]
    refine ⟨by omega, ?_, fun i hi => ?_, fun i hi hlt => ?_, fun m f hf => ?_⟩
    · rw [hring, Nat.mod_add_mod, Nat.add_assoc]
    · rw [hrob]
      split
      · rename_i hh
        rw [hring] at hh
        have := ring_inj (by omega) hlt hh
        exact ⟨_, rfl, by simp only; omega⟩
      · rename_i hh
        rcases Nat.lt_succ_iff_lt_or_eq.1 hi with hi | rfl
        · exact hheld i hi
        · exact absurd hring.symm hh
    · rw [hrob, if_neg, hfree i (by omega) hlt]
      intro hh
      rw [hring] at hh
      have := ring_inj hlt (by omega) hh
      omega
    · rcases ht.was hf with ⟨rfl, rfl⟩ | ⟨hm, hf⟩
      · rw [hlife]
        constructor
        · exact ⟨nofun, fun hlt => by omega⟩
        · exact ⟨nofun, fun hle => by omega⟩
      · obtain ⟨h1, h2⟩ := htable m f hf
        rw [h1, h2]
        omega
  · have hcase {i : Tag} {a : RobEntry} (ha : t.robAt i = some a) :
        (i = s.robHead ∧ a = ⟨n, d, .unready⟩) ∨ (i ≠ s.robHead ∧ s.robAt i = some a) := by
      rw [hrob] at ha
      split at ha
      · cases ha
        exact .inl ⟨by assumption, rfl⟩
      · exact .inr ⟨by assumption, ha⟩
    by_cases hdr : d = .reg r
    · subst hdr
      have hq' : q = s.robHead := by
        rw [hlink, renamed, List.getElem?_set_self (hreg r rfl)] at hq
        cases hq
        rfl
      rcases hcase ha with ⟨-, rfl⟩ | ⟨hne, -⟩
      · rcases hcase hb with ⟨-, rfl⟩ | ⟨-, hb⟩
        · exact le_rfl
        · exact (hbefore hb).le
      · exact absurd hq' hne
    · have hq' : s.link[r.toNat]? = some (some q) := by
        rw [hlink] at hq
        unfold renamed at hq
        split at hq
        · rename_i x
          rwa [List.getElem?_set_ne] at hq
          intro hx
          exact hdr (congrArg Dest.reg (BitVec.eq_of_toNat_eq hx))
        · exact hq
        · exact hq
      rcases hcase hb with ⟨-, rfl⟩ | ⟨-, hb⟩
      · exact absurd hd hdr
      · rcases hcase ha with ⟨-, rfl⟩ | ⟨-, ha⟩
        · exact (hbefore hb).le
        · exact h.youngest r q u a b hq' ha hb hd

end

/-! ## Serving an event -/

variable {i : Instr}

theorem served_start {p : PoolId} {k : Nat} (hc : s.Consistent) (hst : Served s i (.start p k) t) : t.Ordered := by
  have hwait {e e' : Entry} {m : Nat} (ht : s.OneEntry t m e e') (hw : e.state = .rsWait)
      (hs : e'.state = .executeStart) : t.Ordered :=
    h.keep ht (hst.robHead_eq nofun) (hst.regs_eq nofun).2 (hst.link_eq nofun nofun)
      (fun i => by rw [State.robAt_congr (hst.rob_eq nofun nofun nofun)]) (by rw [hw, hs]; rfl)
      (by rw [hw, hs]; decide)
  cases hst with
  | idle _ => exact h
  | raised _ _ _ => exact h.congr rfl rfl rfl rfl rfl rfl
  | arith hcand _ _ _ =>
    obtain ⟨e, he, hw, -⟩ := hc.candidate hcand
    exact hwait (State.oneEntry_startArith he _ _ _ _) hw rfl
  | div0 hcand _ _ _ =>
    obtain ⟨e, he, hw, -⟩ := hc.candidate hcand
    exact hwait (State.oneEntry_div0 he _ _ _ _) hw rfl
  | load hcand _ _ _ _ _ =>
    obtain ⟨e, he, hw, -⟩ := hc.candidate hcand
    exact hwait (State.oneEntry_startLoad he _ _ _ _ _ _) hw rfl
  | store hcand _ _ _ =>
    obtain ⟨e, he, hw, -⟩ := hc.candidate hcand
    exact hwait (State.oneEntry_startStore he _ _ _ _) hw rfl

theorem served_countdown {n : Nat} (hev : s.Serves (.countdown n) i) (hst : Served s i (.countdown n) t) :
    t.Ordered := by
  obtain ⟨e, he, hs, -⟩ := hev.countdown
  have hkeep {e' : Entry} (ht : s.OneEntry t n e e') (hcom : e'.state.committed = e.state.committed)
      (hf : e'.state = .notStarted ↔ e.state = .notStarted) : t.Ordered :=
    h.keep ht (hst.robHead_eq nofun) (hst.regs_eq nofun).2 (hst.link_eq nofun nofun)
      (fun i => by rw [State.robAt_congr (hst.rob_eq nofun nofun nofun)]) hcom hf
  cases hst with
  | idle hidle => cases hidle
  | counted _ _ => exact hkeep (State.oneEntry_countDown he) rfl Iff.rfl
  | ended _ _ _ => exact hkeep (State.oneEntry_endExec he) (by rw [hs]; rfl) (by simp [hs])
  | loadEnded _ _ _ _ =>
    exact hkeep ((State.oneEntry_endExec he).congr rfl rfl) (by rw [hs]; rfl) (by simp [hs])

theorem served_storeTick {n : Nat} (hc : s.Consistent) (hev : s.Serves (.storeTick n) i)
    (hst : Served s i (.storeTick n) t) : t.Ordered := by
  obtain ⟨e, he, hp, -⟩ := hev.storeTick
  obtain ⟨-, hs⟩ := (hc.entry e (List.mem_of_getElem? he)).pending.1 hp
  have hkeep {e' : Entry} (ht : s.OneEntry t n e e') (hcom : e'.state.committed = e.state.committed)
      (hf : e'.state = .notStarted ↔ e.state = .notStarted) : t.Ordered :=
    h.keep ht (hst.robHead_eq nofun) (hst.regs_eq nofun).2 (hst.link_eq nofun nofun)
      (fun i => by rw [State.robAt_congr (hst.rob_eq nofun nofun nofun)]) hcom hf
  cases hst with
  | idle hidle => cases hidle
  | writeCounted _ _ => exact hkeep (State.oneEntry_countDown he) rfl Iff.rfl
  | written _ _ _ _ _ => exact hkeep (State.oneEntry_performWrite he _ _) (by rw [hs]; rfl) (by simp [hs])

theorem served_broadcast {n : Nat} (hev : s.Serves (.broadcast n) i) (hst : Served s i (.broadcast n) t) :
    t.Ordered := by
  obtain ⟨e, he, hs, -⟩ := hev.broadcast
  have hkeep {e' : Entry} (ht : s.OneEntry t n e e') (hs' : e'.state = .broadcast) (q : Tag) (v : RobValue)
      (hrob : ∀ i, t.robAt i = (s.setRobValue q v).robAt i) : t.Ordered :=
    h.keep ht (hst.robHead_eq nofun) (hst.regs_eq nofun).2 (hst.link_eq nofun nofun)
      (fun i => by rw [hrob, State.setRobValue_key]) (by rw [hs, hs']; rfl) (by rw [hs, hs']; decide)
  cases hst with
  | idle hidle => cases hidle
  | valueSent _ _ _ _ => exact hkeep (State.oneEntry_sendValue he _ _) rfl _ _ fun _ => rfl
  | markSent _ _ _ => exact hkeep (State.oneEntry_sendMark he _) rfl _ _ fun _ => rfl

theorem served_commit (hs : s.Shaped) (hst : Served s i .commit t) : t.Ordered := by
  have hrob {u : State} (n : Nat) (hr : u.rob = s.rob) (ht : u.robTail = s.robTail) (j : Tag) :
      (u.retire n).robAt j = if j = s.robTail then none else s.robAt j := by
    rw [State.robAt_retire, ht, State.robAt_congr hr]
  cases hst with
  | idle _ => exact h
  | @toReg r e x w hr he _ _ _ =>
    refine h.retire (State.oneEntry_commitReg_retire he x w) hs hr rfl rfl rfl (hrob _ rfl rfl) (fun m q hq => ?_) rfl
    rw [State.retire_link, State.commitReg_link] at hq
    split at hq
    · rw [List.getElem?_set] at hq
      split at hq
      · split at hq <;> cases hq
      · exact hq
    · exact hq
  | toNone hr he _ _ =>
    exact h.retire (State.oneEntry_retire he) hs hr rfl rfl rfl (hrob _ rfl rfl) (fun _ _ hq => hq) rfl
  | toMem hr he _ _ _ _ =>
    exact h.retire (State.oneEntry_scheduleWrite he _) hs hr rfl rfl rfl (hrob _ rfl rfl) (fun _ _ hq => hq) rfl

theorem served_dispatch (hs : s.Shaped) (hc : s.Consistent) (hev : s.Serves .dispatch i)
    (hst : Served s i .dispatch t) : t.Ordered := by
  cases hst with
  | idle _ => exact h
  | @issued n k c hn _ hfull hcap =>
    obtain ⟨e, he, hfresh, rfl, hfirst⟩ := hev.dispatch hn
    obtain ⟨-, hreg, -⟩ := captureOf_some hcap
    exact h.issue (State.oneEntry_issue he _ k c) hs hc hfresh hfirst (State.robAt_head_of_not_full hfull)
      (State.issue_robHead ..) (State.issue_robTail ..) (State.robAt_issue s _ n k c hs.robHead_lt)
      (State.issue_link ..) (hs.link.trans hs.x.symm ▸ hreg) rfl

/-- Serving an event keeps the order. -/
theorem served {ev : Event} (hs : s.Sound) (hev : s.Serves ev i) (hst : Served s i ev t) : t.Ordered := by
  cases ev with
  | dispatch    => exact h.served_dispatch hs.shaped hs.consistent hev hst
  | start p k   => exact h.served_start hs.consistent hst
  | countdown n => exact h.served_countdown hev hst
  | broadcast n => exact h.served_broadcast hev hst
  | commit      => exact h.served_commit hs.shaped hst
  | storeTick n => exact h.served_storeTick hs.consistent hev hst

end State.Ordered

theorem ordered_keptByParts : KeptByParts (fun s => s.Sound ∧ s.Ordered) where
  served   := fun ev i s t hs hev hst =>
    ⟨sound_keptByParts.served ev i s t hs.1 hev hst, hs.2.served hs.1 hev (serve_served hs.1.shaped.event hst)⟩
  prefetch := fun s t hs hst => by
    refine ⟨sound_keptByParts.prefetch s t hs.1 hst, ?_⟩
    obtain ⟨m, -, rfl⟩ := prefetchTick_next hst
    exact hs.2.congr rfl rfl rfl rfl rfl rfl
  settled  := fun s hs => ⟨sound_keptByParts.settled s hs.1, hs.2.congr rfl rfl rfl rfl rfl rfl⟩
  counted  := fun s hs => ⟨sound_keptByParts.counted s hs.1, hs.2.congr rfl rfl rfl rfl rfl rfl⟩
  ended    := fun s st hs => ⟨sound_keptByParts.ended s st hs.1, hs.2.congr rfl rfl rfl rfl rfl rfl⟩

/-- Settles O57: an issue extends the order at its head, a commit shortens it at its tail, nothing else changes it. -/
theorem stepKeepsProgramOrder : Obligations.StepKeepsProgramOrder := by
  intro s t hs hl hc hrob hyoung hst
  obtain ⟨hrob', hyoung'⟩ := (ordered_keptByParts.step ⟨⟨hs, hl, hc⟩, ⟨hrob, hyoung⟩⟩ hst).2
  exact ⟨hrob', hyoung'⟩

end Sys2Proof.Machine
end

section
/-! SUPPORT. The packaged induction over the stages of a tick: a family of properties, one after each stage. -/

namespace Sys2Proof.Machine

/-- The number of stages that have run when an event is served, counting its own stage if it serves several entries
(40_scheduler.md R220, R260, R263): 1 commit, 2 broadcast, 3 memory tick, 4 finishing phase, 5 start phase, 6 dispatch. -/
def Event.pre : Event → Nat
  | .commit      => 0
  | .broadcast _ => 1
  | .storeTick _ => 3
  | .countdown _ => 4
  | .start _ _   => 5
  | .dispatch    => 5

/-- The number of stages that have run after an event. -/
def Event.post : Event → Nat
  | .commit      => 1
  | .broadcast _ => 2
  | .storeTick _ => 3
  | .countdown _ => 4
  | .start _ _   => 5
  | .dispatch    => 6

theorem Event.pre_le_post (ev : Event) : ev.pre ≤ ev.post := by
  cases ev with
  | commit | broadcast _ | dispatch => exact Nat.le_succ _
  | storeTick _ | countdown _ | start _ _ => exact le_rfl

/-- A family of properties, `P k` of the state when the first `k` stages of a tick have run. A later one may say less, since
a raise ends the tick where it is (60_exceptions.md R402). -/
structure KeptByStages (P : Nat → State → Prop) : Prop where
  mono     : ∀ k s, P k s → P (k + 1) s
  served   : ∀ ev i s t, P ev.pre s → s.Serves ev i → serve ev i s = .next t → P ev.post t
  prefetch : ∀ s t, P 3 s → prefetchTick s = .next t → P 3 t
  settled  : ∀ s, P 6 s → P 6 s.clearSettle

theorem thenRun_keeps {P Q : State → Prop} {o : Out} {f : State → Out} {t : State} (hPQ : ∀ s, P s → Q s)
    (ho : ∀ s, o = .next s → P s) (hf : ∀ s, P s → f s = .next t → Q t) (h : thenRun o f = .next t) : Q t := by
  obtain ⟨s, hs, ⟨_, hft⟩ | ⟨_, rfl⟩⟩ := thenRun_next.1 h
  · exact hf s (ho s hs) hft
  · exact hPQ _ (ho _ hs)

theorem sweep_keeps {P : State → Prop} {pick : State → Entry → Bool} {ev : Nat → Event}
    (hserve : ∀ (s t : State) (n : Nat) (e : Entry), P s → s.table[n]? = some e → pick s e = true →
      serve (ev n) e.ins s = .next t → P t)
    (ns : List Nat) {s t : State} (hs : P s) (h : sweep pick ev ns s = .next t) : P t := by
  induction ns generalizing s with
  | nil =>
    cases h
    exact hs
  | cons n ns ih =>
    unfold sweep at h
    split at h
    · exact ih hs h
    · rename_i e he
      split at h
      · rename_i hp
        exact thenRun_keeps (fun _ => id) (fun u hu => hserve s u n e hs he hp hu) (fun u hu hv => ih hu hv) h
      · exact ih hs h

theorem tryStart_keeps {P : State → Prop} {p : PoolId}
    (hserve : ∀ (s t : State) (k : Nat) (i : Instr), P s → s.Serves (.start p k) i → serve (.start p k) i s = .next t →
      P t)
    (ks : List Nat) {s t : State} (hs : P s) (h : tryStart p ks s = .next t) : P t := by
  induction ks generalizing s with
  | nil =>
    cases h
    exact hs
  | cons k ks ih =>
    unfold tryStart at h
    split at h
    · exact ih hs h
    · rename_i r hr
      split at h
      · cases h
      · rename_i e he
        refine thenRun_keeps (fun _ => id) (fun u hu => hserve s u k e.ins hs ⟨r, e, hr, he, rfl⟩ hu)
          (fun u hu hv => ?_) h
        split at hv
        · cases hv
          exact hu
        · exact ih hu hv

namespace KeptByStages
variable {P : Nat → State → Prop} (hP : KeptByStages P) {s t : State}
include hP

theorem mono_le {k l : Nat} (hkl : k ≤ l) (hs : P k s) : P l s := by
  induction hkl with
  | refl => exact hs
  | step _ ih => exact hP.mono _ _ ih

theorem commitStage (hs : P 0 s) (h : commitStage s = .next t) : P 1 t := by
  unfold Machine.commitStage at h
  split at h
  · cases h
    exact hP.mono _ _ hs
  · rename_i r hr
    split at h
    · cases h
    · rename_i e he
      exact hP.served .commit _ s t hs ⟨r, e, hr, he, rfl⟩ h

theorem broadcastStage (hs : P 1 s) (h : broadcastStage s = .next t) : P 2 t := by
  unfold Machine.broadcastStage at h
  split at h
  · cases h
    exact hP.mono _ _ hs
  · rename_i n hn
    split at h
    · cases h
    · rename_i e he
      exact hP.served (.broadcast n) _ s t hs ⟨e, hn, he, rfl⟩ h

theorem memTickStage (hs : P 2 s) (h : memTickStage s = .next t) : P 3 t :=
  thenRun_keeps (fun _ => id)
    (fun _ hu => sweep_keeps (ev := Event.storeTick)
      (fun s t n e hs he hp hst => hP.served (.storeTick n) e.ins s t hs ⟨e, he, hp, rfl⟩ hst) _ (hP.mono _ _ hs) hu)
    (fun u hu hv => hP.prefetch u t hu hv) h

theorem finishPhase (hs : P 3 s) (h : finishPhase s = .next t) : P 4 t :=
  sweep_keeps (ev := Event.countdown)
    (fun s t n e hs he hp hst => hP.served (.countdown n) e.ins s t hs ⟨e, he, hp, rfl⟩ hst) _ (hP.mono _ _ hs) h

theorem startPool {p : PoolId} (hs : P 5 s) (h : startPool p s = .next t) : P 5 t :=
  tryStart_keeps (fun s t k i hs hev hst => hP.served (.start p k) i s t hs hev hst) _ hs h

theorem executeStage (hs : P 3 s) (h : executeStage s = .next t) : P 5 t :=
  thenRun_keeps (hP.mono 4) (fun _ hu => hP.finishPhase hs hu)
    (fun _ h1 e1 => thenRun_keeps (fun _ => id) (fun _ hu => hP.startPool (hP.mono _ _ h1) hu)
      (fun _ h2 e2 => thenRun_keeps (fun _ => id) (fun _ hu => hP.startPool h2 hu)
        (fun _ h3 e3 => hP.startPool h3 e3) e2) e1) h

theorem dispatchStage (hs : P 5 s) (h : dispatchStage s = .next t) : P 6 t := by
  unfold Machine.dispatchStage at h
  split at h
  · cases h
    exact hP.mono _ _ hs
  · rename_i n hn
    split at h
    · cases h
    · rename_i e he
      exact hP.served .dispatch _ s t hs ⟨n, e, hn, he, rfl⟩ h

/-- What holds of the state whose cycle has advanced goes through the stages to the end of the tick. -/
theorem tick (hs : P 0 { s with cycle := s.cycle + 1 }) (h : tick s = .next t) : P 6 t :=
  thenRun_keeps (fun _ => hP.mono_le (by decide)) (fun _ hu => hP.commitStage hs hu)
    (fun _ h1 e1 => thenRun_keeps (fun _ => hP.mono_le (by decide)) (fun _ hu => hP.broadcastStage h1 hu)
      (fun _ h2 e2 => thenRun_keeps (fun _ => hP.mono_le (by decide)) (fun _ hu => hP.memTickStage h2 hu)
        (fun _ h3 e3 => thenRun_keeps (fun _ => hP.mono_le (by decide)) (fun _ hu => hP.executeStage h3 hu)
          (fun _ h4 e4 => thenRun_keeps (fun _ => id) (fun _ hu => hP.dispatchStage h4 hu)
            (fun u h5 e5 => by
              cases e5
              exact hP.settled u h5) e4) e3) e2) e1) h

end KeptByStages

/-- A step ends the run, or is a tick (40_scheduler.md R221). -/
theorem step_cases {s t : State} (h : step s = .next t) :
    (∃ st, t = { s with status := st }) ∨ tick s = .next t := by
  unfold step runPass at h
  split at h
  · split at h
    · cases h
      exact .inl ⟨_, rfl⟩
    · split at h
      · cases h
        exact .inl ⟨_, rfl⟩
      · exact .inr h
  · cases h

/-- Serving an event from any state: what `Served` lists, with the event field at rest after it. -/
theorem serve_served_any {ev : Event} {i : Instr} {s t : State} (h : serve ev i s = .next t) :
    ∃ u, Served s i ev u ∧ t = { u with event := .dispatch } := by
  obtain ⟨u, hu, rfl⟩ := serve_next.1 h
  exact ⟨_, (exec_served hu).withEvent s.event, rfl⟩

end Sys2Proof.Machine
end

section
/-! PROOF. In a step every entry stays or enters the next lifecycle state, stamped with the cycle (10_state.md R39, R41). -/

namespace Sys2Proof.Machine

/-- The stage of the tick in which an instruction enters a lifecycle state, as `Event.post` numbers them. -/
def LifeState.stage : LifeState → Nat
  | .commit       => 1
  | .broadcast    => 2
  | .memoryWrite  => 3
  | .executeEnd   => 4
  | .executeStart => 5
  | .rsWait       => 6
  | .notStarted   => 7

/-- The entry keeps its lifecycle state and the timestamp of its entry into it. -/
def Entry.Stays (e f : Entry) : Prop := f.state = e.state ∧ f.stamp f.state = e.stamp e.state

/-- The entry enters the next lifecycle state in cycle `c`. -/
def Entry.Enters (c : Nat) (e f : Entry) : Prop := e.state.succ e.ins.op = some f.state ∧ f.stamp f.state = some c

/-- What an event can do to an entry: nothing to its lifecycle, or it enters the state that the event's stage enters; and
then the stage that enters the state it leaves comes later in the tick, or it entered that state in an earlier cycle. -/
def Entry.MovesAt (c : Nat) (ev : Event) (e f : Entry) : Prop :=
  f.ins = e.ins ∧
    (e.Stays f ∨
      (e.Enters c f ∧ f.state.stage = ev.post ∧ (ev.pre < e.state.stage ∨ before (e.stamp e.state) c = true)))

theorem Entry.MovesAt.refl (c : Nat) (ev : Event) (e : Entry) : e.MovesAt c ev e := ⟨rfl, .inl ⟨rfl, rfl⟩⟩

section
variable {s t : State} {n : Nat} {e e' : Entry} {c : Nat} {ev : Event} (ht : s.OneEntry t n e e')
include ht

/-- When one entry changes, every entry moves as that one may. -/
theorem State.OneEntry.moves (hm : e.MovesAt c ev e') (m : Nat) (f : Entry) (hf : s.table[m]? = some f) :
    ∃ g, t.table[m]? = some g ∧ f.MovesAt c ev g := by
  by_cases hmn : m = n
  · subst hmn
    rw [ht.before] at hf
    cases hf
    exact ⟨e', ht.at_n, hm⟩
  · exact ⟨f, (ht.other hmn).trans hf, .refl c ev f⟩

/-- The entry that changes enters the state `b` from the state `a`. -/
theorem State.OneEntry.enters {a b : LifeState} (ha : e.state = a) (hb : e'.state = b) (hstamp : e'.stamp b = some c)
    (hsucc : a.succ e.ins.op = some b) (hstage : b.stage = ev.post)
    (hpre : ev.pre < a.stage ∨ Machine.before (e.stamp a) c = true) (m : Nat) (f : Entry) (hf : s.table[m]? = some f) :
    ∃ g, t.table[m]? = some g ∧ f.MovesAt c ev g := by
  refine ht.moves ⟨ht.ins, .inr ⟨⟨?_, ?_⟩, ?_, ?_⟩⟩ m f hf
  · rw [ha, hb]; exact hsucc
  · rw [hb]; exact hstamp
  · rw [hb]; exact hstage
  · rw [ha]; exact hpre

/-- The entry that changes keeps its lifecycle state and the timestamp of it. -/
theorem State.OneEntry.stays (hs : e.Stays e') (m : Nat) (f : Entry) (hf : s.table[m]? = some f) :
    ∃ g, t.table[m]? = some g ∧ f.MovesAt c ev g :=
  ht.moves ⟨ht.ins, .inl hs⟩ m f hf

end

/-- Serving an event moves at most the entry it is about, and by one lifecycle state. -/
theorem Served.moves {s t : State} {i : Instr} {ev : Event} (hc : s.Consistent) (hev : s.Serves ev i)
    (h : Served s i ev t) : ∀ (m : Nat) (f : Entry), s.table[m]? = some f →
      ∃ g, t.table[m]? = some g ∧ f.MovesAt s.cycle ev g := by
  cases h with
  | idle _ => exact fun m f hf => ⟨f, hf, .refl _ _ f⟩
  | raised _ _ _ => exact fun m f hf => ⟨f, hf, .refl _ _ f⟩
  | issued hn _ _ _ =>
    obtain ⟨e, he, hs, -⟩ := hev.dispatch hn
    exact (State.oneEntry_issue he _ _ _).enters hs rfl rfl rfl rfl (.inl (by decide))
  | arith hcand _ _ _ =>
    obtain ⟨e, he, hs, -⟩ := hc.candidate hcand
    exact (State.oneEntry_startArith he _ _ _ _).enters hs rfl rfl rfl rfl (.inl (Nat.lt_succ_self _))
  | div0 hcand _ _ _ =>
    obtain ⟨e, he, hs, -⟩ := hc.candidate hcand
    exact (State.oneEntry_div0 he _ _ _ _).enters hs rfl rfl rfl rfl (.inl (Nat.lt_succ_self _))
  | load hcand _ _ _ _ _ =>
    obtain ⟨e, he, hs, -⟩ := hc.candidate hcand
    exact (State.oneEntry_startLoad he _ _ _ _ _ _).enters hs rfl rfl rfl rfl (.inl (Nat.lt_succ_self _))
  | store hcand _ _ _ =>
    obtain ⟨e, he, hs, -⟩ := hc.candidate hcand
    exact (State.oneEntry_startStore he _ _ _ _).enters hs rfl rfl rfl rfl (.inl (Nat.lt_succ_self _))
  | counted he _ => exact (State.oneEntry_countDown he).stays ⟨rfl, rfl⟩
  | ended _ _ _ =>
    obtain ⟨e, he, hs, -⟩ := hev.countdown
    exact (State.oneEntry_endExec he).enters hs rfl rfl rfl rfl (.inl (Nat.lt_succ_self _))
  | loadEnded _ _ _ _ =>
    obtain ⟨e, he, hs, -⟩ := hev.countdown
    exact ((State.oneEntry_endExec he).congr rfl rfl).enters hs rfl rfl rfl rfl (.inl (Nat.lt_succ_self _))
  | valueSent _ _ _ _ =>
    obtain ⟨e, he, hs, -⟩ := hev.broadcast
    exact (State.oneEntry_sendValue he _ _).enters hs rfl rfl rfl rfl (.inl (by change 1 < 4; decide))
  | markSent _ _ _ =>
    obtain ⟨e, he, hs, -⟩ := hev.broadcast
    exact (State.oneEntry_sendMark he _).enters hs rfl rfl rfl rfl (.inl (by change 1 < 4; decide))
  | toReg hr he _ hv _ =>
    obtain ⟨-, hs⟩ := hc.sent hr (by rw [hv]; nofun) he
    exact (State.oneEntry_commitReg_retire he _ _).enters hs rfl rfl rfl rfl (.inl (by decide))
  | toNone hr he _ hv =>
    obtain ⟨-, hs⟩ := hc.sent hr hv he
    exact (State.oneEntry_retire he).enters hs rfl rfl rfl rfl (.inl (by decide))
  | toMem hr he _ hv _ _ =>
    obtain ⟨-, hs⟩ := hc.sent hr hv he
    exact (State.oneEntry_scheduleWrite he _).enters hs rfl rfl rfl rfl (.inl (by decide))
  | writeCounted he _ => exact (State.oneEntry_countDown he).stays ⟨rfl, rfl⟩
  | written _ _ _ _ _ =>
    obtain ⟨e, he, hp, hb, -⟩ := hev.storeTick
    obtain ⟨hsw, hs⟩ := (hc.entry e (List.mem_of_getElem? he)).pending.1 hp
    exact (State.oneEntry_performWrite he _ _).enters hs rfl rfl (by rw [hsw]; rfl) rfl (.inr hb)

/-- Where entry `e` can be when `k` stages of the tick of cycle `c` have run: where it was, or in the next lifecycle state,
entered in this cycle by a stage that has run. -/
def Entry.Progress (c k : Nat) (e f : Entry) : Prop :=
  f.ins = e.ins ∧ (f.state = e.state ∨ (e.Enters c f ∧ f.state.stage ≤ k))

/-- An entry that has moved in this tick does not move again in it. -/
theorem Entry.Progress.moves {c : Nat} {ev : Event} {e f g : Entry} (h : e.Progress c ev.pre f)
    (hm : f.MovesAt c ev g) : e.Progress c ev.post g := by
  obtain ⟨hins, hlife⟩ := h
  obtain ⟨hins', hmove⟩ := hm
  refine ⟨hins'.trans hins, ?_⟩
  rcases hlife with hsame | ⟨⟨hsucc, hstamp⟩, hstage⟩
  · rcases hmove with ⟨hs, -⟩ | ⟨⟨hsucc, hstamp⟩, hstage, -⟩
    · exact .inl (hs.trans hsame)
    · rw [hsame, hins] at hsucc
      exact .inr ⟨⟨hsucc, hstamp⟩, hstage.le⟩
  · rcases hmove with ⟨hs, hst⟩ | ⟨-, -, hlater | hearlier⟩
    · exact .inr ⟨⟨hs.symm ▸ hsucc, hst.trans hstamp⟩, hs.symm ▸ hstage.trans ev.pre_le_post⟩
    · omega
    · rw [hstamp] at hearlier
      simp [before] at hearlier

/-- The entries of `s` in a later state of the tick. -/
def State.EntriesProgress (s : State) (k : Nat) (u : State) : Prop :=
  u.Sound ∧ u.cycle = s.cycle + 1 ∧
    ∀ (n : Nat) (e : Entry), s.table[n]? = some e → ∃ f, u.table[n]? = some f ∧ e.Progress (s.cycle + 1) k f

theorem entriesProgress_keptByStages (s : State) : KeptByStages s.EntriesProgress where
  mono := fun k u ⟨hs, hcycle, hp⟩ => ⟨hs, hcycle, fun n e he => by
    obtain ⟨f, hf, hins, hlife⟩ := hp n e he
    exact ⟨f, hf, hins, hlife.imp id fun h => ⟨h.1, h.2.trans (Nat.le_succ k)⟩⟩⟩
  served := fun ev i u v ⟨hs, hcycle, hp⟩ hev hst => by
    have hserved := serve_served hs.shaped.event hst
    refine ⟨hs.served hev hserved, hserved.cycle_eq.trans hcycle, fun n e he => ?_⟩
    obtain ⟨f, hf, hprog⟩ := hp n e he
    obtain ⟨g, hg, hmove⟩ := hserved.moves hs.consistent hev n f hf
    exact ⟨g, hg, hprog.moves (hcycle ▸ hmove)⟩
  prefetch := fun u v ⟨hs, hcycle, hp⟩ hst => by
    refine ⟨sound_keptByParts.prefetch u v hs hst, ?_⟩
    obtain ⟨m, -, rfl⟩ := prefetchTick_next hst
    exact ⟨hcycle, hp⟩
  settled := fun u ⟨hs, hcycle, hp⟩ => ⟨sound_keptByParts.settled u hs, hcycle, hp⟩

/-- Settles O48: the stages run against the order of the lifecycle, and a store that commits is not yet due. -/
theorem oneTransitionPerStep : Obligations.OneTransitionPerStep := by
  intro s t hs hl hc hst n e he
  rcases step_cases hst with ⟨st, rfl⟩ | htick
  · exact ⟨e, he, rfl, .inl rfl⟩
  · have hstart : s.EntriesProgress 0 { s with cycle := s.cycle + 1 } :=
      ⟨sound_keptByParts.counted s ⟨hs, hl, hc⟩, rfl, fun n e he => ⟨e, he, rfl, .inl rfl⟩⟩
    obtain ⟨-, hcycle, hp⟩ := (entriesProgress_keptByStages s).tick hstart htick
    obtain ⟨f, hf, hins, hlife⟩ := hp n e he
    rw [hcycle]
    exact ⟨f, hf, hins, hlife.imp id fun h => h.1⟩

end Sys2Proof.Machine
end

section
/-! PROOF. What a step leaves: configuration, skipped words and instructions, counters, the write-out log, and registers and
links but for one commit and one dispatch. -/

namespace Sys2Proof.Machine

/-! ## Counters and the write-out log -/

/-- No event takes a counter down, and memory changes by the writes logged. -/
theorem Served.cnt_logged {s t : State} {i : Instr} {ev : Event} (h : Served s i ev t) :
    s.mc.cnt.Le t.mc.cnt ∧ s.mc.Logged s.cycle t.mc := by
  cases h with
  | @div0 p k e a b r lat _ _ _ _ =>
    rw [State.startArith_mc]
    exact ⟨{ Counters.Le.refl s.mc.cnt with div0 := Nat.le_succ _ }, .of_eq rfl rfl⟩
  | @load p k e a b m v lat _ _ _ _ _ hm =>
    have hread := MemCtl.read_extends s.cfg s.cycle
      { s.mc with busy := s.mc.busy.insert (effectiveAddr a e.imm).toNat } (effectiveAddr a e.imm).toNat
    rw [hm] at hread
    obtain ⟨-, -, -, hout, hcnt⟩ := m.pfIssue_frame s.cfg s.cycle (effectiveAddr a e.imm).toNat
    have hlog : m.Logged s.cycle (m.pfIssue s.cfg s.cycle (effectiveAddr a e.imm).toNat) :=
      .of_eq hout (MemCtl.pfIssue_mem _ _ _ _)
    rw [State.startLoad, State.beginExec_mc]
    exact ⟨Counters.Le.trans hread.cnt hcnt, MemCtl.Logged.trans hread.log hlog⟩
  | @written n e ea v m _ _ _ _ hm =>
    have hwrite := MemCtl.write_extends s.cfg s.cycle s.mc ea.toNat v
    rw [hm] at hwrite
    exact ⟨hwrite.cnt, hwrite.log⟩
  | arith _ _ _ _ => rw [State.startArith_mc]; exact ⟨.refl _, .of_eq rfl rfl⟩
  | store _ _ _ _ => rw [State.startStore, State.beginExec_mc]; exact ⟨.refl _, .of_eq rfl rfl⟩
  | issued _ _ _ _ => rw [State.issue_mc]; exact ⟨.refl _, .of_eq rfl rfl⟩
  | idle _ | raised _ _ _ | counted _ _ | ended _ _ _ | loadEnded _ _ _ _ | valueSent _ _ _ _ | markSent _ _ _
  | toReg _ _ _ _ _ | toNone _ _ _ _ | toMem _ _ _ _ _ _ | writeCounted _ _ => exact ⟨.refl _, .of_eq rfl rfl⟩

/-- A prefetch tick too. -/
theorem prefetchTick_cnt_logged {s t : State} (h : prefetchTick s = .next t) :
    s.mc.cnt.Le t.mc.cnt ∧ s.mc.Logged s.cycle t.mc := by
  obtain ⟨m, hm, rfl⟩ := prefetchTick_next h
  have hext := s.mc.pfTick_extends s.cfg s.cycle
  rw [hm] at hext
  exact ⟨hext.cnt, hext.log⟩

/-! ## O43 -/

/-- What no part of a step changes, and counters that do not fall. -/
structure State.KeepsProgram (s t : State) : Prop where
  cfg          : t.cfg = s.cfg
  decodeErrors : t.decodeErrors = s.decodeErrors
  ins          : t.table.map Entry.ins = s.table.map Entry.ins
  cnt          : s.mc.cnt.Le t.mc.cnt

theorem keepsProgram_keptByParts (s : State) : KeptByParts s.KeepsProgram where
  served   := fun ev i u v hu _ hst => by
    obtain ⟨w, hw, rfl⟩ := serve_served_any hst
    exact ⟨hw.cfg_eq.trans hu.cfg, hw.decodeErrors_eq.trans hu.decodeErrors, hw.ins_eq.trans hu.ins,
      hu.cnt.trans hw.cnt_logged.1⟩
  prefetch := fun u v hu hst => by
    have hcnt := (prefetchTick_cnt_logged hst).1
    obtain ⟨m, -, rfl⟩ := prefetchTick_next hst
    exact ⟨hu.cfg, hu.decodeErrors, hu.ins, hu.cnt.trans hcnt⟩
  settled  := fun u hu => ⟨hu.cfg, hu.decodeErrors, hu.ins, hu.cnt⟩
  counted  := fun u hu => ⟨hu.cfg, hu.decodeErrors, hu.ins, hu.cnt⟩
  ended    := fun u _ hu => ⟨hu.cfg, hu.decodeErrors, hu.ins, hu.cnt⟩

theorem step_keepsProgram {s t : State} (h : step s = .next t) : s.KeepsProgram t :=
  (keepsProgram_keptByParts s).step ⟨rfl, rfl, rfl, .refl _⟩ h

/-- Settles O43: no part of a step does. -/
theorem stepKeepsProgramAndConfig : Obligations.StepKeepsProgramAndConfig := by
  intro s t hst
  obtain ⟨hcfg, herr, hins, hcnt⟩ := step_keepsProgram hst
  exact ⟨hcfg, herr, hins, hcnt.l1Hits, hcnt.l1Misses, hcnt.l2Hits, hcnt.l2Misses, hcnt.pfHits, hcnt.pfIssued,
    hcnt.pfFilled, hcnt.div0⟩

/-! ## O44 -/

/-- In the tick after `s`: the cycle has advanced, and memory has changed by the writes logged in it. -/
def State.LogsTo (s : State) (_ : Nat) (u : State) : Prop := u.cycle = s.cycle + 1 ∧ s.mc.Logged (s.cycle + 1) u.mc

theorem logsTo_keptByStages (s : State) : KeptByStages s.LogsTo where
  mono     := fun _ _ h => h
  served   := fun ev i u v ⟨hcycle, hlog⟩ _ hst => by
    obtain ⟨w, hw, rfl⟩ := serve_served_any hst
    exact ⟨hw.cycle_eq.trans hcycle, hlog.trans (hcycle ▸ hw.cnt_logged.2)⟩
  prefetch := fun u v ⟨hcycle, hlog⟩ hst => by
    have hpf := (prefetchTick_cnt_logged hst).2
    obtain ⟨m, -, rfl⟩ := prefetchTick_next hst
    exact ⟨hcycle, hlog.trans (hcycle ▸ hpf)⟩
  settled  := fun _ h => h

/-- Settles O44: every part of a tick changes memory by the writes it logs, in the tick's cycle. -/
theorem writeOutLogRecordsMemory : Obligations.WriteOutLogRecordsMemory := by
  intro s t hst
  rcases step_cases hst with ⟨st, rfl⟩ | htick
  · exact MemCtl.Logged.of_eq rfl rfl
  · obtain ⟨hcycle, writes, hout, hwrites, hmem⟩ := (logsTo_keptByStages s).tick ⟨rfl, .of_eq rfl rfl⟩ htick
    exact ⟨writes, hout, fun r hr => (hwrites r hr).trans hcycle.symm, hmem⟩

/-! ## O45 -/

/-- From `s` to `u` at most one register was written, by the commit of the tail of `s`, and `links` are the links of `s` with
at most that register's cleared (40_scheduler.md R232). -/
def State.CommitsAtMost (s u : State) (links : List (Option Tag)) : Prop :=
  (u.x = s.x ∧ links = s.link) ∨
    ∃ (e : RobEntry) (r : RegIdx) (w : Word), s.robAt s.robTail = some e ∧ e.dest = .reg r ∧ e.value = .ready w ∧
      u.robTail = (s.robTail + 1) % s.cfg.nRob ∧ u.x = s.x.set r.toNat w ∧
      links = if s.link[r.toNat]? = some (some s.robTail) then s.link.set r.toNat none else s.link

/-- From links `links`, those of `u` have the link of the destination of an instruction dispatched in the tick set to the head
slot of `s` (40_scheduler.md R291). -/
def State.DispatchLinks (s u : State) (links : List (Option Tag)) : Prop :=
  ∃ (n : Nat) (e : Entry) (r : RegIdx), u.table[n]? = some e ∧ e.state = .rsWait ∧ e.tIssue = some u.cycle ∧
    e.tag = some s.robHead ∧ destOf u.cfg e.ins = .reg r ∧ u.link = links.set r.toNat (some s.robHead)

/-- The registers, links and cursors of `u`, a state in the tick after `s`, when `k` stages have run. -/
structure State.RegsAfter (s : State) (k : Nat) (u : State) : Prop where
  cfg   : u.cfg = s.cfg
  start : k = 0 → u.x = s.x ∧ u.link = s.link ∧ u.rob = s.rob ∧ u.robTail = s.robTail
  head  : k ≤ 5 → u.robHead = s.robHead
  regs  : ∃ links, s.CommitsAtMost u links ∧ (u.link = links ∨ (6 ≤ k ∧ s.DispatchLinks u links))

/-- An event that is neither a commit nor a dispatch touches no register, link or cursor. -/
theorem State.RegsAfter.other {s u v : State} {i : Instr} {ev : Event} {k l : Nat} (h : s.RegsAfter k u)
    (hv : Served u i ev v) (hc : ev ≠ .commit) (hd : ev ≠ .dispatch) (hkl : k ≤ l) (hl : 1 ≤ l) (hl5 : l ≤ 5) :
    s.RegsAfter l v where
  cfg   := hv.cfg_eq.trans h.cfg
  start := fun h0 => by omega
  head  := fun _ => (hv.robHead_eq hd).trans (h.head (hkl.trans hl5))
  regs  := by
    obtain ⟨hx, htail⟩ := hv.regs_eq hc
    obtain ⟨links, hcommit, hlink⟩ := h.regs
    refine ⟨links, ?_, .inl ?_⟩
    · rcases hcommit with ⟨hux, hl⟩ | ⟨e, r, w, h1, h2, h3, h4, h5, h6⟩
      · exact .inl ⟨hx.trans hux, hl⟩
      · exact .inr ⟨e, r, w, h1, h2, h3, htail.trans h4, hx.trans h5, h6⟩
    · rcases hlink with hlink | ⟨h6, -⟩
      · exact (hv.link_eq hc hd).trans hlink
      · omega

/-- The commit stage writes at most one register. -/
theorem State.RegsAfter.commit {s u v : State} {i : Instr} (h : s.RegsAfter 0 u) (hv : Served u i .commit v) :
    s.RegsAfter 1 v where
  cfg   := hv.cfg_eq.trans h.cfg
  start := nofun
  head  := fun _ => (hv.robHead_eq nofun).trans (h.head (Nat.zero_le _))
  regs  := by
    obtain ⟨hx, hlink, hrob, htail⟩ := h.start rfl
    cases hv with
    | idle _ => exact ⟨s.link, .inl ⟨hx, rfl⟩, .inl hlink⟩
    | toNone _ _ _ _ => exact ⟨s.link, .inl ⟨hx, rfl⟩, .inl hlink⟩
    | toMem _ _ _ _ _ _ => exact ⟨s.link, .inl ⟨hx, rfl⟩, .inl hlink⟩
    | @toReg e _ r w he _ hd hw _ =>
      rw [State.robAt_congr hrob, htail] at he
      refine ⟨_, .inr ⟨e, r, w, he, hd, hw, ?_, ?_, rfl⟩, .inl ?_⟩
      · rw [State.retire_robTail, State.commitReg_robTail, htail]
        exact congrArg (fun c : Config => (s.robTail + 1) % c.nRob) h.cfg
      · rw [State.retire_x, State.commitReg_x, hx]
      · rw [State.retire_link, State.commitReg_link, hlink, htail]

/-- The dispatch stage sets at most one link. -/
theorem State.RegsAfter.dispatch {s u v : State} {i : Instr} (h : s.RegsAfter 5 u) (hev : u.Serves .dispatch i)
    (hv : Served u i .dispatch v) : s.RegsAfter 6 v where
  cfg   := hv.cfg_eq.trans h.cfg
  start := nofun
  head  := fun h6 => by omega
  regs  := by
    obtain ⟨hx, htail⟩ := hv.regs_eq nofun
    obtain ⟨links, hcommit, hlink⟩ := h.regs
    have hcommit' : s.CommitsAtMost v links := by
      rcases hcommit with ⟨hux, hl⟩ | ⟨e, r, w, h1, h2, h3, h4, h5, h6⟩
      · exact .inl ⟨hx.trans hux, hl⟩
      · exact .inr ⟨e, r, w, h1, h2, h3, htail.trans h4, hx.trans h5, h6⟩
    have hlink' : u.link = links := by
      rcases hlink with hlink | ⟨h6, -⟩
      · exact hlink
      · omega
    have hhead := h.head le_rfl
    refine ⟨links, hcommit', ?_⟩
    cases hv with
    | idle _ => exact .inl hlink'
    | @issued n k c hn _ _ hc =>
      obtain ⟨e, he, -, rfl, -⟩ := hev.dispatch hn
      obtain ⟨hdest, -⟩ := captureOf_some hc
      rw [State.issue_link]
      cases hcd : c.dest with
      | mem => exact .inl hlink'
      | none => exact .inl hlink'
      | reg r =>
        refine .inr ⟨by decide, n, _, r, (State.oneEntry_issue he _ k c).at_n, rfl, ?_, ?_, ?_, ?_⟩
        · rw [State.issue_cycle]
        · rw [hhead]
        · rw [State.issue_cfg]
          exact hdest.symm.trans hcd
        · rw [State.issue_link, hcd, renamed, hlink', hhead]

theorem regsAfter_keptByStages (s : State) : KeptByStages s.RegsAfter where
  mono     := fun k u h => ⟨h.cfg, nofun, fun hk => h.head (by omega), by
    obtain ⟨links, hcommit, hlink⟩ := h.regs
    exact ⟨links, hcommit, hlink.imp id fun hl => ⟨by omega, hl.2⟩⟩⟩
  served   := fun ev i u v h hev hst => by
    obtain ⟨w, hw, rfl⟩ := serve_served_any hst
    have hrest {k : Nat} (hk : s.RegsAfter k w) : s.RegsAfter k { w with event := .dispatch } :=
      ⟨hk.cfg, hk.start, hk.head, hk.regs⟩
    cases ev with
    | commit      => exact hrest (h.commit hw)
    | dispatch    => exact hrest (h.dispatch hev hw)
    | broadcast n => exact hrest (h.other hw nofun nofun (Nat.le_succ _) (Nat.le_add_left _ _) (by change 2 ≤ 5; decide))
    | storeTick n => exact hrest (h.other hw nofun nofun le_rfl (Nat.le_add_left _ _) (by change 3 ≤ 5; decide))
    | countdown n => exact hrest (h.other hw nofun nofun le_rfl (Nat.le_add_left _ _) (by change 4 ≤ 5; decide))
    | start p k   => exact hrest (h.other hw nofun nofun le_rfl (Nat.le_add_left _ _) le_rfl)
  prefetch := fun u v h hst => by
    obtain ⟨m, -, rfl⟩ := prefetchTick_next hst
    exact ⟨h.cfg, h.start, h.head, h.regs⟩
  settled  := fun u h => ⟨h.cfg, h.start, h.head, h.regs⟩

/-- Settles O45: registers change in the commit stage, links there and in the dispatch stage, each once. -/
theorem onlyCommitWritesRegisters : Obligations.OnlyCommitWritesRegisters := by
  intro s t hst
  rcases step_cases hst with ⟨st, rfl⟩ | htick
  · exact ⟨s.link, .inl ⟨rfl, rfl⟩, .inl rfl⟩
  · have hstart : s.RegsAfter 0 { s with cycle := s.cycle + 1 } :=
      ⟨rfl, fun _ => ⟨rfl, rfl, rfl, rfl⟩, fun _ => rfl, s.link, .inl ⟨rfl, rfl⟩, .inl rfl⟩
    obtain ⟨links, hcommit, hlink⟩ := ((regsAfter_keptByStages s).tick hstart htick).regs
    exact ⟨links, hcommit, hlink.imp id fun h => h.2⟩

end Sys2Proof.Machine
end

section
/-! PROOF. The state after reset meets every invariant: all caches, the reorder buffer, the pools and the links are empty and
no instruction has started. -/

namespace Sys2Proof.Machine

/-! ## A reset controller -/

/-- Every line of a reset level is the reset line, which is not valid (20_memory.md R90). -/
theorem CacheLevel.reset_lines {rows ways r w : Nat} {row : List CacheEntry} {e : CacheEntry}
    (hrow : (CacheLevel.reset rows ways).lines[r]? = some row) (he : row[w]? = some e) : e = CacheEntry.reset := by
  have hrow' := List.eq_of_mem_replicate (List.mem_of_getElem? hrow)
  subst hrow'
  exact List.eq_of_mem_replicate (List.mem_of_getElem? he)

theorem CacheLevel.good_reset (rows ways n : Nat) : (CacheLevel.reset rows ways).Good rows ways n where
  shaped :=
    { lines   := List.length_replicate
      lineRow := fun _ h => by rw [List.eq_of_mem_replicate h, List.length_replicate]
      ranks   := List.length_replicate
      rankRow := fun _ h => by rw [List.eq_of_mem_replicate h, List.length_range] }
  unique := by
    intro row hrow v w d e hd _ vd
    obtain ⟨r, hr⟩ := List.mem_iff_getElem?.1 hrow
    rw [CacheLevel.reset_lines hr hd] at vd
    cases vd
  range  := by
    intro r w row e hrow he ve
    rw [CacheLevel.reset_lines hrow he] at ve
    cases ve

/-- A reset level holds no address. -/
theorem CacheLevel.find_reset (rows ways q a : Nat) : (CacheLevel.reset rows ways).find q a = none := by
  cases hf : (CacheLevel.reset rows ways).find q a with
  | none => rfl
  | some p =>
    obtain ⟨w, e⟩ := p
    obtain ⟨he, ve, -⟩ := CacheLevel.find_some hf
    rw [CacheLevel.reset_lines (CacheLevel.row_line he) he] at ve
    cases ve

theorem MemCtl.reset_shaped {cfg : Config} {mem : Mem} (hwf : Mem.wf mem) (hrange : ∀ c ∈ mem, c.1 < cfg.memSize) :
    (MemCtl.reset cfg mem).Shaped cfg := by
  obtain ⟨hs1, hu1, hr1⟩ := CacheLevel.good_reset cfg.l1Rows cfg.l1Ways cfg.memSize
  obtain ⟨hs2, hu2, hr2⟩ := CacheLevel.good_reset cfg.l2Rows cfg.l2Ways cfg.memSize
  exact ⟨hs1, hs2, hu1, hu2, hr1, hr2, hwf, hrange, .nil, nofun, .nil, nofun, Nat.zero_le _, nofun, nofun⟩

/-- Empty levels and an empty prefetch queue cannot disagree with memory. -/
theorem MemCtl.reset_coherent (cfg : Config) (mem : Mem) : (MemCtl.reset cfg mem).Coherent cfg where
  clean2 := fun a w e hf => by cases (CacheLevel.find_reset cfg.l2Rows cfg.l2Ways cfg.l2Rows a).symm.trans hf
  clean1 := fun a w e hf => by cases (CacheLevel.find_reset cfg.l1Rows cfg.l1Ways cfg.l1Rows a).symm.trans hf
  queued := nofun

/-! ## The reset state over any launch inputs -/

/-- Launch inputs that a reset turns into a state of the machine: a legal configuration, a table of well-formed instructions
not started, a canonical memory image in range and one word per register (70_reset_and_hazards.md R440). -/
structure LaunchInputs (cfg : Config) (table : List Entry) (mem : Mem) (regInit : List Word) : Prop where
  legal    : cfg.Legal
  fresh    : ∀ t ∈ table, t = Entry.fresh t.ins
  wf       : ∀ t ∈ table, t.ins.wf cfg.nRegs = true
  memWf    : Mem.wf mem
  memRange : ∀ c ∈ mem, c.1 < cfg.memSize
  regs     : regInit.length = cfg.nRegs

theorem resetRegs_length (cfg : Config) (regInit : List Word) : (resetRegs cfg regInit).length = regInit.length := by
  unfold resetRegs
  split
  · exact List.length_set
  · rfl

theorem Entry.fresh_consistent (i : Instr) : (Entry.fresh i).Consistent :=
  ⟨fun _ => rfl, nofun, nofun, nofun, nofun, ⟨nofun, fun ⟨_, h⟩ => nomatch h⟩, nofun⟩

section
variable {cfg : Config} {table : List Entry} {errors : List (Nat × Word)} {mem : Mem} {regInit : List Word}

theorem State.resetWith_link (r : Nat) (t : Tag) :
    (State.resetWith cfg table errors mem regInit).link[r]? ≠ some (some t) :=
  fun h => nomatch List.eq_of_mem_replicate (List.mem_of_getElem? h)

theorem State.resetWith_robAt (t : Tag) : (State.resetWith cfg table errors mem regInit).robAt t = none := by
  simp only [State.robAt, State.resetWith, List.getElem?_replicate]
  split <;> rfl

theorem State.resetWith_slot (p : PoolId) (k : Nat) : (State.resetWith cfg table errors mem regInit).slot p k = none := by
  have hempty (n : Nat) : ((List.replicate n (none : Option RsEntry))[k]?).join = none := by
    rw [List.getElem?_replicate]
    split <;> rfl
  cases p
  · exact hempty cfg.capAdd
  · exact hempty cfg.capMul
  · exact hempty cfg.capLsq

namespace LaunchInputs
variable (h : LaunchInputs cfg table mem regInit)
include h

/-- No entry of the table has started. -/
theorem state_eq {t : Entry} (ht : t ∈ table) : t.state = .notStarted := by
  rw [h.fresh t ht]
  rfl

theorem shaped : (State.resetWith cfg table errors mem regInit).Shaped := by
  obtain ⟨⟨hregs, -⟩, hrob, -⟩ := h.legal
  exact
    { legal   := h.legal
      x       := (resetRegs_length cfg regInit).trans h.regs
      link    := List.length_replicate
      rob     := List.length_replicate
      robHead := hrob
      robTail := hrob
      addPool := List.length_replicate
      mulPool := List.length_replicate
      lsq     := List.length_replicate
      ins     := h.wf
      ea      := fun t ht ea hea => by
        rw [h.fresh t ht] at hea
        cases hea
      x0      := fun hx => by
        have hlen : 0 < regInit.length := h.regs ▸ hregs
        have hx' : cfg.x0Zero = true := hx
        simp only [State.resetWith, resetRegs]
        rw [if_pos hx', List.getElem?_set_self hlen]
      x0Dest  := fun _ _ he => nomatch List.eq_of_mem_replicate he
      mc      := MemCtl.reset_shaped h.memWf h.memRange
      event   := rfl }

theorem consistent : (State.resetWith cfg table errors mem regInit).Consistent where
  entry      := fun t ht => h.fresh t ht ▸ Entry.fresh_consistent t.ins
  inOrder    := fun _ _ _ _ _ _ hu _ => h.state_eq (List.mem_of_getElem? hu)
  robEntry   := fun i _ he => nomatch (State.resetWith_robAt i).symm.trans he
  inFlight   := fun _ t ht hs => by
    rw [h.state_eq (List.mem_of_getElem? ht)] at hs
    cases hs
  station    := fun p k _ he => nomatch (State.resetWith_slot p k).symm.trans he
  waiting    := fun _ t ht hs => by
    rw [h.state_eq (List.mem_of_getElem? ht)] at hs
    cases hs
  oneStation := fun p k _ _ _ he => nomatch (State.resetWith_slot p k).symm.trans he
  operands   := fun p k _ _ he => nomatch (State.resetWith_slot p k).symm.trans he

/-- No entry holds a busy bit, and none is set. -/
theorem busyHeld : (State.resetWith cfg table errors mem regInit).BusyHeld := by
  have hnone {n a : Nat} {t : Entry} (ht : table[n]? = some t) : ¬ t.holdsBusy a := by
    rw [h.fresh t (List.mem_of_getElem? ht)]
    rintro ⟨⟨hs, -⟩ | hw, -⟩
    · cases hs
    · cases hw
  exact ⟨nofun, fun _ _ _ ht hb => absurd hb (hnone ht), fun _ _ _ _ _ ht _ hb => absurd hb (hnone ht)⟩

/-- The empty reorder buffer holds the empty run of instructions before the first. -/
theorem robOrdered : (State.resetWith cfg table errors mem regInit).RobOrdered := by
  refine ⟨0, 0, Nat.zero_le _, (Nat.zero_mod _).symm, nofun, fun i _ _ => State.resetWith_robAt _, fun n t ht => ?_⟩
  rw [h.state_eq (List.mem_of_getElem? ht)]
  exact ⟨⟨nofun, nofun⟩, ⟨fun _ => Nat.zero_le _, fun _ => rfl⟩⟩

end LaunchInputs

/-- An empty link file names nothing. -/
theorem State.resetWith_links : (State.resetWith cfg table errors mem regInit).LinksNameProducers :=
  fun r t hl => absurd hl (State.resetWith_link r t)

theorem State.resetWith_youngest : (State.resetWith cfg table errors mem regInit).LinksNameYoungest :=
  fun r t _ _ _ hl => absurd hl (State.resetWith_link r.toNat t)

end

/-! ## The model's own reset state -/

theorem Config.default_legal : Config.default.Legal := by
  unfold Config.Legal
  decide

theorem launchInputs_default : LaunchInputs Config.default [] [] (List.replicate Config.default.nRegs 0#32) :=
  { legal := Config.default_legal
    fresh := List.forall_mem_nil _
    wf := List.forall_mem_nil _
    memWf := ⟨.nil, List.forall_mem_nil _⟩
    memRange := List.forall_mem_nil _
    regs := List.length_replicate }

/-- Settles O9: the model's reset is a reset over launch inputs, and each invariant holds of those. -/
theorem resetMeetsInvariants : Obligations.ResetMeetsInvariants :=
  ⟨launchInputs_default.shaped, State.resetWith_links, MemCtl.reset_coherent _ _, launchInputs_default.consistent,
    launchInputs_default.busyHeld, launchInputs_default.robOrdered, State.resetWith_youngest⟩

end Sys2Proof.Machine
end

section
/-! SUPPORT and PROOF. The first tick after a reset: with nothing in flight the stages before the dispatch do nothing, and the
dispatch serves the first instruction of the table. -/

namespace Sys2Proof.Machine

/-! ## Nothing in flight -/

/-- Nothing is in flight: the reorder buffer, the pools and the prefetch queue are empty and no instruction has started. -/
structure State.Unstarted (s : State) : Prop where
  rob   : ∀ t, s.robAt t = none
  slot  : ∀ p k, s.slot p k = none
  fresh : ∀ t ∈ s.table, t = Entry.fresh t.ins
  queue : s.mc.pfq = []

/-- A reset state has nothing in flight (70_reset_and_hazards.md R440). -/
theorem State.resetWith_unstarted {cfg : Config} {table : List Entry} {errors : List (Nat × Word)} {mem : Mem}
    {regInit : List Word} (h : ∀ t ∈ table, t = Entry.fresh t.ins) :
    (State.resetWith cfg table errors mem regInit).Unstarted :=
  ⟨State.resetWith_robAt, State.resetWith_slot, h, rfl⟩

theorem thenRun_idle {s : State} {f : State → Out} (h : f s = .next s) : thenRun (.next s) f = .next s := by
  simp only [thenRun]
  split
  · exact h
  · rfl

theorem sweep_idle {s : State} {pick : State → Entry → Bool} {ev : Nat → Event}
    (h : ∀ t ∈ s.table, pick s t = false) (ns : List Nat) : sweep pick ev ns s = .next s := by
  induction ns with
  | nil => rfl
  | cons n ns ih =>
    unfold sweep
    split
    · exact ih
    · rename_i t ht
      rw [h t (List.mem_of_getElem? ht)]
      exact ih

theorem tryStart_idle {s : State} {p : PoolId} (h : ∀ k, s.slot p k = none) (ks : List Nat) :
    tryStart p ks s = .next s := by
  induction ks with
  | nil => rfl
  | cons k ks ih =>
    rw [tryStart, h k]
    exact ih

/-- A prefetch tick with an empty queue. -/
theorem MemCtl.pfTick_idle {m : MemCtl} (cfg : Config) (cycle : Nat) (h : m.pfq = []) : m.pfTick cfg cycle = .ok m () := by
  obtain ⟨mem, busy, l1, l2, pfq, pfMark, cnt, out⟩ := m
  dsimp only at h
  subst h
  rfl

namespace State.Unstarted
variable {s : State} (h : s.Unstarted)
include h

theorem commitStage_idle : commitStage s = .next s := by
  rw [commitStage, h.rob]

theorem broadcastStage_idle : broadcastStage s = .next s := by
  have hnone : s.busWinner = none := by
    cases hb : s.busWinner with
    | none => rfl
    | some n =>
      obtain ⟨t, ht, hs⟩ := State.busWinner_some hb
      rw [h.fresh t (List.mem_of_getElem? ht)] at hs
      cases hs
  rw [broadcastStage, hnone]

theorem memTickStage_idle : memTickStage s = .next s := by
  have hsweep : sweep writesThisTick Event.storeTick (List.range s.table.length) s = .next s :=
    sweep_idle (fun t ht => by rw [h.fresh t ht]; rfl) _
  rw [memTickStage, hsweep]
  refine thenRun_idle ?_
  rw [prefetchTick, MemCtl.pfTick_idle _ _ h.queue]
  rfl

theorem executeStage_idle : executeStage s = .next s := by
  have hfinish : finishPhase s = .next s := sweep_idle (fun t ht => by rw [h.fresh t ht]; rfl) _
  have hstart (p : PoolId) : startPool p s = .next s := tryStart_idle (h.slot p) _
  rw [executeStage, hfinish]
  refine thenRun_idle ?_
  rw [hstart .lsq]
  refine thenRun_idle ?_
  rw [hstart .add]
  exact thenRun_idle (hstart .mul)

/-- A tick with nothing in flight is its dispatch stage and its end (R220, R285, R296). -/
theorem tick_eq (hrun : s.status = .running) :
    tick s = thenRun (dispatchStage { s with cycle := s.cycle + 1 }) fun u => .next u.clearSettle := by
  have hnext : State.Unstarted { s with cycle := s.cycle + 1 } :=
    ⟨h.rob, fun p k => by rw [← h.slot p k]; cases p <;> rfl, h.fresh, h.queue⟩
  have hgo (f : State → Out) :
      thenRun (.next { s with cycle := s.cycle + 1 }) f = f { s with cycle := s.cycle + 1 } :=
    if_pos hrun
  rw [tick, hnext.commitStage_idle, hgo, hnext.broadcastStage_idle, hgo, hnext.memTickStage_idle, hgo,
    hnext.executeStage_idle, hgo]

end State.Unstarted

/-! ## The dispatch that ends the first tick -/

/-- When the first entry of the table has not started, the dispatch stage serves it. -/
theorem dispatchStage_first {s : State} {i : Instr} {es : List Entry} (h : s.table = Entry.fresh i :: es) :
    dispatchStage s = serve .dispatch i s := by
  have hdptr : s.dptr = some 0 := by
    rw [State.dptr, h]
    rfl
  rw [dispatchStage, hdptr, h]
  rfl

/-- A run with entries not started is not complete (R221). -/
theorem allTerminal_fresh {s : State} {i : Instr} {es : List Entry} (h : s.table = Entry.fresh i :: es) :
    s.allTerminal = false := by
  rw [State.allTerminal, h]
  rfl

/-- A running pass short of the iteration cap, with work left, is a tick (R221). -/
theorem step_eq_tick {s : State} (hrun : s.status = .running) (hall : s.allTerminal = false)
    (hcap : s.cycle < s.cfg.maxCycles) : step s = tick s := by
  rw [step, if_pos hrun, runPass, if_neg (by rw [hall]; decide), if_neg (Nat.not_le.2 hcap)]

/-- The first step of a state with nothing in flight is `exec` of the first instruction, followed by the end of the tick. -/
theorem State.Unstarted.step_eq {s u : State} {i : Instr} {es : List Entry} (h : s.Unstarted)
    (hrun : s.status = .running) (htable : s.table = Entry.fresh i :: es) (hcap : s.cycle < s.cfg.maxCycles)
    (hu : exec i { s with cycle := s.cycle + 1, event := .dispatch } = .next u) :
    step s = .next ({ u with event := .dispatch } : State).clearSettle := by
  have hserve : serve .dispatch i { s with cycle := s.cycle + 1 } = .next { u with event := .dispatch } :=
    serve_next.2 ⟨u, hu, rfl⟩
  have hstatus : u.status = .running := ((exec_served hu).ctl_eq (.inl rfl)).2.trans hrun
  rw [step_eq_tick hrun (allTerminal_fresh htable) hcap, h.tick_eq hrun,
    dispatchStage_first (s := { s with cycle := s.cycle + 1 }) htable, hserve]
  exact if_pos hstatus

/-! ## The loaded word -/

/-- Loading a word that decodes, after a reset, is a reset over a table of one instruction (log 4). -/
theorem withFetchWord_reset {w : Nat} {i : Instr} (h : decodeTableWord 32 w = some i) :
    State.reset.withFetchWord 32 w =
      State.resetWith Config.default [Entry.fresh i] [] [] (List.replicate Config.default.nRegs 0#32) := by
  have hd : decode State.reset.cfg.nRegs (BitVec.ofNat 32 (w % 2 ^ 32)) = some i := h
  rw [State.withFetchWord, State.loadWord, hd]
  rfl

/-- An instruction that decodes has registers that exist (30_encoding.md R187). -/
theorem decodeWith_regs {nRegs : Nat} {w : Word} {i : Instr} (rows : List DecodeRow)
    (h : decodeWith nRegs w rows = some i) : i.regsOk nRegs = true := by
  induction rows with
  | nil => cases h
  | cons row rows ih =>
    unfold decodeWith at h
    split at h
    · dsimp only at h
      split at h
      · cases h
        assumption
      · cases h
    · exact ih h

/-- A dispatch of an instruction whose registers exist answers. -/
theorem exec_dispatch_answers {s : State} {i : Instr} (hev : s.event = .dispatch) (hregs : i.regsOk s.cfg.nRegs = true)
    (hx : s.x.length = s.cfg.nRegs) (hl : s.link.length = s.cfg.nRegs) : ∃ u, exec i s = .next u := by
  have hlt : ∀ r ∈ i.regs, r.toNat < s.cfg.nRegs := fun r hr => by simpa using List.all_eq_true.1 hregs r hr
  obtain ⟨c, hc⟩ := captureOf_answers (hx.symm ▸ hlt) (hl.symm ▸ hlt)
  rw [exec_dispatch i hev]
  exact dispatchAs_answers hc

/-- Settles O41: after a reset nothing is in flight, so the first step is the dispatch of the loaded instruction. -/
theorem stepRunsLoadedWord : Obligations.StepRunsLoadedWord := by
  intro w i h
  have hregs : i.regsOk 32 = true := decodeWith_regs decodeTable h
  have hfresh : ∀ t ∈ [Entry.fresh i], t = Entry.fresh t.ins := by
    rintro t ht
    rw [List.mem_singleton.1 ht]
    rfl
  have hx : State.reset.x.length = State.reset.cfg.nRegs := rfl
  have hl : State.reset.link.length = State.reset.cfg.nRegs := rfl
  obtain ⟨u, hu⟩ := exec_dispatch_answers
    (s := { State.reset with table := [Entry.fresh i], status := .running, cycle := 1 }) rfl hregs hx hl
  refine ⟨u, hu, ?_⟩
  rw [withFetchWord_reset h]
  exact (State.resetWith_unstarted hfresh).step_eq rfl rfl (show 0 < 10000 by decide) hu

end Sys2Proof.Machine
end

section
/-! SUPPORT. The coherent view (20_memory.md R140): a fill and a write-back change what a level and those below it hold at one
address, an eviction nowhere, so a demand read changes no view. -/

namespace Sys2Proof.Machine

/-! ## What the levels below level 1 hold -/

/-- The word of an address below level 1: its level-2 copy, or else memory. -/
def MemCtl.below (cfg : Config) (m : MemCtl) (a : Nat) : Word :=
  match m.l2.find cfg.l2Rows a with
  | some (_, f) => f.value
  | none => Mem.read m.mem a

section
variable {cfg : Config} {m : MemCtl} {a w : Nat} {e : CacheEntry}

theorem MemCtl.below_hit (h : m.l2.find cfg.l2Rows a = some (w, e)) : m.below cfg a = e.value := by
  rw [MemCtl.below, h]

theorem MemCtl.below_miss (h : m.l2.find cfg.l2Rows a = none) : m.below cfg a = Mem.read m.mem a := by
  rw [MemCtl.below, h]

theorem MemCtl.view_hit (h : m.l1.find cfg.l1Rows a = some (w, e)) : m.view cfg a = e.value := by
  rw [MemCtl.view, h]

theorem MemCtl.view_miss (h : m.l1.find cfg.l1Rows a = none) : m.view cfg a = m.below cfg a := by
  rw [MemCtl.view, h]
  rfl

end

/-- Level 2, memory and the queue agree: the clauses of `MemCtl.Coherent` that level 1 has no part in, with the shape. -/
structure MemCtl.Lower (cfg : Config) (m : MemCtl) : Prop where
  hierarchy : m.Hierarchy cfg
  clean2    : ∀ (a w : Nat) (e : CacheEntry), m.l2.find cfg.l2Rows a = some (w, e) → e.dirty = false →
    e.value = Mem.read m.mem a
  queued    : ∀ q ∈ m.pfq, q.value = Mem.read m.mem q.addr

/-- A hierarchy in shape and coherent, level 1 stated over `MemCtl.below`. -/
structure MemCtl.Whole (cfg : Config) (m : MemCtl) : Prop extends MemCtl.Lower cfg m where
  clean1 : ∀ (a w : Nat) (e : CacheEntry), m.l1.find cfg.l1Rows a = some (w, e) → e.dirty = false →
    e.value = m.below cfg a

theorem MemCtl.Shaped.whole {cfg : Config} {m : MemCtl} (h : m.Shaped cfg) (hc : m.Coherent cfg) : m.Whole cfg :=
  ⟨⟨h.hierarchy, hc.clean2, hc.queued⟩, hc.clean1⟩

theorem MemCtl.Whole.coherent {cfg : Config} {m : MemCtl} (h : m.Whole cfg) : m.Coherent cfg :=
  ⟨h.clean2, h.clean1, h.queued⟩

/-- Counters, busy bits and marks play no part in coherence, nor does a touch. -/
theorem MemCtl.Whole.congr {cfg : Config} {m m' : MemCtl} (h : m.Whole cfg) (hh : m'.Hierarchy cfg)
    (h1 : m'.l1.lines = m.l1.lines) (h2 : m'.l2.lines = m.l2.lines) (hmem : m'.mem = m.mem) (hq : m'.pfq = m.pfq) :
    m'.Whole cfg ∧ m'.below cfg = m.below cfg ∧ m'.view cfg = m.view cfg := by
  have hf1 (a : Nat) : m'.l1.find cfg.l1Rows a = m.l1.find cfg.l1Rows a := CacheLevel.find_congr_lines h1 a
  have hf2 (a : Nat) : m'.l2.find cfg.l2Rows a = m.l2.find cfg.l2Rows a := CacheLevel.find_congr_lines h2 a
  have hbelow : m'.below cfg = m.below cfg := by
    funext a
    rw [MemCtl.below, hf2, hmem]
    rfl
  have hview : m'.view cfg = m.view cfg := by
    funext a
    rw [MemCtl.view, hf1, hf2, hmem]
    rfl
  refine ⟨⟨⟨hh, ?_, ?_⟩, ?_⟩, hbelow, hview⟩
  · intro a w e hf
    rw [hmem]
    exact h.clean2 a w e (hf2 a ▸ hf)
  · rw [hq, hmem]
    exact h.queued
  · intro a w e hf
    rw [hbelow]
    exact h.clean1 a w e (hf1 a ▸ hf)

/-! ## Level 2 -/

section
variable {cfg : Config} {m m' : MemCtl} (cycle : Nat) {a : Nat} {v : Word} {d : Bool}

/-- An eviction at level 2 leaves its victim's value in memory (20_memory.md R111). -/
theorem MemCtl.Lower.evict2_mem_victim (h : m.Lower cfg) (legal : cfg.Legal) {oa : Nat} {ov : Word}
    (hv : m.l2.victimLine cfg.l2Rows a = some (oa, ov, d)) : Mem.read (m.evict2 cfg cycle a).mem oa = ov := by
  obtain ⟨_, _, _, _, ⟨_, _, hrows, _⟩, _⟩ := legal
  rcases m.evict2_cases cfg cycle a with ⟨hno, -⟩ | ⟨oa', ov', hv', he⟩ | ⟨oa', ov', hv', he⟩
  · rw [hno] at hv
    cases hv
  · rw [hv'] at hv
    cases hv
    obtain ⟨l, hl, hval, hd, -⟩ := CacheLevel.find_victim h.hierarchy.l2.unique hrows hv'
    rw [he, ← hval]
    exact (h.clean2 oa _ l hl hd).symm
  · rw [hv'] at hv
    cases hv
    rw [he]
    exact Mem.read_write_same _ _ _ h.hierarchy.memWf

/-- It changes memory at no other address. -/
theorem MemCtl.evict2_mem_other {b : Nat} (hv : ∀ ov d, m.l2.victimLine cfg.l2Rows a ≠ some (b, ov, d)) :
    Mem.read (m.evict2 cfg cycle a).mem b = Mem.read m.mem b := by
  rcases m.evict2_cases cfg cycle a with ⟨-, he⟩ | ⟨oa, ov, -, he⟩ | ⟨oa, ov, hv', he⟩
  · rw [he]
  · rw [he]
  · rw [he]
    refine Mem.read_write_other _ _ _ _ ?_
    rintro rfl
    exact hv _ _ hv'

/-- The requests that an eviction leaves queued still hold what memory holds (20_memory.md R118). -/
theorem MemCtl.Lower.evict2_queued (h : m.Lower cfg) :
    ∀ q ∈ (m.evict2 cfg cycle a).pfq, q.value = Mem.read (m.evict2 cfg cycle a).mem q.addr := by
  rcases m.evict2_cases cfg cycle a with ⟨-, he⟩ | ⟨oa, ov, -, he⟩ | ⟨oa, ov, -, he⟩
  · rw [he]
    exact h.queued
  · rw [he]
    exact h.queued
  · rw [he]
    intro q hq
    obtain ⟨hq, hne⟩ := List.mem_filter.1 hq
    exact (h.queued q hq).trans (Mem.read_write_other _ _ _ _ (bne_iff_ne.1 hne)).symm

/-- A fill of level 2 changes what is below level 1 at its address alone; a clean one must fill what memory holds. -/
theorem MemCtl.Lower.fill2 (h : m.Lower cfg) (legal : cfg.Legal) (ha : a < cfg.memSize)
    (hd : d = false → v = Mem.read m.mem a) (e : m.fill2 cfg cycle a v d = .ok m' ()) :
    m'.Lower cfg ∧ m'.below cfg = Function.update (m.below cfg) a v := by
  have hh := h.hierarchy.fill2 cycle ha e
  obtain ⟨hno, rfl⟩ := (MemCtl.fill2_ok cfg cycle m m' a v d ()).1 e
  have hnone := CacheLevel.holds_eq_false.1 hno
  have hevict {oa : Nat} {ov : Word} {d' : Bool} (hv : m.l2.victimLine cfg.l2Rows a = some (oa, ov, d')) :=
    h.evict2_mem_victim cycle legal hv
  have hl2 := h.hierarchy.l2
  obtain ⟨_, _, _, _, ⟨_, _, hrows, hways⟩, _⟩ := legal
  have hsame := hl2.find_put_same (v := v) (d := d) ha hnone (hl2.shaped.victim_lt hways (Nat.mod_lt _ hrows))
  have hvict {b : Nat} (hv : ∃ ov d', m.l2.victimLine cfg.l2Rows a = some (b, ov, d')) :
      (m.l2.put cfg.l2Rows a v d).find cfg.l2Rows b = none := by
    obtain ⟨ov, d', hv⟩ := hv
    exact hl2.find_put_victim hrows ha hnone hv
  have hother {b : Nat} (hab : b ≠ a) (hv : ¬ ∃ ov d', m.l2.victimLine cfg.l2Rows a = some (b, ov, d')) :
      (m.l2.put cfg.l2Rows a v d).find cfg.l2Rows b = m.l2.find cfg.l2Rows b :=
    hl2.find_put_other ha hnone hab fun ov d' hv' => hv ⟨ov, d', hv'⟩
  have hmem {b : Nat} (hv : ¬ ∃ ov d', m.l2.victimLine cfg.l2Rows a = some (b, ov, d')) :
      Mem.read (m.evict2 cfg cycle a).mem b = Mem.read m.mem b :=
    MemCtl.evict2_mem_other cycle fun ov d' hv' => hv ⟨ov, d', hv'⟩
  have hnovict : ¬ ∃ ov d', m.l2.victimLine cfg.l2Rows a = some (a, ov, d') := fun hv => by
    rw [hvict hv] at hsame
    cases hsame
  refine ⟨⟨hh, ?_, h.evict2_queued cycle⟩, ?_⟩
  · intro b w l hl hdl
    dsimp only at hl ⊢
    by_cases hab : b = a
    · subst hab
      rw [hsame] at hl
      cases hl
      rw [hmem hnovict]
      exact hd hdl
    · have hv : ¬ ∃ ov d', m.l2.victimLine cfg.l2Rows a = some (b, ov, d') := fun hv => by
        rw [hvict hv] at hl
        cases hl
      rw [hother hab hv] at hl
      rw [hmem hv]
      exact h.clean2 b w l hl hdl
  · funext b
    by_cases hab : b = a
    · subst hab
      rw [Function.update_self, MemCtl.below_hit hsame]
    · rw [Function.update_of_ne hab]
      by_cases hv : ∃ ov d', m.l2.victimLine cfg.l2Rows a = some (b, ov, d')
      · rw [MemCtl.below_miss (hvict hv)]
        obtain ⟨ov, d', hv⟩ := hv
        obtain ⟨l, hl, rfl, -, -⟩ := CacheLevel.find_victim hl2.unique hrows hv
        rw [MemCtl.below_hit hl]
        exact hevict hv
      · rw [MemCtl.below, MemCtl.below, hother hab hv, hmem hv]

/-- A write-back changes what is below level 1 at its address alone. -/
theorem MemCtl.Lower.writeback2 (h : m.Lower cfg) (legal : cfg.Legal) (ha : a < cfg.memSize)
    (e : m.writeback2 cfg cycle a v = .ok m' ()) :
    m'.Lower cfg ∧ m'.below cfg = Function.update (m.below cfg) a v := by
  have hh := h.hierarchy.writeback2 cycle ha e
  unfold MemCtl.writeback2 at e
  split at e
  · rename_i w l hf
    cases e
    have hfind := h.hierarchy.l2.find_writeHit v hf
    refine ⟨⟨hh, ?_, h.queued⟩, ?_⟩
    · intro b u f hb hd
      dsimp only at hb ⊢
      rw [hfind] at hb
      split at hb
      · cases hb
        cases hd
      · exact h.clean2 b u f hb hd
    · funext b
      rw [MemCtl.below, hfind]
      by_cases hab : b = a
      · subst hab
        rw [if_pos rfl, Function.update_self]
      · rw [if_neg hab, Function.update_of_ne hab]
        rfl
  · exact h.fill2 cycle (d := true) legal ha nofun e

end

/-! ## Level 1 -/

section
variable {cfg : Config} {m m' : MemCtl} (cycle : Nat) {a : Nat} {v : Word} {d : Bool}

/-- An eviction at level 1 leaves its victim's value below level 1 and changes nothing else there (20_memory.md R111). -/
theorem MemCtl.Whole.evict1 (h : m.Whole cfg) (legal : cfg.Legal) (e : m.evict1 cfg cycle a = .ok m' ()) :
    m'.Lower cfg ∧
    (∀ oa ov d, m.l1.victimLine cfg.l1Rows a = some (oa, ov, d) → m'.below cfg oa = ov) ∧
    ∀ b, (∀ ov d, m.l1.victimLine cfg.l1Rows a ≠ some (b, ov, d)) → m'.below cfg b = m.below cfg b := by
  obtain ⟨_, _, _, _, ⟨hrows, _⟩, _⟩ := id legal
  unfold MemCtl.evict1 at e
  split at e
  · rename_i oa ov hv
    obtain ⟨hlower, hbelow⟩ := h.writeback2 cycle legal (h.hierarchy.victim1_lt hv) e
    refine ⟨hlower, fun oa' ov' d' hv' => ?_, fun b hb => ?_⟩
    · rw [hv] at hv'
      cases hv'
      rw [hbelow, Function.update_self]
    · have hne : b ≠ oa := by
        rintro rfl
        exact hb _ _ hv
      rw [hbelow, Function.update_of_ne hne]
  · rename_i oa ov hv
    cases e
    refine ⟨h.toLower, fun oa' ov' d' hv' => ?_, fun b _ => rfl⟩
    rw [hv] at hv'
    cases hv'
    obtain ⟨l, hl, rfl, hd, -⟩ := CacheLevel.find_victim h.hierarchy.l1.unique hrows hv
    exact (h.clean1 oa _ l hl hd).symm
  · rename_i hv
    cases e
    refine ⟨h.toLower, fun oa' ov' d' hv' => ?_, fun b _ => rfl⟩
    rw [hv] at hv'
    cases hv'

/-- A fill of level 1 changes the view of its address alone; a clean one must fill what is below. -/
theorem MemCtl.Whole.fill1 (h : m.Whole cfg) (legal : cfg.Legal) (ha : a < cfg.memSize)
    (hd : d = false → v = m.below cfg a) (e : m.fill1 cfg cycle a v d = .ok m' ()) :
    m'.Whole cfg ∧ m'.view cfg = Function.update (m.view cfg) a v := by
  have hh := h.hierarchy.fill1 cycle ha e
  obtain ⟨hno, m1, h1, rfl⟩ := (MemCtl.fill1_ok cfg cycle m m' a v d ()).1 e
  have hnone := CacheLevel.holds_eq_false.1 hno
  have hl1 := h.hierarchy.l1
  obtain ⟨hlower, hevict, hkeep⟩ := h.evict1 cycle legal h1
  rw [MemCtl.evict1_l1 cycle h1] at hh ⊢
  obtain ⟨_, _, _, _, ⟨hrows, hways, _⟩, _⟩ := legal
  have hsame := hl1.find_put_same (v := v) (d := d) ha hnone (hl1.shaped.victim_lt hways (Nat.mod_lt _ hrows))
  have hvict {b : Nat} (hv : ∃ ov d', m.l1.victimLine cfg.l1Rows a = some (b, ov, d')) :
      (m.l1.put cfg.l1Rows a v d).find cfg.l1Rows b = none := by
    obtain ⟨ov, d', hv⟩ := hv
    exact hl1.find_put_victim hrows ha hnone hv
  have hother {b : Nat} (hab : b ≠ a) (hv : ¬ ∃ ov d', m.l1.victimLine cfg.l1Rows a = some (b, ov, d')) :
      (m.l1.put cfg.l1Rows a v d).find cfg.l1Rows b = m.l1.find cfg.l1Rows b :=
    hl1.find_put_other ha hnone hab fun ov d' hv' => hv ⟨ov, d', hv'⟩
  have hbelow {b : Nat} (hv : ¬ ∃ ov d', m.l1.victimLine cfg.l1Rows a = some (b, ov, d')) :
      MemCtl.below cfg { m1 with l1 := m.l1.put cfg.l1Rows a v d } b = m.below cfg b :=
    hkeep b fun ov d' hv' => hv ⟨ov, d', hv'⟩
  have hnovict : ¬ ∃ ov d', m.l1.victimLine cfg.l1Rows a = some (a, ov, d') := fun hv => by
    rw [hvict hv] at hsame
    cases hsame
  refine ⟨⟨⟨hh, hlower.clean2, hlower.queued⟩, ?_⟩, ?_⟩
  · intro b w l hl hdl
    dsimp only at hl
    by_cases hab : b = a
    · subst hab
      rw [hsame] at hl
      cases hl
      rw [hbelow hnovict]
      exact hd hdl
    · have hv : ¬ ∃ ov d', m.l1.victimLine cfg.l1Rows a = some (b, ov, d') := fun hv => by
        rw [hvict hv] at hl
        cases hl
      rw [hother hab hv] at hl
      rw [hbelow hv]
      exact h.clean1 b w l hl hdl
  · funext b
    by_cases hab : b = a
    · subst hab
      rw [Function.update_self, MemCtl.view_hit hsame]
    · rw [Function.update_of_ne hab]
      by_cases hv : ∃ ov d', m.l1.victimLine cfg.l1Rows a = some (b, ov, d')
      · rw [MemCtl.view_miss (hvict hv)]
        obtain ⟨ov, d', hv⟩ := hv
        obtain ⟨l, hl, rfl, -, -⟩ := CacheLevel.find_victim hl1.unique hrows hv
        rw [MemCtl.view_hit hl]
        exact hevict _ _ _ hv
      · cases hf : m.l1.find cfg.l1Rows b with
        | none => rw [MemCtl.view_miss hf, MemCtl.view_miss ((hother hab hv).trans hf), hbelow hv]
        | some p => rw [MemCtl.view_hit hf, MemCtl.view_hit ((hother hab hv).trans hf)]

/-! ## Reads -/

/-- A level-1 miss promotes what is below: a clean fill of that changes no view. -/
theorem MemCtl.Whole.promote (h : m.Whole cfg) (legal : cfg.Legal) (ha : a < cfg.memSize)
    (hmiss : m.l1.find cfg.l1Rows a = none) (hv : v = m.below cfg a) (e : m.fill1 cfg cycle a v false = .ok m' ()) :
    m'.Whole cfg ∧ m'.view cfg = m.view cfg := by
  obtain ⟨hw, hview⟩ := h.fill1 cycle legal ha (fun _ => hv) e
  refine ⟨hw, ?_⟩
  rw [hview, hv, ← MemCtl.view_miss hmiss, Function.update_eq_self]

theorem MemCtl.Whole.readHit2 {w : Nat} {l : CacheEntry} {r : Word × Nat} (h : m.Whole cfg) (legal : cfg.Legal)
    (ha : a < cfg.memSize) (hmiss : m.l1.find cfg.l1Rows a = none) (hf : m.l2.find cfg.l2Rows a = some (w, l))
    (e : m.readHit2 cfg cycle a w l = .ok m' r) : m'.Whole cfg ∧ m'.view cfg = m.view cfg ∧ r.1 = m.view cfg a := by
  rw [MemCtl.readHit2_eq] at e
  obtain ⟨m1, _, h1, e⟩ := Ctl.bind_ok.1 e
  cases e
  have hval : l.value = m.below cfg a := (MemCtl.below_hit hf).symm
  obtain ⟨hw, hbelow, hview⟩ := h.congr (h.hierarchy.countHit2 a w) (by rw [MemCtl.countHit2_l1])
    (by rw [MemCtl.countHit2_l2, CacheLevel.touch_lines]) (MemCtl.countHit2_mem ..) (MemCtl.countHit2_pfq ..)
  obtain ⟨hw1, hview1⟩ := hw.promote cycle legal ha (by rw [MemCtl.countHit2_l1]; exact hmiss)
    (hval.trans (congrFun hbelow a).symm) h1
  exact ⟨hw1, hview1.trans hview, hval.trans (MemCtl.view_miss hmiss).symm⟩

theorem MemCtl.Whole.readMiss {r : Word × Nat} (h : m.Whole cfg) (legal : cfg.Legal) (ha : a < cfg.memSize)
    (hmiss : m.l1.find cfg.l1Rows a = none) (hmiss2 : m.l2.find cfg.l2Rows a = none)
    (e : m.readMiss cfg cycle a = .ok m' r) : m'.Whole cfg ∧ m'.view cfg = m.view cfg ∧ r.1 = m.view cfg a := by
  obtain ⟨m2, _, h2, e⟩ := Ctl.bind_ok.1 e
  obtain ⟨m3, _, h3, e⟩ := Ctl.bind_ok.1 e
  cases e
  obtain ⟨hw1, hbelow1, -⟩ := h.congr (m' := { m with cnt := { m.cnt with l2Misses := m.cnt.l2Misses + 1 } })
    { h.hierarchy with } rfl rfl rfl rfl
  obtain ⟨hlower, hbelow2⟩ := hw1.fill2 cycle legal ha (fun _ => rfl) h2
  have hval : Mem.read m.mem a = m.below cfg a := (MemCtl.below_miss hmiss2).symm
  have hbelow : m2.below cfg = m.below cfg := by
    rw [hbelow2, hbelow1]
    exact (congrArg (Function.update (m.below cfg) a) hval).trans (Function.update_eq_self a _)
  have hl1 : m2.l1 = m.l1 := (MemCtl.fill2_l1 h2 :)
  have hw2 : m2.Whole cfg := ⟨hlower, by rw [hl1, hbelow]; exact h.clean1⟩
  have hview2 : m2.view cfg = m.view cfg := by
    funext b
    cases hf : m.l1.find cfg.l1Rows b with
    | none => rw [MemCtl.view_miss hf, MemCtl.view_miss (hl1 ▸ hf), hbelow]
    | some p => rw [MemCtl.view_hit hf, MemCtl.view_hit (hl1 ▸ hf)]
  obtain ⟨hw3, hview3⟩ := hw2.promote cycle legal ha (hl1 ▸ hmiss) (hval.trans (congrFun hbelow a).symm) h3
  exact ⟨hw3, hview3.trans hview2, hval.trans (MemCtl.view_miss hmiss).symm⟩

/-- A demand read changes no view, and answers the view of its address (20_memory.md R140). -/
theorem MemCtl.Whole.read {r : Word × Nat} (h : m.Whole cfg) (legal : cfg.Legal) (ha : a < cfg.memSize)
    (e : MemCtl.read cfg cycle m a = .ok m' r) :
    m'.Whole cfg ∧ m'.view cfg = m.view cfg ∧ r.1 = m.view cfg a := by
  have hh := h.hierarchy.read cycle ha e
  unfold MemCtl.read at e
  split at e
  · rename_i w l hf
    cases e
    obtain ⟨hw, -, hview⟩ := h.congr hh rfl rfl rfl rfl
    exact ⟨hw, hview, (MemCtl.view_hit hf).symm⟩
  · rename_i hmiss
    obtain ⟨hw, -, hview⟩ := h.congr (m' := { m with cnt := { m.cnt with l1Misses := m.cnt.l1Misses + 1 } })
      { h.hierarchy with } rfl rfl rfl rfl
    rw [← hview]
    dsimp only at e
    split at e
    · rename_i w l hf
      exact hw.readHit2 cycle legal ha hmiss hf e
    · rename_i hmiss2
      exact hw.readMiss cycle legal ha hmiss hmiss2 e

end

/-- Issuing a prefetch changes no view. -/
theorem MemCtl.pfIssue_view (cfg : Config) (cycle : Nat) (m : MemCtl) (a : Nat) :
    (m.pfIssue cfg cycle a).view cfg = m.view cfg := by
  obtain ⟨-, h1, h2, -, -⟩ := m.pfIssue_frame cfg cycle a
  funext b
  rw [MemCtl.view, h1, h2, MemCtl.pfIssue_mem]
  rfl

end Sys2Proof.Machine
end

section
/-! PROOF. What every instruction leaves unchanged at each event. -/

namespace Sys2Proof.Machine

/-! ## The served entry -/

/-- The table entry that an event is about (40_scheduler.md R236, R241, R252, R262, R264, R285). -/
def State.ServesEntry (s : State) (m : Nat) : Event → Prop
  | .dispatch    => s.dptr = some m
  | .start p k   => ∃ e, s.slot p k = some e ∧ e.instr = m
  | .countdown n => n = m
  | .broadcast n => n = m
  | .commit      => ∃ e, s.robAt s.robTail = some e ∧ e.instr = m
  | .storeTick n => n = m

/-- Serving an event changes no entry of the table but the one the event is about. -/
theorem Served.table_other {s t : State} {i : Instr} {ev : Event} (h : Served s i ev t) {m : Nat}
    (hm : ¬ s.ServesEntry m ev) : t.table[m]? = s.table[m]? := by
  have slotNe {p : PoolId} {k : Nat} {e : RsEntry} {a b : Word} (hc : s.Candidate p k e a b)
      (hm : ¬ s.ServesEntry m (.start p k)) : e.instr ≠ m := fun he => hm ⟨e, hc.slot, he⟩
  have tailNe {e : RobEntry} (he : s.robAt s.robTail = some e) (hm : ¬ s.ServesEntry m .commit) : e.instr ≠ m :=
    fun hn => hm ⟨e, he, hn⟩
  cases h with
  | idle _ | raised _ _ _ => rfl
  | issued hn _ _ _ =>
    rw [State.issue_table, List.getElem?_modify_ne]
    rintro rfl
    exact hm hn
  | arith hc _ _ _ | store hc _ _ _ | div0 hc _ _ _ | load hc _ _ _ _ _ => simp [List.getElem?_modify_ne, slotNe hc hm]
  | counted _ _ | ended _ _ _ | loadEnded _ _ _ _ | valueSent _ _ _ _ | markSent _ _ _ | writeCounted _ _
  | written _ _ _ _ _ => simp [List.getElem?_modify_ne, show _ ≠ m from hm]
  | toReg he _ _ _ _ | toNone he _ _ _ | toMem he _ _ _ _ _ => simp [List.getElem?_modify_ne, tailNe he hm]

/-! ## The coherent view -/

/-- Busy bits and counters play no part in the view. -/
theorem MemCtl.view_congr {cfg : Config} {m m' : MemCtl} (h1 : m'.l1 = m.l1) (h2 : m'.l2 = m.l2) (hmem : m'.mem = m.mem) :
    m'.view cfg = m.view cfg := by
  funext a
  rw [MemCtl.view, h1, h2, hmem]
  rfl

/-- No event but a store's write changes the coherent view of an address (20_memory.md R140). -/
theorem Served.view_eq {s t : State} {i : Instr} {ev : Event} (h : Served s i ev t) (hev : ∀ n, ev ≠ .storeTick n)
    (legal : s.cfg.Legal) (hs : s.mc.Shaped s.cfg) (hc : s.mc.Coherent s.cfg) : t.mc.view s.cfg = s.mc.view s.cfg := by
  cases h with
  | writeCounted _ _ | written _ _ _ _ _ => exact absurd rfl (hev _)
  | @load p k e a b m v lat _ _ hr _ _ hm =>
    have hlt : (effectiveAddr a e.imm).toNat < s.cfg.memSize := of_decide_eq_true hr
    have hw : MemCtl.Whole s.cfg { s.mc with busy := s.mc.busy.insert (effectiveAddr a e.imm).toNat } :=
      MemCtl.Shaped.whole (hs.setBusy hlt) { hc with }
    obtain ⟨-, hview, -⟩ := hw.read s.cycle legal hlt hm
    rw [State.startLoad, State.beginExec_mc]
    exact (MemCtl.pfIssue_view s.cfg s.cycle m _).trans (hview.trans (MemCtl.view_congr rfl rfl rfl))
  | _ => exact MemCtl.view_congr (by simp) (by simp) (by simp)

/-- Settles O29: each clause is one of the frame rules of serving an event. -/
theorem instructionFrame : Obligations.InstructionFrame := by
  intro i s t h
  have hst := exec_served h
  refine ⟨⟨hst.cfg_eq, hst.decodeErrors_eq, hst.cycle_eq, hst.event_eq, hst.table_length⟩, hst.regs_eq, hst.link_eq,
    hst.robHead_eq, hst.rob_eq, hst.pools_eq, hst.ctl_eq, fun hev legal hs hc a => ?_, fun m hm => ?_⟩
  · rw [hst.cfg_eq]
    exact congrFun (hst.view_eq hev legal hs hc) a
  · have hserves : s.ServesEntry m s.event := by
      by_contra hno
      exact hm (hst.table_other hno)
    cases hev : s.event with
    | dispatch | start _ _ | countdown _ | broadcast _ | commit | storeTick _ =>
      rw [hev] at hserves
      exact hserves

end Sys2Proof.Machine
end

section
/-! PROOF. Register x0, under X0_ZERO and without it. -/

namespace Sys2Proof.Machine

/-! ## Captures of a register (40_scheduler.md R288) -/

section
variable {s : State} {r : RegIdx} {v w : Word} {l : Option Tag} {t : Tag} {e : RobEntry}

theorem State.cap_x0 (hx : s.x[r.toNat]? = some v) (hl : s.link[r.toNat]? = some l) (h0 : s.cfg.x0Zero = true ∧ r = 0#5) :
    s.cap r = some (.val 0#32) := by
  rw [State.cap, hx, hl]
  exact if_pos h0

theorem State.cap_free (hx : s.x[r.toNat]? = some v) (hl : s.link[r.toNat]? = some none)
    (h0 : ¬(s.cfg.x0Zero = true ∧ r = 0#5)) : s.cap r = some (.val v) := by
  rw [State.cap, hx, hl]
  exact if_neg h0

theorem State.cap_ready (hx : s.x[r.toNat]? = some v) (hl : s.link[r.toNat]? = some (some t))
    (h0 : ¬(s.cfg.x0Zero = true ∧ r = 0#5)) (he : s.robAt t = some e) (hv : e.value = .ready w) :
    s.cap r = some (.val w) := by
  rw [State.cap, hx, hl]
  dsimp only
  rw [if_neg h0, he]
  dsimp only
  rw [hv]

theorem State.cap_unready (hx : s.x[r.toNat]? = some v) (hl : s.link[r.toNat]? = some (some t))
    (h0 : ¬(s.cfg.x0Zero = true ∧ r = 0#5)) (hv : ∀ e w, s.robAt t = some e → e.value ≠ .ready w) :
    s.cap r = some (.wait t) := by
  rw [State.cap, hx, hl]
  dsimp only
  rw [if_neg h0]
  split
  · rename_i e he
    split
    · rename_i w hw
      exact absurd hw (hv e w he)
    · rfl
    · rfl
  · rfl

end

/-! ## A destination x0 -/

/-- The destination of an instruction that writes x0 (10_state.md R34, R47). -/
theorem destOf_x0 {cfg : Config} {rs1 rs2 : RegIdx} {imm : BitVec 12} {i : Instr}
    (hi : i ∈ [Instr.add 0#5 rs1 rs2, .sub 0#5 rs1 rs2, .mul 0#5 rs1 rs2, .div 0#5 rs1 rs2, .addi 0#5 rs1 imm,
      .lw 0#5 rs1 imm]) : destOf cfg i = if cfg.x0Zero then .none else .reg 0#5 := by
  simp only [List.mem_cons, List.not_mem_nil, or_false] at hi
  rcases hi with rfl | rfl | rfl | rfl | rfl | rfl <;> simp [destOf]

/-- A dispatch stalls and changes nothing, or issues with the destination of the instruction (40_scheduler.md R290 to
R293). -/
theorem exec_dispatch_next {i : Instr} {s t : State} (hev : s.event = .dispatch) (h : exec i s = .next t) :
    t = s ∨ ∃ n, t.link = renamed s.link (destOf s.cfg i) s.robHead ∧
      t.rob = s.rob.set s.robHead (some ⟨n, destOf s.cfg i, .unready⟩) := by
  have hst := exec_served h
  rw [hev] at hst
  cases hst with
  | idle _ => exact .inl rfl
  | @issued n k c _ _ _ hc =>
    obtain ⟨hdest, -⟩ := captureOf_some hc
    exact .inr ⟨n, by rw [State.issue_link, hdest], by rw [State.issue_rob, hdest]⟩

/-- A commit of a value to a register that exists (R232). -/
theorem exec_commit_reg {i : Instr} {s : State} {e : RobEntry} {u : Entry} {r : RegIdx} {w : Word}
    (hev : s.event = .commit) (he : s.robAt s.robTail = some e) (hd : e.dest = .reg r) (hw : e.value = .ready w)
    (hu : s.table[e.instr]? = some u) (hr : r.toNat < s.x.length) :
    exec i s = .next ((s.commitReg r w s.robTail).retire e.instr) := by
  rw [exec_commit i hev, commitTail, he]
  dsimp only
  rw [if_neg (by rw [hw]; nofun), hu]
  dsimp only
  rw [commitDest, hd, hw]
  exact if_pos hr

/-- Settles O17: captures and commits by the equations above, dispatches by the destination captured, and the register by
the shape that every step keeps. -/
theorem x0HardwiredToZero : Obligations.X0HardwiredToZero := by
  refine ⟨?capZero, ?capOrdinary, ?dispatchZero, ?dispatchOrdinary, ?commitOrdinary, ?stays⟩
  case capZero =>
    intro s v hz hx hl
    obtain ⟨l, hl⟩ := Option.ne_none_iff_exists'.1 hl
    exact State.cap_x0 hx hl ⟨hz, rfl⟩
  case capOrdinary =>
    intro s v l hz hx hl
    have h0 : ¬(s.cfg.x0Zero = true ∧ (0#5 : RegIdx) = 0#5) := fun h => by
      rw [hz] at h
      exact Bool.false_ne_true h.1
    refine ⟨?_, ?_⟩
    · rintro rfl
      exact State.cap_free hx hl h0
    · rintro t rfl
      exact ⟨fun e w he hw => State.cap_ready hx hl h0 he hw, State.cap_unready hx hl h0⟩
  case dispatchZero =>
    intro s t rs1 rs2 imm i hz hev hi h
    have hdest : destOf s.cfg i = .none := by rw [destOf_x0 hi, if_pos hz]
    rcases exec_dispatch_next hev h with rfl | ⟨n, hlink, hrob⟩
    · refine ⟨rfl, fun e he hnone => ?_⟩
      rw [hnone] at he
      cases he
    · rw [hdest] at hlink hrob
      refine ⟨hlink, fun e he _ => ?_⟩
      rw [State.robAt, hrob, List.getElem?_set, if_pos rfl] at he
      split at he <;> cases he
      rfl
  case dispatchOrdinary =>
    intro s t rs1 rs2 imm i hz hev hi h hne
    have hdest : destOf s.cfg i = .reg 0#5 := by rw [destOf_x0 hi, if_neg (by rw [hz]; exact Bool.false_ne_true)]
    rcases exec_dispatch_next hev h with rfl | ⟨n, hlink, hrob⟩
    · exact absurd rfl hne
    · rw [hdest] at hlink hrob
      exact ⟨hlink, n, hrob⟩
  case commitOrdinary =>
    intro i s e u w _ hev he hd hw hu hlen
    exact ⟨_, exec_commit_reg hev he hd hw hu hlen, rfl⟩
  case stays =>
    intro s t hs hz hst
    exact (stepKeepsShape s t hs hst).x0 ((step_keepsProgram hst).cfg.symm ▸ hz)

end Sys2Proof.Machine
end

section
/-! SUPPORT. One cache level over what lies below it: what the two hold together after an eviction, a fill and a write hit.
No bound on addresses is needed, so every address is covered, also those at and above MEM_SIZE. -/

namespace Sys2Proof.Machine

/-! ## A level with rows and ways, and distinct tags -/

/-- A level is good for some bound on its addresses, and has at least one row and one way. -/
structure CacheLevel.Tidy (rows ways : Nat) (c : CacheLevel) : Prop where
  rows_pos : 1 ≤ rows
  ways_pos : 1 ≤ ways
  good     : ∃ n, c.Good rows ways n

theorem CacheLevel.Good.mono {rows ways n k : Nat} {c : CacheLevel} (h : c.Good rows ways n) (hnk : n ≤ k) :
    c.Good rows ways k :=
  ⟨h.shaped, h.unique, fun r w row e hr he ve => (h.range r w row e hr he ve).trans_le hnk⟩

theorem CacheLevel.victimLine_of_addr {rows a b : Nat} {c : CacheLevel}
    (h : (c.victimLine rows a).map Prod.fst = some b) : ∃ ov d, c.victimLine rows a = some (b, ov, d) := by
  obtain ⟨⟨_, ov, d⟩, hv, rfl⟩ := Option.map_eq_some_iff.1 h
  exact ⟨ov, d, hv⟩

namespace CacheLevel.Tidy
variable {rows ways : Nat} {c : CacheLevel} (h : c.Tidy rows ways)
include h

theorem unique : c.UniqueTags := h.good.elim fun _ hn => hn.unique

/-- The bound can be taken above any address. -/
theorem good_above (a : Nat) : ∃ n, c.Good rows ways n ∧ a < n := by
  obtain ⟨n, hn⟩ := h.good
  exact ⟨max n (a + 1), hn.mono (le_max_left _ _), by omega⟩

theorem touch (r w : Nat) : (c.touch r w).Tidy rows ways :=
  ⟨h.rows_pos, h.ways_pos, h.good.imp fun _ hn => hn.touch r w⟩

theorem put {a : Nat} (v : Word) (d : Bool) (hnone : c.find rows a = none) : (c.put rows a v d).Tidy rows ways := by
  obtain ⟨n, hn, ha⟩ := h.good_above a
  exact ⟨h.rows_pos, h.ways_pos, n, hn.put v d ha hnone⟩

theorem writeHit {a w : Nat} {e : CacheEntry} (v : Word) (hf : c.find rows a = some (w, e)) :
    (c.writeHit rows a w e v).Tidy rows ways :=
  ⟨h.rows_pos, h.ways_pos, h.good.imp fun _ hn => hn.writeHit v hf⟩

theorem find_writeHit {a w : Nat} {e : CacheEntry} (v : Word) (hf : c.find rows a = some (w, e)) (b : Nat) :
    (c.writeHit rows a w e v).find rows b =
      if b = a then some (w, { e with value := v, dirty := true }) else c.find rows b :=
  h.good.elim fun _ hn => hn.find_writeHit v hf b

/-- A valid victim line is found at its own address. -/
theorem find_victim {a oa : Nat} {ov : Word} {d : Bool} (hv : c.victimLine rows a = some (oa, ov, d)) :
    ∃ w e, c.find rows oa = some (w, e) ∧ e.value = ov ∧ e.dirty = d := by
  obtain ⟨e, he, hval, hd, -⟩ := CacheLevel.find_victim h.unique h.rows_pos hv
  exact ⟨_, e, he, hval, hd⟩

theorem find_put_same {a : Nat} {v : Word} {d : Bool} (hnone : c.find rows a = none) :
    (c.put rows a v d).find rows a = some (c.victim (a % rows), ⟨true, d, a / rows, v⟩) := by
  obtain ⟨n, hn, ha⟩ := h.good_above a
  exact hn.find_put_same ha hnone (hn.shaped.victim_lt h.ways_pos (Nat.mod_lt _ h.rows_pos))

/-- What a lookup finds after a fill (20_memory.md R110): the new line, nothing at the victim's address, and elsewhere what it
found before. -/
theorem find_put {a : Nat} {v : Word} {d : Bool} (hnone : c.find rows a = none) (b : Nat) :
    (c.put rows a v d).find rows b =
      if b = a then some (c.victim (a % rows), ⟨true, d, a / rows, v⟩)
      else if (c.victimLine rows a).map Prod.fst = some b then none else c.find rows b := by
  obtain ⟨n, hn, ha⟩ := h.good_above a
  by_cases hab : b = a
  · subst hab
    rw [if_pos rfl, h.find_put_same hnone]
  · rw [if_neg hab]
    split
    · rename_i hv
      obtain ⟨ov, e, hv⟩ := CacheLevel.victimLine_of_addr hv
      exact hn.find_put_victim h.rows_pos ha hnone hv
    · rename_i hv
      exact hn.find_put_other ha hnone hab fun ov e hv' => hv (by rw [hv']; rfl)

end CacheLevel.Tidy

/-! ## A level and what lies below it -/

/-- What a level holds over `under`, the words that lie below it (20_memory.md R140). -/
def CacheLevel.over (rows : Nat) (c : CacheLevel) (under : Nat → Word) (a : Nat) : Word :=
  match c.find rows a with
  | some (_, e) => e.value
  | none => under a

/-- Every clean line of the level equals what lies below it (20_memory.md R140). -/
def CacheLevel.CleanOver (rows : Nat) (c : CacheLevel) (under : Nat → Word) : Prop :=
  ∀ (a w : Nat) (e : CacheEntry), c.find rows a = some (w, e) → e.dirty = false → e.value = under a

/-- What lies below the level when a fill of `a` has evicted its victim: a dirty victim is written there (20_memory.md R111). -/
def CacheLevel.spill (rows : Nat) (c : CacheLevel) (a : Nat) (under : Nat → Word) : Nat → Word :=
  match c.victimLine rows a with
  | some (oa, ov, true) => Function.update under oa ov
  | some (_, _, false) => under
  | none => under

section
variable {rows ways : Nat} {c : CacheLevel} {under : Nat → Word} {a w : Nat} {e : CacheEntry}

theorem CacheLevel.over_hit (h : c.find rows a = some (w, e)) : c.over rows under a = e.value := by
  rw [CacheLevel.over, h]

theorem CacheLevel.over_miss (h : c.find rows a = none) : c.over rows under a = under a := by
  rw [CacheLevel.over, h]

/-- Over a level that finds the same, the same words give the same. -/
theorem CacheLevel.over_congr {d : CacheLevel} (h : c.lines = d.lines) : c.over rows under = d.over rows under := by
  funext b
  rw [CacheLevel.over, CacheLevel.over, CacheLevel.find_congr_lines h]

theorem CacheLevel.spill_dirty {oa : Nat} {ov : Word} (h : c.victimLine rows a = some (oa, ov, true)) :
    c.spill rows a under = Function.update under oa ov := by
  rw [CacheLevel.spill, h]

theorem CacheLevel.spill_clean {oa : Nat} {ov : Word} (h : c.victimLine rows a = some (oa, ov, false)) :
    c.spill rows a under = under := by
  rw [CacheLevel.spill, h]

theorem CacheLevel.spill_none (h : c.victimLine rows a = none) : c.spill rows a under = under := by
  rw [CacheLevel.spill, h]

/-- An eviction changes what lies below at the victim's address alone. -/
theorem CacheLevel.spill_other {b : Nat} (h : (c.victimLine rows a).map Prod.fst ≠ some b) :
    c.spill rows a under b = under b := by
  cases hv : c.victimLine rows a with
  | none => rw [CacheLevel.spill_none hv]
  | some p =>
    obtain ⟨oa, ov, d⟩ := p
    cases d with
    | false => rw [CacheLevel.spill_clean hv]
    | true =>
      rw [CacheLevel.spill_dirty hv]
      refine Function.update_of_ne ?_ _ _
      rintro rfl
      exact h (by rw [hv]; rfl)

/-- An eviction leaves the victim's word below the level: a dirty one is written there, a clean one is there. -/
theorem CacheLevel.Tidy.spill_victim (h : c.Tidy rows ways) (hc : c.CleanOver rows under) {oa : Nat} {ov : Word} {d : Bool}
    (hv : c.victimLine rows a = some (oa, ov, d)) : c.spill rows a under oa = ov := by
  cases d with
  | true => rw [CacheLevel.spill_dirty hv, Function.update_self]
  | false =>
    obtain ⟨w, e, he, rfl, hd⟩ := h.find_victim hv
    rw [CacheLevel.spill_clean hv]
    exact (hc oa w e he hd).symm

/-- The victim is still in the level, so an eviction changes nothing that the two hold together. -/
theorem CacheLevel.Tidy.over_spill (h : c.Tidy rows ways) : c.over rows (c.spill rows a under) = c.over rows under := by
  funext b
  cases hf : c.find rows b with
  | some p => rw [CacheLevel.over_hit hf, CacheLevel.over_hit hf]
  | none =>
    rw [CacheLevel.over_miss hf, CacheLevel.over_miss hf]
    refine CacheLevel.spill_other fun hv => ?_
    obtain ⟨ov, d, hv⟩ := CacheLevel.victimLine_of_addr hv
    obtain ⟨w, e, he, -⟩ := h.find_victim hv
    rw [hf] at he
    cases he

variable {v : Word} {d : Bool}

/-- A fill that evicts its victim changes what the two hold at the filled address alone (20_memory.md R110). -/
theorem CacheLevel.Tidy.over_put (h : c.Tidy rows ways) (hc : c.CleanOver rows under) (hnone : c.find rows a = none) :
    (c.put rows a v d).over rows (c.spill rows a under) = Function.update (c.over rows under) a v := by
  funext b
  rw [CacheLevel.over, h.find_put hnone]
  by_cases hab : b = a
  · subst hab
    rw [if_pos rfl, Function.update_self]
  · rw [if_neg hab, Function.update_of_ne hab]
    split_ifs with hv
    · obtain ⟨ov, e, hv⟩ := CacheLevel.victimLine_of_addr hv
      obtain ⟨w, l, hl, rfl, -⟩ := h.find_victim hv
      rw [CacheLevel.over_hit hl]
      exact h.spill_victim hc hv
    · rw [← h.over_spill (a := a)]
      rfl

/-- Clean lines stay equal to what lies below when a clean fill is of what lies below. -/
theorem CacheLevel.Tidy.clean_put (h : c.Tidy rows ways) (hc : c.CleanOver rows under) (hnone : c.find rows a = none)
    (hd : d = false → v = under a) : (c.put rows a v d).CleanOver rows (c.spill rows a under) := by
  have hno : (c.victimLine rows a).map Prod.fst ≠ some a := fun hv => by
    obtain ⟨ov, e, hv⟩ := CacheLevel.victimLine_of_addr hv
    obtain ⟨w, l, hl, -⟩ := h.find_victim hv
    rw [hnone] at hl
    cases hl
  intro b u l hl hdl
  rw [h.find_put hnone] at hl
  split_ifs at hl with hab hv
  · cases hl
    subst hab
    rw [CacheLevel.spill_other hno]
    exact hd hdl
  · rw [CacheLevel.spill_other hv]
    exact hc b u l hl hdl

/-- A write hit changes what the two hold at its address alone (20_memory.md R112). -/
theorem CacheLevel.Tidy.over_writeHit (h : c.Tidy rows ways) (hf : c.find rows a = some (w, e)) :
    (c.writeHit rows a w e v).over rows under = Function.update (c.over rows under) a v := by
  funext b
  rw [CacheLevel.over, h.find_writeHit v hf]
  by_cases hab : b = a
  · subst hab
    rw [if_pos rfl, Function.update_self]
  · rw [if_neg hab, Function.update_of_ne hab]
    rfl

/-- A line that is written is dirty, so the clean ones are as they were. -/
theorem CacheLevel.Tidy.clean_writeHit (h : c.Tidy rows ways) (hc : c.CleanOver rows under)
    (hf : c.find rows a = some (w, e)) : (c.writeHit rows a w e v).CleanOver rows under := by
  intro b u l hl hdl
  rw [h.find_writeHit v hf] at hl
  split_ifs at hl with hab
  · cases hl
    cases hdl
  · exact hc b u l hl hdl

end

end Sys2Proof.Machine
end

section
/-! SUPPORT and PROOF. Coherence and the coherent view under every operation of the controller (20_memory.md R140), for every
address. -/

namespace Sys2Proof.Machine

/-! ## The two levels over memory -/

theorem MemCtl.below_eq_over (cfg : Config) (m : MemCtl) : m.below cfg = m.l2.over cfg.l2Rows (Mem.read m.mem) := by
  funext a
  cases hf : m.l2.find cfg.l2Rows a with
  | none => rw [MemCtl.below_miss hf, CacheLevel.over_miss hf]
  | some p => rw [MemCtl.below_hit hf, CacheLevel.over_hit hf]

theorem MemCtl.view_eq_over (cfg : Config) (m : MemCtl) : m.view cfg = m.l1.over cfg.l1Rows (m.below cfg) := by
  funext a
  cases hf : m.l1.find cfg.l1Rows a with
  | none => rw [MemCtl.view_miss hf, CacheLevel.over_miss hf]
  | some p => rw [MemCtl.view_hit hf, CacheLevel.over_hit hf]

/-- Level 2, memory and the queue agree (20_memory.md R140). `MemCtl.Lower` says the same of addresses in range only. -/
structure MemCtl.LowerAgrees (cfg : Config) (m : MemCtl) : Prop where
  l2     : m.l2.Tidy cfg.l2Rows cfg.l2Ways
  memWf  : Mem.wf m.mem
  clean2 : m.l2.CleanOver cfg.l2Rows (Mem.read m.mem)
  queued : ∀ q ∈ m.pfq, q.value = Mem.read m.mem q.addr

/-- And level 1 agrees with what is below it. -/
structure MemCtl.Agrees (cfg : Config) (m : MemCtl) : Prop extends MemCtl.LowerAgrees cfg m where
  l1     : m.l1.Tidy cfg.l1Rows cfg.l1Ways
  clean1 : m.l1.CleanOver cfg.l1Rows (m.below cfg)

/-- A legal configuration has rows and ways at both levels. -/
theorem MemCtl.Shaped.tidy {cfg : Config} {m : MemCtl} (h : m.Shaped cfg) (legal : cfg.Legal) :
    m.l1.Tidy cfg.l1Rows cfg.l1Ways ∧ m.l2.Tidy cfg.l2Rows cfg.l2Ways := by
  obtain ⟨_, _, _, _, ⟨h1, h2, h3, h4⟩, _⟩ := legal
  exact ⟨⟨h1, h2, _, h.hierarchy.l1⟩, ⟨h3, h4, _, h.hierarchy.l2⟩⟩

theorem MemCtl.Shaped.agrees {cfg : Config} {m : MemCtl} (h : m.Shaped cfg) (legal : cfg.Legal) (hc : m.Coherent cfg) :
    m.Agrees cfg := by
  obtain ⟨t1, t2⟩ := h.tidy legal
  exact ⟨⟨t2, h.memWf, hc.clean2, hc.queued⟩, t1, hc.clean1⟩

theorem MemCtl.Agrees.coherent {cfg : Config} {m : MemCtl} (h : m.Agrees cfg) : m.Coherent cfg :=
  ⟨h.clean2, h.clean1, h.queued⟩

section
variable {cfg : Config} {m m' : MemCtl}

/-- Counters, busy bits, marks and recency play no part in coherence. -/
theorem MemCtl.Agrees.congr (h : m.Agrees cfg) (t1 : m'.l1.Tidy cfg.l1Rows cfg.l1Ways)
    (t2 : m'.l2.Tidy cfg.l2Rows cfg.l2Ways) (h1 : m'.l1.lines = m.l1.lines) (h2 : m'.l2.lines = m.l2.lines)
    (hmem : m'.mem = m.mem) (hq : ∀ q ∈ m'.pfq, q.value = Mem.read m.mem q.addr) :
    m'.Agrees cfg ∧ m'.below cfg = m.below cfg ∧ m'.view cfg = m.view cfg := by
  have hbelow : m'.below cfg = m.below cfg := by
    rw [MemCtl.below_eq_over, MemCtl.below_eq_over, hmem, CacheLevel.over_congr h2]
  refine ⟨⟨⟨t2, hmem ▸ h.memWf, fun a w e hf => ?_, hmem ▸ hq⟩, t1, fun a w e hf => ?_⟩, hbelow, ?_⟩
  · rw [hmem]
    exact h.clean2 a w e (CacheLevel.find_congr_lines h2 a ▸ hf)
  · rw [hbelow]
    exact h.clean1 a w e (CacheLevel.find_congr_lines h1 a ▸ hf)
  · rw [MemCtl.view_eq_over, MemCtl.view_eq_over, hbelow, CacheLevel.over_congr h1]

/-- Level 1 as it was, over a lower part that holds what it held. -/
theorem MemCtl.Agrees.of_lower (h : m.Agrees cfg) (hl : m'.LowerAgrees cfg) (h1 : m'.l1 = m.l1)
    (hb : m'.below cfg = m.below cfg) : m'.Agrees cfg ∧ m'.view cfg = m.view cfg := by
  refine ⟨⟨hl, h1 ▸ h.l1, ?_⟩, ?_⟩
  · rw [h1, hb]
    exact h.clean1
  · rw [MemCtl.view_eq_over, MemCtl.view_eq_over, h1, hb]

/-! ## Level 2 -/

variable (cycle : Nat) {a : Nat} {v : Word} {d : Bool}

theorem Mem.read_write {mem : Mem} (h : Mem.wf mem) : Mem.read (Mem.write mem a v) = Function.update (Mem.read mem) a v := by
  funext b
  by_cases hab : b = a
  · subst hab
    rw [Mem.read_write_same _ _ _ h, Function.update_self]
  · rw [Mem.read_write_other _ _ _ _ hab, Function.update_of_ne hab]

/-- Memory after an eviction at level 2 (20_memory.md R111). -/
theorem MemCtl.LowerAgrees.evict2_mem (h : m.LowerAgrees cfg) :
    Mem.read (m.evict2 cfg cycle a).mem = m.l2.spill cfg.l2Rows a (Mem.read m.mem) := by
  rcases m.evict2_cases cfg cycle a with ⟨hv, he⟩ | ⟨oa, ov, hv, he⟩ | ⟨oa, ov, hv, he⟩
  · rw [he, CacheLevel.spill_none hv]
  · rw [he, CacheLevel.spill_clean hv]
  · rw [he, CacheLevel.spill_dirty hv]
    exact Mem.read_write h.memWf

/-- A write to memory cancels the queued requests of its address, and the others hold what memory holds (20_memory.md R118). -/
theorem MemCtl.LowerAgrees.evict2_queued (h : m.LowerAgrees cfg) :
    ∀ q ∈ (m.evict2 cfg cycle a).pfq, q.value = Mem.read (m.evict2 cfg cycle a).mem q.addr := by
  rcases m.evict2_cases cfg cycle a with ⟨-, he⟩ | ⟨oa, ov, -, he⟩ | ⟨oa, ov, -, he⟩
  · rw [he]
    exact h.queued
  · rw [he]
    exact h.queued
  · rw [he]
    intro q hq
    obtain ⟨hq, hne⟩ := List.mem_filter.1 hq
    exact (h.queued q hq).trans (Mem.read_write_other _ _ _ _ (bne_iff_ne.1 hne)).symm

/-- An eviction at level 2 changes no word that lies below level 1. -/
theorem MemCtl.LowerAgrees.evict2_below (h : m.LowerAgrees cfg) : (m.evict2 cfg cycle a).below cfg = m.below cfg := by
  rw [MemCtl.below_eq_over, MemCtl.below_eq_over, MemCtl.evict2_l2, h.evict2_mem cycle, h.l2.over_spill]

/-- A fill of level 2 changes what is below level 1 at its address alone; a clean one must fill what memory holds. -/
theorem MemCtl.LowerAgrees.fill2 (h : m.LowerAgrees cfg) (hd : d = false → v = Mem.read m.mem a)
    (e : m.fill2 cfg cycle a v d = .ok m' ()) :
    m'.LowerAgrees cfg ∧ m'.below cfg = Function.update (m.below cfg) a v := by
  obtain ⟨hno, rfl⟩ := (MemCtl.fill2_ok cfg cycle m m' a v d ()).1 e
  have hnone := CacheLevel.holds_eq_false.1 hno
  refine ⟨⟨h.l2.put v d hnone, m.evict2_memWf cfg cycle a h.memWf, ?_, h.evict2_queued cycle⟩, ?_⟩
  · dsimp only
    rw [h.evict2_mem cycle]
    exact h.l2.clean_put h.clean2 hnone hd
  · rw [MemCtl.below_eq_over, MemCtl.below_eq_over]
    dsimp only
    rw [h.evict2_mem cycle]
    exact h.l2.over_put h.clean2 hnone

/-- A write-back changes what is below level 1 at its address alone. -/
theorem MemCtl.LowerAgrees.writeback2 (h : m.LowerAgrees cfg) (e : m.writeback2 cfg cycle a v = .ok m' ()) :
    m'.LowerAgrees cfg ∧ m'.below cfg = Function.update (m.below cfg) a v := by
  unfold MemCtl.writeback2 at e
  split at e
  · rename_i w l hf
    cases e
    refine ⟨⟨h.l2.writeHit v hf, h.memWf, h.l2.clean_writeHit h.clean2 hf, h.queued⟩, ?_⟩
    rw [MemCtl.below_eq_over, MemCtl.below_eq_over]
    exact h.l2.over_writeHit hf
  · exact h.fill2 cycle (d := true) nofun e

/-! ## Level 1 -/

/-- What is below level 1 after an eviction at level 1 (20_memory.md R111). -/
theorem MemCtl.LowerAgrees.evict1 (h : m.LowerAgrees cfg) (e : m.evict1 cfg cycle a = .ok m' ()) :
    m'.LowerAgrees cfg ∧ m'.below cfg = m.l1.spill cfg.l1Rows a (m.below cfg) := by
  unfold MemCtl.evict1 at e
  split at e
  · rename_i hv
    rw [CacheLevel.spill_dirty hv]
    exact h.writeback2 cycle e
  · rename_i hv
    cases e
    exact ⟨h, (CacheLevel.spill_clean hv).symm⟩
  · rename_i hv
    cases e
    exact ⟨h, (CacheLevel.spill_none hv).symm⟩

/-- A fill of level 1 changes the view of its address alone; a clean one must fill what is below. -/
theorem MemCtl.Agrees.fill1 (h : m.Agrees cfg) (hd : d = false → v = m.below cfg a)
    (e : m.fill1 cfg cycle a v d = .ok m' ()) : m'.Agrees cfg ∧ m'.view cfg = Function.update (m.view cfg) a v := by
  obtain ⟨hno, m1, h1, rfl⟩ := (MemCtl.fill1_ok cfg cycle m m' a v d ()).1 e
  have hnone := CacheLevel.holds_eq_false.1 hno
  obtain ⟨hlower, hbelow⟩ := h.evict1 cycle h1
  have hsame : MemCtl.below cfg { m1 with l1 := m1.l1.put cfg.l1Rows a v d } = m.l1.spill cfg.l1Rows a (m.below cfg) := hbelow
  rw [MemCtl.evict1_l1 cycle h1] at hsame ⊢
  refine ⟨⟨⟨hlower.l2, hlower.memWf, hlower.clean2, hlower.queued⟩, h.l1.put v d hnone, ?_⟩, ?_⟩
  · rw [hsame]
    exact h.l1.clean_put h.clean1 hnone hd
  · rw [MemCtl.view_eq_over, MemCtl.view_eq_over, hsame]
    exact h.l1.over_put h.clean1 hnone

/-- A clean fill of level 1 with the view of its address changes no view. -/
theorem MemCtl.Agrees.fill1_view (h : m.Agrees cfg) (e : m.fill1 cfg cycle a (m.view cfg a) false = .ok m' ()) :
    m'.Agrees cfg ∧ m'.view cfg = m.view cfg := by
  have hmiss := CacheLevel.holds_eq_false.1 ((MemCtl.fill1_ok cfg cycle m m' a _ false ()).1 e).1
  obtain ⟨hw, hview⟩ := h.fill1 cycle (fun _ => MemCtl.view_miss hmiss) e
  exact ⟨hw, hview.trans (Function.update_eq_self a _)⟩

/-- A clean fill of level 2 with what memory holds changes no view. -/
theorem MemCtl.Agrees.fill2_view (h : m.Agrees cfg) (e : m.fill2 cfg cycle a (Mem.read m.mem a) false = .ok m' ()) :
    m'.Agrees cfg ∧ m'.view cfg = m.view cfg := by
  have hmiss := CacheLevel.holds_eq_false.1 ((MemCtl.fill2_ok cfg cycle m m' a _ false ()).1 e).1
  obtain ⟨hlower, hbelow⟩ := h.fill2 cycle (fun _ => rfl) e
  rw [← MemCtl.below_miss hmiss, Function.update_eq_self] at hbelow
  exact h.of_lower hlower (MemCtl.fill2_l1 e) hbelow

/-! ## Reads and writes -/

theorem MemCtl.Agrees.readHit2 {w : Nat} {l : CacheEntry} {r : Word × Nat} (h : m.Agrees cfg)
    (hmiss : m.l1.find cfg.l1Rows a = none) (hf : m.l2.find cfg.l2Rows a = some (w, l))
    (e : m.readHit2 cfg cycle a w l = .ok m' r) : m'.Agrees cfg ∧ m'.view cfg = m.view cfg := by
  rw [MemCtl.readHit2_eq] at e
  obtain ⟨m1, _, h1, e⟩ := Ctl.bind_ok.1 e
  cases e
  obtain ⟨hw, -, hview⟩ := h.congr (m' := m.countHit2 cfg a w) ((MemCtl.countHit2_l1 ..).symm ▸ h.l1)
    ((MemCtl.countHit2_l2 ..).symm ▸ h.l2.touch _ _) (by rw [MemCtl.countHit2_l1])
    (by rw [MemCtl.countHit2_l2, CacheLevel.touch_lines]) (MemCtl.countHit2_mem ..)
    ((MemCtl.countHit2_pfq ..).symm ▸ h.queued)
  have hval : l.value = (m.countHit2 cfg a w).view cfg a := by
    rw [hview, MemCtl.view_miss hmiss, MemCtl.below_hit hf]
  rw [hval] at h1
  obtain ⟨hw1, hview1⟩ := hw.fill1_view cycle h1
  exact ⟨hw1, hview1.trans hview⟩

theorem MemCtl.Agrees.readMiss {r : Word × Nat} (h : m.Agrees cfg) (hmiss : m.l1.find cfg.l1Rows a = none)
    (hmiss2 : m.l2.find cfg.l2Rows a = none) (e : m.readMiss cfg cycle a = .ok m' r) :
    m'.Agrees cfg ∧ m'.view cfg = m.view cfg := by
  obtain ⟨m2, _, h2, e⟩ := Ctl.bind_ok.1 e
  obtain ⟨m3, _, h3, e⟩ := Ctl.bind_ok.1 e
  cases e
  obtain ⟨hw1, -, hview1⟩ := h.congr (m' := { m with cnt := { m.cnt with l2Misses := m.cnt.l2Misses + 1 } }) h.l1 h.l2 rfl
    rfl rfl h.queued
  obtain ⟨hw2, hview2⟩ := hw1.fill2_view cycle h2
  have hval : Mem.read m.mem a = m2.view cfg a := by
    rw [hview2, hview1, MemCtl.view_miss hmiss, MemCtl.below_miss hmiss2]
  rw [hval] at h3
  obtain ⟨hw3, hview3⟩ := hw2.fill1_view cycle h3
  exact ⟨hw3, hview3.trans (hview2.trans hview1)⟩

/-- A demand read changes no view (20_memory.md R140). -/
theorem MemCtl.Agrees.read {r : Word × Nat} (h : m.Agrees cfg) (e : MemCtl.read cfg cycle m a = .ok m' r) :
    m'.Agrees cfg ∧ m'.view cfg = m.view cfg := by
  unfold MemCtl.read at e
  split at e
  · rename_i w l hf
    cases e
    obtain ⟨hw, -, hview⟩ := h.congr (m' := { m with
      l1 := m.l1.touch (a % cfg.l1Rows) w, cnt := { m.cnt with l1Hits := m.cnt.l1Hits + 1 } }) (h.l1.touch _ _) h.l2 rfl
      rfl rfl h.queued
    exact ⟨hw, hview⟩
  · rename_i hmiss
    obtain ⟨hw, -, hview⟩ := h.congr (m' := { m with cnt := { m.cnt with l1Misses := m.cnt.l1Misses + 1 } }) h.l1 h.l2 rfl
      rfl rfl h.queued
    rw [← hview]
    dsimp only at e
    split at e
    · rename_i w l hf
      exact hw.readHit2 cycle hmiss hf e
    · rename_i hmiss2
      exact hw.readMiss cycle hmiss hmiss2 e

/-- A store write sets the view of its address and no other (20_memory.md R140). -/
theorem MemCtl.Agrees.write (h : m.Agrees cfg) (e : MemCtl.write cfg cycle m a v = .ok m' ()) :
    m'.Agrees cfg ∧ m'.view cfg = Function.update (m.view cfg) a v := by
  unfold MemCtl.write at e
  split at e
  · rename_i w l hf
    cases e
    refine ⟨⟨⟨h.l2, h.memWf, h.clean2, h.queued⟩, h.l1.writeHit v hf, h.l1.clean_writeHit h.clean1 hf⟩, ?_⟩
    rw [MemCtl.view_eq_over, MemCtl.view_eq_over]
    exact h.l1.over_writeHit hf
  · exact h.fill1 cycle (d := true) nofun e

/-! ## Prefetches -/

/-- Issuing a prefetch queues what memory holds (20_memory.md R117). -/
theorem MemCtl.Agrees.pfIssue (h : m.Agrees cfg) (a : Nat) :
    (m.pfIssue cfg cycle a).Agrees cfg ∧ (m.pfIssue cfg cycle a).view cfg = m.view cfg := by
  rcases m.pfIssue_cases cfg cycle a with e | ⟨-, e⟩
  · rw [e]
    exact ⟨h, rfl⟩
  · rw [e]
    obtain ⟨hw, -, hview⟩ := h.congr (m' := { m with
        pfq := m.pfq ++ [⟨(a + 1) % cfg.memSize, Mem.read m.mem ((a + 1) % cfg.memSize), cfg.memLat, cycle⟩]
        cnt := { m.cnt with pfIssued := m.cnt.pfIssued + 1 } }) h.l1 h.l2 rfl rfl rfl fun q hq => by
      rcases List.mem_append.1 hq with hq | hq
      · exact h.queued q hq
      · rw [List.mem_singleton.1 hq]
    exact ⟨hw, hview⟩

/-- Installing a request that holds what memory holds changes no view (20_memory.md R116). -/
theorem MemCtl.Agrees.pfInstall {q : PfReq} (h : m.Agrees cfg) (hq : q.value = Mem.read m.mem q.addr)
    (e : m.pfInstall cfg cycle q = .ok m' ()) : m'.Agrees cfg ∧ m'.view cfg = m.view cfg := by
  unfold MemCtl.pfInstall at e
  split at e
  · cases e
    exact ⟨h, rfl⟩
  · obtain ⟨m1, _, h1, e⟩ := Ctl.bind_ok.1 e
    cases e
    rw [hq] at h1
    obtain ⟨hw, hview⟩ := h.fill2_view cycle h1
    obtain ⟨hw', -, hview'⟩ := hw.congr (m' := { m1 with
      pfMark := m1.pfMark.insert q.addr, cnt := { m1.cnt with pfFilled := m1.cnt.pfFilled + 1 } }) hw.l1 hw.l2 rfl rfl rfl
      hw.queued
    exact ⟨hw', hview'.trans hview⟩

theorem MemCtl.Agrees.pfDrain {qs : List PfReq} (h : m.Agrees cfg) (e : m.pfDrain cfg cycle qs = .ok m' ()) :
    m'.Agrees cfg ∧ m'.view cfg = m.view cfg := by
  induction qs generalizing m with
  | nil =>
    cases e
    exact ⟨h, rfl⟩
  | cons q qs ih =>
    unfold MemCtl.pfDrain at e
    split at e
    · rename_i hq
      obtain ⟨m1, _, h1, e⟩ := Ctl.bind_ok.1 e
      obtain ⟨hw, -, hview⟩ := h.congr (m' := { m with pfq := m.pfq.erase q }) h.l1 h.l2 rfl rfl rfl
        fun p hp => h.queued p (List.mem_of_mem_erase hp)
      obtain ⟨hw1, hview1⟩ := hw.pfInstall cycle (h.queued q (List.contains_iff_mem.1 hq)) h1
      obtain ⟨hw2, hview2⟩ := ih hw1 e
      exact ⟨hw2, hview2.trans (hview1.trans hview)⟩
    · exact ih h e

@[simp] theorem PfReq.age_value (q : PfReq) : (q.age cycle).value = q.value := by
  unfold PfReq.age
  split <;> rfl

/-- A prefetch tick changes no view. -/
theorem MemCtl.Agrees.pfTick (h : m.Agrees cfg) (e : m.pfTick cfg cycle = .ok m' ()) :
    m'.Agrees cfg ∧ m'.view cfg = m.view cfg := by
  obtain ⟨hw, -, hview⟩ := h.congr (m' := { m with pfq := m.pfq.map (PfReq.age cycle) }) h.l1 h.l2 rfl rfl rfl fun q hq => by
    obtain ⟨p, hp, rfl⟩ := List.mem_map.1 hq
    rw [PfReq.age_value, PfReq.age_addr]
    exact h.queued p hp
  obtain ⟨hw', hview'⟩ := hw.pfDrain cycle e
  exact ⟨hw', hview'.trans hview⟩

end

/-! ## O32, O33: operations answer -/

/-- Settles O32: the guards of the fills are behind the lookups that find nothing. -/
theorem noDuplicateFill : Obligations.NoDuplicateFill := by
  intro cfg cycle m a v
  exact ⟨MemCtl.read_answers cfg cycle m a, MemCtl.write_answers cfg cycle m a v, MemCtl.pfTick_answers cfg cycle m⟩

/-- The answer of a demand read, in any controller: the view, at the latency of the level that holds the address
(20_memory.md R121, R122). -/
theorem MemCtl.read_answer {cfg : Config} {cycle : Nat} {m m' : MemCtl} {a : Nat} {r : Word × Nat}
    (e : MemCtl.read cfg cycle m a = .ok m' r) :
    r = (m.view cfg a,
      if m.l1.holds cfg.l1Rows a then cfg.l1Lat
      else if m.l2.holds cfg.l2Rows a then cfg.l1Lat + cfg.l2Lat
      else cfg.l1Lat + cfg.l2Lat + cfg.memLat) := by
  unfold MemCtl.read at e
  split at e
  · rename_i w l hf
    cases e
    rw [MemCtl.view_hit hf, CacheLevel.holds, hf]
    rfl
  · rename_i hmiss
    rw [MemCtl.view_miss hmiss, CacheLevel.holds_eq_false.2 hmiss]
    dsimp only at e
    split at e
    · rename_i w l hf
      obtain ⟨_, _, -, e⟩ := Ctl.bind_ok.1 e
      cases e
      rw [MemCtl.below_hit hf, CacheLevel.holds, hf]
      rfl
    · rename_i hmiss2
      obtain ⟨_, _, -, e⟩ := Ctl.bind_ok.1 e
      obtain ⟨_, _, -, e⟩ := Ctl.bind_ok.1 e
      cases e
      rw [MemCtl.below_miss hmiss2, CacheLevel.holds_eq_false.2 hmiss2]
      rfl

/-- A fill of level 1 leaves its address there. -/
theorem MemCtl.fill1_holds {cfg : Config} {cycle : Nat} {m m' : MemCtl} {a : Nat} {v : Word} {d : Bool}
    (h : m.l1.Tidy cfg.l1Rows cfg.l1Ways) (e : m.fill1 cfg cycle a v d = .ok m' ()) : m'.l1.holds cfg.l1Rows a = true := by
  obtain ⟨hno, m1, h1, rfl⟩ := (MemCtl.fill1_ok cfg cycle m m' a v d ()).1 e
  dsimp only
  rw [MemCtl.evict1_l1 cycle h1, CacheLevel.holds, h.find_put_same (CacheLevel.holds_eq_false.1 hno)]
  rfl

/-- A demand read leaves its address in level 1 (20_memory.md R121). -/
theorem MemCtl.read_holds {cfg : Config} {cycle : Nat} {m m' : MemCtl} {a : Nat} {r : Word × Nat}
    (h : m.l1.Tidy cfg.l1Rows cfg.l1Ways) (e : MemCtl.read cfg cycle m a = .ok m' r) : m'.l1.holds cfg.l1Rows a = true := by
  unfold MemCtl.read at e
  split at e
  · rename_i w l hf
    cases e
    rw [CacheLevel.holds, CacheLevel.touch_find, hf]
    rfl
  · dsimp only at e
    split at e
    · rw [MemCtl.readHit2_eq] at e
      obtain ⟨m1, _, h1, e⟩ := Ctl.bind_ok.1 e
      cases e
      exact MemCtl.fill1_holds (by rw [MemCtl.countHit2_l1]; exact h) h1
    · obtain ⟨m2, _, h2, e⟩ := Ctl.bind_ok.1 e
      obtain ⟨m3, _, h3, e⟩ := Ctl.bind_ok.1 e
      cases e
      exact MemCtl.fill1_holds (by rw [MemCtl.fill2_l1 h2]; exact h) h3

/-- Settles O33: the value and the latency are those of the level the lookup reaches, and a miss ends in a fill of level 1. -/
theorem demandReadAnswers : Obligations.DemandReadAnswers := by
  intro cfg cycle m a
  obtain ⟨m', r, e⟩ := MemCtl.read_answers cfg cycle m a
  have hext := MemCtl.read_extends cfg cycle m a
  rw [e] at hext
  exact ⟨m', MemCtl.read_answer e ▸ e, hext.busy, fun legal hs => MemCtl.read_holds (hs.tidy legal).1 e⟩

/-! ## O35: the coherent view -/

/-- Settles O35: each operation is a fill, a write-back or an eviction of a level over what lies below it, whose effect on what
the two hold is known. -/
theorem coherentView : Obligations.CoherentView := by
  intro cfg cycle m legal hs hc
  have h := hs.agrees legal hc
  refine ⟨fun a m' v lat e => ?_, fun a v m' e => ?_, fun a m' e => ?_, fun a m' e => ?_, fun a m' e => ?_, fun a => ?_,
    fun q m' hq e => ?_, fun a => ?_, fun m' e => ?_⟩
  · exact ⟨congrArg Prod.fst (MemCtl.read_answer e), congrFun (h.read cycle e).2⟩
  · rw [(h.write cycle e).2]
    exact ⟨Function.update_self .., fun b hb => Function.update_of_ne hb ..⟩
  · exact congrFun (h.fill1_view cycle e).2
  · exact congrFun (h.fill2_view cycle e).2
  · rw [MemCtl.view_eq_over, MemCtl.evict1_l1 cycle e, (h.evict1 cycle e).2, h.l1.over_spill, ← MemCtl.view_eq_over]
    exact fun _ => rfl
  · rw [MemCtl.view_eq_over, MemCtl.evict2_l1, h.evict2_below, ← MemCtl.view_eq_over]
    exact fun _ => rfl
  · exact congrFun (h.pfInstall cycle (h.queued q hq) e).2
  · exact congrFun (h.pfIssue cycle a).2
  · exact congrFun (h.pfTick cycle e).2

end Sys2Proof.Machine
end

section
/-! SUPPORT and PROOF. Coherence is kept by every step, and a load that starts takes the view that the step leaves
(20_memory.md R140, 43_loadstore.md R361). -/

namespace Sys2Proof.Machine

/-! ## Serving an event -/

/-- Busy bits play no part in coherence. -/
theorem MemCtl.Agrees.withBusy {cfg : Config} {m : MemCtl} (h : m.Agrees cfg) (b : AddrSet) :
    MemCtl.Agrees cfg { m with busy := b } ∧ MemCtl.view cfg { m with busy := b } = m.view cfg := by
  obtain ⟨hw, -, hview⟩ := h.congr (m' := { m with busy := b }) h.l1 h.l2 rfl rfl rfl h.queued
  exact ⟨hw, hview⟩

section
variable {s t : State} {i : Instr} {ev : Event}

/-- Serving an event keeps the controller coherent. -/
theorem Served.agrees (h : Served s i ev t) (hs : s.mc.Agrees s.cfg) : t.mc.Agrees t.cfg := by
  have quiet {m : MemCtl} (h1 : m.l1 = s.mc.l1) (h2 : m.l2 = s.mc.l2) (hmem : m.mem = s.mc.mem) (hq : m.pfq = s.mc.pfq) :
      m.Agrees s.cfg :=
    (hs.congr (h1 ▸ hs.l1) (h2 ▸ hs.l2) (by rw [h1]) (by rw [h2]) hmem (hq ▸ hs.queued)).1
  rw [h.cfg_eq]
  cases h with
  | load _ _ _ _ _ hm =>
    rw [State.startLoad, State.beginExec_mc]
    exact (((hs.withBusy _).1.read s.cycle hm).1.pfIssue s.cycle _).1
  | written _ _ _ _ hm => exact ((hs.write s.cycle hm).1.withBusy _).1
  | _ => exact quiet (by simp) (by simp) (by simp) (by simp)

/-- A store's write sets the view of its address and no other. -/
theorem State.performWrite_view {n : Nat} {ea v : Word} {m : MemCtl} (hs : s.mc.Agrees s.cfg)
    (hm : MemCtl.write s.cfg s.cycle s.mc ea.toNat v = .ok m ()) :
    (s.performWrite n ea m).mc.view s.cfg = Function.update (s.mc.view s.cfg) ea.toNat v :=
  (MemCtl.view_congr rfl rfl rfl).trans (hs.write s.cycle hm).2

/-- No other event changes a view. `Served.view_eq` says so of a controller in shape. -/
theorem Served.agrees_view (h : Served s i ev t) (hs : s.mc.Agrees s.cfg) (hev : ∀ n, ev ≠ .storeTick n) :
    t.mc.view t.cfg = s.mc.view s.cfg := by
  rw [h.cfg_eq]
  cases h with
  | writeCounted _ _ | written _ _ _ _ _ => exact absurd rfl (hev _)
  | @load p k e a b m v lat _ _ _ _ _ hm =>
    obtain ⟨hw, hview⟩ := hs.withBusy (s.mc.busy.insert (effectiveAddr a e.imm).toNat)
    rw [State.startLoad, State.beginExec_mc, MemCtl.pfIssue_view]
    exact (hw.read s.cycle hm).2.trans hview
  | _ => exact MemCtl.view_congr (by simp) (by simp) (by simp)

end

/-! ## O54 -/

theorem agrees_keptByParts : KeptByParts (fun s => s.mc.Agrees s.cfg) where
  served   := fun ev i s t hs _ hst => by
    obtain ⟨u, hu, rfl⟩ := serve_served_any hst
    exact hu.agrees hs
  prefetch := fun s t hs hst => by
    obtain ⟨m, hm, rfl⟩ := prefetchTick_next hst
    exact (hs.pfTick s.cycle hm).1
  settled  := fun _ hs => hs
  counted  := fun _ hs => hs
  ended    := fun _ _ hs => hs

/-- Settles O54: a read, a write, a prefetch issue and a prefetch tick each keep the controller coherent. -/
theorem stepKeepsCoherence : Obligations.StepKeepsCoherence := by
  intro s t hs hc hst
  exact (agrees_keptByParts.step (hs.mc.agrees hs.legal hc) hst).coherent

/-! ## O51 -/

/-- The entry has an address and, as its result, the coherent view of it. -/
def State.LoadedView (s : State) (f : Entry) : Prop :=
  ∃ ea : Word, f.ea = some ea ∧ f.result = some (s.mc.view s.cfg ea.toNat)

theorem State.LoadedView.congr {s t : State} {f : Entry} (h : s.LoadedView f)
    (hview : t.mc.view t.cfg = s.mc.view s.cfg) : t.LoadedView f := by
  obtain ⟨ea, hea, hr⟩ := h
  exact ⟨ea, hea, hview ▸ hr⟩

section
variable {s t : State} {i : Instr} {ev : Event} {n : Nat} {f : Entry}

/-- The start of a load's station either leaves its entry, or the load starts with the view of its address (R361). -/
theorem Served.load_start {p : PoolId} {k : Nat} (h : Served s i (.start p k) t) (hs : s.mc.Agrees s.cfg)
    (hev : s.Serves (.start p k) i) (hf : s.table[n]? = some f) (hl : f.ins.op = .lw)
    (hn : s.ServesEntry n (.start p k)) :
    t.table[n]? = some f ∨
      ∃ g, t.table[n]? = some g ∧ g.ins.op = .lw ∧ g.state = .executeStart ∧ t.LoadedView g := by
  obtain ⟨st, hslot, rfl⟩ := hn
  have hi := hev.start_ins hslot hf
  have hview := h.agrees_view hs nofun
  rw [hi] at hl
  cases h with
  | idle _ | raised _ _ _ => exact .inl hf
  | arith _ hne _ _ => exact absurd hl hne
  | div0 _ hd _ _ => rw [hl] at hd; cases hd
  | store _ hsw _ _ => rw [hl] at hsw; cases hsw
  | @load _ _ e a b m v lat hcand _ _ _ _ hm =>
    have hst := hcand.slot
    rw [hslot] at hst
    cases hst
    have hv : v = s.mc.view s.cfg (effectiveAddr a st.imm).toNat := by
      have hr := congrArg Prod.fst (MemCtl.read_answer hm)
      exact hr.trans (congrFun (MemCtl.view_congr rfl rfl rfl) _)
    exact .inr ⟨_, (State.oneEntry_startLoad hf p k _ m v lat).at_n, by rw [hi]; exact hl, rfl, _, rfl, by rw [hview, ← hv]⟩

/-- An event serves a waiting or a starting entry only by its start, or by its countdown. -/
theorem Served.table_waiting (h : Served s i ev t) (hc : s.Consistent) (hev : s.Serves ev i)
    (hf : s.table[n]? = some f) (hw : f.state = .rsWait ∨ (f.state = .executeStart ∧ 5 ≤ ev.pre)) :
    t.table[n]? = some f ∨ (f.state = .rsWait ∧ ∃ p k, ev = .start p k ∧ s.ServesEntry n (.start p k)) := by
  by_cases hn : s.ServesEntry n ev
  · cases ev with
    | start p k =>
      obtain ⟨st, hslot, rfl⟩ := id hn
      exact .inr ⟨(hc.station_at hslot hf).1, p, k, rfl, hn⟩
    | dispatch =>
      obtain ⟨e, he, hfresh, -⟩ := hev.dispatch hn
      rw [hf] at he
      cases he
      simp [hfresh] at hw
    | countdown m =>
      obtain rfl : m = n := hn
      obtain ⟨e, he, hst, -⟩ := hev.countdown
      rw [hf] at he
      cases he
      simp [hst, Event.pre] at hw
    | broadcast m =>
      obtain rfl : m = n := hn
      obtain ⟨e, he, hst, -⟩ := hev.broadcast
      rw [hf] at he
      cases he
      simp [hst] at hw
    | storeTick m =>
      obtain rfl : m = n := hn
      obtain ⟨e, he, hp, -⟩ := hev.storeTick
      rw [hf] at he
      cases he
      have hst := ((hc.entry f (List.mem_of_getElem? hf)).pending.1 hp).2
      simp [hst] at hw
    | commit =>
      obtain ⟨r, hr, rfl⟩ := hn
      have hsent (hv : r.value ≠ .unready) : False := by
        have hst := (hc.sent hr hv hf).2
        simp [hst] at hw
      have hne {q : RobEntry} (hq : s.robAt s.robTail = some q) (hv : q.value ≠ .unready) : False := by
        rw [hr] at hq
        cases hq
        exact hsent hv
      cases h with
      | idle _ => exact .inl hf
      | toReg hq _ _ hv _ => exact (hne hq (by rw [hv]; nofun)).elim
      | toNone hq _ _ hv => exact (hne hq hv).elim
      | toMem hq _ _ hv _ _ => exact (hne hq hv).elim
  · exact .inl ((h.table_other hn).trans hf)

end

/-- Entry `n`, a load, when `k` stages of a tick have run: it waits, or the start phase has started it, and then its result is
the coherent view of its address. -/
def State.LoadAt (n k : Nat) (u : State) : Prop :=
  u.Sound ∧ u.mc.Agrees u.cfg ∧ ∃ f, u.table[n]? = some f ∧ f.ins.op = .lw ∧
    (f.state = .rsWait ∨ (5 ≤ k ∧ f.state = .executeStart ∧ u.LoadedView f))

theorem loadAt_keptByStages (n : Nat) : KeptByStages (State.LoadAt n) where
  mono     := fun k u ⟨hs, ha, f, hf, hl, hlife⟩ => ⟨hs, ha, f, hf, hl, hlife.imp id fun h => ⟨by omega, h.2⟩⟩
  served   := fun ev i u v ⟨hs, ha, f, hf, hl, hlife⟩ hev hst => by
    have hserved := serve_served hs.shaped.event hst
    refine ⟨hs.served hev hserved, hserved.agrees ha, ?_⟩
    rcases hserved.table_waiting hs.consistent hev hf (hlife.imp id fun h => ⟨h.2.1, h.1⟩) with hkeep | ⟨-, p, k, rfl, hn⟩
    · refine ⟨f, hkeep, hl, hlife.imp id fun ⟨h5, hx, hv⟩ => ⟨h5.trans ev.pre_le_post, hx, hv.congr ?_⟩⟩
      refine hserved.agrees_view ha ?_
      rintro m rfl
      exact absurd h5 (by change ¬ 5 ≤ 3; decide)
    · rcases hserved.load_start ha hev hf hl hn with hkeep | ⟨g, hg, hgl, hx, hv⟩
      · exact ⟨f, hkeep, hl, hlife.imp id fun ⟨h5, hx, hv⟩ => ⟨h5, hx, hv.congr (hserved.agrees_view ha nofun)⟩⟩
      · exact ⟨g, hg, hgl, .inr ⟨le_rfl, hx, hv⟩⟩
  prefetch := fun u v ⟨hs, ha, f, hf, hl, hlife⟩ hst => by
    refine ⟨sound_keptByParts.prefetch u v hs hst, agrees_keptByParts.prefetch u v ha hst, ?_⟩
    obtain ⟨m, -, rfl⟩ := prefetchTick_next hst
    exact ⟨f, hf, hl, hlife.imp id fun h => absurd h.1 (by decide)⟩
  settled  := fun u ⟨hs, ha, hf⟩ => ⟨sound_keptByParts.settled u hs, ha, hf⟩

/-- Settles O51: the load's result is the view at its start, and no later event of the tick changes a view. -/
theorem loadTakesCoherentView : Obligations.LoadTakesCoherentView := by
  intro s t n e f hs hlinks hc hcons hst he hf hl hw hx
  rcases step_cases hst with ⟨st, rfl⟩ | htick
  · rw [he] at hf
    cases hf
    rw [hw] at hx
    cases hx
  · have h0 : State.LoadAt n 0 { s with cycle := s.cycle + 1 } :=
      ⟨sound_keptByParts.counted s ⟨hs, hlinks, hcons⟩, hs.mc.agrees hs.legal hc, e, he, hl, .inl hw⟩
    obtain ⟨-, -, g, hg, -, hlife⟩ := (loadAt_keptByStages n).tick h0 htick
    rw [hf] at hg
    cases hg
    rcases hlife with hw' | ⟨-, -, hview⟩
    · rw [hx] at hw'
      cases hw'
    · exact hview

end Sys2Proof.Machine
end

section
/-! SUPPORT and PROOF. Over a step the coherent view changes only by the stores whose write is due (20_memory.md R135, R140,
40_scheduler.md R252, R253). -/

namespace Sys2Proof.Machine

/-! ## Stages as events -/

/-- The commit stage does nothing or serves the commit of the tail. -/
theorem commitStage_served {s t : State} (h : commitStage s = .next t) :
    t = s ∨ ∃ i, s.Serves .commit i ∧ serve .commit i s = .next t := by
  unfold commitStage at h
  split at h
  · cases h
    exact .inl rfl
  · rename_i r hr
    split at h
    · cases h
    · rename_i e he
      exact .inr ⟨e.ins, ⟨r, e, hr, he, rfl⟩, h⟩

/-- The broadcast stage does nothing or serves the broadcast of the winner. -/
theorem broadcastStage_served {s t : State} (h : broadcastStage s = .next t) :
    t = s ∨ ∃ n i, s.Serves (.broadcast n) i ∧ serve (.broadcast n) i s = .next t := by
  unfold broadcastStage at h
  split at h
  · cases h
    exact .inl rfl
  · rename_i n hn
    split at h
    · cases h
    · rename_i e he
      exact .inr ⟨n, e.ins, ⟨e, hn, he, rfl⟩, h⟩

/-- The dispatch stage does nothing or serves the dispatch of the first entry not started. -/
theorem dispatchStage_served {s t : State} (h : dispatchStage s = .next t) :
    t = s ∨ ∃ i, s.Serves .dispatch i ∧ serve .dispatch i s = .next t := by
  unfold dispatchStage at h
  split at h
  · cases h
    exact .inl rfl
  · rename_i n hn
    split at h
    · cases h
    · rename_i e he
      exact .inr ⟨e.ins, ⟨n, e, hn, he, rfl⟩, h⟩

/-- The execute stage keeps what countdowns and starts keep. -/
theorem executeStage_keeps {P : State → Prop}
    (hcount : ∀ (n : Nat) (i : Instr) (s t : State), P s → serve (.countdown n) i s = .next t → P t)
    (hstart : ∀ (p : PoolId) (k : Nat) (i : Instr) (s t : State), P s → serve (.start p k) i s = .next t → P t)
    {s t : State} (hs : P s) (h : executeStage s = .next t) : P t := by
  have hpool (p : PoolId) {u v : State} (hu : P u) (h : startPool p u = .next v) : P v :=
    tryStart_keeps (fun s t k i hs _ hst => hstart p k i s t hs hst) _ hu h
  exact thenRun_keeps (fun _ => id)
    (fun _ hu => sweep_keeps (ev := Event.countdown) (fun s t n e hs _ _ hst => hcount n e.ins s t hs hst) _ hs hu)
    (fun _ h1 e1 => thenRun_keeps (fun _ => id) (fun _ hu => hpool .lsq h1 hu)
      (fun _ h2 e2 => thenRun_keeps (fun _ => id) (fun _ hu => hpool .add h2 hu)
        (fun _ h3 e3 => hpool .mul h3 e3) e2) e1) h

/-- A first part that leaves the run going is followed by the second. -/
theorem thenRun_of_running {o : Out} {f : State → Out} {t : State} (h : thenRun o f = .next t)
    (hrun : ∀ s, o = .next s → s.status = .running) : ∃ s, o = .next s ∧ f s = .next t := by
  obtain ⟨s, hs, ⟨-, hft⟩ | ⟨hno, -⟩⟩ := thenRun_next.1 h
  · exact ⟨s, hs, hft⟩
  · exact absurd (hrun s hs) hno

/-- Only a start can end the run (60_exceptions.md R402). -/
theorem Served.status_eq {s t : State} {i : Instr} {ev : Event} (h : Served s i ev t) (hev : ∀ p k, ev ≠ .start p k) :
    t.status = s.status := by
  cases h with
  | raised _ _ _ | arith _ _ _ _ | div0 _ _ _ _ | load _ _ _ _ _ _ | store _ _ _ _ => exact absurd rfl (hev _ _)
  | _ => simp

/-- A sweep, over the entries not yet visited: what each visit keeps holds at its end with none left. -/
theorem sweep_induction {P : List Nat → State → Prop} {pick : State → Entry → Bool} {ev : Nat → Event}
    (hrun : ∀ ns s, P ns s → s.status = .running)
    (hskip : ∀ n ns s, P (n :: ns) s → (∀ e, s.table[n]? = some e → pick s e = false) → P ns s)
    (hserve : ∀ n ns s t e, P (n :: ns) s → s.table[n]? = some e → pick s e = true →
      serve (ev n) e.ins s = .next t → P ns t)
    {ns : List Nat} {s t : State} (hs : P ns s) (h : sweep pick ev ns s = .next t) : P [] t := by
  induction ns generalizing s with
  | nil =>
    cases h
    exact hs
  | cons n ns ih =>
    unfold sweep at h
    split at h
    · rename_i hnone
      exact ih (hskip n ns s hs fun e he => by rw [hnone] at he; cases he) h
    · rename_i e he
      split at h
      · rename_i hp
        obtain ⟨u, hu, hv⟩ := thenRun_of_running h fun u hu => hrun _ _ (hserve n ns s u e hs he hp hu)
        exact ih (hserve n ns s u e hs he hp hu) hv
      · rename_i hp
        refine ih (hskip n ns s hs fun d hd => ?_) h
        rw [he] at hd
        cases hd
        simpa using hp

/-! ## Before the memory tick -/

/-- When an entry that is not due changes to one that is not due, the same entries are due. -/
theorem State.OneEntry.due_iff {s t : State} {n : Nat} {e e' : Entry} (ht : s.OneEntry t n e e') {c : Nat}
    (he : ¬ e.writeDue c) (he' : ¬ e'.writeDue c) (m : Nat) (f : Entry) (hf : f.writeDue c) :
    t.table[m]? = some f ↔ s.table[m]? = some f := by
  by_cases hm : m = n
  · subst hm
    rw [ht.at_n, ht.before]
    constructor
    · rintro h
      cases h
      exact absurd hf he'
    · rintro h
      cases h
      exact absurd hf he
  · rw [ht.other hm]

/-- An entry whose write is pending has committed. -/
theorem Entry.Consistent.not_due {e : Entry} (h : e.Consistent) (hs : e.state ≠ .commit) (c : Nat) : ¬ e.writeDue c :=
  fun hd => absurd (hd.1.symm.trans (h.not_pending hs)) (by decide)

/-- An entry that commits in this cycle is not due in it (40_scheduler.md R252). -/
theorem Entry.not_due_of_tCommit {e : Entry} {c : Nat} (h : e.tCommit = some c) : ¬ e.writeDue c := by
  rintro ⟨-, hb, -⟩
  rw [h] at hb
  simp [before] at hb

/-- A commit and a broadcast leave due what was due, and make nothing due. -/
theorem Served.due_iff {s t : State} {i : Instr} {ev : Event} (h : Served s i ev t) (hc : s.Consistent)
    (hev : s.Serves ev i) (hev' : ev = .commit ∨ ∃ n, ev = .broadcast n) (m : Nat) (f : Entry)
    (hf : f.writeDue s.cycle) : t.table[m]? = some f ↔ s.table[m]? = some f := by
  have committing {r : RobEntry} {e e' : Entry} {u : State} (ht : s.OneEntry u r.instr e e')
      (hr : s.robAt s.robTail = some r) (hv : r.value ≠ .unready) (hstamp : e'.tCommit = some s.cycle) :
      u.table[m]? = some f ↔ s.table[m]? = some f := by
    obtain ⟨hcons, hst⟩ := hc.sent hr hv ht.before
    exact ht.due_iff (hcons.not_due (by rw [hst]; decide) _) (Entry.not_due_of_tCommit hstamp) m f hf
  have broadcasting {n : Nat} {e e' : Entry} {u : State} (ht : s.OneEntry u n e e') (hst : e.state = .executeEnd)
      (hp : e'.writePending = e.writePending) : u.table[m]? = some f ↔ s.table[m]? = some f := by
    have hcons := hc.entry e (List.mem_of_getElem? ht.before)
    have hne : e.state ≠ .commit := by rw [hst]; decide
    exact ht.due_iff (hcons.not_due hne _)
      (fun hd => absurd (hd.1.symm.trans (hp.trans (hcons.not_pending hne))) (by decide)) m f hf
  cases h with
  | idle _ => exact Iff.rfl
  | toReg hr he _ hv _ => exact committing (State.oneEntry_commitReg_retire he _ _) hr (by rw [hv]; nofun) rfl
  | toNone hr he _ hv => exact committing (State.oneEntry_retire he) hr hv rfl
  | toMem hr he _ hv _ _ => exact committing (State.oneEntry_scheduleWrite he _) hr hv rfl
  | valueSent _ _ _ _ =>
    obtain ⟨e, he, hst, -⟩ := hev.broadcast
    exact broadcasting (State.oneEntry_sendValue he _ _) hst rfl
  | markSent _ _ _ =>
    obtain ⟨e, he, hst, -⟩ := hev.broadcast
    exact broadcasting (State.oneEntry_sendMark he _) hst rfl
  | _ => rcases hev' with hev' | ⟨_, hev'⟩ <;> cases hev'

/-- In the tick after `s`, before its memory tick: the invariants hold, the run goes on, no view has changed and the same
writes are due. -/
structure State.BeforeWrites (s u : State) : Prop where
  sound   : u.Sound
  busy    : u.BusyHeld
  agrees  : u.mc.Agrees u.cfg
  running : u.status = .running
  cycle   : u.cycle = s.cycle + 1
  view    : u.mc.view u.cfg = s.mc.view s.cfg
  due     : ∀ (n : Nat) (e : Entry), e.writeDue (s.cycle + 1) → (u.table[n]? = some e ↔ s.table[n]? = some e)

section
variable {s u v : State} (h : s.BeforeWrites u)
include h

theorem State.BeforeWrites.served {ev : Event} {i : Instr} (hev : u.Serves ev i)
    (hev' : ev = .commit ∨ ∃ n, ev = .broadcast n) (hst : serve ev i u = .next v) : s.BeforeWrites v := by
  have hserved := serve_served h.sound.shaped.event hst
  have hquiet : (∀ n, ev ≠ .storeTick n) ∧ ∀ p k, ev ≠ .start p k := by
    rcases hev' with rfl | ⟨n, rfl⟩ <;> exact ⟨nofun, nofun⟩
  obtain ⟨hsound, hbusy⟩ := busyHeld_keptByParts.served ev i u v ⟨h.sound, h.busy⟩ hev hst
  exact
    { sound   := hsound
      busy    := hbusy
      agrees  := hserved.agrees h.agrees
      running := (hserved.status_eq hquiet.2).trans h.running
      cycle   := hserved.cycle_eq.trans h.cycle
      view    := (hserved.agrees_view h.agrees hquiet.1).trans h.view
      due     := fun n e he =>
        (hserved.due_iff h.sound.consistent hev hev' n e (h.cycle.symm ▸ he)).trans (h.due n e he) }

theorem State.BeforeWrites.commitStage (hst : commitStage u = .next v) : s.BeforeWrites v := by
  rcases commitStage_served hst with rfl | ⟨i, hev, hst⟩
  · exact h
  · exact h.served hev (.inl rfl) hst

theorem State.BeforeWrites.broadcastStage (hst : broadcastStage u = .next v) : s.BeforeWrites v := by
  rcases broadcastStage_served hst with rfl | ⟨n, i, hev, hst⟩
  · exact h
  · exact h.served hev (.inr ⟨n, rfl⟩) hst

end

/-! ## The memory tick -/

/-- The views that `w` has when, of `u`, the writes due at addresses outside `ns` are done: each such store's address reads as
its data, and an address that no due store writes reads as it did. -/
structure State.WritesViews (u : State) (ns : List Nat) (w : State) : Prop where
  done  : ∀ (n : Nat) (e : Entry) (ea v : Word), n ∉ ns → u.table[n]? = some e → e.writeDue u.cycle → e.ea = some ea →
    e.data = some v → w.mc.view w.cfg ea.toNat = v
  frame : ∀ a : Nat,
    (∀ (n : Nat) (e : Entry) (ea : Word), u.table[n]? = some e → e.writeDue u.cycle → e.ea = some ea → ea.toNat ≠ a) →
    w.mc.view w.cfg a = u.mc.view u.cfg a

/-- In the write sweep of `u`, with the entries `ns` still to be visited. -/
structure State.InWrites (u : State) (ns : List Nat) (w : State) : Prop extends State.WritesViews u ns w where
  agrees  : w.mc.Agrees w.cfg
  running : w.status = .running
  cycle   : w.cycle = u.cycle
  nodup   : ns.Nodup
  rest    : ∀ n ∈ ns, w.table[n]? = u.table[n]?

/-- A write is due exactly when its countdown runs in this tick and is at 1. -/
theorem Entry.writeDue_iff {s : State} {e : Entry} : e.writeDue s.cycle ↔ writesThisTick s e = true ∧ e.count = 1 := by
  rw [writesThisTick, Bool.and_eq_true, Entry.writeDue, and_assoc]

/-- Two writes that are due go to different addresses (10_state.md R86 (c)). -/
theorem State.BusyHeld.due_ne {u : State} (h : u.BusyHeld) {m n : Nat} {e f : Entry} {ea ea' : Word} {c : Nat}
    (he : u.table[n]? = some e) (hf : u.table[m]? = some f) (hmn : m ≠ n) (hde : e.writeDue c) (hdf : f.writeDue c)
    (hea : e.ea = some ea) (hea' : f.ea = some ea') : ea'.toNat ≠ ea.toNat := fun hsame =>
  hmn (h.single m n f e ea.toNat hf he ⟨.inr hdf.1, ea', hea', hsame⟩ ⟨.inr hde.1, ea, hea, rfl⟩)

section
variable {u w : State} {n : Nat} {ns : List Nat} (h : u.InWrites (n :: ns) w)
include h

/-- A visit that does no due write leaves the views. -/
theorem State.InWrites.views_of_not_due (hno : ∀ e, w.table[n]? = some e → ¬ e.writeDue w.cycle) :
    u.WritesViews ns w where
  done  := fun m e ea v hm he hd hea hv => by
    refine h.done m e ea v (fun hmem => ?_) he hd hea hv
    rcases List.mem_cons.1 hmem with rfl | hmem
    · exact hno e ((h.rest m List.mem_cons_self).trans he) (h.cycle.symm ▸ hd)
    · exact hm hmem
  frame := h.frame

theorem State.InWrites.skip (hno : ∀ e, w.table[n]? = some e → writesThisTick w e = false) : u.InWrites ns w :=
  { h.views_of_not_due fun e he hd => absurd ((hno e he).symm.trans (Entry.writeDue_iff.1 hd).1) (by decide) with
    agrees  := h.agrees
    running := h.running
    cycle   := h.cycle
    nodup   := (List.nodup_cons.1 h.nodup).2
    rest    := fun m hm => h.rest m (List.mem_cons_of_mem _ hm) }

/-- What serving a store's write countdown does to the views. -/
theorem State.InWrites.views_served {x : State} {e : Entry} {i : Instr} (hbusy : u.BusyHeld) (he : w.table[n]? = some e)
    (hp : writesThisTick w e = true) (hx : Served w i (.storeTick n) x) : u.WritesViews ns x := by
  have heu : u.table[n]? = some e := (h.rest n List.mem_cons_self).symm.trans he
  cases hx with
  | idle hidle => cases hidle
  | writeCounted he' hc =>
    rw [he] at he'
    cases he'
    have hviews := h.views_of_not_due fun f hf hd => by
      rw [he] at hf
      cases hf
      exact hc (Entry.writeDue_iff.1 hd).2
    exact ⟨hviews.done, hviews.frame⟩
  | @written _ _ ea v m he' hc hea hv hm =>
    rw [he] at he'
    cases he'
    have hdue : e.writeDue u.cycle := h.cycle ▸ Entry.writeDue_iff.2 ⟨hp, hc⟩
    have hview : (w.performWrite n ea m).mc.view w.cfg = Function.update (w.mc.view w.cfg) ea.toNat v :=
      State.performWrite_view h.agrees hm
    refine ⟨fun k f ea' v' hk hf hd hea' hv' => ?_, fun a ha => ?_⟩
    · refine (congrFun hview _).trans ?_
      by_cases hkn : k = n
      · subst hkn
        rw [heu] at hf
        cases hf
        rw [hea] at hea'
        cases hea'
        rw [hv] at hv'
        cases hv'
        exact Function.update_self ..
      · rw [Function.update_of_ne (hbusy.due_ne heu hf hkn hdue hd hea hea')]
        exact h.done k f ea' v' (fun hmem => (List.mem_cons.1 hmem).elim hkn hk) hf hd hea' hv'
    · refine (congrFun hview _).trans ?_
      rw [Function.update_of_ne (ha n e ea heu hdue hea).symm]
      exact h.frame a ha

theorem State.InWrites.served {x : State} {e : Entry} (hbusy : u.BusyHeld) (he : w.table[n]? = some e)
    (hp : writesThisTick w e = true) (hst : serve (.storeTick n) e.ins w = .next x) : u.InWrites ns x := by
  obtain ⟨y, hy, rfl⟩ := serve_served_any hst
  obtain ⟨hnotin, hnodup⟩ := List.nodup_cons.1 h.nodup
  have hviews := h.views_served hbusy he hp hy
  exact
    { done    := hviews.done
      frame   := hviews.frame
      agrees  := hy.agrees h.agrees
      running := (hy.status_eq nofun).trans h.running
      cycle   := hy.cycle_eq.trans h.cycle
      nodup   := hnodup
      rest    := fun m hm => by
        have hne : ¬ w.ServesEntry m (.storeTick n) := by
          rintro rfl
          exact hnotin hm
        exact (hy.table_other hne).trans (h.rest m (List.mem_cons_of_mem _ hm)) }

end

/-- The memory tick does every write that is due and changes no other view (40_scheduler.md R255). -/
theorem memTickStage_views {u t : State} (hagrees : u.mc.Agrees u.cfg) (hbusy : u.BusyHeld) (hrun : u.status = .running)
    (h : memTickStage u = .next t) : t.mc.Agrees t.cfg ∧ t.status = .running ∧ u.WritesViews [] t := by
  have hstart : u.InWrites (List.range u.table.length) u :=
    { done    := fun n e ea v hn he _ _ _ =>
        absurd (List.mem_range.2 (List.getElem?_eq_some_iff.1 he).1) hn
      frame   := fun _ _ => rfl
      agrees  := hagrees
      running := hrun
      cycle   := rfl
      nodup   := List.nodup_range
      rest    := fun _ _ => rfl }
  have hsweep (w : State) (hw : sweep writesThisTick Event.storeTick (List.range u.table.length) u = .next w) :
      u.InWrites [] w :=
    sweep_induction (P := u.InWrites) (fun _ _ h => h.running) (fun _ _ _ h => h.skip)
      (fun _ _ _ _ _ h he hp hst => h.served hbusy he hp hst) hstart hw
  obtain ⟨w, hw, hpf⟩ := thenRun_of_running h fun w hw => (hsweep w hw).running
  have hdone := hsweep w hw
  obtain ⟨m, hm, rfl⟩ := prefetchTick_next hpf
  obtain ⟨hagrees', hview⟩ := hdone.agrees.pfTick w.cycle hm
  refine ⟨hagrees', hdone.running, fun n e ea v hn he hd hea hv => ?_, fun a ha => ?_⟩
  · exact (congrFun hview _).trans (hdone.done n e ea v hn he hd hea hv)
  · exact (congrFun hview _).trans (hdone.frame a ha)

/-! ## After the memory tick -/

/-- A coherent controller with given views. -/
def State.ViewIs (view : Nat → Word) (u : State) : Prop := u.mc.Agrees u.cfg ∧ u.mc.view u.cfg = view

theorem State.ViewIs.served {view : Nat → Word} {ev : Event} {i : Instr} {u v : State} (h : u.ViewIs view)
    (hst : serve ev i u = .next v) (hev : ∀ n, ev ≠ .storeTick n) : v.ViewIs view := by
  obtain ⟨w, hw, rfl⟩ := serve_served_any hst
  exact ⟨hw.agrees h.1, (hw.agrees_view h.1 hev).trans h.2⟩

/-- The stages after the memory tick change no view. -/
theorem restOfTick_view {u t : State} (hs : u.mc.Agrees u.cfg)
    (h : thenRun (executeStage u) (fun s => thenRun (dispatchStage s) fun s => .next s.clearSettle) = .next t) :
    t.mc.view t.cfg = u.mc.view u.cfg := by
  have hdispatch {v w : State} (hv : v.ViewIs (u.mc.view u.cfg)) (hw : dispatchStage v = .next w) :
      w.ViewIs (u.mc.view u.cfg) := by
    rcases dispatchStage_served hw with rfl | ⟨i, -, hst⟩
    · exact hv
    · exact hv.served hst nofun
  have hexecute {v : State} (hv : executeStage u = .next v) : v.ViewIs (u.mc.view u.cfg) :=
    executeStage_keeps (fun _ _ _ _ h hst => h.served hst nofun) (fun _ _ _ _ _ h hst => h.served hst nofun) ⟨hs, rfl⟩ hv
  have ht : t.ViewIs (u.mc.view u.cfg) := thenRun_keeps (fun _ => id) (fun _ => hexecute)
    (fun v h1 e1 => thenRun_keeps (fun _ => id) (fun _ => hdispatch h1) (fun w h2 e2 => by
      cases e2
      exact h2) e1) h
  exact ht.2

/-- A tick does every write that is due and changes no other view. -/
theorem tick_writesViews {s t : State} (h : s.BeforeWrites { s with cycle := s.cycle + 1 }) (htick : tick s = .next t) :
    ∃ u, s.BeforeWrites u ∧ u.WritesViews [] t := by
  obtain ⟨s1, h1, htick⟩ := thenRun_of_running htick fun _ hu => (h.commitStage hu).running
  have b1 := h.commitStage h1
  obtain ⟨s2, h2, htick⟩ := thenRun_of_running htick fun _ hu => (b1.broadcastStage hu).running
  have b2 := b1.broadcastStage h2
  obtain ⟨s3, h3, htick⟩ := thenRun_of_running htick fun _ hu =>
    (memTickStage_views b2.agrees b2.busy b2.running hu).2.1
  obtain ⟨hagrees, -, hviews⟩ := memTickStage_views b2.agrees b2.busy b2.running h3
  have hrest := restOfTick_view hagrees htick
  exact ⟨s2, b2, hrest.symm ▸ hviews.done, hrest.symm ▸ hviews.frame⟩

/-- Settles O50: nothing changes a view before the memory tick, the sweep does each due write once, at an address of its own,
and nothing changes a view after it. -/
theorem onlyDueStoresChangeMemory : Obligations.OnlyDueStoresChangeMemory := by
  intro s t hs hl hc hcons hbusy hrun hterm hcap hst
  have htick : tick s = .next t := by
    unfold step runPass at hst
    rwa [if_pos hrun, if_neg (by simp [hterm]), if_neg (by omega)] at hst
  have hsound : s.Sound := ⟨hs, hl, hcons⟩
  obtain ⟨hsound0, hbusy0⟩ := busyHeld_keptByParts.counted s ⟨hsound, hbusy⟩
  have h0 : s.BeforeWrites { s with cycle := s.cycle + 1 } :=
    ⟨hsound0, hbusy0, hs.mc.agrees hs.legal hc, hrun, rfl, rfl, fun _ _ _ => Iff.rfl⟩
  obtain ⟨u, hu, hdone, hframe⟩ := tick_writesViews h0 htick
  rw [hu.cycle] at hdone hframe
  rw [hu.view] at hframe
  refine ⟨fun n e ea v he hd hea hv => ?_, fun a ha => ?_⟩
  · exact hdone n e ea v List.not_mem_nil ((hu.due n e hd).2 he) hd hea hv
  · exact hframe a fun n e ea he hd hea => ha n e ea ((hu.due n e hd).1 he) hd hea

end Sys2Proof.Machine
end

section
/-! PROOF. One cache level: lookup by row and tag, touch and victim of the recency ranks (20_memory.md R100, R101, R105,
R106). -/

namespace Sys2Proof.Machine

/-! ## O30: lookup -/

/-- A line of a row is a line of a row that the level's array holds. -/
theorem CacheLevel.row_getElem?_iff {c : CacheLevel} {r w : Nat} {e : CacheEntry} :
    (c.row r)[w]? = some e ↔ ∃ row, c.lines[r]? = some row ∧ row[w]? = some e := by
  constructor
  · intro h
    exact ⟨c.row r, CacheLevel.row_line h, h⟩
  · rintro ⟨row, hrow, h⟩
    rwa [CacheLevel.row, hrow, Option.getD_some]

theorem CacheLevel.holds_iff {rows : Nat} {c : CacheLevel} {a : Nat} :
    c.holds rows a = true ↔ ∃ w e, c.find rows a = some (w, e) := by
  rw [CacheLevel.holds, Option.isSome_iff_exists, Prod.exists]

/-- Settles O30: with distinct tags the lookup's first match is the only one, and R100 inverts the split into row and tag. -/
theorem lookupByRowAndTag : Obligations.LookupByRowAndTag := by
  intro rows c _ hu
  have hfind (a w : Nat) (e : CacheEntry) : c.find rows a = some (w, e) ↔
      ∃ row, c.lines[a % rows]? = some row ∧ row[w]? = some e ∧ e.valid = true ∧ e.tag = a / rows := by
    rw [CacheLevel.find_iff hu, CacheLevel.row_getElem?_iff]
    simp only [← and_assoc, exists_and_right]
  refine ⟨hfind, fun a => CacheLevel.holds_iff, fun r w row e hr hrow he hv => ?_⟩
  obtain ⟨hmod, hdiv⟩ := row_tag_of_addr (tag := e.tag) hr
  exact (hfind _ w e).2 ⟨row, by rw [hmod]; exact hrow, he, hv, hdiv.symm⟩

/-! ## O31: recency -/

/-- A row of ranks after a touch of way `w` (20_memory.md R105). -/
def touchRanks (w : Nat) (ks : List Nat) : List Nat := ks.mapIdx (fun i k => if i = w then 0 else k + 1)

theorem touchRanks_getElem? {w v k : Nat} {ks : List Nat} (h : ks[v]? = some k) :
    (touchRanks w ks)[v]? = some (if v = w then 0 else k + 1) := by
  rw [touchRanks, List.getElem?_mapIdx, h]
  rfl

/-- Distinct ranks stay distinct: the one touched is the only 0, and the others move together (20_memory.md R108). -/
theorem touchRanks_nodup {w : Nat} {ks : List Nat} (h : ks.Nodup) : (touchRanks w ks).Nodup := by
  rw [List.nodup_iff_getElem?_ne_getElem?] at h ⊢
  intro i j hij hj
  rw [touchRanks, List.length_mapIdx] at hj
  have hne := h i j hij hj
  have hi : i < ks.length := hij.trans hj
  rw [List.getElem?_eq_getElem hi, List.getElem?_eq_getElem hj] at hne
  rw [touchRanks_getElem? (List.getElem?_eq_getElem hi), touchRanks_getElem? (List.getElem?_eq_getElem hj)]
  intro heq
  have hval := Option.some.inj heq
  split_ifs at hval with hiw hjw
  · omega
  · exact hne (congrArg some (Nat.succ.inj hval))

theorem CacheLevel.touch_ranks (c : CacheLevel) (r w q : Nat) :
    (c.touch r w).ranks[q]? = if r = q then c.ranks[q]?.map (touchRanks w) else c.ranks[q]? := by
  simp only [CacheLevel.touch, List.getElem?_modify]
  split
  · rfl
  · exact Option.map_id_apply

/-- The greatest rank from index `i` on is the best so far, or the first of the greatest in the list (20_memory.md R106). -/
theorem maxRankFrom_spec (ks : List Nat) (best at' i : Nat) :
    (maxRankFrom best at' i ks = at' ∧ ∀ k ∈ ks, k ≤ best) ∨
    ∃ j k, ks[j]? = some k ∧ maxRankFrom best at' i ks = i + j ∧ best < k ∧
      ∀ (v l : Nat), ks[v]? = some l → l ≤ k ∧ (l = k → j ≤ v) := by
  induction ks generalizing best at' i with
  | nil => exact .inl ⟨rfl, nofun⟩
  | cons x xs ih =>
    have later {j k : Nat} (hx : x < k) (h : ∀ (v l : Nat), xs[v]? = some l → l ≤ k ∧ (l = k → j ≤ v)) (v l : Nat)
        (hl : (x :: xs)[v]? = some l) : l ≤ k ∧ (l = k → j + 1 ≤ v) := by
      cases v with
      | zero =>
        cases hl
        exact ⟨hx.le, fun e => by omega⟩
      | succ v =>
        obtain ⟨hle, hfirst⟩ := h v l hl
        exact ⟨hle, fun e => Nat.succ_le_succ (hfirst e)⟩
    unfold maxRankFrom
    split
    · rename_i hbest
      rcases ih x i (i + 1) with ⟨hat, hall⟩ | ⟨j, k, hk, hat, hx, hmax⟩
      · refine .inr ⟨0, x, rfl, hat, hbest, fun v l hl => ?_⟩
        rcases List.mem_cons.1 (List.mem_of_getElem? hl) with rfl | hmem
        · exact ⟨le_rfl, fun _ => Nat.zero_le _⟩
        · exact ⟨hall l hmem, fun _ => Nat.zero_le _⟩
      · exact .inr ⟨j + 1, k, hk, by omega, hbest.trans hx, later hx hmax⟩
    · rename_i hbest
      rcases ih best at' (i + 1) with ⟨hat, hall⟩ | ⟨j, k, hk, hat, hx, hmax⟩
      · refine .inl ⟨hat, fun k hk => ?_⟩
        rcases List.mem_cons.1 hk with rfl | hmem
        · exact Nat.le_of_not_lt hbest
        · exact hall k hmem
      · exact .inr ⟨j + 1, k, hk, by omega, hx, later (by omega) hmax⟩

/-- The victim way has the greatest rank of its row, and is the first that does (20_memory.md R106). -/
theorem CacheLevel.victim_spec {c : CacheLevel} {r : Nat} {ks : List Nat} (h : c.ranks[r]? = some ks) (hne : ks ≠ []) :
    ∃ k, ks[c.victim r]? = some k ∧ ∀ (v l : Nat), ks[v]? = some l → l ≤ k ∧ (l = k → c.victim r ≤ v) := by
  obtain ⟨x, xs, rfl⟩ := List.exists_cons_of_ne_nil hne
  have hvictim : c.victim r = maxRankFrom x 0 1 xs := by
    rw [CacheLevel.victim, CacheLevel.rankRow, h]
    rfl
  rw [hvictim]
  rcases maxRankFrom_spec xs x 0 1 with ⟨hat, hall⟩ | ⟨j, k, hk, hat, hx, hmax⟩
  · rw [hat]
    refine ⟨x, rfl, fun v l hl => ⟨?_, fun _ => Nat.zero_le _⟩⟩
    rcases List.mem_cons.1 (List.mem_of_getElem? hl) with rfl | hmem
    · exact le_rfl
    · exact hall l hmem
  · rw [hat, Nat.add_comm]
    refine ⟨k, hk, fun v l hl => ?_⟩
    cases v with
    | zero =>
      cases hl
      exact ⟨hx.le, fun e => by omega⟩
    | succ v =>
      obtain ⟨hle, hfirst⟩ := hmax v l hl
      exact ⟨hle, fun e => Nat.succ_le_succ (hfirst e)⟩

/-- Settles O31: a touch maps one row of ranks, and the victim is the first of the greatest. -/
theorem touchAndVictim : Obligations.TouchAndVictim := by
  intro c r w ks h
  refine ⟨rfl, fun q hq => ?_, ⟨touchRanks w ks, ?_, List.length_mapIdx, fun v k => touchRanks_getElem?, touchRanks_nodup⟩,
    CacheLevel.victim_spec h⟩
  · rw [CacheLevel.touch_ranks, if_neg hq.symm]
  · rw [CacheLevel.touch_ranks, if_pos rfl, h]
    rfl

end Sys2Proof.Machine
end

section
/-! PROOF. The counters of the controller's operations (20_memory.md R123). -/

namespace Sys2Proof.Machine

section
variable {cfg : Config} {cycle : Nat} {m m' : MemCtl} {a : Nat} {v : Word} {d : Bool}

theorem MemCtl.fill2_cnt (e : m.fill2 cfg cycle a v d = .ok m' ()) : m'.cnt = m.cnt := by
  obtain ⟨-, rfl⟩ := (MemCtl.fill2_ok cfg cycle m m' a v d ()).1 e
  exact MemCtl.evict2_cnt cfg cycle m a

theorem MemCtl.evict1_cnt (e : m.evict1 cfg cycle a = .ok m' ()) : m'.cnt = m.cnt := by
  unfold MemCtl.evict1 at e
  split at e
  · unfold MemCtl.writeback2 at e
    split at e
    · cases e
      rfl
    · exact MemCtl.fill2_cnt e
  · cases e
    rfl
  · cases e
    rfl

theorem MemCtl.fill1_cnt (e : m.fill1 cfg cycle a v d = .ok m' ()) : m'.cnt = m.cnt := by
  obtain ⟨-, m1, h1, rfl⟩ := (MemCtl.fill1_ok cfg cycle m m' a v d ()).1 e
  exact (MemCtl.evict1_cnt h1 :)

theorem MemCtl.countHit2_cnt (cfg : Config) (m : MemCtl) (a w : Nat) :
    (m.countHit2 cfg a w).cnt =
      if m.pfMark.has a then { m.cnt with pfHits := m.cnt.pfHits + 1 } else { m.cnt with l2Hits := m.cnt.l2Hits + 1 } := by
  unfold MemCtl.countHit2
  split <;> rfl

/-- A demand read counts its outcome once: the level-1 hit, or the level-1 miss and what became of it. -/
theorem MemCtl.read_cnt {r : Word × Nat} (e : MemCtl.read cfg cycle m a = .ok m' r) :
    m'.cnt =
      if m.l1.holds cfg.l1Rows a then { m.cnt with l1Hits := m.cnt.l1Hits + 1 }
      else if m.l2.holds cfg.l2Rows a then
        if m.pfMark.has a then { m.cnt with l1Misses := m.cnt.l1Misses + 1, pfHits := m.cnt.pfHits + 1 }
        else { m.cnt with l1Misses := m.cnt.l1Misses + 1, l2Hits := m.cnt.l2Hits + 1 }
      else { m.cnt with l1Misses := m.cnt.l1Misses + 1, l2Misses := m.cnt.l2Misses + 1 } := by
  unfold MemCtl.read at e
  split at e
  · rename_i w l hf
    cases e
    rw [if_pos (CacheLevel.holds_iff.2 ⟨w, l, hf⟩)]
  · rename_i hmiss
    rw [CacheLevel.holds_eq_false.2 hmiss, if_neg Bool.false_ne_true]
    dsimp only at e
    split at e
    · rename_i w l hf
      rw [if_pos (CacheLevel.holds_iff.2 ⟨w, l, hf⟩)]
      rw [MemCtl.readHit2_eq] at e
      obtain ⟨m1, _, h1, e⟩ := Ctl.bind_ok.1 e
      cases e
      rw [MemCtl.fill1_cnt h1, MemCtl.countHit2_cnt]
    · rename_i hmiss2
      rw [CacheLevel.holds_eq_false.2 hmiss2, if_neg Bool.false_ne_true]
      obtain ⟨m2, _, h2, e⟩ := Ctl.bind_ok.1 e
      obtain ⟨m3, _, h3, e⟩ := Ctl.bind_ok.1 e
      cases e
      rw [MemCtl.fill1_cnt h3, MemCtl.fill2_cnt h2]

theorem MemCtl.write_cnt (e : MemCtl.write cfg cycle m a v = .ok m' ()) : m'.cnt = m.cnt := by
  unfold MemCtl.write at e
  split at e
  · cases e
    rfl
  · exact MemCtl.fill1_cnt e

/-- An install counts nothing when it is dropped, and else one fill. -/
theorem MemCtl.pfInstall_cnt {q : PfReq} (e : m.pfInstall cfg cycle q = .ok m' ()) :
    ∃ k, m'.cnt = { m.cnt with pfFilled := m.cnt.pfFilled + k } := by
  unfold MemCtl.pfInstall at e
  split at e
  · cases e
    exact ⟨0, rfl⟩
  · obtain ⟨m1, _, h1, e⟩ := Ctl.bind_ok.1 e
    cases e
    exact ⟨1, by dsimp only; rw [MemCtl.fill2_cnt h1]⟩

theorem MemCtl.pfDrain_cnt {qs : List PfReq} (e : m.pfDrain cfg cycle qs = .ok m' ()) :
    ∃ k, m'.cnt = { m.cnt with pfFilled := m.cnt.pfFilled + k } := by
  induction qs generalizing m with
  | nil =>
    cases e
    exact ⟨0, rfl⟩
  | cons q qs ih =>
    unfold MemCtl.pfDrain at e
    split at e
    · obtain ⟨m1, _, h1, e⟩ := Ctl.bind_ok.1 e
      obtain ⟨j, hj⟩ := MemCtl.pfInstall_cnt h1
      obtain ⟨k, hk⟩ := ih e
      exact ⟨j + k, by rw [hk, hj]; simp only [Nat.add_assoc]⟩
    · exact ih e

theorem MemCtl.pfTick_cnt (e : m.pfTick cfg cycle = .ok m' ()) :
    ∃ k, m'.cnt = { m.cnt with pfFilled := m.cnt.pfFilled + k } :=
  (MemCtl.pfDrain_cnt (m := { m with pfq := m.pfq.map (PfReq.age cycle) }) e :)

end

/-- Settles O34: fills, evictions and write-backs count nothing, so the counts are those that the operations themselves make. -/
theorem hitAndMissCounters : Obligations.HitAndMissCounters := by
  intro cfg cycle m m' a
  exact ⟨fun _ => MemCtl.read_cnt, fun _ => MemCtl.write_cnt, MemCtl.pfTick_cnt⟩

end Sys2Proof.Machine
end

section
/-! PROOF. The prefetch tick, which ages first and installs after, is the rule's single pass (20_memory.md R116, log 13); and
what an install does. -/

namespace Sys2Proof.Machine

/-! ## What an install does to the queue -/

section
variable {cfg : Config} {cycle : Nat} {m : MemCtl} {a oa : Nat} {ov : Word}

theorem MemCtl.evict2_of_none (h : m.l2.victimLine cfg.l2Rows a = none) : m.evict2 cfg cycle a = m := by
  rw [MemCtl.evict2, h]

theorem MemCtl.evict2_of_clean (h : m.l2.victimLine cfg.l2Rows a = some (oa, ov, false)) :
    m.evict2 cfg cycle a = { m with pfMark := m.pfMark.erase oa } := by
  rw [MemCtl.evict2, h]

theorem MemCtl.evict2_of_dirty (h : m.l2.victimLine cfg.l2Rows a = some (oa, ov, true)) :
    m.evict2 cfg cycle a = { m.memWrite cycle oa ov with pfMark := m.pfMark.erase oa } := by
  rw [MemCtl.evict2, h]
  rfl

end

/-- An eviction reads nothing of the queue and takes from it the requests of some addresses: a write to memory cancels those
of its address (20_memory.md R118). -/
theorem MemCtl.evict2_queue (cfg : Config) (cycle : Nat) (m : MemCtl) (a : Nat) :
    ∃ (m' : MemCtl) (keep : Nat → Bool), ∀ queue : List PfReq,
      MemCtl.evict2 cfg cycle { m with pfq := queue } a = { m' with pfq := queue.filter (fun p => keep p.addr) } := by
  cases hv : m.l2.victimLine cfg.l2Rows a with
  | none =>
    refine ⟨m, fun _ => true, fun queue => ?_⟩
    rw [List.filter_true]
    exact MemCtl.evict2_of_none hv
  | some p =>
    obtain ⟨oa, ov, d⟩ := p
    cases d with
    | false =>
      refine ⟨{ m with pfMark := m.pfMark.erase oa }, fun _ => true, fun queue => ?_⟩
      rw [List.filter_true]
      exact MemCtl.evict2_of_clean hv
    | true =>
      exact ⟨{ m.memWrite cycle oa ov with pfMark := m.pfMark.erase oa }, fun b => b != oa,
        fun _ => MemCtl.evict2_of_dirty hv⟩

/-- An install reads of a request its address and its value, leaves a controller in which the queue plays no part, and takes
from the queue the requests of some addresses. -/
theorem MemCtl.pfInstall_queue (cfg : Config) (cycle : Nat) (m : MemCtl) (q : PfReq) :
    ∃ (m' : MemCtl) (keep : Nat → Bool), ∀ (queue : List PfReq) (p : PfReq), p.addr = q.addr → p.value = q.value →
      MemCtl.pfInstall cfg cycle { m with pfq := queue } p =
        .ok { m' with pfq := queue.filter (fun p => keep p.addr) } () := by
  cases hh : m.l2.holds cfg.l2Rows q.addr with
  | true =>
    refine ⟨m, fun _ => true, fun queue p ha _ => ?_⟩
    rw [MemCtl.pfInstall, ha, if_pos hh, List.filter_true]
  | false =>
    obtain ⟨m1, keep, h1⟩ := MemCtl.evict2_queue cfg cycle m q.addr
    refine ⟨{ m1 with
      l2 := m1.l2.put cfg.l2Rows q.addr q.value false, pfMark := m1.pfMark.insert q.addr
      cnt := { m1.cnt with pfFilled := m1.cnt.pfFilled + 1 } }, keep, fun queue p ha hv => ?_⟩
    have hno : ¬ (m.l2.holds cfg.l2Rows q.addr = true) := by rw [hh]; decide
    rw [MemCtl.pfInstall, ha, hv, if_neg hno, MemCtl.fill2, if_neg hno]
    dsimp only
    rw [h1 queue]
    rfl

/-! ## Requests that were cancelled are skipped -/

/-- A drain skips requests that are not queued. -/
theorem MemCtl.pfDrain_filter (cfg : Config) (cycle : Nat) (m : MemCtl) (keep : PfReq → Bool) (qs : List PfReq)
    (h : ∀ q ∈ qs, keep q = false → q ∉ m.pfq) : m.pfDrain cfg cycle qs = m.pfDrain cfg cycle (qs.filter keep) := by
  induction qs generalizing m with
  | nil => rfl
  | cons q qs ih =>
    have hqs : ∀ p ∈ qs, keep p = false → p ∉ m.pfq := fun p hp => h p (List.mem_cons_of_mem _ hp)
    cases hk : keep q with
    | false =>
      have hno : ¬ (m.pfq.contains q = true) := fun hc => h q List.mem_cons_self hk (List.contains_iff_mem.1 hc)
      rw [List.filter_cons_of_neg (by rw [hk]; decide), MemCtl.pfDrain, if_neg hno]
      exact ih m hqs
    | true =>
      rw [List.filter_cons_of_pos hk, MemCtl.pfDrain, MemCtl.pfDrain]
      split
      · obtain ⟨m1, h1⟩ := MemCtl.pfInstall_answers cfg cycle { m with pfq := m.pfq.erase q } q
        have hext := MemCtl.pfInstall_extends cfg cycle { m with pfq := m.pfq.erase q } q
        rw [h1] at hext ⊢
        exact ih m1 fun p hp hkp hmem => hqs p hp hkp (List.mem_of_mem_erase (hext.queue.subset hmem))
      · exact ih m hqs

/-! ## The two phases and the one pass -/

/-- A request that is old enough has its count one less (20_memory.md R116). -/
theorem PfReq.age_of_lt {cycle : Nat} {q : PfReq} (h : q.made < cycle) : q.age cycle = { q with count := q.count - 1 } :=
  if_pos h

theorem PfReq.age_of_not_lt {cycle : Nat} {q : PfReq} (h : ¬ q.made < cycle) : q.age cycle = q :=
  if_neg h

/-- Ageing does not change which addresses are kept. -/
theorem map_age_filter (cycle : Nat) (keep : Nat → Bool) (qs : List PfReq) :
    (qs.map (PfReq.age cycle)).filter (fun p => keep p.addr) = (qs.filter (fun p => keep p.addr)).map (PfReq.age cycle) := by
  rw [List.filter_map]
  congr 2
  funext q
  rw [Function.comp_apply, PfReq.age_addr]

/-- The requests of a part of the queue that are left in it are those whose address is kept. -/
theorem filter_contains_filter {keep : PfReq → Bool} {part queue : List PfReq} (h : part ⊆ queue) :
    part.filter (queue.filter keep).contains = part.filter keep := by
  refine List.filter_congr fun p hp => Bool.eq_iff_iff.2 ?_
  rw [List.contains_iff_mem, List.mem_filter]
  exact ⟨fun hk => hk.2, fun hk => ⟨h hp, hk⟩⟩

section
variable {cfg : Config} {cycle : Nat} {m m' : MemCtl} {past todo : List PfReq} {q : PfReq}

/-- A request that does not expire is only aged. -/
theorem MemCtl.pfDrain_of_not_expires (h : ¬ q.expires cycle = true) :
    MemCtl.pfDrain cfg cycle { m with pfq := past ++ (q :: todo).map (PfReq.age cycle) }
        (((q :: todo).filter (PfReq.expires cycle)).map (PfReq.age cycle)) =
      MemCtl.pfDrain cfg cycle { m with pfq := past ++ [q.age cycle] ++ todo.map (PfReq.age cycle) }
        ((todo.filter (PfReq.expires cycle)).map (PfReq.age cycle)) := by
  rw [List.filter_cons_of_neg h, List.append_assoc]
  rfl

/-- A request that expires is installed, and the drain goes on without the requests that the install cancels. -/
theorem MemCtl.pfDrain_of_expires {keep : Nat → Bool} (h : q.expires cycle = true) (hnew : q.age cycle ∉ past)
    (hinstall : ∀ (queue : List PfReq) (p : PfReq), p.addr = q.addr → p.value = q.value →
      MemCtl.pfInstall cfg cycle { m with pfq := queue } p =
        .ok { m' with pfq := queue.filter (fun p => keep p.addr) } ()) :
    MemCtl.pfDrain cfg cycle { m with pfq := past ++ (q :: todo).map (PfReq.age cycle) }
        (((q :: todo).filter (PfReq.expires cycle)).map (PfReq.age cycle)) =
      MemCtl.pfDrain cfg cycle
        { m' with
          pfq := past.filter (fun p => keep p.addr) ++ (todo.filter (fun p => keep p.addr)).map (PfReq.age cycle) }
        (((todo.filter (fun p => keep p.addr)).filter (PfReq.expires cycle)).map (PfReq.age cycle)) := by
  have herase : (past ++ q.age cycle :: todo.map (PfReq.age cycle)).erase (q.age cycle) =
      past ++ todo.map (PfReq.age cycle) := by
    rw [List.erase_append_right _ hnew, List.erase_cons_head]
  rw [List.filter_cons_of_pos h, List.map_cons, List.map_cons, MemCtl.pfDrain, if_pos (List.contains_iff_mem.2 (by simp))]
  dsimp only
  rw [herase, hinstall _ _ (PfReq.age_addr _ _) (PfReq.age_value _ _), Ctl.bind,
    MemCtl.pfDrain_filter cfg cycle _ (fun p => keep p.addr), List.filter_append, map_age_filter, map_age_filter,
    List.filter_comm]
  intro p _ hk hmem
  have hkeep := (List.mem_filter.1 hmem).2
  rw [hk] at hkeep
  cases hkeep

end

/-- The pass, when it has left `past` in the queue and not reached `todo`, does what the drain does in which `todo` has aged
already: a request ahead of the pass that an install cancels is skipped by both, and no request in `past` is at 0. -/
theorem MemCtl.pfPass_eq_pfDrain (cfg : Config) (cycle fuel : Nat) (past todo : List PfReq) (m : MemCtl)
    (hfuel : todo.length ≤ fuel) (hpast : ∀ q ∈ past, 1 ≤ q.count) (htodo : ∀ q ∈ todo, 1 ≤ q.count) :
    MemCtl.pfPass cfg cycle fuel past todo m =
      MemCtl.pfDrain cfg cycle { m with pfq := past ++ todo.map (PfReq.age cycle) }
        ((todo.filter (PfReq.expires cycle)).map (PfReq.age cycle)) := by
  induction fuel generalizing past todo m with
  | zero =>
    obtain rfl := List.length_eq_zero_iff.1 (Nat.le_zero.1 hfuel)
    rfl
  | succ fuel ih =>
    cases todo with
    | nil => simp [MemCtl.pfPass, MemCtl.pfDrain]
    | cons q todo =>
      obtain ⟨hcount, hrest⟩ := List.forall_mem_cons.1 htodo
      have hlen : todo.length ≤ fuel := Nat.le_of_succ_le_succ hfuel
      have hzero := PfReq.age_count_eq_zero (cycle := cycle) hcount
      have stays (hne : (q.age cycle).count ≠ 0) := (ih (past ++ [q.age cycle]) todo m hlen
        (List.forall_mem_append.2 ⟨hpast, List.forall_mem_singleton.2 (Nat.pos_of_ne_zero hne)⟩) hrest).trans
        (MemCtl.pfDrain_of_not_expires (hne ∘ hzero.2)).symm
      rw [MemCtl.pfPass]
      split_ifs with hmade hlast
      · have hend : (q.age cycle).count = 0 := by
          rw [PfReq.age_of_lt hmade]
          exact hlast
        obtain ⟨m', keep, hinstall⟩ := MemCtl.pfInstall_queue cfg cycle m q
        have hnew : q.age cycle ∉ past := fun hmem => absurd hend (Nat.pos_iff_ne_zero.1 (hpast _ hmem))
        rw [MemCtl.pfDrain_of_expires (hzero.1 hend) hnew hinstall, hinstall _ _ rfl rfl, Ctl.bind,
          filter_contains_filter (List.subset_append_left _ _), filter_contains_filter (List.subset_append_right _ _),
          ih _ _ _ ((List.length_filter_le _ _).trans hlen) (fun p hp => hpast p (List.mem_filter.1 hp).1)
            (fun p hp => hrest p (List.mem_filter.1 hp).1)]
      · rw [← PfReq.age_of_lt hmade]
        refine stays ?_
        rw [PfReq.age_of_lt hmade]
        exact hlast
      · have hage := PfReq.age_of_not_lt hmade
        rw [← stays (hage.symm ▸ Nat.pos_iff_ne_zero.1 hcount), hage]

/-! ## What an install does -/

/-- An eviction clears the mark of its victim and no other (20_memory.md R115). -/
theorem MemCtl.evict2_mark (cfg : Config) (cycle : Nat) (m : MemCtl) (a b : Nat) :
    (m.evict2 cfg cycle a).pfMark.has b = true ↔
      m.pfMark.has b = true ∧ ∀ v d, m.l2.victimLine cfg.l2Rows a ≠ some (b, v, d) := by
  have erased {oa : Nat} {ov : Word} {d : Bool} (hv : m.l2.victimLine cfg.l2Rows a = some (oa, ov, d)) :
      (m.pfMark.erase oa).has b = true ↔
        m.pfMark.has b = true ∧ ∀ v d, m.l2.victimLine cfg.l2Rows a ≠ some (b, v, d) := by
    rw [AddrSet.has_erase, Bool.and_eq_true, decide_eq_true_iff, hv]
    refine and_congr_right fun _ => ⟨fun hne v d' he => ?_, fun hall hbo => hall ov d (by rw [hbo])⟩
    cases he
    exact hne rfl
  rcases m.evict2_cases cfg cycle a with ⟨hv, he⟩ | ⟨oa, ov, hv, he⟩ | ⟨oa, ov, hv, he⟩
  · rw [he, hv]
    exact ⟨fun h => ⟨h, nofun⟩, fun h => h.1⟩
  · rw [he]
    exact erased hv
  · rw [he]
    exact erased hv

/-- An install into a level 2 that does not hold the address is a clean fill, a mark and a count (20_memory.md R116). -/
theorem MemCtl.pfInstall_fill {cfg : Config} {cycle : Nat} {m f : MemCtl} {q : PfReq}
    (h : m.fill2 cfg cycle q.addr q.value false = .ok f ()) :
    m.pfInstall cfg cycle q =
      .ok { f with pfMark := f.pfMark.insert q.addr, cnt := { f.cnt with pfFilled := f.cnt.pfFilled + 1 } } () := by
  have hno := ((MemCtl.fill2_ok cfg cycle m f q.addr q.value false ()).1 h).1
  rw [MemCtl.pfInstall, if_neg (by rw [hno]; decide), h]
  rfl

/-- Settles O36: the pass and the two phases install the same requests in the same order, and an install is a fill of level 2. -/
theorem prefetchTickIsOnePass : Obligations.PrefetchTickIsOnePass := by
  refine ⟨fun cfg cycle m hcount => ?_, fun cfg cycle m q => ⟨fun hh => ?_, fun hno => ?_⟩⟩
  · exact (MemCtl.pfPass_eq_pfDrain cfg cycle _ [] m.pfq m le_rfl nofun hcount).symm
  · rw [MemCtl.pfInstall, if_pos hh]
  · have hfill := (MemCtl.fill2_ok cfg cycle m _ q.addr q.value false ()).2 ⟨hno, rfl⟩
    refine ⟨_, _, MemCtl.pfInstall_fill hfill, hfill, rfl, ?_, fun b hb => ?_, ?_, fun legal hs => ?_⟩
    · simp
    · simp only [AddrSet.has_insert, hb, decide_false, Bool.false_or]
      exact MemCtl.evict2_mark cfg cycle m q.addr b
    · dsimp only
      rw [MemCtl.evict2_cnt]
    · exact ⟨_, (hs.tidy legal).2.find_put_same (CacheLevel.holds_eq_false.1 hno)⟩

end Sys2Proof.Machine
end

section
/-! PROOF. The fields of an instruction word (30_encoding.md R181 to R186). Every format is format R with its immediate cut
into the places of funct7, rs2 and rd, so what is shown of format R serves all four. -/

namespace Sys2Proof

open Laws

/-! ## The six fields of a word -/

/-- Bits 31..25 (R182). -/
def fieldFunct7 (w : Word) : BitVec 7 := w.extractLsb' 25 7

/-- Bits 14..12 (R182). -/
def fieldFunct3 (w : Word) : BitVec 3 := w.extractLsb' 12 3

/-- Bits 6..0 (R181). -/
def fieldOpcode (w : Word) : BitVec 7 := w.extractLsb' 0 7

/-- The six fields of format R cover the word. -/
theorem encodeR_fields (w : Word) :
    encodeR (fieldFunct7 w) (fieldRs2 w) (fieldRs1 w) (fieldFunct3 w) (fieldRd w) (fieldOpcode w) = w := by
  simp only [encodeR, fieldFunct7, fieldRs2, fieldRs1, fieldFunct3, fieldRd, fieldOpcode,
    BitVec.extractLsb'_append_extractLsb'_eq_extractLsb']
  exact BitVec.extractLsb'_eq_self

section
variable (f7 : BitVec 7) (rs2 rs1 : RegIdx) (f3 : BitVec 3) (rd : RegIdx) (op : BitVec 7)

@[simp] theorem fieldOpcode_encodeR : fieldOpcode (encodeR f7 rs2 rs1 f3 rd op) = op :=
  BitVec.extractLsb'_append_eq_right

@[simp] theorem fieldRd_encodeR : fieldRd (encodeR f7 rs2 rs1 f3 rd op) = rd := by
  rw [fieldRd, encodeR, BitVec.extractLsb'_append_eq_of_le (by decide)]
  exact BitVec.extractLsb'_append_eq_right

@[simp] theorem fieldFunct3_encodeR : fieldFunct3 (encodeR f7 rs2 rs1 f3 rd op) = f3 := by
  rw [fieldFunct3, encodeR, BitVec.extractLsb'_append_eq_of_le (by decide), BitVec.extractLsb'_append_eq_of_le (by decide)]
  exact BitVec.extractLsb'_append_eq_right

@[simp] theorem fieldRs1_encodeR : fieldRs1 (encodeR f7 rs2 rs1 f3 rd op) = rs1 := by
  rw [fieldRs1, encodeR, BitVec.extractLsb'_append_eq_of_le (by decide), BitVec.extractLsb'_append_eq_of_le (by decide),
    BitVec.extractLsb'_append_eq_of_le (by decide)]
  exact BitVec.extractLsb'_append_eq_right

@[simp] theorem fieldRs2_encodeR : fieldRs2 (encodeR f7 rs2 rs1 f3 rd op) = rs2 := by
  rw [fieldRs2, encodeR, BitVec.extractLsb'_append_eq_of_le (by decide), BitVec.extractLsb'_append_eq_of_le (by decide),
    BitVec.extractLsb'_append_eq_of_le (by decide), BitVec.extractLsb'_append_eq_of_le (by decide)]
  exact BitVec.extractLsb'_append_eq_right

@[simp] theorem fieldFunct7_encodeR : fieldFunct7 (encodeR f7 rs2 rs1 f3 rd op) = f7 := by
  rw [fieldFunct7, encodeR, BitVec.extractLsb'_append_eq_of_le (by decide), BitVec.extractLsb'_append_eq_of_le (by decide),
    BitVec.extractLsb'_append_eq_of_le (by decide), BitVec.extractLsb'_append_eq_of_le (by decide)]
  exact BitVec.extractLsb'_append_eq_left

end

theorem encodeR_inj {f7 f7' : BitVec 7} {rs2 rs2' rs1 rs1' rd rd' : RegIdx} {f3 f3' : BitVec 3} {op op' : BitVec 7} :
    encodeR f7 rs2 rs1 f3 rd op = encodeR f7' rs2' rs1' f3' rd' op' ↔
      f7 = f7' ∧ rs2 = rs2' ∧ rs1 = rs1' ∧ f3 = f3' ∧ rd = rd' ∧ op = op' := by
  constructor
  · intro h
    exact ⟨by simpa using congrArg fieldFunct7 h, by simpa using congrArg fieldRs2 h, by simpa using congrArg fieldRs1 h,
      by simpa using congrArg fieldFunct3 h, by simpa using congrArg fieldRd h, by simpa using congrArg fieldOpcode h⟩
  · rintro ⟨rfl, rfl, rfl, rfl, rfl, rfl⟩
    rfl

/-! ## Formats I, S and B as format R -/

/-- The two slices that formats I and S cut an immediate into cover it. -/
theorem append_slices12 (imm : BitVec 12) : imm.extractLsb' 5 7 ++ imm.extractLsb' 0 5 = imm :=
  (BitVec.extractLsb'_append_extractLsb'_eq_extractLsb' rfl).trans BitVec.extractLsb'_eq_self

theorem encodeI_eq_encodeR (imm : BitVec 12) (rs1 : RegIdx) (f3 : BitVec 3) (rd : RegIdx) (op : BitVec 7) :
    encodeI imm rs1 f3 rd op = encodeR (imm.extractLsb' 5 7) (imm.extractLsb' 0 5) rs1 f3 rd op := by
  rw [encodeR, append_slices12, encodeI]

theorem encodeS_eq_encodeR (imm : BitVec 12) (rs2 rs1 : RegIdx) (f3 : BitVec 3) (op : BitVec 7) :
    encodeS imm rs2 rs1 f3 op = encodeR (imm.extractLsb' 5 7) rs2 rs1 f3 (imm.extractLsb' 0 5) op := rfl

theorem encodeB_eq_encodeR (imm : BitVec 13) (rs2 rs1 : RegIdx) (f3 : BitVec 3) (op : BitVec 7) :
    encodeB imm rs2 rs1 f3 op =
      encodeR (imm.extractLsb' 12 1 ++ imm.extractLsb' 5 6) rs2 rs1 f3
        (imm.extractLsb' 1 4 ++ imm.extractLsb' 11 1) op := by
  rw [encodeB, encodeR, BitVec.append_assoc (w₁ := 20)]
  rfl

section
variable (imm : BitVec 12) (rs2 rs1 : RegIdx) (f3 : BitVec 3) (rd : RegIdx) (op : BitVec 7)

@[simp] theorem fieldRd_encodeI : fieldRd (encodeI imm rs1 f3 rd op) = rd := by
  rw [encodeI_eq_encodeR, fieldRd_encodeR]

@[simp] theorem fieldRs1_encodeI : fieldRs1 (encodeI imm rs1 f3 rd op) = rs1 := by
  rw [encodeI_eq_encodeR, fieldRs1_encodeR]

@[simp] theorem fieldRs1_encodeS : fieldRs1 (encodeS imm rs2 rs1 f3 op) = rs1 := by
  rw [encodeS_eq_encodeR, fieldRs1_encodeR]

@[simp] theorem fieldRs2_encodeS : fieldRs2 (encodeS imm rs2 rs1 f3 op) = rs2 := by
  rw [encodeS_eq_encodeR, fieldRs2_encodeR]

@[simp] theorem fieldRs1_encodeB (imm : BitVec 13) : fieldRs1 (encodeB imm rs2 rs1 f3 op) = rs1 := by
  rw [encodeB_eq_encodeR, fieldRs1_encodeR]

@[simp] theorem fieldRs2_encodeB (imm : BitVec 13) : fieldRs2 (encodeB imm rs2 rs1 f3 op) = rs2 := by
  rw [encodeB_eq_encodeR, fieldRs2_encodeR]

end

/-! ## The immediates in the fields of format R -/

/-- A slice of a slice. The library has this for a slice that begins at bit 0. -/
theorem slice_slice {n a m s l : Nat} {x : BitVec n} (h : s + l ≤ m) :
    (x.extractLsb' a m).extractLsb' s l = x.extractLsb' (a + s) l := by
  ext i hi
  have him : s + i < m := by omega
  simp [him, Nat.add_assoc]

theorem immI_eq_fields (w : Word) : immI w = fieldFunct7 w ++ fieldRs2 w := by
  rw [immI, fieldFunct7, fieldRs2, BitVec.extractLsb'_append_extractLsb'_eq_extractLsb' (by decide)]

theorem immS_eq_fields (w : Word) : immS w = fieldFunct7 w ++ fieldRd w := rfl

theorem immB_eq_fields (w : Word) :
    immB w = (fieldFunct7 w).extractLsb' 6 1 ++ (fieldRd w).extractLsb' 0 1 ++ (fieldFunct7 w).extractLsb' 0 6 ++
      (fieldRd w).extractLsb' 1 4 ++ 0#1 := by
  rw [fieldFunct7, fieldRd, slice_slice (by decide), slice_slice (by decide), slice_slice (by decide),
    slice_slice (by decide), immB]

/-! ## The slices of an assembled immediate -/

section
variable (w : Word)

theorem immS_lo : (immS w).extractLsb' 0 5 = w.extractLsb' 7 5 := BitVec.extractLsb'_append_eq_right

theorem immS_hi : (immS w).extractLsb' 5 7 = w.extractLsb' 25 7 := BitVec.extractLsb'_append_eq_left

theorem immB_bit0 : (immB w).extractLsb' 0 1 = 0#1 := BitVec.extractLsb'_append_eq_right

theorem immB_bits4_1 : (immB w).extractLsb' 1 4 = w.extractLsb' 8 4 := by
  rw [immB, BitVec.extractLsb'_append_eq_of_le (by decide)]
  exact BitVec.extractLsb'_append_eq_right

theorem immB_bits10_5 : (immB w).extractLsb' 5 6 = w.extractLsb' 25 6 := by
  rw [immB, BitVec.extractLsb'_append_eq_of_le (by decide), BitVec.extractLsb'_append_eq_of_le (by decide)]
  exact BitVec.extractLsb'_append_eq_right

theorem immB_bit11 : (immB w).extractLsb' 11 1 = w.extractLsb' 7 1 := by
  rw [immB, BitVec.extractLsb'_append_eq_of_le (by decide), BitVec.extractLsb'_append_eq_of_le (by decide),
    BitVec.extractLsb'_append_eq_of_le (by decide)]
  exact BitVec.extractLsb'_append_eq_right

theorem immB_bit12 : (immB w).extractLsb' 12 1 = w.extractLsb' 31 1 := by
  rw [immB, BitVec.extractLsb'_append_eq_of_le (by decide), BitVec.extractLsb'_append_eq_of_le (by decide),
    BitVec.extractLsb'_append_eq_of_le (by decide)]
  exact BitVec.extractLsb'_append_eq_left

end

/-- Equal slices have equal bits. -/
theorem getLsbD_of_slice_eq {n m a b l i : Nat} {x : BitVec n} {y : BitVec m}
    (h : x.extractLsb' a l = y.extractLsb' b l) (hi : i < l) : x.getLsbD (a + i) = y.getLsbD (b + i) := by
  simpa [hi] using congrArg (·.getLsbD i) h

/-- A B immediate read from a word is even (R186). -/
theorem immB_even (w : Word) : (immB w).getLsbD 0 = false :=
  getLsbD_of_slice_eq (b := 0) (y := 0#1) (immB_bit0 w) Nat.one_pos

/-- Settles O7: each clause is a slice of the immediate that is a slice of the word. -/
theorem immediateBits : Obligations.ImmediateBits := by
  intro w
  refine ⟨fun i hi => ?_, fun i hi => ?_, fun i hi => getLsbD_of_slice_eq (immS_hi w) hi, immB_even w,
    fun i hi => getLsbD_of_slice_eq (immB_bits4_1 w) hi, fun i hi => getLsbD_of_slice_eq (immB_bits10_5 w) hi,
    getLsbD_of_slice_eq (immB_bit11 w) Nat.one_pos, getLsbD_of_slice_eq (immB_bit12 w) Nat.one_pos⟩
  · rw [immI, BitVec.getLsbD_extractLsb', decide_eq_true hi, Bool.true_and]
  · have h := getLsbD_of_slice_eq (immS_lo w) hi
    rwa [Nat.zero_add] at h

/-! ## Reading an immediate back, and writing back one that was read -/

section
variable (rs2 rs1 : RegIdx) (f3 : BitVec 3) (rd : RegIdx) (op : BitVec 7)

@[simp] theorem immI_encodeI (imm : BitVec 12) : immI (encodeI imm rs1 f3 rd op) = imm := by
  rw [encodeI_eq_encodeR, immI_eq_fields, fieldFunct7_encodeR, fieldRs2_encodeR, append_slices12]

@[simp] theorem immS_encodeS (imm : BitVec 12) : immS (encodeS imm rs2 rs1 f3 op) = imm := by
  rw [encodeS_eq_encodeR, immS_eq_fields, fieldFunct7_encodeR, fieldRd_encodeR, append_slices12]

/-- Format B has no place for bit 0, so only an even immediate comes back. -/
theorem immB_encodeB {imm : BitVec 13} (heven : imm.getLsbD 0 = false) : immB (encodeB imm rs2 rs1 f3 op) = imm := by
  have hzero : 0#1 = imm.extractLsb' 0 1 := by
    ext i hi
    obtain rfl : i = 0 := by omega
    simpa using heven.symm
  rw [encodeB_eq_encodeR, immB_eq_fields, fieldFunct7_encodeR, fieldRd_encodeR, hzero]
  simp only [BitVec.extractLsb'_append_eq_left, BitVec.extractLsb'_append_eq_right]
  simp only [BitVec.extractLsb'_append_extractLsb'_eq_extractLsb']
  exact BitVec.extractLsb'_eq_self

end

section
variable (w : Word)

theorem encodeI_fields : encodeI (immI w) (fieldRs1 w) (fieldFunct3 w) (fieldRd w) (fieldOpcode w) = w := by
  rw [immI_eq_fields]
  exact encodeR_fields w

theorem encodeS_fields : encodeS (immS w) (fieldRs2 w) (fieldRs1 w) (fieldFunct3 w) (fieldOpcode w) = w := by
  rw [encodeS_eq_encodeR, immS_hi, immS_lo]
  exact encodeR_fields w

theorem encodeB_fields : encodeB (immB w) (fieldRs2 w) (fieldRs1 w) (fieldFunct3 w) (fieldOpcode w) = w := by
  have hhi : w.extractLsb' 31 1 ++ w.extractLsb' 25 6 = fieldFunct7 w :=
    BitVec.extractLsb'_append_extractLsb'_eq_extractLsb' rfl
  have hlo : w.extractLsb' 8 4 ++ w.extractLsb' 7 1 = fieldRd w :=
    BitVec.extractLsb'_append_extractLsb'_eq_extractLsb' rfl
  rw [encodeB_eq_encodeR, immB_bit12, immB_bits10_5, immB_bits4_1, immB_bit11, hhi, hlo]
  exact encodeR_fields w

end

end Sys2Proof
end

section
/-! PROOF. The decode table (30_encoding.md R189) and the decoder's agreement with the encoder (R196, R197). -/

namespace Sys2Proof

open Laws

/-! ## Match and mask as field conditions -/

section
variable {w m : Word} {f7 : BitVec 7} {f3 : BitVec 3} {op : BitVec 7}

theorem and_maskR_eq_iff (hm : m = encodeR f7 0#5 0#5 f3 0#5 op) :
    w &&& maskR = m ↔ fieldOpcode w = op ∧ fieldFunct3 w = f3 ∧ fieldFunct7 w = f7 := by
  have hw : w &&& maskR = encodeR (fieldFunct7 w) 0#5 0#5 (fieldFunct3 w) 0#5 (fieldOpcode w) := by
    rw [← encodeR_maskR _ (fieldRs2 w) (fieldRs1 w) _ (fieldRd w), encodeR_fields]
  rw [hw, hm, encodeR_inj]
  tauto

theorem and_maskI_eq_iff (hm : m = encodeR 0#7 0#5 0#5 f3 0#5 op) :
    w &&& maskI = m ↔ fieldOpcode w = op ∧ fieldFunct3 w = f3 := by
  have hw : w &&& maskI = encodeR 0#7 0#5 0#5 (fieldFunct3 w) 0#5 (fieldOpcode w) := by
    rw [← encodeR_maskI (fieldFunct7 w) (fieldRs2 w) (fieldRs1 w) _ (fieldRd w), encodeR_fields]
  rw [hw, hm, encodeR_inj]
  tauto

/-! A word that matches a row is the encoding of its fields under the row's opcode, funct3 and funct7. -/

theorem encodeR_of_match (hm : m = encodeR f7 0#5 0#5 f3 0#5 op) (h : w &&& maskR = m) :
    encodeR f7 (fieldRs2 w) (fieldRs1 w) f3 (fieldRd w) op = w := by
  obtain ⟨rfl, rfl, rfl⟩ := (and_maskR_eq_iff hm).1 h
  exact encodeR_fields w

theorem encodeI_of_match (hm : m = encodeR 0#7 0#5 0#5 f3 0#5 op) (h : w &&& maskI = m) :
    encodeI (immI w) (fieldRs1 w) f3 (fieldRd w) op = w := by
  obtain ⟨rfl, rfl⟩ := (and_maskI_eq_iff hm).1 h
  exact encodeI_fields w

theorem encodeS_of_match (hm : m = encodeR 0#7 0#5 0#5 f3 0#5 op) (h : w &&& maskI = m) :
    encodeS (immS w) (fieldRs2 w) (fieldRs1 w) f3 op = w := by
  obtain ⟨rfl, rfl⟩ := (and_maskI_eq_iff hm).1 h
  exact encodeS_fields w

theorem encodeB_of_match (hm : m = encodeR 0#7 0#5 0#5 f3 0#5 op) (h : w &&& maskI = m) :
    encodeB (immB w) (fieldRs2 w) (fieldRs1 w) f3 op = w := by
  obtain ⟨rfl, rfl⟩ := (and_maskI_eq_iff hm).1 h
  exact encodeB_fields w

end

/-! ## The assembled instruction -/

@[simp] theorem op_assemble (op : Op) (w : Word) : (assemble op w).op = op := by cases op <;> rfl

theorem immOk_assemble (op : Op) (w : Word) : (assemble op w).immOk = true := by
  cases op with
  | beq => exact congrArg (!·) (immB_even w)
  | bne => exact congrArg (!·) (immB_even w)
  | _ => rfl

/-- Assembling the word of an instruction gives the instruction, when its immediate is one its format can hold. -/
theorem assemble_encode {i : Instr} (h : i.immOk = true) : assemble i.op (encode i) = i := by
  cases i with
  | beq rs1 rs2 imm | bne rs1 rs2 imm =>
    have heven : imm.getLsbD 0 = false := by simpa [Instr.immOk] using h
    simp [Instr.op, assemble, encode, immB_encodeB _ _ _ _ heven]
  | _ => simp [Instr.op, assemble, encode]

/-- A word that matches a row is the word of the instruction assembled for that row: assembling drops no bit. -/
theorem encode_assemble {w : Word} :
    ∀ row ∈ decodeTable, w &&& row.mask = row.mtch → encode (assemble row.op w) = w := by
  simp only [decodeTable, List.forall_mem_cons]
  exact ⟨encodeR_of_match (by decide), encodeR_of_match (by decide), encodeR_of_match (by decide),
    encodeR_of_match (by decide), encodeI_of_match (by decide), encodeI_of_match (by decide),
    encodeS_of_match (by decide), encodeB_of_match (by decide), encodeB_of_match (by decide), nofun⟩

/-! ## The rows of the table -/

theorem rowMatch (i : Instr) : RowMatch.Statement i := by
  cases i with
  | add rd rs1 rs2 => exact RowMatch.add rd rs1 rs2
  | sub rd rs1 rs2 => exact RowMatch.sub rd rs1 rs2
  | mul rd rs1 rs2 => exact RowMatch.mul rd rs1 rs2
  | div rd rs1 rs2 => exact RowMatch.div rd rs1 rs2
  | addi rd rs1 imm => exact RowMatch.addi rd rs1 imm
  | lw rd rs1 imm => exact RowMatch.lw rd rs1 imm
  | sw rs1 rs2 imm => exact RowMatch.sw rs1 rs2 imm
  | beq rs1 rs2 imm => exact RowMatch.beq rs1 rs2 imm
  | bne rs1 rs2 imm => exact RowMatch.bne rs1 rs2 imm

theorem exists_row (op : Op) : ∃ row ∈ decodeTable, row.op = op := by cases op <;> decide

theorem row_eq_of_op_eq : ∀ row ∈ decodeTable, ∀ row' ∈ decodeTable, row.op = row'.op → row = row' := by decide

/-- The rows are disjoint (R189): a word that matches one is an encoding of that row's operation, which no other row matches. -/
theorem row_unique {w : Word} {row row' : DecodeRow} (hrow : row ∈ decodeTable) (hrow' : row' ∈ decodeTable)
    (h : w &&& row.mask = row.mtch) (h' : w &&& row'.mask = row'.mtch) : row = row' := by
  rw [← encode_assemble row hrow h] at h'
  have hop := (rowMatch (assemble row.op w) row' hrow').1 h'
  rw [op_assemble] at hop
  exact row_eq_of_op_eq row hrow row' hrow' hop.symm

/-- Settles O5: match and mask of a row fix the fields that are not operands, and the rows are disjoint. -/
theorem decodeTableRows : Obligations.DecodeTableRows :=
  ⟨rfl, by decide, fun _ => ⟨and_maskR_eq_iff (by decide), and_maskR_eq_iff (by decide), and_maskR_eq_iff (by decide),
    and_maskR_eq_iff (by decide), and_maskI_eq_iff (by decide), and_maskI_eq_iff (by decide),
    and_maskI_eq_iff (by decide), and_maskI_eq_iff (by decide), and_maskI_eq_iff (by decide),
    fun _ hrow _ hrow' => row_unique hrow hrow'⟩⟩

/-! ## The decoder -/

/-- What a decoding can be: no row matches, or the first that does is assembled and its registers are checked. -/
theorem decodeWith_cases (nRegs : Nat) (w : Word) (rows : List DecodeRow) :
    ((∀ row ∈ rows, w &&& row.mask ≠ row.mtch) ∧ decodeWith nRegs w rows = none) ∨
    ∃ row ∈ rows, w &&& row.mask = row.mtch ∧
      decodeWith nRegs w rows = if (assemble row.op w).regsOk nRegs then some (assemble row.op w) else none := by
  induction rows with
  | nil => exact .inl ⟨nofun, rfl⟩
  | cons row rows ih =>
    by_cases hm : w &&& row.mask = row.mtch
    · exact .inr ⟨row, List.mem_cons_self, hm, if_pos hm⟩
    · have hskip : decodeWith nRegs w (row :: rows) = decodeWith nRegs w rows := if_neg hm
      rw [hskip]
      obtain ⟨hnone, hd⟩ | ⟨row', hrow', hmatch⟩ := ih
      · exact .inl ⟨List.forall_mem_cons.2 ⟨hm, hnone⟩, hd⟩
      · exact .inr ⟨row', List.mem_cons_of_mem _ hrow', hmatch⟩

/-- Settles O3: the word matches the row of its operation alone, and assembling it reads every operand back. -/
theorem decodeOfEncode : Obligations.DecodeOfEncode := by
  intro nRegs i hwf
  obtain ⟨hregs, himm⟩ := (Bool.and_eq_true _ _).mp hwf
  obtain ⟨hnone, -⟩ | ⟨row, hrow, hm, hd⟩ := decodeWith_cases nRegs (encode i) decodeTable
  · obtain ⟨row, hrow, hop⟩ := exists_row i.op
    exact absurd ((rowMatch i row hrow).2 hop) (hnone row hrow)
  · rw [decode, hd, (rowMatch i row hrow).1 hm, assemble_encode himm, if_pos hregs]

/-- Settles O4: the instruction is the one assembled for a row that the word matches. -/
theorem encodeOfDecode : Obligations.EncodeOfDecode := by
  intro nRegs w i h
  have hregs : i.regsOk nRegs = true := Machine.decodeWith_regs decodeTable h
  obtain ⟨-, hd⟩ | ⟨row, hrow, hm, hd⟩ := decodeWith_cases nRegs w decodeTable
  · cases hd.symm.trans h
  · obtain ⟨-, hi⟩ := Option.ite_none_right_eq_some.1 (hd.symm.trans h)
    obtain rfl := Option.some.inj hi
    exact ⟨encode_assemble row hrow hm, (Bool.and_eq_true _ _).mpr ⟨hregs, immOk_assemble row.op w⟩⟩

theorem Instr.regsOk_ne_true_iff {nRegs : Nat} {i : Instr} :
    i.regsOk nRegs ≠ true ↔ ∃ r ∈ i.regs, nRegs ≤ r.toNat := by
  simp [Instr.regsOk]

/-- Settles O6: only the one row that matches checks registers. -/
theorem illegalWords : Obligations.IllegalWords := by
  intro nRegs w
  obtain ⟨hnone, hd⟩ | ⟨row, hrow, hm, hd⟩ := decodeWith_cases nRegs w decodeTable
  · exact ⟨fun _ => .inl hnone, fun _ => hd⟩
  · have hregs : decode nRegs w = none ↔ ∃ r ∈ (assemble row.op w).regs, nRegs ≤ r.toNat := by
      rw [decode, hd, ← Instr.regsOk_ne_true_iff]
      simp
    rw [hregs]
    constructor
    · exact fun h => .inr ⟨row, hrow, hm, h⟩
    · rintro (hnone | ⟨row', hrow', hm', h⟩)
      · exact absurd hm (hnone row hrow)
      · rwa [row_unique hrow hrow' hm hm']

/-- Settles O1: the layout is format R, and the word decodes as every encoded word does. -/
theorem workedEncodingOfAdd : Obligations.WorkedEncodingOfAdd := by
  have hword : encode (.add 1#5 2#5 3#5) = 0x003100B3#32 := by decide
  exact ⟨rfl, hword, hword ▸ decodeOfEncode 32 (.add 1#5 2#5 3#5) (by decide)⟩

end Sys2Proof
end

section
/-! SUPPORT and PROOF. What `exec` answers at each event of an instruction's life, forwards: from the premises of each rule
to the state it leaves (40_scheduler.md R230 to R294). -/

namespace Sys2Proof.Machine

/-! ## Dispatch (R285 to R293) -/

section
variable {s : State} {i : Instr} {n k : Nat} {t : Entry} {c : Captured} {rd rs1 rs2 : RegIdx} {a b : Operand}

/-- The dispatch pointer is at an entry not started that no such entry precedes (10_state.md R33). -/
theorem State.dptr_eq_some (ht : s.table[n]? = some t) (hs : t.state = .notStarted)
    (hfirst : ∀ (m : Nat) (u : Entry), m < n → s.table[m]? = some u → u.state ≠ .notStarted) : s.dptr = some n := by
  obtain ⟨hn, rfl⟩ := List.getElem?_eq_some_iff.1 ht
  refine List.findIdx?_eq_some_iff_getElem.2 ⟨hn, by simpa using hs, fun m hm => ?_⟩
  simpa using hfirst m _ hm (List.getElem?_eq_getElem _)

theorem State.freeSlot_eq_some {p : PoolId} (hk : (s.pool p)[k]? = some none)
    (hlow : ∀ l < k, (s.pool p)[l]? ≠ some none) : s.freeSlot p = some k := by
  obtain ⟨hlt, hnone⟩ := List.getElem?_eq_some_iff.1 hk
  refine List.findIdx?_eq_some_iff_getElem.2 ⟨hlt, by simp [hnone], fun l hl => ?_⟩
  simpa [List.getElem?_eq_getElem (hl.trans hlt), Option.isSome_iff_ne_none] using hlow l hl

/-- A dispatch with an entry, a free slot, a free reorder-buffer head and captured operands issues the entry. -/
theorem exec_issues (hev : s.event = .dispatch) (hn : s.dptr = some n) (hk : s.freeSlot (poolOf i.op) = some k)
    (hhead : s.robAt s.robHead = none) (hc : captureOf i s = some c) :
    exec i s = .next (s.issue (poolOf i.op) n k c) := by
  have hfull : ¬ s.robFull = true := by simp [State.robFull, hhead]
  rw [exec_dispatch i hev, dispatchAs, hn]
  dsimp only
  rw [hk]
  dsimp only
  rw [if_neg hfull, hc]

/-- A dispatch with no entry to issue, no free slot or an occupied reorder-buffer head does nothing. -/
theorem dispatchAs_idle {p : PoolId} {capture : State → Option Captured}
    (h : s.dptr = none ∨ s.freeSlot p = none ∨ s.robFull = true) : dispatchAs p capture s = .next s := by
  unfold dispatchAs
  split
  · rfl
  · rename_i hn
    split
    · rfl
    · rename_i hk
      simp only [hn, hk, reduceCtorEq, false_or] at h
      exact if_pos h

/-- Renaming touches at most the link of the destination register (R291). -/
theorem renamed_eq {d : Dest} {q : Tag} (link : List (Option Tag)) (hd : ∀ r, d = .reg r → r = rd) :
    renamed link d q = if d = .reg rd then link.set rd.toNat (some q) else link := by
  cases d with
  | reg r => rw [hd r rfl, if_pos rfl]; rfl
  | mem => rw [if_neg nofun]; rfl
  | none => rw [if_neg nofun]; rfl

/-- The issued state, field by field; `rd` is the only register that may be renamed (R290 to R293). -/
theorem State.issue_eq (p : PoolId) (ht : s.table[n]? = some t) (hd : ∀ r, c.dest = .reg r → r = rd) :
    s.issue p n k c =
      State.setPool
        { s with
          rob     := s.rob.set s.robHead (some ⟨n, c.dest, .unready⟩)
          robHead := (s.robHead + 1) % s.cfg.nRob
          link    := if c.dest = .reg rd then s.link.set rd.toNat (some s.robHead) else s.link
          table   := s.table.set n { t with tag := some s.robHead, state := .rsWait, tIssue := some s.cycle } }
        p ((s.pool p).set k (some ⟨n, s.robHead, c.j, c.k, c.imm, false⟩)) := by
  have htable := modify_eq_set
    (fun u : Entry => { u with tag := some s.robHead, state := .rsWait, tIssue := some s.cycle }) ht
  rw [← renamed_eq s.link hd, ← htable]
  cases p <;> rfl

/-- R289 to R293: the premises under which an instruction completes its dispatch, and the state it leaves. -/
theorem exec_dispatch_completes (hev : s.event = .dispatch) (ht : s.table[n]? = some t) (hs : t.state = .notStarted)
    (hfirst : ∀ (m : Nat) (u : Entry), m < n → s.table[m]? = some u → u.state ≠ .notStarted)
    (hk : (s.pool (poolOf i.op))[k]? = some none) (hlow : ∀ l < k, (s.pool (poolOf i.op))[l]? ≠ some none)
    (hhead : s.robAt s.robHead = none) (hc : captureOf i s = some c) (hd : ∀ r, c.dest = .reg r → r = rd) :
    exec i s = .next (State.setPool
      { s with
        rob     := s.rob.set s.robHead (some ⟨n, c.dest, .unready⟩)
        robHead := (s.robHead + 1) % s.cfg.nRob
        link    := if c.dest = .reg rd then s.link.set rd.toNat (some s.robHead) else s.link
        table   := s.table.set n { t with tag := some s.robHead, state := .rsWait, tIssue := some s.cycle } }
      (poolOf i.op) ((s.pool (poolOf i.op)).set k (some ⟨n, s.robHead, c.j, c.k, c.imm, false⟩))) := by
  rw [exec_issues hev (State.dptr_eq_some ht hs hfirst) (State.freeSlot_eq_some hk hlow) hhead hc,
    State.issue_eq _ ht hd]

/-! ## Captures (R289) -/

theorem State.destReg_eq (hrd : rd.toNat < s.x.length) :
    s.destReg rd = some (if s.cfg.x0Zero = true ∧ rd = 0#5 then .none else .reg rd) := by
  rw [State.destReg, if_pos hrd]
  split <;> rfl

theorem dest_reg_only (h : Prop) [Decidable h] (rd r : RegIdx) (hr : (if h then Dest.none else .reg rd) = .reg r) :
    r = rd := by
  split at hr
  · cases hr
  · exact (Dest.reg.inj hr).symm

theorem captureReg_eq (hrd : rd.toNat < s.x.length) (ha : s.cap rs1 = some a) (hb : s.cap rs2 = some b) :
    captureReg rd rs1 rs2 s = some ⟨a, b, 0#32, if s.cfg.x0Zero = true ∧ rd = 0#5 then .none else .reg rd⟩ := by
  rw [captureReg, ha, hb, State.destReg_eq hrd]

theorem captureImm_eq (imm : BitVec 12) (hrd : rd.toNat < s.x.length) (ha : s.cap rs1 = some a) :
    captureImm rd rs1 imm s = some ⟨a, .val (imm.signExtend 32), imm.signExtend 32,
      if s.cfg.x0Zero = true ∧ rd = 0#5 then .none else .reg rd⟩ := by
  rw [captureImm, ha, State.destReg_eq hrd]

theorem captureLoad_eq (imm : BitVec 12) (hrd : rd.toNat < s.x.length) (ha : s.cap rs1 = some a) :
    captureLoad rd rs1 imm s = some ⟨a, .val 0#32, imm.signExtend 32,
      if s.cfg.x0Zero = true ∧ rd = 0#5 then .none else .reg rd⟩ := by
  rw [captureLoad, ha, State.destReg_eq hrd]

theorem captureStore_eq (imm : BitVec 12) (ha : s.cap rs1 = some a) (hb : s.cap rs2 = some b) :
    captureStore rs1 rs2 imm s = some ⟨a, b, imm.signExtend 32, .mem⟩ := by
  rw [captureStore, ha, hb]

theorem captureBranch_eq (imm : BitVec 13) (ha : s.cap rs1 = some a) (hb : s.cap rs2 = some b) :
    captureBranch rs1 rs2 imm s = some ⟨a, b, imm.signExtend 32, .none⟩ := by
  rw [captureBranch, ha, hb]

end

/-- Settles O12: the four cases of R288. -/
theorem operandCapture : Obligations.OperandCapture := by
  intro s r v l hx hl
  refine ⟨fun h0 => State.cap_x0 hx hl h0, fun h0 => ⟨?_, ?_⟩⟩
  · rintro rfl
    exact State.cap_free hx hl h0
  · rintro t rfl
    exact ⟨fun e w he hw => State.cap_ready hx hl h0 he hw, State.cap_unready hx hl h0⟩

/-- Settles O13: the dispatch completes, with the capture of each instruction's shape. -/
theorem dispatchToAddPool : Obligations.DispatchToAddPool := by
  intro s n k t rd rs1 rs2 imm off a b hev ht hs hfirst hk hlow hhead hrd ha hb dest issued
  have completes (i : Instr) (hp : poolOf i.op = .add) {c : Captured} (hc : captureOf i s = some c)
      (hd : ∀ r, c.dest = .reg r → r = rd) : exec i s = .next (issued c.j c.k c.imm c.dest) := by
    have h := exec_dispatch_completes (i := i) hev ht hs hfirst (by rw [hp]; exact hk) (by rw [hp]; exact hlow) hhead hc hd
    rwa [hp] at h
  have hdest := dest_reg_only (s.cfg.x0Zero = true ∧ rd = 0#5) rd
  exact ⟨completes (.add rd rs1 rs2) rfl (captureReg_eq hrd ha hb) hdest,
    completes (.sub rd rs1 rs2) rfl (captureReg_eq hrd ha hb) hdest,
    completes (.addi rd rs1 imm) rfl (captureImm_eq imm hrd ha) hdest,
    completes (.beq rs1 rs2 off) rfl (captureBranch_eq off ha hb) nofun,
    completes (.bne rs1 rs2 off) rfl (captureBranch_eq off ha hb) nofun⟩

/-- Settles O14: as for the ADD pool. -/
theorem dispatchToMulPool : Obligations.DispatchToMulPool := by
  intro s n k t rd rs1 rs2 a b hev ht hs hfirst hk hlow hhead hrd ha hb dest issued
  have completes (i : Instr) (hp : poolOf i.op = .mul) (hc : captureOf i s = some ⟨a, b, 0#32, dest⟩) :
      exec i s = .next issued := by
    have h := exec_dispatch_completes (i := i) hev ht hs hfirst (by rw [hp]; exact hk) (by rw [hp]; exact hlow) hhead hc
      (dest_reg_only (s.cfg.x0Zero = true ∧ rd = 0#5) rd)
    rwa [hp] at h
  exact ⟨completes (.mul rd rs1 rs2) rfl (captureReg_eq hrd ha hb),
    completes (.div rd rs1 rs2) rfl (captureReg_eq hrd ha hb)⟩

/-- Settles O15: as for the ADD pool. -/
theorem dispatchToLoadStoreQueue : Obligations.DispatchToLoadStoreQueue := by
  intro s n k t rd rs1 rs2 imm a b hev ht hs hfirst hk hlow hhead hrd ha hb dest issued
  have completes (i : Instr) (hp : poolOf i.op = .lsq) {k' : Operand} {d : Dest}
      (hc : captureOf i s = some ⟨a, k', imm.signExtend 32, d⟩) (hd : ∀ r, d = .reg r → r = rd) :
      exec i s = .next (issued k' d) := by
    have h := exec_dispatch_completes (i := i) hev ht hs hfirst (by rw [hp]; exact hk) (by rw [hp]; exact hlow) hhead hc hd
    rwa [hp] at h
  exact ⟨completes (.lw rd rs1 imm) rfl (captureLoad_eq imm hrd ha)
      (dest_reg_only (s.cfg.x0Zero = true ∧ rd = 0#5) rd),
    completes (.sw rs1 rs2 imm) rfl (captureStore_eq imm ha hb) nofun⟩

/-- Settles O16: each of the three obstacles stops the dispatch before it captures. -/
theorem dispatchStalls : Obligations.DispatchStalls := by
  intro i s hev h
  rw [exec_dispatch i hev]
  refine dispatchAs_idle ?_
  rcases h with hpool | hhead | htable
  · refine .inr (.inl (List.findIdx?_eq_none_iff.2 fun e he => ?_))
    simpa [Option.isSome_iff_ne_none] using hpool e he
  · exact .inr (.inr (Option.isSome_iff_ne_none.2 hhead))
  · refine .inl (List.findIdx?_eq_none_iff.2 fun t ht => ?_)
    simpa using htable t ht

end Sys2Proof.Machine
end

section
/-! SUPPORT and PROOF. The execute starts, forwards (40_scheduler.md R264 to R267): what a candidate does, instruction by
instruction. -/

namespace Sys2Proof.Machine

/-! ## Candidates (R264) -/

section
variable {s : State} {p : PoolId} {k : Nat} {e : RsEntry} {a b : Word}

/-- What is no candidate starts nothing. -/
theorem withCandidate_idle {body : RsEntry → Word → Word → Out}
    (h : ∀ e, s.slot p k = some e → (∃ t, e.j = .wait t) ∨ (∃ t, e.k = .wait t) ∨ e.settle = true) :
    withCandidate p k s body = .next s := by
  unfold withCandidate
  split
  · rfl
  · rename_i e he
    split
    · rename_i hj hk
      rcases h e he with ⟨t, ht⟩ | ⟨t, ht⟩ | hset
      · rw [hj] at ht
        cases ht
      · rw [hk] at ht
        cases ht
      · exact if_pos hset
    all_goals rfl

theorem startOf_idle {op : Op}
    (h : ∀ e, s.slot p k = some e → (∃ t, e.j = .wait t) ∨ (∃ t, e.k = .wait t) ∨ e.settle = true) :
    startOf op p k s = .next s := by
  cases op <;> exact withCandidate_idle h

/-- The body of a start runs on a candidate. -/
theorem State.Candidate.body_eq (hc : s.Candidate p k e a b) (body : RsEntry → Word → Word → Out) :
    withCandidate p k s body = body e a b :=
  withCandidate_body hc.slot hc.j hc.k hc.settle hc.entry

/-- A candidate, from the premises as the statements give them. -/
theorem State.candidate_of_table {t : Entry} (hs : s.slot p k = some e) (hj : e.j = .val a) (hk : e.k = .val b)
    (hset : e.settle = false) (ht : s.table[e.instr]? = some t) : s.Candidate p k e a b :=
  ⟨hs, hj, hk, hset, (List.getElem?_eq_some_iff.1 ht).1⟩

theorem State.slot_lsq (h : s.lsq[k]? = some (some e)) : s.slot .lsq k = some e := by
  rw [State.slot, State.pool_lsq, h]
  rfl

end

/-- Settles O18: none of the three is a candidate. -/
theorem onlyReadyStationsStart : Obligations.OnlyReadyStationsStart := by
  intro i s p k hev h
  rw [exec_start i hev]
  exact startOf_idle h

/-! ## Arithmetic starts (R265) -/

/-- The state after an arithmetic start of entry `n`, which is `t`, from slot `k` of pool `p`. -/
def State.arithStarted (s : State) (p : PoolId) (k n : Nat) (t : Entry) (result : Word) (lat : Nat) (zeroDivisor : Bool) :
    State :=
  { s with
    addPool := if p = .add then s.addPool.set k none else s.addPool
    mulPool := if p = .mul then s.mulPool.set k none else s.mulPool
    lsq     := if p = .lsq then s.lsq.set k none else s.lsq
    table   := s.table.set n
      { t with
        result := some result, count := lat, state := .executeStart, tExecStart := some s.cycle
        div0 := t.div0 || zeroDivisor }
    mc      := { s.mc with cnt := { s.mc.cnt with div0 := s.mc.cnt.div0 + (if zeroDivisor then 1 else 0) } } }

/-- Two changes of one known element are one. -/
theorem modify_modify_eq_set {α : Type} {l : List α} {n : Nat} {a : α} (f g : α → α) (h : l[n]? = some a) :
    (l.modify n f).modify n g = l.set n (g (f a)) :=
  (List.modify_modify_eq ..).trans (modify_eq_set (g ∘ f) h)

section
variable {s : State} {p : PoolId} {k n : Nat} {t : Entry} (ht : s.table[n]? = some t) (r : Word) (lat : Nat)
include ht

theorem State.startArith_eq : s.startArith p k n r lat = s.arithStarted p k n t r lat false := by
  have htable := modify_eq_set
    (fun u : Entry => { u with result := some r, count := lat, state := .executeStart, tExecStart := some s.cycle }) ht
  rw [State.arithStarted, Bool.or_false, ← htable]
  cases p <;> rfl

theorem State.startArith_div0_eq : (s.reportDiv0 n).startArith p k n r lat = s.arithStarted p k n t r lat true := by
  have htable := modify_modify_eq_set (fun u : Entry => { u with div0 := true })
    (fun u => { u with result := some r, count := lat, state := .executeStart, tExecStart := some s.cycle }) ht
  rw [State.arithStarted, Bool.or_true, ← htable]
  cases p <;> rfl

end

/-- The quotient of R304 is the truncated one but for a zero divisor and the one overflow. -/
theorem computeDiv_toInt {a b : Word} (hb : b ≠ 0#32) (h : ¬(a = 0x80000000#32 ∧ b = 0xFFFFFFFF#32)) :
    (computeDiv a b).toInt = a.toInt.tdiv b.toInt := by
  have hq : (a.sdiv b).toInt = a.toInt.tdiv b.toInt :=
    BitVec.toInt_sdiv_of_ne_or_ne a b (not_and_or.1 h)
  rw [computeDiv, if_neg hb, if_neg h, ← hq, BitVec.ofInt_toInt]

/-- Settles O19: a start on a candidate computes, and DIV alone reports a zero divisor. -/
theorem arithmeticStart : Obligations.ArithmeticStart := by
  intro s p k e t a b rd rs1 rs2 imm off hev hs hj hk hset ht started
  have hc := State.candidate_of_table hs hj hk hset ht
  have plain (i : Instr) {compute : Word → Word → Word} {lat : Nat}
      (hi : startOf i.op p k s =
        withCandidate p k s fun e a b => .next (s.startArith p k e.instr (compute a b) lat)) :
      exec i s = .next (started (compute a b) lat false) := by
    rw [exec_start i hev, hi, hc.body_eq, State.startArith_eq ht]
    rfl
  have hdiv : exec (.div rd rs1 rs2) s =
      .next ((if b = 0#32 then s.reportDiv0 e.instr else s).startArith p k e.instr (computeDiv a b) s.cfg.latDiv) := by
    rw [exec_start _ hev]
    exact hc.body_eq _
  have hdivided (hb : b ≠ 0#32) : exec (.div rd rs1 rs2) s = .next (started (computeDiv a b) s.cfg.latDiv false) := by
    rw [hdiv, if_neg hb, State.startArith_eq ht]
    rfl
  have hbne : computeBne a b = if a ≠ b then 1#32 else 0#32 := (ite_not ..).symm
  refine ⟨plain (.add rd rs1 rs2) (compute := computeAdd) rfl, plain (.sub rd rs1 rs2) (compute := computeSub) rfl,
    plain (.mul rd rs1 rs2) (compute := computeMul) rfl, plain (.addi rd rs1 imm) (compute := computeAddi) rfl,
    plain (.beq rs1 rs2 off) (compute := computeBeq) rfl,
    hbne ▸ plain (.bne rs1 rs2 off) (compute := computeBne) rfl, fun hb => ?_, fun hb hover => ?_, fun hb hover => ?_⟩
  · rw [hdiv, if_pos hb, State.startArith_div0_eq ht, computeDiv, if_pos hb]
    rfl
  · rw [hdivided hb, computeDiv, if_neg hb, if_pos hover]
  · exact ⟨computeDiv a b, computeDiv_toInt hb hover, hdivided hb⟩

/-! ## The starts of LW and SW (R266, R361, R362, R363) -/

theorem loadAccess_of_read {s : State} {p : PoolId} {k n : Nat} {ea v : Word} {m : MemCtl} {lat : Nat}
    (hm : MemCtl.read s.cfg s.cycle { s.mc with busy := s.mc.busy.insert ea.toNat } ea.toNat = .ok m (v, lat)) :
    loadAccess p k n ea s = .next (s.startLoad p k n ea m v lat) := by
  have h : MemCtl.read s.cfg s.cycle ((s.updEntry n (fun t => { t with ea := some ea })).setBusy ea).mc ea.toNat =
      .ok m (v, lat) := hm
  unfold loadAccess
  dsimp only
  rw [h]
  rfl

section
variable {s : State} {p : PoolId} {k : Nat} {e : RsEntry} {a b : Word} (hc : s.Candidate p k e a b)
include hc

theorem startLw_raises (hr : s.inRange (effectiveAddr a e.imm) = false) :
    startLw p k s = .next (s.raise (.addressOutOfRange e.instr (effectiveAddr a e.imm) s.cycle)) := by
  refine (hc.body_eq _).trans ?_
  dsimp only
  rw [hr, if_neg Bool.false_ne_true]

theorem startSw_raises (hr : s.inRange (effectiveAddr a e.imm) = false) :
    startSw p k s = .next (s.raise (.addressOutOfRange e.instr (effectiveAddr a e.imm) s.cycle)) := by
  refine (hc.body_eq _).trans ?_
  dsimp only
  rw [hr, if_neg Bool.false_ne_true]

theorem startLw_refuses (hr : s.inRange (effectiveAddr a e.imm) = true)
    (h : s.busyAt (effectiveAddr a e.imm) = true ∨ s.portBusy = true) : startLw p k s = .next s := by
  refine (hc.body_eq _).trans ?_
  dsimp only
  rw [if_pos hr]
  split
  · rfl
  · rename_i hb
    exact if_pos (h.resolve_left hb)

theorem startSw_refuses (hr : s.inRange (effectiveAddr a e.imm) = true)
    (h : s.busyAt (effectiveAddr a e.imm) = true) : startSw p k s = .next s := by
  refine (hc.body_eq _).trans ?_
  dsimp only
  rw [if_pos hr, if_pos h]

/-- An accepted load reads: its value is the coherent view and its countdown the latency of the level (R121, R122). -/
theorem startLw_accepts (hr : s.inRange (effectiveAddr a e.imm) = true)
    (hb : s.busyAt (effectiveAddr a e.imm) = false) (hp : s.portBusy = false) :
    ∃ m,
      MemCtl.read s.cfg s.cycle { s.mc with busy := s.mc.busy.insert (effectiveAddr a e.imm).toNat }
          (effectiveAddr a e.imm).toNat =
        .ok m (s.mc.view s.cfg (effectiveAddr a e.imm).toNat, s.mc.probe s.cfg (effectiveAddr a e.imm).toNat) ∧
      startLw p k s = .next (s.startLoad p k e.instr (effectiveAddr a e.imm) m
        (s.mc.view s.cfg (effectiveAddr a e.imm).toNat) (s.mc.probe s.cfg (effectiveAddr a e.imm).toNat)) := by
  obtain ⟨m, r, hm⟩ := MemCtl.read_answers s.cfg s.cycle
    { s.mc with busy := s.mc.busy.insert (effectiveAddr a e.imm).toNat } (effectiveAddr a e.imm).toNat
  have hr' : r = (s.mc.view s.cfg (effectiveAddr a e.imm).toNat, s.mc.probe s.cfg (effectiveAddr a e.imm).toNat) :=
    (MemCtl.read_answer hm).trans rfl
  subst hr'
  refine ⟨m, hm, (hc.body_eq _).trans ?_⟩
  dsimp only
  rw [if_pos hr, if_neg (by rw [hb]; decide), if_neg (by rw [hp]; decide)]
  exact loadAccess_of_read hm

/-- An accepted store records its address and data. -/
theorem startSw_accepts (hr : s.inRange (effectiveAddr a e.imm) = true)
    (hb : s.busyAt (effectiveAddr a e.imm) = false) :
    startSw p k s = .next (s.startStore p k e.instr (effectiveAddr a e.imm) b) := by
  refine (hc.body_eq _).trans ?_
  dsimp only
  rw [if_pos hr, if_neg (by rw [hb]; decide)]
  rfl

end

/-- The demand port is held exactly while some load executes (20_memory.md R129). -/
theorem State.portBusy_iff {s : State} : s.portBusy = true ↔ s.LoadExecuting := by
  simp [State.portBusy, State.LoadExecuting]

/-- Settles O23: the hazards are tested before anything is written. -/
theorem hazardsRefuseStart : Obligations.HazardsRefuseStart := by
  intro s k e a b rd rs1 rs2 imm hev hs hj hk hset hn hlt
  have hc : s.Candidate .lsq k e a b := ⟨State.slot_lsq hs, hj, hk, hset, hn⟩
  have hr : s.inRange (effectiveAddr a e.imm) = true := decide_eq_true hlt
  rw [exec_start _ hev, exec_start _ hev]
  exact ⟨fun hb => ⟨startLw_refuses hc hr (.inl hb), startSw_refuses hc hr hb⟩,
    fun hload => startLw_refuses hc hr (.inr (State.portBusy_iff.2 hload))⟩

/-- Settles O22: the store's start, field by field. -/
theorem storeStart : Obligations.StoreStart := by
  intro s k e t a b rs1 rs2 imm ea hev hs hj hk hset ht hlt hb
  have hc := State.candidate_of_table (State.slot_lsq hs) hj hk hset ht
  rw [exec_start _ hev]
  refine (startSw_accepts hc (decide_eq_true hlt) hb).trans ?_
  have htable := modify_eq_set (fun u : Entry =>
    { u with
      ea := some ea, data := some b, count := s.mc.probe s.cfg ea.toNat, state := .executeStart
      tExecStart := some s.cycle }) ht
  exact congrArg (fun l => Host.Outcome.next { s with lsq := s.lsq.set k none, table := l }) htable

/-- A prefetch is issued unless its address is busy or queued or the queue is full (20_memory.md R117). -/
theorem MemCtl.pfIssue_eq (cfg : Config) (cycle : Nat) (m : MemCtl) (a : Nat) :
    m.pfIssue cfg cycle a =
      if m.busy.has ((a + 1) % cfg.memSize) = true ∨ (∃ q ∈ m.pfq, q.addr = (a + 1) % cfg.memSize) ∨
          cfg.pfQueueCap ≤ m.pfq.length then m
      else
        { m with
          pfq := m.pfq ++ [⟨(a + 1) % cfg.memSize, Mem.read m.mem ((a + 1) % cfg.memSize), cfg.memLat, cycle⟩]
          cnt := { m.cnt with pfIssued := m.cnt.pfIssued + 1 } } := by
  have hany : m.pfq.any (fun q => q.addr == (a + 1) % cfg.memSize) = true ↔
      ∃ q ∈ m.pfq, q.addr = (a + 1) % cfg.memSize := by simp
  unfold MemCtl.pfIssue
  dsimp only
  split
  · exact (if_pos (.inl (by assumption))).symm
  · rename_i hbusy
    split
    · exact (if_pos (.inr (.inl (hany.1 (by assumption))))).symm
    · rename_i hqueued
      split
      · exact (if_pos (.inr (.inr (by assumption)))).symm
      · rename_i hfull
        exact (if_neg (not_or.2 ⟨hbusy, not_or.2 ⟨fun h => hqueued (hany.2 h), hfull⟩⟩)).symm

/-- Settles O21: the load's start, field by field. -/
theorem loadStart : Obligations.LoadStart := by
  intro s k e t a b rd rs1 imm ea hev hs hj hk hset ht hlt hb hport
  have hc := State.candidate_of_table (State.slot_lsq hs) hj hk hset ht
  have hp : s.portBusy = false := by
    rw [← Bool.not_eq_true, State.portBusy_iff]
    rintro ⟨u, hu, hload⟩
    exact hport u hu hload
  obtain ⟨m, hm, hstart⟩ := startLw_accepts hc (decide_eq_true hlt) hb hp
  refine ⟨m, hm, ?_⟩
  rw [exec_start _ hev, ← MemCtl.pfIssue_eq s.cfg s.cycle m ea.toNat]
  refine hstart.trans ?_
  have htable := modify_modify_eq_set (fun u : Entry => { u with ea := some ea }) (fun u =>
    { u with
      result := some (s.mc.view s.cfg ea.toNat), count := s.mc.probe s.cfg ea.toNat, state := .executeStart
      tExecStart := some s.cycle }) ht
  exact congrArg (fun l => Host.Outcome.next
    { s with lsq := s.lsq.set k none, mc := m.pfIssue s.cfg s.cycle ea.toNat, table := l }) htable

end Sys2Proof.Machine
end

section
/-! SUPPORT and PROOF. Countdown, broadcast, commit and store write, forwards (40_scheduler.md R230 to R235, R242 to R246, R252,
R253, R262). -/

namespace Sys2Proof.Machine

/-! ## Countdown (R262) -/

section
variable {s : State} {n : Nat} {t : Entry} (ht : s.table[n]? = some t)
include ht

/-- An update of a known entry writes it. -/
theorem State.updEntry_eq (f : Entry → Entry) : s.updEntry n f = { s with table := s.table.set n (f t) } :=
  congrArg (fun l => { s with table := l }) (modify_eq_set f ht)

theorem State.markBroadcast_eq :
    s.markBroadcast n = { s with table := s.table.set n { t with state := .broadcast, tBroadcast := some s.cycle } } :=
  State.updEntry_eq ht _

theorem countdownThen_counts (release : State → Entry → Out) (hc : t.count ≠ 1) :
    countdownThen release n s = .next (s.countDown n) := by
  rw [countdownThen, ht]
  exact if_neg hc

theorem countdownThen_ends (release : State → Entry → Out) (hc : t.count = 1) :
    countdownThen release n s = release (s.endExec n) t := by
  rw [countdownThen, ht]
  exact if_pos hc

end

theorem releaseLoad_eq {s : State} {t : Entry} {ea : Word} (hea : t.ea = some ea) :
    releaseLoad s t = .next (s.clearBusy ea) := by
  rw [releaseLoad, hea]

/-- Settles O25: one countdown serves every instruction, and only LW has something to release. -/
theorem executionCountdown : Obligations.ExecutionCountdown := by
  intro s n t hev ht
  refine ⟨fun i hc => ?_, fun hc => ⟨fun i hi => ?_, fun rd rs1 imm ea hea => ?_⟩⟩
  · have hne : t.count ≠ 1 := by omega
    rw [exec_countdown i hev, ← State.updEntry_eq ht (fun e => { e with count := e.count - 1 })]
    split <;> exact countdownThen_counts ht _ hne
  · rw [exec_countdown i hev, if_neg hi, countdownPlain, countdownThen_ends ht _ hc, State.endExec,
      State.updEntry_eq ht]
  · have hlw : (Instr.lw rd rs1 imm).op = .lw := rfl
    rw [exec_countdown _ hev, if_pos hlw, countdownThen_ends ht _ hc, releaseLoad_eq hea, State.endExec,
      State.updEntry_eq ht]
    rfl

/-! ## Broadcast (R242 to R246) -/

section
variable {s : State} {n : Nat} {t : Entry} {q : Tag} {r : RobEntry}

/-- The slot found for an instruction is the one slot that holds it (R242). -/
theorem State.robSlotOf_eq (hr : s.robAt q = some r) (hn : r.instr = n)
    (hone : ∀ (q' : Tag) (r' : RobEntry), s.robAt q' = some r' → r'.instr = n → q' = q) : s.robSlotOf n = some q := by
  obtain ⟨q', hq'⟩ := State.robSlotOf_of_robAt hr
  rw [hn] at hq'
  obtain ⟨r', hr', hn'⟩ := State.robSlotOf_some hq'
  rw [hq', hone q' r' hr' hn']

/-- Writing the value of a known reorder-buffer entry writes its slot. -/
theorem State.setRobValue_eq (hr : s.robAt q = some r) (v : RobValue) :
    s.setRobValue q v = { s with rob := s.rob.set q (some { r with value := v }) } :=
  congrArg (fun l => { s with rob := l })
    (modify_eq_set (Option.map fun e : RobEntry => { e with value := v }) (Option.join_eq_some_iff.1 hr))

theorem broadcastResult_sends {v : Word} (ht : s.table[n]? = some t) (hq : s.robSlotOf n = some q)
    (hv : t.result = some v) : broadcastResult n s = .next (s.sendValue n q v) := by
  rw [broadcastResult, ht]
  dsimp only
  rw [hq, hv]
  rfl

theorem broadcastNoValue_sends (ht : s.table[n]? = some t) (hq : s.robSlotOf n = some q) :
    broadcastNoValue n s = .next ((s.setRobValue q .noValue).markBroadcast n) := by
  rw [broadcastNoValue, if_pos (List.getElem?_eq_some_iff.1 ht).1, hq]

/-- A wake-up, operand by operand (R244, R245). -/
theorem RsEntry.wake_eq (q : Tag) (v : Word) (e : RsEntry) :
    e.wake q v =
      { e with
        j      := if e.j = .wait q then .val v else e.j
        k      := if e.k = .wait q then .val v else e.k
        settle := if e.j = .wait q ∨ e.k = .wait q then true else e.settle } := by
  have hsettle : (e.settle || (e.j == .wait q || e.k == .wait q)) =
      if e.j = .wait q ∨ e.k = .wait q then true else e.settle := by
    by_cases h : e.j = .wait q ∨ e.k = .wait q
    · rw [if_pos h]
      simpa using .inr h
    · rw [if_neg h]
      simpa using fun h' => absurd h' h
  rw [RsEntry.wake, hsettle]
  rfl

end

/-- Settles O26: the one slot of the instruction is found, and the operation writes it, wakes and marks. -/
theorem broadcastWritesAndWakes : Obligations.BroadcastWritesAndWakes := by
  intro s n t q r hev ht hr hn hone done
  have hq := State.robSlotOf_eq hr hn hone
  refine ⟨fun i v hi hv => ?_, fun rs1 rs2 imm => ?_⟩
  · intro wake
    have hwake : RsEntry.wake q v = wake := funext (RsEntry.wake_eq q v)
    rw [exec_broadcast i hev, if_neg hi, broadcastResult_sends ht hq hv, State.sendValue, State.setRobValue_eq hr, hwake]
    exact congrArg Host.Outcome.next (State.markBroadcast_eq (s := (State.mapStations { s with rob := _ } wake)) ht)
  · have hsw : (Instr.sw rs1 rs2 imm).op = .sw := rfl
    rw [exec_broadcast _ hev, if_pos hsw, broadcastNoValue_sends ht hq, State.setRobValue_eq hr]
    exact congrArg Host.Outcome.next (State.markBroadcast_eq (s := { s with rob := _ }) ht)

/-! ## Commit (R230 to R236) -/

section
variable {s : State} {e : RobEntry} {t : Entry}

theorem commitTail_waits (h : ∀ e, s.robAt s.robTail = some e → e.value = .unready) : commitTail s = .next s := by
  unfold commitTail
  split
  · rfl
  · rename_i e he
    exact if_pos (h e he)

theorem commitTail_ready (he : s.robAt s.robTail = some e) (hv : e.value ≠ .unready) (ht : s.table[e.instr]? = some t) :
    commitTail s = commitDest e.instr t e s := by
  rw [commitTail, he]
  dsimp only
  rw [if_neg hv, ht]

theorem commitDest_none (n : Nat) (t : Entry) (hd : e.dest = .none) : commitDest n t e s = .next (s.retire n) := by
  rw [commitDest, hd]

theorem commitDest_mem (n : Nat) (t : Entry) (hd : e.dest = .mem) : commitDest n t e s = commitStore n t s := by
  rw [commitDest, hd]

theorem commitStore_stalls {ea : Word} (n : Nat) (hea : t.ea = some ea) (hb : s.busyAt ea = true) :
    commitStore n t s = .next s := by
  rw [commitStore, hea]
  exact if_pos hb

theorem commitStore_schedules {ea : Word} (n : Nat) (hea : t.ea = some ea) (hb : s.busyAt ea = false) :
    commitStore n t s = .next (s.scheduleWrite n ea) := by
  rw [commitStore, hea]
  exact if_neg (by rw [hb]; decide)

/-- A retirement, of an entry known to be `t` (R235). -/
theorem State.retire_eq {n : Nat} (ht : s.table[n]? = some t) :
    s.retire n =
      { s with
        rob     := s.rob.set s.robTail none
        robTail := (s.robTail + 1) % s.cfg.nRob
        table   := s.table.set n { t with state := .commit, tCommit := some s.cycle } } :=
  congrArg (fun l => { s with rob := s.rob.set s.robTail none, robTail := s.nextSlot s.robTail, table := l })
    (modify_eq_set (fun u : Entry => { u with state := .commit, tCommit := some s.cycle }) ht)

end

/-- Settles O27: the tail is looked up, and each destination has its own commit. -/
theorem commitByDestination : Obligations.CommitByDestination := by
  intro i s hev
  rw [exec_commit i hev]
  refine ⟨commitTail_waits, fun e t he ht => ?_⟩
  intro retired
  refine ⟨fun r w hd hw hr => ?_, fun hd hv => ?_, fun ea hd hv hea => ?_⟩
  · rw [← exec_commit i hev, exec_commit_reg hev he hd hw ht hr, State.retire_eq (s := s.commitReg r w s.robTail) ht]
    rfl
  · rw [commitTail_ready he hv ht, commitDest_none _ _ hd, State.retire_eq ht]
  · rw [commitTail_ready he hv ht, commitDest_mem _ _ hd]
    refine ⟨commitStore_stalls _ hea, fun hb => ?_⟩
    rw [commitStore_schedules _ hea hb]
    have htable := modify_modify_eq_set
      (fun u : Entry => { u with count := s.mc.probe s.cfg ea.toNat, writePending := true })
      (fun u => { u with state := .commit, tCommit := some s.cycle }) ht
    exact congrArg (fun l => Host.Outcome.next
      { s with
        rob := s.rob.set s.robTail none, robTail := (s.robTail + 1) % s.cfg.nRob
        mc := { s.mc with busy := s.mc.busy.insert ea.toNat }, table := l }) htable

/-! ## Store write (R252, R253) -/

section
variable {s : State} {n : Nat} {t : Entry} (ht : s.table[n]? = some t)
include ht

theorem storeWriteTick_counts (hc : t.count ≠ 1) : storeWriteTick n s = .next (s.countDown n) := by
  rw [storeWriteTick, ht]
  exact if_neg hc

theorem storeWriteTick_writes {ea v : Word} {m : MemCtl} (hc : t.count = 1) (hea : t.ea = some ea)
    (hv : t.data = some v) (hm : MemCtl.write s.cfg s.cycle s.mc ea.toNat v = .ok m ()) :
    storeWriteTick n s = .next (s.performWrite n ea m) := by
  rw [storeWriteTick, ht]
  dsimp only
  rw [if_pos hc, hea, hv]
  dsimp only
  rw [hm]
  rfl

end

/-- Settles O28: the write answers, leaves the busy bits and sets the view of its own address alone. -/
theorem storeWrite : Obligations.StoreWrite := by
  intro i s n t hev ht
  rw [exec_storeTick i hev]
  refine ⟨fun hc => ?_, fun ea v hc hea hv legal hs hcoh => ?_⟩
  · rw [storeWriteTick_counts ht (by omega), State.countDown, State.updEntry_eq ht]
  · obtain ⟨m, hm⟩ := MemCtl.write_answers s.cfg s.cycle s.mc ea.toNat v
    have hext := MemCtl.write_extends s.cfg s.cycle s.mc ea.toNat v
    rw [hm] at hext
    obtain ⟨-, hview⟩ := (hs.agrees legal hcoh).write s.cycle hm
    refine ⟨m, hm, ?_, hext.busy, ?_, fun b hb => ?_⟩
    · have htable := modify_modify_eq_set (fun u : Entry => { u with count := 0 })
        (fun u => { u with writePending := false, state := .memoryWrite, tMemWrite := some s.cycle }) ht
      rw [storeWriteTick_writes ht hc hea hv hm]
      exact congrArg (fun l => Host.Outcome.next
        { s with mc := { m with busy := m.busy.erase ea.toNat }, table := l }) htable
    · rw [hview, Function.update_self]
    · rw [hview, Function.update_of_ne hb]

end Sys2Proof.Machine
end

section
/-! PROOF. Arbitration of the bus (40_scheduler.md R240, R241) and the order of a pool's candidates (R264). -/

namespace Sys2Proof.Machine

/-! ## The bus -/

/-- The winner so far after one more entry: it replaces `best` when it has a lesser class rank (R241). -/
def busNext (best : Option (Nat × Nat)) (n : Nat) (t : Entry) : Option (Nat × Nat) :=
  if t.state = .executeEnd then
    if ∀ b, best = some b → classRank t.ins.op < b.1 then some (classRank t.ins.op, n) else best
  else best

theorem busWinnerFrom_cons (best : Option (Nat × Nat)) (n : Nat) (t : Entry) (ts : List Entry) :
    busWinnerFrom best n (t :: ts) = busWinnerFrom (busNext best n t) (n + 1) ts := by
  rw [busWinnerFrom.eq_def, busNext]
  cases best with
  | none => by_cases hs : t.state = .executeEnd <;> simp [hs]
  | some b =>
    by_cases hs : t.state = .executeEnd
    · by_cases hr : classRank t.ins.op < b.1 <;> simp [hs, hr]
    · simp [hs]

/-- There is no winner so far only if there was none and the entry is no candidate (R240). -/
theorem busNext_eq_none {best : Option (Nat × Nat)} {n : Nat} {t : Entry} :
    busNext best n t = none ↔ best = none ∧ t.state ≠ .executeEnd := by
  unfold busNext
  cases best with
  | none => by_cases hs : t.state = .executeEnd <;> simp [hs]
  | some b => by_cases hs : t.state = .executeEnd <;> by_cases hr : classRank t.ins.op < b.1 <;> simp [hs, hr]

/-- One more entry makes no winner worse, and a candidate is no better than the winner it leaves. -/
theorem busNext_le {best : Option (Nat × Nat)} {n : Nat} {t : Entry} {w : Nat × Nat} (hn : ∀ b, best = some b → b.2 ≤ n)
    (h : busNext best n t = some w) :
    (best = some w ∨ (t.state = .executeEnd ∧ w = (classRank t.ins.op, n))) ∧
    (∀ b, best = some b → toLex w ≤ toLex b) ∧
    (t.state = .executeEnd → toLex w ≤ toLex (classRank t.ins.op, n)) := by
  unfold busNext at h
  split at h
  · rename_i hs
    split at h
    · rename_i hless
      cases h
      exact ⟨.inr ⟨hs, rfl⟩, fun b hb => Prod.Lex.toLex_le_toLex.2 (.inl (hless b hb)), fun _ => le_rfl⟩
    · rename_i hless
      refine ⟨.inl h, fun b hb => by rw [h] at hb; cases hb; exact le_rfl, fun _ => ?_⟩
      have hw : w.1 ≤ classRank t.ins.op := by simpa [h] using hless
      rcases hw.lt_or_eq with hlt | heq
      · exact Prod.Lex.toLex_le_toLex.2 (.inl hlt)
      · exact Prod.Lex.toLex_le_toLex.2 (.inr ⟨heq, hn w h⟩)
  · rename_i hs
    exact ⟨.inl h, fun b hb => by rw [h] at hb; cases hb; exact le_rfl, fun hs' => absurd hs' hs⟩

/-- The winner is the winner so far or a candidate among the entries, and none of these comes before it in class rank and
index (R241). -/
theorem busWinnerFrom_least (ts : List Entry) (best : Option (Nat × Nat)) (n : Nat) {w : Nat × Nat}
    (hn : ∀ b, best = some b → b.2 ≤ n) (h : busWinnerFrom best n ts = some w) :
    (best = some w ∨ ∃ k t, ts[k]? = some t ∧ t.state = .executeEnd ∧ w = (classRank t.ins.op, n + k)) ∧
    (∀ b, best = some b → toLex w ≤ toLex b) ∧
    ∀ (k : Nat) (u : Entry), ts[k]? = some u → u.state = .executeEnd → toLex w ≤ toLex (classRank u.ins.op, n + k) := by
  induction ts generalizing best n with
  | nil =>
    have hw : best = some w := h
    refine ⟨.inl hw, fun b hb => ?_, fun k u hu => absurd hu (by simp)⟩
    rw [hw] at hb
    exact (congrArg toLex (Option.some.inj hb)).le
  | cons t ts ih =>
    rw [busWinnerFrom_cons] at h
    have hn' : ∀ b, busNext best n t = some b → b.2 ≤ n + 1 := by
      intro b hb
      rcases (busNext_le hn hb).1 with hb | ⟨-, rfl⟩
      · exact (hn b hb).trans (Nat.le_succ n)
      · exact Nat.le_succ n
    obtain ⟨horigin, hbest, hrest⟩ := ih (busNext best n t) (n + 1) hn' h
    have hlater (k : Nat) : n + 1 + k = n + (k + 1) := by omega
    refine ⟨?_, fun b hb => ?_, fun k u hu hs => ?_⟩
    · rcases horigin with hw | ⟨k, u, hu, hs, rfl⟩
      · rcases (busNext_le hn hw).1 with hw | ⟨hs, rfl⟩
        · exact .inl hw
        · exact .inr ⟨0, t, rfl, hs, rfl⟩
      · exact .inr ⟨k + 1, u, hu, hs, by rw [hlater]⟩
    · have hsome : busNext best n t ≠ none := fun hnone => by
        rw [(busNext_eq_none.1 hnone).1] at hb
        cases hb
      obtain ⟨b', hb'⟩ := Option.ne_none_iff_exists'.1 hsome
      exact (hbest b' hb').trans ((busNext_le hn hb').2.1 b hb)
    · cases k with
      | zero =>
        cases hu
        have hsome : busNext best n t ≠ none := fun hnone => (busNext_eq_none.1 hnone).2 hs
        obtain ⟨b', hb'⟩ := Option.ne_none_iff_exists'.1 hsome
        exact (hbest b' hb').trans ((busNext_le hn hb').2.2 hs)
      | succ k => exact hlater k ▸ hrest k u hu hs

theorem busWinnerFrom_eq_none {ts : List Entry} {best : Option (Nat × Nat)} {n : Nat} :
    busWinnerFrom best n ts = none ↔ best = none ∧ ∀ t ∈ ts, t.state ≠ .executeEnd := by
  induction ts generalizing best n with
  | nil => exact (and_iff_left (List.forall_mem_nil _)).symm
  | cons t ts ih => rw [busWinnerFrom_cons, ih, busNext_eq_none, List.forall_mem_cons, and_assoc]

/-- Settles O37: the winner is least in the order of class rank and then index. -/
theorem busArbitration : Obligations.BusArbitration := by
  refine ⟨by decide, fun s => ⟨?_, fun n hn => ?_⟩⟩
  · rw [State.busWinner, Option.map_eq_none_iff, busWinnerFrom_eq_none]
    exact and_iff_right rfl
  · obtain ⟨w, hw, rfl⟩ := Option.map_eq_some_iff.1 hn
    obtain ⟨horigin, -, hleast⟩ := busWinnerFrom_least s.table none 0 nofun hw
    obtain ⟨k, t, ht, hs, rfl⟩ := horigin.resolve_left nofun
    rw [Nat.zero_add] at hleast ⊢
    refine ⟨t, ht, hs, fun m u hu hus => ?_⟩
    have hle := Prod.Lex.toLex_le_toLex.1 (hleast m u hu hus)
    rwa [Nat.zero_add] at hle

/-! ## The candidates of a pool -/

/-- Candidates are ordered by their instruction; `insertCand` is insertion into a sorted list (R264, log 16). -/
theorem insertCand_eq (c : Nat × Nat) (ds : List (Nat × Nat)) :
    insertCand c ds = ds.orderedInsert (Prod.fst ⁻¹'o (· ≤ ·)) c := by
  induction ds with
  | nil => rfl
  | cons d ds ih =>
    rw [insertCand, ih]
    rfl

theorem insertCand_perm (c : Nat × Nat) (ds : List (Nat × Nat)) : (insertCand c ds).Perm (c :: ds) :=
  insertCand_eq c ds ▸ List.perm_orderedInsert _ _ _

/-- What `candidatesFrom` lists: the ready stations with their slots. -/
theorem mem_candidatesFrom {es : Pool} {k : Nat} {c : Nat × Nat} :
    c ∈ candidatesFrom k es ↔ ∃ l e, es[l]? = some (some e) ∧ e.ready = true ∧ c = (e.instr, k + l) := by
  induction es generalizing k with
  | nil => simp [candidatesFrom]
  | cons o es ih =>
    have hsplit : (∃ l e, (o :: es)[l]? = some (some e) ∧ e.ready = true ∧ c = (e.instr, k + l)) ↔
        (∃ e, o = some e ∧ e.ready = true ∧ c = (e.instr, k)) ∨ c ∈ candidatesFrom (k + 1) es := by
      rw [ih]
      constructor
      · rintro ⟨l, e, he, hr, rfl⟩
        cases l with
        | zero => exact .inl ⟨e, by simpa using he, hr, rfl⟩
        | succ l => exact .inr ⟨l, e, by simpa using he, hr, by rw [Nat.add_right_comm, Nat.add_assoc]⟩
      · rintro (⟨e, rfl, hr, rfl⟩ | ⟨l, e, he, hr, rfl⟩)
        · exact ⟨0, e, rfl, hr, rfl⟩
        · exact ⟨l + 1, e, by simpa using he, hr, by rw [Nat.add_right_comm, Nat.add_assoc]⟩
    rw [hsplit]
    cases o with
    | none => simp [candidatesFrom]
    | some e =>
      by_cases hr : e.ready = true
      · simp [candidatesFrom, hr, (insertCand_perm _ _).mem_iff]
      · simp [candidatesFrom, hr]

theorem candidatesFrom_nodup (k : Nat) (es : Pool) : ((candidatesFrom k es).map Prod.snd).Nodup := by
  induction es generalizing k with
  | nil => exact .nil
  | cons o es ih =>
    have hlater : k ∉ (candidatesFrom (k + 1) es).map Prod.snd := by
      intro hk
      obtain ⟨c, hc, rfl⟩ := List.mem_map.1 hk
      obtain ⟨l, e, -, -, hc⟩ := mem_candidatesFrom.1 hc
      have := congrArg Prod.snd hc
      dsimp only at this
      omega
    cases o with
    | none => exact ih (k + 1)
    | some e =>
      rw [candidatesFrom]
      split
      · exact ((insertCand_perm _ _).map Prod.snd).nodup_iff.2 (List.nodup_cons.2 ⟨hlater, ih (k + 1)⟩)
      · exact ih (k + 1)

theorem candidatesFrom_sorted (k : Nat) (es : Pool) : (candidatesFrom k es).Pairwise (fun c d => c.1 ≤ d.1) := by
  induction es generalizing k with
  | nil => exact .nil
  | cons o es ih =>
    cases o with
    | none => exact ih (k + 1)
    | some e =>
      rw [candidatesFrom]
      split
      · rw [insertCand_eq]
        exact List.Pairwise.orderedInsert _ _ (ih (k + 1))
      · exact ih (k + 1)

/-- A station is ready when both operands are values and it does not settle (R264). -/
theorem RsEntry.ready_iff {e : RsEntry} :
    e.ready = true ↔ ∃ a b, e.j = .val a ∧ e.k = .val b ∧ e.settle = false := by
  unfold RsEntry.ready
  split <;> simp_all

/-- A pool's candidates are the slots of its ready stations. -/
theorem State.mem_candidates {s : State} {p : PoolId} {k : Nat} :
    k ∈ s.candidates p ↔ ∃ e, s.slot p k = some e ∧ e.ready = true := by
  rw [State.candidates, List.mem_map]
  constructor
  · rintro ⟨c, hc, rfl⟩
    obtain ⟨l, e, he, hr, rfl⟩ := mem_candidatesFrom.1 hc
    exact ⟨e, Option.join_eq_some_iff.2 (by rwa [Nat.zero_add]), hr⟩
  · rintro ⟨e, he, hr⟩
    exact ⟨(e.instr, k), mem_candidatesFrom.2 ⟨k, e, Option.join_eq_some_iff.1 he, hr, by rw [Nat.zero_add]⟩, rfl⟩

/-- Settles O38: the list is built by insertion, in order of instruction, of each ready station's slot. -/
theorem candidatesOldestFirst : Obligations.CandidatesOldestFirst := by
  intro s p
  refine ⟨fun k => ?_, candidatesFrom_nodup 0 _, ?_⟩
  · simp only [State.mem_candidates, RsEntry.ready_iff]
    exact ⟨fun ⟨e, he, a, b, h⟩ => ⟨e, a, b, he, h⟩, fun ⟨e, a, b, he, h⟩ => ⟨e, he, a, b, h⟩⟩
  · have hinstr {c : Nat × Nat} (hc : c ∈ candidatesFrom 0 (s.pool p)) {e : RsEntry} (he : s.slot p c.2 = some e) :
        c.1 = e.instr := by
      obtain ⟨l, d, hd, -, rfl⟩ := mem_candidatesFrom.1 hc
      rw [State.slot, Nat.zero_add, hd] at he
      cases he
      rfl
    rw [State.candidates, List.pairwise_map]
    refine (candidatesFrom_sorted 0 _).imp_of_mem fun hc hd hle e f he hf => ?_
    rwa [← hinstr hc he, ← hinstr hd hf]

end Sys2Proof.Machine
end

section
/-! PROOF. The run loop and the ends of a tick (40_scheduler.md R220, R221, R285, R296), and the first tick after a load
(70_reset_and_hazards.md R441). -/

namespace Sys2Proof.Machine

/-! ## O39, O40, O42: the run loop and the tick -/

/-- An entry is terminal when it has committed, and if it is a store has been written (10_state.md R40). -/
theorem Entry.terminal_iff {t : Entry} :
    t.terminal = true ↔ (t.state = .commit ∧ t.ins.op ≠ .sw) ∨ t.state = .memoryWrite := by
  simp [Entry.terminal, or_comm]

theorem State.allTerminal_iff {s : State} :
    s.allTerminal = true ↔ ∀ t ∈ s.table, (t.state = .commit ∧ t.ins.op ≠ .sw) ∨ t.state = .memoryWrite := by
  simp only [State.allTerminal, List.all_eq_true, Entry.terminal_iff]

/-- In the tick after `s`: the cycle has advanced by one and the run goes on or has faulted. -/
def State.Ticks (s : State) (_ : Nat) (u : State) : Prop :=
  u.cycle = s.cycle + 1 ∧ (u.status = .running ∨ ∃ info, u.status = .faulted info)

theorem ticks_keptByStages (s : State) : KeptByStages s.Ticks where
  mono     := fun _ _ h => h
  served   := fun ev i u v ⟨hcycle, hstatus⟩ _ hst => by
    obtain ⟨w, hw, rfl⟩ := serve_served_any hst
    refine ⟨hw.cycle_eq.trans hcycle, ?_⟩
    cases hw with
    | raised _ _ _ => exact .inr ⟨_, rfl⟩
    | _ => simpa using hstatus
  prefetch := fun u v h hst => by
    obtain ⟨m, -, rfl⟩ := prefetchTick_next hst
    exact h
  settled  := fun _ h => h

/-- Settles O39: the tests of the pass in their order, and what every part of a tick does to cycle and status. -/
theorem runLoopPass : Obligations.RunLoopPass := by
  intro s finished
  have hfinished : s.allTerminal = true ↔ finished := State.allTerminal_iff
  refine ⟨fun hs => if_neg hs, fun hs hf => ?_, fun hs hf hcap => ?_, fun hs hf hcap t hst => ?_⟩
  · rw [step, if_pos hs, runPass, if_pos (hfinished.2 hf)]
  · rw [step, if_pos hs, runPass, if_neg (hf ∘ hfinished.1), if_pos hcap]
  · rw [step_eq_tick hs (Bool.eq_false_iff.2 (hf ∘ hfinished.1)) hcap] at hst
    exact (ticks_keptByStages s).tick ⟨rfl, .inl hs⟩ hst

/-- A first part that answers a running state is followed by the second. -/
theorem thenRun_next_running {o : Out} {f : State → Out} {s : State} (h : o = .next s) (hs : s.status = .running) :
    thenRun o f = f s := by
  rw [h]
  exact if_pos hs

/-- A sequence that leaves the run going has run both its parts. -/
theorem thenRun_running {o : Out} {f : State → Out} {t : State} (h : thenRun o f = .next t) (ht : t.status = .running) :
    ∃ s, o = .next s ∧ s.status = .running ∧ f s = .next t := by
  obtain ⟨s, hs, ⟨hrun, hft⟩ | ⟨hstop, rfl⟩⟩ := thenRun_next.1 h
  · exact ⟨s, hs, hrun, hft⟩
  · exact absurd ht hstop

/-- Settles O40: the four stages run in turn, then the dispatch stage serves the entry at the pointer. -/
theorem stepServesDispatchedInstruction : Obligations.StepServesDispatchedInstruction := by
  intro s s1 s2 s3 s4 u n t hrun hterm hcap h1 r1 h2 r2 h3 r3 h4 r4 hn ht hu
  have hdispatch : dispatchStage s4 = .next { u with event := .dispatch } := by
    rw [dispatchStage, hn]
    dsimp only
    rw [ht]
    exact serve_next.2 ⟨u, hu, rfl⟩
  have hstatus : u.status = .running := ((exec_served hu).ctl_eq (.inl rfl)).2.trans r4
  rw [step_eq_tick hrun hterm hcap, tick, thenRun_next_running h1 r1, thenRun_next_running h2 r2,
    thenRun_next_running h3 r3, thenRun_next_running h4 r4, thenRun_next_running hdispatch hstatus]

/-- A tick that the run survives ends with the settle marks cleared (R296). -/
theorem tick_running {s t : State} (h : tick s = .next t) (ht : t.status = .running) : ∃ u : State, t = u.clearSettle := by
  obtain ⟨s1, -, -, h⟩ := thenRun_running h ht
  obtain ⟨s2, -, -, h⟩ := thenRun_running h ht
  obtain ⟨s3, -, -, h⟩ := thenRun_running h ht
  obtain ⟨s4, -, -, h⟩ := thenRun_running h ht
  obtain ⟨s5, -, -, h⟩ := thenRun_running h ht
  exact ⟨s5, (Host.Outcome.next.inj h).symm⟩

/-- A step that leaves the run going is a tick (R221). -/
theorem step_running {s t : State} (h : step s = .next t) (ht : t.status = .running) : tick s = .next t := by
  unfold step runPass at h
  split at h
  · split at h
    · cases h
      cases ht
    · split at h
      · cases h
        cases ht
      · exact h
  · cases h

/-- Settles O42: the tick ends by clearing every mark. -/
theorem settleClearedAtEndOfTick : Obligations.SettleClearedAtEndOfTick := by
  intro s t hst hrun p e he
  obtain ⟨u, rfl⟩ := tick_running (step_running hst hrun) hrun
  rw [State.clearSettle, State.pool_mapStations, Pool.mapLive] at he
  obtain ⟨o, -, ho⟩ := List.mem_map.1 he
  obtain ⟨d, -, rfl⟩ := Option.map_eq_some_iff.1 ho
  rfl

/-! ## O11: the first tick after a load -/

/-- A load leaves a reset state over the decoded program, with every register that an instruction names (R440). -/
theorem State.cleanEntry_cases {cfg : Config} {s : State} (h : State.CleanEntry cfg s) :
    ∃ program errors mem regInit, s = State.resetWith cfg (loadTable cfg.nRegs program) errors mem regInit ∧
      cfg.Legal ∧ regInit.length = cfg.nRegs := by
  obtain ⟨program, memInit, regInit, h⟩ := h
  unfold State.load at h
  split at h
  · rename_i hok
    cases h
    exact ⟨program, _, _, regInit, rfl, hok.1, hok.2.2⟩
  · cases h

/-- The entries of a loaded table are fresh, and their registers exist (10_state.md R37, 30_encoding.md R187). -/
theorem loadTable_fresh {nRegs : Nat} {program : List Word} {t : Entry} (h : t ∈ loadTable nRegs program) :
    ∃ i : Instr, t = Entry.fresh i ∧ i.regsOk nRegs = true := by
  obtain ⟨w, -, hw⟩ := List.mem_filterMap.1 h
  obtain ⟨i, hi, rfl⟩ := Option.map_eq_some_iff.1 hw
  exact ⟨i, rfl, decodeWith_regs decodeTable hi⟩

/-- In a reset state every pool has a free first slot (R7, R90). -/
theorem State.resetWith_freeSlot {cfg : Config} {table : List Entry} {errors : List (Nat × Word)} {mem : Mem}
    {regInit : List Word} (legal : cfg.Legal) (p : PoolId) :
    (State.resetWith cfg table errors mem regInit).freeSlot p = some 0 := by
  obtain ⟨-, -, ⟨hadd, hmul, hlsq⟩, -⟩ := legal
  refine State.freeSlot_eq_some ?_ fun l hl => absurd hl (Nat.not_lt_zero l)
  cases p
  · exact List.getElem?_replicate_of_lt hadd
  · exact List.getElem?_replicate_of_lt hmul
  · exact List.getElem?_replicate_of_lt hlsq

/-- With nothing in flight and a free slot, the first step dispatches the first entry of the table and nothing else. -/
theorem State.Unstarted.step_dispatches {s : State} {i : Instr} {es : List Entry} {k : Nat} {c : Captured}
    (h : s.Unstarted) (hrun : s.status = .running) (htable : s.table = Entry.fresh i :: es)
    (hcap : s.cycle < s.cfg.maxCycles) (hk : s.freeSlot (poolOf i.op) = some k) (hc : captureOf i s = some c) :
    ∃ t, step s = .next t ∧ t.cycle = s.cycle + 1 ∧
      t.table =
        { Entry.fresh i with tag := some s.robHead, state := .rsWait, tIssue := some (s.cycle + 1) } :: es := by
  have hdptr : s.dptr = some 0 := by
    rw [State.dptr, htable]
    rfl
  have hk' : State.freeSlot { s with cycle := s.cycle + 1, event := .dispatch } (poolOf i.op) = some k := by
    rw [← hk]
    cases poolOf i.op <;> rfl
  have hc' : captureOf i { s with cycle := s.cycle + 1, event := .dispatch } = some c := by
    rw [← hc]
    cases i <;> rfl
  have hu := exec_issues (s := { s with cycle := s.cycle + 1, event := .dispatch }) rfl hdptr hk' (h.rob s.robHead) hc'
  refine ⟨_, h.step_eq hrun htable hcap hu, State.issue_cycle .., (State.issue_table ..).trans ?_⟩
  dsimp only
  rw [htable]
  rfl

/-- Settles O11: nothing is in flight after a load, so the first step is the dispatch of the first entry. -/
theorem firstInstructionDispatchesFirst : Obligations.FirstInstructionDispatchesFirst := by
  intro cfg s e es hclean htable hcap
  obtain ⟨program, errors, mem, regInit, rfl, legal, hregs⟩ := State.cleanEntry_cases hclean
  have htable' : loadTable cfg.nRegs program = e :: es := htable
  obtain ⟨i, rfl, hi⟩ := loadTable_fresh (t := e) (htable' ▸ List.mem_cons_self)
  have hfresh : ∀ t ∈ loadTable cfg.nRegs program, t = Entry.fresh t.ins := by
    intro t ht
    obtain ⟨j, rfl, -⟩ := loadTable_fresh ht
    rfl
  have hrun : resetStatus (loadTable cfg.nRegs program) = .running := by
    rw [resetStatus, htable']
    rfl
  have hlt : ∀ r ∈ i.regs, r.toNat < cfg.nRegs := fun r hr => by simpa using List.all_eq_true.1 hi r hr
  have hx : (resetRegs cfg regInit).length = cfg.nRegs := (resetRegs_length cfg regInit).trans hregs
  obtain ⟨c, hc⟩ := captureOf_answers
    (s := State.resetWith cfg (loadTable cfg.nRegs program) errors mem regInit) (i := i) (hx.symm ▸ hlt)
    fun r hr => (List.length_replicate (n := cfg.nRegs) (a := (none : Option Tag))).symm ▸ hlt r hr
  exact (State.resetWith_unstarted hfresh).step_dispatches hrun htable hcap (State.resetWith_freeSlot legal _) hc

end Sys2Proof.Machine
end

section
/-! SUPPORT. A tick as a chain of turns (40_scheduler.md R220, R260, R263): commit, broadcast, memory tick, finishing phase, the
three pools' starts, dispatch. What one turn serves, and the packaged induction from any turn on. -/

namespace Sys2Proof.Machine

/-! ## A pool's turn serves at most one start -/

/-- A start changes nothing, or raises, or empties its slot (R259, R264, R267). -/
theorem Served.start_cases {s t : State} {i : Instr} {p : PoolId} {k : Nat} (h : Served s i (.start p k) t) :
    t = s ∨ t.status ≠ .running ∨ t.slot p k = none := by
  cases h with
  | idle _ => exact .inl rfl
  | raised _ _ _ => exact .inr (.inl nofun)
  | arith _ _ _ _ | div0 _ _ _ _ => exact .inr (.inr (by rw [State.slot_startArith, if_pos ⟨rfl, rfl⟩]))
  | load _ _ _ _ _ _ | store _ _ _ _ =>
    exact .inr (.inr (by simp only [State.startLoad, State.startStore, State.slot_beginExec, and_self, if_true]))

/-- Trying candidates serves at most one start that does anything (R264). -/
theorem tryStart_served {p : PoolId} {s t : State} (hs : s.event = .dispatch) (ks : List Nat)
    (h : tryStart p ks s = .next t) : t = s ∨ ∃ k i, s.Serves (.start p k) i ∧ Served s i (.start p k) t := by
  induction ks with
  | nil =>
    cases h
    exact .inl rfl
  | cons k ks ih =>
    unfold tryStart at h
    split at h
    · exact ih h
    · rename_i st hst
      split at h
      · cases h
      · rename_i e he
        obtain ⟨u, hu, hcont⟩ := thenRun_next.1 h
        have hserved := serve_served hs hu
        have hone : t = u → t = s ∨ ∃ k i, s.Serves (.start p k) i ∧ Served s i (.start p k) t := by
          rintro rfl
          exact .inr ⟨k, e.ins, ⟨st, e, hst, he, rfl⟩, hserved⟩
        rcases hcont with ⟨hrun, hgo⟩ | ⟨-, ht⟩
        · split at hgo
          · cases hgo
            exact hone rfl
          · rename_i hslot
            rcases hserved.start_cases with rfl | hstop | hnone
            · exact ih hgo
            · exact absurd hrun hstop
            · simp [hnone] at hslot
        · exact hone ht

theorem startPool_served {p : PoolId} {s t : State} (hs : s.event = .dispatch) (h : startPool p s = .next t) :
    t = s ∨ ∃ k i, s.Serves (.start p k) i ∧ Served s i (.start p k) t :=
  tryStart_served hs _ h

/-! ## Turns -/

/-- The turn of a pool in the start phase (R263). -/
def PoolId.turn : PoolId → Nat
  | .lsq => 5
  | .add => 6
  | .mul => 7

theorem PoolId.five_le_turn (p : PoolId) : 5 ≤ p.turn := by cases p <;> decide

/-- The turn of the tick that serves an event. -/
def Event.turn : Event → Nat
  | .commit      => 1
  | .broadcast _ => 2
  | .storeTick _ => 3
  | .countdown _ => 4
  | .start p _   => p.turn
  | .dispatch    => 8

/-- The last turn known to be over when an event is served: a sweep serves several events in its own turn. -/
def Event.prior : Event → Nat
  | .commit      => 0
  | .broadcast _ => 1
  | .storeTick _ => 3
  | .countdown _ => 4
  | .start p _   => p.turn - 1
  | .dispatch    => 7

theorem Event.prior_le_turn (ev : Event) : ev.prior ≤ ev.turn := by
  cases ev with
  | commit | broadcast _ | dispatch => exact Nat.le_succ _
  | storeTick _ | countdown _ => exact le_rfl
  | start p k => exact Nat.sub_le _ _

/-- A family of properties, `P k` when turn `k` is over, that every turn after turn `j` keeps in sound states. -/
structure KeptByTurns (j : Nat) (P : Nat → State → Prop) : Prop where
  mono     : ∀ k s, P k s → P (k + 1) s
  served   : ∀ ev i s t, j < ev.turn → s.Sound → P ev.prior s → s.Serves ev i → Served s i ev t → P ev.turn t
  prefetch : ∀ s t, s.Sound → P 3 s → prefetchTick s = .next t → P 3 t

/-- What is left of a tick when the turns of the pools `ps` are left in its start phase (R263, R220). -/
def restFrom : List PoolId → State → Out
  | [], s => thenRun (dispatchStage s) fun s => .next s.clearSettle
  | p :: ps, s => thenRun (startPool p s) (restFrom ps)

/-- The tick ended in a state with `P`: where the run stopped, or with the settle marks then cleared (R296). -/
def EndsIn (P : State → Prop) (t : State) : Prop :=
  ∃ w : State, P w ∧ ((t = w ∧ t.status ≠ .running) ∨ t = w.clearSettle)

theorem EndsIn.of_settled {P : State → Prop} {t : State} (h : EndsIn P t) (hP : ∀ w, P w → P w.clearSettle) : P t := by
  obtain ⟨w, hw, ⟨rfl, -⟩ | rfl⟩ := h
  · exact hw
  · exact hP w hw

theorem EndsIn.of_running {P : State → Prop} {t : State} (h : EndsIn P t) (ht : t.status = .running) :
    ∃ w, P w ∧ t = w.clearSettle := by
  obtain ⟨w, hw, ⟨-, hstop⟩ | rfl⟩ := h
  · exact absurd ht hstop
  · exact ⟨w, hw, rfl⟩

namespace KeptByTurns
variable {j : Nat} {P : Nat → State → Prop} (hP : KeptByTurns j P) {s t : State} (hs : s.Sound)
include hP

theorem mono_le {k l : Nat} (hkl : k ≤ l) (h : P k s) : P l s := by
  induction hkl with
  | refl => exact h
  | step _ ih => exact hP.mono _ _ ih

include hs

theorem commitStage (hj : j < 1) (h0 : P 0 s) (h : commitStage s = .next t) : P 1 t := by
  rcases commitStage_served h with rfl | ⟨i, hev, hst⟩
  · exact hP.mono _ _ h0
  · exact hP.served .commit i s t hj hs h0 hev (serve_served hs.shaped.event hst)

theorem broadcastStage (hj : j < 2) (h1 : P 1 s) (h : broadcastStage s = .next t) : P 2 t := by
  rcases broadcastStage_served h with rfl | ⟨n, i, hev, hst⟩
  · exact hP.mono _ _ h1
  · exact hP.served (.broadcast n) i s t hj hs h1 hev (serve_served hs.shaped.event hst)

theorem memTickStage (hj : j < 3) (h2 : P 2 s) (h : memTickStage s = .next t) : P 3 t := by
  have hsweep (u : State) (hu : sweep writesThisTick Event.storeTick (List.range s.table.length) s = .next u) :
      u.Sound ∧ P 3 u :=
    sweep_keeps (P := fun u => u.Sound ∧ P 3 u) (fun u v n e ⟨hu, h3⟩ he hp hst => by
      have hev : u.Serves (.storeTick n) e.ins := ⟨e, he, hp, rfl⟩
      exact ⟨sound_keptByParts.served _ _ u v hu hev hst,
        hP.served (.storeTick n) e.ins u v hj hu h3 hev (serve_served hu.shaped.event hst)⟩) _ ⟨hs, hP.mono _ _ h2⟩ hu
  exact thenRun_keeps (fun _ h => h.2) hsweep (fun u hu hpf => hP.prefetch u t hu.1 hu.2 hpf) h

theorem finishPhase (hj : j < 4) (h3 : P 3 s) (h : finishPhase s = .next t) : P 4 t :=
  (sweep_keeps (P := fun u => u.Sound ∧ P 4 u) (fun u v n e ⟨hu, h4⟩ he hp hst => by
    have hev : u.Serves (.countdown n) e.ins := ⟨e, he, hp, rfl⟩
    exact ⟨sound_keptByParts.served _ _ u v hu hev hst,
      hP.served (.countdown n) e.ins u v hj hu h4 hev (serve_served hu.shaped.event hst)⟩) _ ⟨hs, hP.mono _ _ h3⟩ h).2

theorem startPool {p : PoolId} (hj : j < p.turn) (h0 : P (p.turn - 1) s) (h : startPool p s = .next t) :
    P p.turn t := by
  rcases startPool_served hs.shaped.event h with rfl | ⟨k, i, hev, hst⟩
  · exact hP.mono_le (Nat.sub_le _ _) h0
  · exact hP.served (.start p k) i s t hj hs h0 hev hst

theorem dispatchStage (hj : j < 8) (h7 : P 7 s) (h : dispatchStage s = .next t) : P 8 t := by
  rcases dispatchStage_served h with rfl | ⟨i, hev, hst⟩
  · exact hP.mono _ _ h7
  · exact hP.served .dispatch i s t hj hs h7 hev (serve_served hs.shaped.event hst)

theorem afterMul (hj : j < 8) (h7 : P 7 s) (h : restFrom [] s = .next t) : EndsIn (P 8) t := by
  obtain ⟨u, hu, ⟨-, hend⟩ | ⟨hstop, rfl⟩⟩ := thenRun_next.1 h
  · cases hend
    exact ⟨u, hP.dispatchStage hs hj h7 hu, .inr rfl⟩
  · exact ⟨_, hP.dispatchStage hs hj h7 hu, .inl ⟨rfl, hstop⟩⟩

/-- One pool's turn and what follows it. -/
theorem restFrom {p : PoolId} {ps : List PoolId} (hj : j < p.turn) (h0 : P (p.turn - 1) s)
    (hps : ∀ u, u.Sound → P p.turn u → Machine.restFrom ps u = .next t → EndsIn (P 8) t)
    (h : Machine.restFrom (p :: ps) s = .next t) : EndsIn (P 8) t := by
  obtain ⟨u, hu, ⟨-, hgo⟩ | ⟨hstop, rfl⟩⟩ := thenRun_next.1 h
  · exact hps u (sound_keptByParts.tryStart _ hs hu) (hP.startPool hs hj h0 hu) hgo
  · exact ⟨_, hP.mono_le (by cases p <;> decide) (hP.startPool hs hj h0 hu), .inl ⟨rfl, hstop⟩⟩

theorem afterAdd (hj : j < 7) (h6 : P 6 s) (h : Machine.restFrom [.mul] s = .next t) : EndsIn (P 8) t :=
  hP.restFrom (p := .mul) hs hj h6 (fun _ hu h7 => hP.afterMul hu (hj.trans (Nat.lt_succ_self _)) h7) h

theorem afterLsq (hj : j < 6) (h5 : P 5 s) (h : Machine.restFrom [.add, .mul] s = .next t) : EndsIn (P 8) t :=
  hP.restFrom (p := .add) hs hj h5 (fun _ hu h6 => hP.afterAdd hu (hj.trans (Nat.lt_succ_self _)) h6) h

theorem afterFinish (hj : j < 5) (h4 : P 4 s) (h : Machine.restFrom [.lsq, .add, .mul] s = .next t) :
    EndsIn (P 8) t :=
  hP.restFrom (p := .lsq) hs hj h4 (fun _ hu h5 => hP.afterLsq hu (hj.trans (Nat.lt_succ_self _)) h5) h

end KeptByTurns

/-! ## The stages of a tick, one after the other -/

/-- A state between two stages of the tick after `s`: the invariants hold, the run goes on and the cycle has advanced. -/
structure State.InTick (s w : State) : Prop where
  sound   : w.Sound
  cfg     : w.cfg = s.cfg
  running : w.status = .running
  cycle   : w.cycle = s.cycle + 1

theorem State.InTick.served {s v w : State} {i : Instr} {ev : Event} (h : s.InTick w) (hev : w.Serves ev i)
    (hst : Served w i ev v) (hne : ∀ p k, ev ≠ .start p k) : s.InTick v :=
  ⟨h.sound.served hev hst, hst.cfg_eq.trans h.cfg, (hst.status_eq hne).trans h.running, hst.cycle_eq.trans h.cycle⟩

/-- No stage before the starts ends the run. -/
theorem inTick_keptByTurns (s : State) : KeptByTurns 0 (fun k w => k ≤ 4 → s.InTick w) where
  mono     := fun k w h hk => h (by omega)
  served   := fun ev i w v _ _ h hev hst hk => by
    refine (h (ev.prior_le_turn.trans hk)).served hev hst ?_
    rintro p k rfl
    exact absurd (p.five_le_turn.trans hk) (by decide)
  prefetch := fun w v hs h hst hk => by
    have hsound := sound_keptByParts.prefetch w v hs hst
    obtain ⟨m, -, rfl⟩ := prefetchTick_next hst
    exact ⟨hsound, (h hk).cfg, (h hk).running, (h hk).cycle⟩

/-- The states between the stages of the tick after `s`, up to the start phase, which begins in `u`. -/
structure State.TickStages (s s0 s1 s2 s3 u : State) : Prop where
  start     : s0 = { s with cycle := s.cycle + 1 }
  commit    : commitStage s0 = .next s1
  broadcast : broadcastStage s1 = .next s2
  memTick   : memTickStage s2 = .next s3
  finish    : finishPhase s3 = .next u
  in0       : s.InTick s0
  in1       : s.InTick s1
  in2       : s.InTick s2
  in3       : s.InTick s3
  in4       : s.InTick u

theorem State.TickStages.reachesStarts {s s0 s1 s2 s3 u : State} (h : s.TickStages s0 s1 s2 s3 u) :
    s.ReachesStarts u :=
  ⟨s1, s2, s3, h.start ▸ h.commit, h.in1.running, h.broadcast, h.in2.running, h.memTick, h.in3.running, h.finish,
    h.in4.running⟩

/-- Sequencing is associative. -/
theorem thenRun_assoc (o : Out) (f g : State → Out) : thenRun (thenRun o f) g = thenRun o fun s => thenRun (f s) g := by
  cases o with
  | next s =>
    by_cases h : s.status = .running
    · simp [thenRun, h]
    · simp [thenRun, h]
  | fault r => rfl
  | refused r => rfl

/-- The end of a tick from its execute stage on: the finishing phase and then the rest. -/
theorem executeStage_rest (s : State) :
    (thenRun (executeStage s) fun s => thenRun (dispatchStage s) fun s => .next s.clearSettle) =
      thenRun (finishPhase s) (restFrom [.lsq, .add, .mul]) := by
  simp only [executeStage, thenRun_assoc]
  rfl

/-- A tick of a sound running state passes its first four turns, and then does the rest. -/
theorem tick_stages {s t : State} (hs : s.Sound) (hrun : s.status = .running) (h : tick s = .next t) :
    ∃ s0 s1 s2 s3 u, s.TickStages s0 s1 s2 s3 u ∧ restFrom [.lsq, .add, .mul] u = .next t := by
  have hP := inTick_keptByTurns s
  have in0 : s.InTick { s with cycle := s.cycle + 1 } := ⟨sound_keptByParts.counted s hs, rfl, hrun, rfl⟩
  have in1 (w : State) (hw : commitStage { s with cycle := s.cycle + 1 } = .next w) : s.InTick w :=
    hP.commitStage in0.sound (by decide) (fun _ => in0) hw (by decide)
  obtain ⟨s1, h1, h⟩ := thenRun_of_running h fun w hw => (in1 w hw).running
  have in2 (w : State) (hw : broadcastStage s1 = .next w) : s.InTick w :=
    hP.broadcastStage (in1 s1 h1).sound (by decide) (fun _ => in1 s1 h1) hw (by decide)
  obtain ⟨s2, h2, h⟩ := thenRun_of_running h fun w hw => (in2 w hw).running
  have in3 (w : State) (hw : memTickStage s2 = .next w) : s.InTick w :=
    hP.memTickStage (in2 s2 h2).sound (by decide) (fun _ => in2 s2 h2) hw (by decide)
  obtain ⟨s3, h3, h⟩ := thenRun_of_running h fun w hw => (in3 w hw).running
  have in4 (w : State) (hw : finishPhase s3 = .next w) : s.InTick w :=
    hP.finishPhase (in3 s3 h3).sound (by decide) (fun _ => in3 s3 h3) hw (by decide)
  rw [executeStage_rest] at h
  obtain ⟨u, hu, h⟩ := thenRun_of_running h fun w hw => (in4 w hw).running
  exact ⟨_, s1, s2, s3, u, ⟨rfl, h1, h2, h3, hu, in0, in1 s1 h1, in2 s2 h2, in3 s3 h3, in4 u hu⟩, h⟩

/-- A step of a sound running state with work left, short of the cap, is such a tick. -/
theorem step_stages {s t : State} (hs : s.Sound) (hrun : s.status = .running) (hterm : s.allTerminal = false)
    (hcap : s.cycle < s.cfg.maxCycles) (h : step s = .next t) :
    ∃ s0 s1 s2 s3 u, s.TickStages s0 s1 s2 s3 u ∧ restFrom [.lsq, .add, .mul] u = .next t :=
  tick_stages hs hrun (step_eq_tick hrun hterm hcap ▸ h)

end Sys2Proof.Machine
end

section
/-! SUPPORT and PROOF. What a tick does to one entry of the table: it is served only in the turn of its lifecycle state (R262),
and each turn but the two sweeps serves one entry (R223, R231, R263, R295). -/

namespace Sys2Proof.Machine

/-! ## An entry is served in the turn of its lifecycle state -/

/-- The lifecycle state of the entry that an event serves. -/
def Event.source : Event → LifeState
  | .dispatch    => .notStarted
  | .start _ _   => .rsWait
  | .countdown _ => .executeStart
  | .broadcast _ => .executeEnd
  | .commit      => .broadcast
  | .storeTick _ => .commit

/-- The turns of the tick that serve entries in a lifecycle state. -/
def LifeState.servedIn (turn : Nat) : LifeState → Bool
  | .notStarted   => turn == 8
  | .rsWait       => 5 ≤ turn && turn ≤ 7
  | .executeStart => turn == 4
  | .executeEnd   => turn == 2
  | .broadcast    => turn == 1
  | .commit       => turn == 3
  | .memoryWrite  => false

theorem Event.source_servedIn (ev : Event) : ev.source.servedIn ev.turn = true := by
  cases ev with
  | start p k => cases p <;> rfl
  | _ => rfl

section
variable {s t : State} {i : Instr} {ev : Event} {n : Nat} {f : Entry}

/-- The entry an event serves is in the lifecycle state that the event moves on; a commit may leave it. -/
theorem Served.source_of_serves (h : Served s i ev t) (hc : s.Consistent) (hev : s.Serves ev i)
    (hf : s.table[n]? = some f) (hn : s.ServesEntry n ev) : f.state = ev.source ∨ t = s := by
  have same {e : Entry} (he : s.table[n]? = some e) : f = e := Option.some.inj (hf.symm.trans he)
  cases ev with
  | dispatch =>
    obtain ⟨e, he, hs, -⟩ := hev.dispatch hn
    exact .inl (same he ▸ hs)
  | start p k =>
    obtain ⟨st, hslot, rfl⟩ := hn
    exact .inl (hc.station_at hslot hf).1
  | countdown m =>
    obtain rfl : m = n := hn
    obtain ⟨e, he, hs, -⟩ := hev.countdown
    exact .inl (same he ▸ hs)
  | broadcast m =>
    obtain rfl : m = n := hn
    obtain ⟨e, he, hs, -⟩ := hev.broadcast
    exact .inl (same he ▸ hs)
  | storeTick m =>
    obtain rfl : m = n := hn
    obtain ⟨e, he, hp, -⟩ := hev.storeTick
    exact .inl (same he ▸ ((hc.entry e (List.mem_of_getElem? he)).pending.1 hp).2)
  | commit =>
    obtain ⟨r, hr, rfl⟩ := hn
    have sent {q : RobEntry} (hq : s.robAt s.robTail = some q) (hv : q.value ≠ .unready) : f.state = .broadcast := by
      obtain rfl : r = q := Option.some.inj (hr.symm.trans hq)
      exact (hc.sent hr hv hf).2
    cases h with
    | idle _ => exact .inr rfl
    | toReg hq _ _ hv _ => exact .inl (sent hq (by rw [hv]; nofun))
    | toNone hq _ _ hv => exact .inl (sent hq hv)
    | toMem hq _ _ hv _ _ => exact .inl (sent hq hv)

/-- An event leaves an entry in a lifecycle state that it does not serve. -/
theorem Served.table_kept (h : Served s i ev t) (hc : s.Consistent) (hev : s.Serves ev i)
    (hf : s.table[n]? = some f) (hne : f.state ≠ ev.source) : t.table[n]? = some f := by
  by_cases hn : s.ServesEntry n ev
  · rcases h.source_of_serves hc hev hf hn with hs | rfl
    · exact absurd hs hne
    · exact hf
  · exact (h.table_other hn).trans hf

end

/-- Between turns `j` and `l`, none of which serves its lifecycle state, an entry stays as it is. -/
theorem entry_keptByTurns (n : Nat) {f : Entry} {st : LifeState} (hf : f.state = st) (j l : Nat)
    (h : ∀ k ≤ l, j < k → st.servedIn k = false) :
    KeptByTurns j (fun k w => k ≤ l → w.table[n]? = some f) where
  mono     := fun k w hw hk => hw (by omega)
  served   := fun ev i w v hj hs hw hev hst hk => by
    refine hst.table_kept hs.consistent hev (hw (ev.prior_le_turn.trans hk)) fun hsource => ?_
    have hno := h ev.turn hk hj
    rw [← hf, hsource, ev.source_servedIn] at hno
    cases hno
  prefetch := fun w v _ hw hst => by
    obtain ⟨m, -, rfl⟩ := prefetchTick_next hst
    exact hw

/-- An entry that has committed in this cycle stays as it is in the rest of the tick: its write is not yet due (R252). -/
theorem committed_keptByTurns (n : Nat) {f : Entry} {c : Nat} (hs : f.state = .commit) (hc : f.tCommit = some c) :
    KeptByTurns 1 (fun _ w => w.cycle = c ∧ w.table[n]? = some f) where
  mono     := fun _ _ h => h
  served   := fun ev i w v hj hw ⟨hcycle, hf⟩ hev hst => by
    refine ⟨hst.cycle_eq.trans hcycle, ?_⟩
    by_cases hn : w.ServesEntry n ev
    · have hsource := hst.source_of_serves hw.consistent hev hf hn
      cases ev with
      | storeTick m =>
        obtain rfl : m = n := hn
        obtain ⟨e, he, -, hb, -⟩ := hev.storeTick
        obtain rfl : f = e := Option.some.inj (hf.symm.trans he)
        rw [hc, hcycle] at hb
        simp [before] at hb
      | _ =>
        rcases hsource with hsource | rfl
        · rw [hs] at hsource
          cases hsource
        · exact hf
    · exact (hst.table_other hn).trans hf
  prefetch := fun w v _ hw hst => by
    obtain ⟨m, -, rfl⟩ := prefetchTick_next hst
    exact hw

/-! ## O47: a sweep serves each entry once -/

/-- A sweep leaves an entry it does not list. -/
theorem finishSweep_other {n : Nat} (ns : List Nat) (hn : n ∉ ns) {s t : State}
    (h : sweep executesThisTick Event.countdown ns s = .next t) : t.table[n]? = s.table[n]? := by
  induction ns generalizing s with
  | nil =>
    cases h
    rfl
  | cons m ns ih =>
    obtain ⟨hnm, hns⟩ := not_or.1 (mt List.mem_cons.2 hn)
    unfold sweep at h
    split at h
    · exact ih hns h
    · split at h
      · refine thenRun_keeps (P := fun u => u.table[n]? = s.table[n]?) (fun _ => id) (fun u hu => ?_)
          (fun u hu hv => (ih hns hv).trans hu) h
        obtain ⟨w, hw, rfl⟩ := serve_served_any hu
        exact hw.table_other fun hm => hnm hm.symm
      · exact ih hns h

/-- An entry after one cycle of its execution countdown (R262). -/
def Entry.ticked (e : Entry) (cycle : Nat) : Entry :=
  if e.count = 1 then { e with count := 0, state := .executeEnd, tExecEnd := some cycle }
  else { e with count := e.count - 1 }

/-- Serving a countdown ticks its entry. -/
theorem Served.countdown_ticks {s t : State} {i : Instr} {n : Nat} {e : Entry} (h : Served s i (.countdown n) t)
    (he : s.table[n]? = some e) : t.table[n]? = some (e.ticked s.cycle) := by
  have same {d : Entry} (hd : s.table[n]? = some d) : d = e := Option.some.inj (hd.symm.trans he)
  cases h with
  | idle h => cases h
  | counted hd hc =>
    rw [Entry.ticked, if_neg (same hd ▸ hc)]
    exact (State.oneEntry_countDown he).at_n
  | ended hd hc _ =>
    rw [Entry.ticked, if_pos (same hd ▸ hc)]
    exact (State.oneEntry_endExec he).at_n
  | loadEnded hd hc _ _ =>
    rw [Entry.ticked, if_pos (same hd ▸ hc)]
    exact ((State.oneEntry_endExec he).congr rfl rfl).at_n

/-- The finishing sweep ticks each entry that it lists once and that executes since an earlier cycle. -/
theorem finishSweep_ticks {n : Nat} {e : Entry} (ns : List Nat) (hns : ns.Nodup) (hn : n ∈ ns) {s t : State}
    (hrun : s.status = .running) (he : s.table[n]? = some e) (hpick : executesThisTick s e = true)
    (h : sweep executesThisTick Event.countdown ns s = .next t) : t.table[n]? = some (e.ticked s.cycle) := by
  induction ns generalizing s with
  | nil => cases hn
  | cons m ns ih =>
    obtain ⟨hm, hns⟩ := List.nodup_cons.1 hns
    have hrunning {u : State} {i : Instr} (hu : serve (.countdown m) i s = .next u) : u.status = .running := by
      obtain ⟨w, hw, rfl⟩ := serve_served_any hu
      exact (hw.status_eq nofun).trans hrun
    unfold sweep at h
    by_cases hnm : n = m
    · subst hnm
      rw [he] at h
      dsimp only at h
      rw [if_pos hpick] at h
      obtain ⟨u, hu, hv⟩ := thenRun_of_running h fun _ => hrunning
      rw [finishSweep_other ns hm hv]
      obtain ⟨w, hw, rfl⟩ := serve_served_any hu
      exact hw.countdown_ticks he
    · have hn' : n ∈ ns := (List.mem_cons.1 hn).resolve_left hnm
      split at h
      · exact ih hns hn' hrun he hpick h
      · split at h
        · obtain ⟨u, hu, hv⟩ := thenRun_of_running h fun _ => hrunning
          have hrun' := hrunning hu
          obtain ⟨w, hw, rfl⟩ := serve_served_any hu
          have hcycle : w.cycle = s.cycle := hw.cycle_eq
          rw [← hcycle]
          refine ih (s := { w with event := .dispatch }) hns hn' hrun' ((hw.table_other fun hmn => hnm hmn.symm).trans he) ?_ hv
          rw [executesThisTick] at hpick ⊢
          rwa [hcycle]
        · exact ih hns hn' hrun he hpick h

theorem finishPhase_ticks {s t : State} {n : Nat} {e : Entry} (hrun : s.status = .running) (he : s.table[n]? = some e)
    (hpick : executesThisTick s e = true) (h : finishPhase s = .next t) : t.table[n]? = some (e.ticked s.cycle) :=
  finishSweep_ticks _ List.nodup_range (List.mem_range.2 (List.getElem?_eq_some_iff.1 he).1) hrun he hpick h

/-- Settles O47: the turns before the finishing phase do not serve an executing entry, that phase ticks it once, and the turns
after it do not serve it again. -/
theorem countdownEveryStep : Obligations.CountdownEveryStep := by
  intro s t n e hs hl hc hrun hterm hcap hst he hx hb
  obtain ⟨s0, s1, s2, s3, u, h, hrest⟩ := step_stages ⟨hs, hl, hc⟩ hrun hterm hcap hst
  have hbefore := entry_keptByTurns n hx 0 3 (by decide)
  have h0 : s0.table[n]? = some e := h.start ▸ he
  have h1 := hbefore.commitStage h.in0.sound (by decide) (fun _ => h0) h.commit
  have h2 := hbefore.broadcastStage h.in1.sound (by decide) h1 h.broadcast
  have h3 := hbefore.memTickStage h.in2.sound (by decide) h2 h.memTick (by decide)
  have hpick : executesThisTick s3 e = true := by
    rw [executesThisTick, hx, h.in3.cycle, hb]
    rfl
  have h4 := finishPhase_ticks h.in3.running h3 hpick h.finish
  rw [h.in3.cycle] at h4
  have hstate : (e.ticked (s.cycle + 1)).state = .executeEnd ∨ (e.ticked (s.cycle + 1)).state = .executeStart := by
    unfold Entry.ticked
    split
    · exact .inl rfl
    · exact .inr hx
  have hafter : KeptByTurns 4 (fun k w => k ≤ 8 → w.table[n]? = some (e.ticked (s.cycle + 1))) := by
    rcases hstate with hstate | hstate
    · exact entry_keptByTurns n hstate 4 8 (by decide)
    · exact entry_keptByTurns n hstate 4 8 (by decide)
  exact (hafter.afterFinish h.in4.sound (by decide) (fun _ => h4) hrest).of_settled (fun _ hw => hw) (by decide)

end Sys2Proof.Machine
end

section
/-! PROOF. In a step at most one instruction dispatches, broadcasts or commits, and at most one of each pool starts (R223, R231,
R263, R295). -/

namespace Sys2Proof.Machine

/-- The turn of the tick in which an instruction enters a lifecycle state. -/
def LifeState.enteredIn (op : Op) : LifeState → Nat
  | .notStarted   => 0
  | .rsWait       => 8
  | .executeStart => (poolOf op).turn
  | .executeEnd   => 4
  | .broadcast    => 2
  | .commit       => 1
  | .memoryWrite  => 3

/-- The lifecycle state that an event's entry enters. -/
def Event.target : Event → LifeState
  | .dispatch    => .rsWait
  | .start _ _   => .executeStart
  | .countdown _ => .executeEnd
  | .broadcast _ => .broadcast
  | .commit      => .commit
  | .storeTick _ => .memoryWrite

/-- The stage that enters a lifecycle state tells which state it is. -/
theorem LifeState.stage_injective : Function.Injective LifeState.stage := by
  intro a b h
  cases a <;> cases b <;> simp_all [LifeState.stage]

theorem Event.target_stage (ev : Event) : ev.target.stage = ev.post := by cases ev <;> rfl

/-- The entry that an event is about is one entry. -/
theorem State.ServesEntry.unique {s : State} {m n : Nat} {ev : Event} (hm : s.ServesEntry m ev)
    (hn : s.ServesEntry n ev) : m = n := by
  cases ev with
  | dispatch => exact Option.some.inj (Eq.trans (Eq.symm hm) hn)
  | start p k =>
    obtain ⟨e, he, rfl⟩ := hm
    obtain ⟨d, hd, rfl⟩ := hn
    rw [Option.some.inj (he.symm.trans hd)]
  | commit =>
    obtain ⟨e, he, rfl⟩ := hm
    obtain ⟨d, hd, rfl⟩ := hn
    rw [Option.some.inj (he.symm.trans hd)]
  | countdown k | broadcast k | storeTick k => exact Eq.trans (Eq.symm hm) hn

section
variable {s t : State} {i : Instr} {ev : Event} {n : Nat}

/-- An entry enters a lifecycle state in that state's turn. -/
theorem Served.enteredIn_eq (h : Served s i ev t) (hc : s.Consistent) (hev : s.Serves ev i) {f g : Entry}
    (hf : s.table[n]? = some f) (hg : t.table[n]? = some g) (hne : g.state ≠ f.state) :
    g.ins = f.ins ∧ g.state.enteredIn f.ins.op = ev.turn := by
  obtain ⟨g', hg', hins, hmove⟩ := h.moves hc hev n f hf
  obtain rfl : g = g' := Option.some.inj (hg.symm.trans hg')
  rcases hmove with hstays | ⟨-, hstage, -⟩
  · exact absurd hstays.1 hne
  · have hserves : s.ServesEntry n ev := by
      by_contra hno
      rw [h.table_other hno, hf] at hg
      exact hne (congrArg Entry.state (Option.some.inj hg)).symm
    rw [LifeState.stage_injective (hstage.trans ev.target_stage.symm)]
    refine ⟨hins, ?_⟩
    cases ev with
    | start p k =>
      obtain ⟨st, hslot, rfl⟩ := hserves
      obtain ⟨-, hpool, -⟩ := hc.station_at hslot hf
      rw [← hpool]
      rfl
    | _ => rfl

/-- Entry `n` is there and is not in lifecycle state `st`, which its instruction enters in turn `k`. -/
def State.NotEntered (s : State) (st : LifeState) (k n : Nat) : Prop :=
  ∃ f, s.table[n]? = some f ∧ f.state ≠ st ∧ st.enteredIn f.ins.op = k

/-- An event of another turn does not make an entry enter the state; nor does an event about another entry. -/
theorem State.NotEntered.served {st : LifeState} {k : Nat} (hn : s.NotEntered st k n) (h : Served s i ev t)
    (hc : s.Consistent) (hev : s.Serves ev i) (hother : ev.turn ≠ k ∨ ¬ s.ServesEntry n ev) : t.NotEntered st k n := by
  obtain ⟨f, hf, hst, hk⟩ := hn
  obtain ⟨g, hg, hins, -⟩ := h.moves hc hev n f hf
  refine ⟨g, hg, ?_, hins ▸ hk⟩
  rintro rfl
  rcases hother with hturn | hno
  · exact hturn ((h.enteredIn_eq hc hev hf hg hst.symm).2.symm.trans hk)
  · rw [h.table_other hno, hf] at hg
    cases hg
    exact hst rfl

end

/-- Of two entries that both enter `st` in turn `k`: before that turn neither has entered it, and after it at most one. -/
def State.AtMostOneEntered (st : LifeState) (k m n l : Nat) (w : State) : Prop :=
  (l < k → w.NotEntered st k m ∧ w.NotEntered st k n) ∧ (w.NotEntered st k m ∨ w.NotEntered st k n)

/-- A turn that is no sweep lets at most one of two entries enter. -/
theorem atMostOneEntered_keptByTurns (st : LifeState) {k m n : Nat} (hmn : m ≠ n) (h3 : k ≠ 3) (h4 : k ≠ 4) :
    KeptByTurns 0 (State.AtMostOneEntered st k m n) where
  mono     := fun l w h => ⟨fun hl => h.1 (by omega), h.2⟩
  served   := fun ev i w v _ hs ⟨hboth, hone⟩ hev hst => by
    have keeps {a : Nat} (ha : w.NotEntered st k a) (hother : ev.turn ≠ k ∨ ¬ w.ServesEntry a ev) :
        v.NotEntered st k a := ha.served hst hs.consistent hev hother
    by_cases hk : ev.turn = k
    · have hprior : ev.prior < k := by
        rw [← hk]
        cases ev with
        | start p j => exact Nat.sub_lt (Nat.lt_of_lt_of_le (by decide) p.five_le_turn) Nat.one_pos
        | storeTick j => exact absurd hk.symm h3
        | countdown j => exact absurd hk.symm h4
        | commit | broadcast _ | dispatch => exact Nat.lt_succ_self _
      obtain ⟨hm, hn⟩ := hboth hprior
      refine ⟨fun hlt => absurd hk hlt.ne, ?_⟩
      by_cases hserves : w.ServesEntry m ev
      · exact .inr (keeps hn (.inr fun hn' => hmn (hserves.unique hn')))
      · exact .inl (keeps hm (.inr hserves))
    · refine ⟨fun hlt => ?_, hone.imp (keeps · (.inl hk)) (keeps · (.inl hk))⟩
      obtain ⟨hm, hn⟩ := hboth (ev.prior_le_turn.trans_lt hlt)
      exact ⟨keeps hm (.inl hk), keeps hn (.inl hk)⟩
  prefetch := fun w v _ h hst => by
    obtain ⟨j, -, rfl⟩ := prefetchTick_next hst
    exact h

/-- What every turn keeps from the start of a tick holds at its end. -/
theorem KeptByTurns.tick {P : Nat → State → Prop} (hP : KeptByTurns 0 P) {s t : State} (hs : s.Sound)
    (hrun : s.status = .running) (h0 : P 0 { s with cycle := s.cycle + 1 }) (h : tick s = .next t) : EndsIn (P 8) t := by
  obtain ⟨s0, s1, s2, s3, u, h, hrest⟩ := tick_stages hs hrun h
  have h1 := hP.commitStage h.in0.sound (by decide) (h.start ▸ h0) h.commit
  have h2 := hP.broadcastStage h.in1.sound (by decide) h1 h.broadcast
  have h3 := hP.memTickStage h.in2.sound (by decide) h2 h.memTick
  have h4 := hP.finishPhase h.in3.sound (by decide) h3 h.finish
  exact hP.afterFinish h.in4.sound (by decide) h4 hrest

/-- A step is taken from a running state (log 14). -/
theorem step_from_running {s t : State} (h : step s = .next t) : s.status = .running := by
  by_contra hno
  rw [step, if_neg hno] at h
  cases h

/-- Settles O49: each of the four states is entered in one turn, and the turn serves one entry. -/
theorem atMostOneOfEachPerStep : Obligations.AtMostOneOfEachPerStep := by
  intro s t hs hl hc hst m n e f e' f' he hf he' hf' hmove hmove' hsame hkind
  rcases step_cases hst with ⟨st, rfl⟩ | htick
  · rw [Option.some.inj (he.symm.trans hf)] at hmove
    exact absurd rfl hmove
  · by_contra hmn
    have hturn : f.state.enteredIn e.ins.op = f.state.enteredIn e'.ins.op ∧
        f.state.enteredIn e.ins.op ≠ 3 ∧ f.state.enteredIn e.ins.op ≠ 4 := by
      rcases hkind with hk | hk | hk | ⟨hk, hpool⟩
      · rw [hk]
        exact ⟨rfl, by simp [LifeState.enteredIn], by simp [LifeState.enteredIn]⟩
      · rw [hk]
        exact ⟨rfl, by simp [LifeState.enteredIn], by simp [LifeState.enteredIn]⟩
      · rw [hk]
        exact ⟨rfl, by simp [LifeState.enteredIn], by simp [LifeState.enteredIn]⟩
      · have hfive := (poolOf e.ins.op).five_le_turn
        rw [hk]
        refine ⟨congrArg PoolId.turn hpool, ?_, ?_⟩ <;> simp only [LifeState.enteredIn] <;> omega
    obtain ⟨hpool, h3, h4⟩ := hturn
    have hm : s.NotEntered f.state (f.state.enteredIn e.ins.op) m := ⟨e, he, hmove, rfl⟩
    have hn : s.NotEntered f.state (f.state.enteredIn e.ins.op) n := ⟨e', he', hsame ▸ hmove', hpool.symm⟩
    have hend := (atMostOneEntered_keptByTurns f.state hmn h3 h4).tick ⟨hs, hl, hc⟩ (step_from_running hst)
      ⟨fun _ => ⟨hm, hn⟩, .inl hm⟩ htick
    rcases (hend.of_settled fun _ hw => hw).2 with ⟨g, hg, hne, -⟩ | ⟨g, hg, hne, -⟩
    · exact hne (congrArg Entry.state (Option.some.inj (hg.symm.trans hf)))
    · exact hne ((congrArg Entry.state (Option.some.inj (hg.symm.trans hf'))).trans hsame.symm)

end Sys2Proof.Machine
end

section
/-! SUPPORT and PROOF. The start phase of a tick, forwards (40_scheduler.md R263 to R267): what a candidate does when its turn
comes, which candidate a pool starts, and what of it the end of the tick still shows. -/

namespace Sys2Proof.Machine

/-! ## A candidate's start -/

theorem poolOf_eq_lsq {op : Op} : poolOf op = .lsq ↔ op = .lw ∨ op = .sw := by cases op <;> decide

section
variable {s : State} {p : PoolId} {k : Nat} {e : RsEntry} {a b : Word} (hc : s.Candidate p k e a b) {op : Op}
include hc

/-- A candidate that no hazard refuses leaves its slot (R259, R265, R266). -/
theorem startOf_accepts (hmem : op = .lw ∨ op = .sw →
      s.inRange (effectiveAddr a e.imm) = true ∧ s.busyAt (effectiveAddr a e.imm) = false)
    (hport : op = .lw → s.portBusy = false) : ∃ t, startOf op p k s = .next t ∧ t.slot p k = none := by
  have arith (s' : State) (r : Word) (lat : Nat) : (s'.startArith p k e.instr r lat).slot p k = none := by
    rw [State.slot_startArith, if_pos ⟨rfl, rfl⟩]
  cases op with
  | lw =>
    obtain ⟨hr, hb⟩ := hmem (.inl rfl)
    obtain ⟨m, -, hstart⟩ := startLw_accepts hc hr hb (hport rfl)
    exact ⟨_, hstart, by rw [State.startLoad, State.slot_beginExec, if_pos ⟨rfl, rfl⟩]⟩
  | sw =>
    obtain ⟨hr, hb⟩ := hmem (.inr rfl)
    exact ⟨_, startSw_accepts hc hr hb, by rw [State.startStore, State.slot_beginExec, if_pos ⟨rfl, rfl⟩]⟩
  | _ => exact ⟨_, hc.body_eq _, arith _ _ _⟩

theorem startOf_raises (hop : op = .lw ∨ op = .sw) (hr : s.inRange (effectiveAddr a e.imm) = false) :
    startOf op p k s = .next (s.raise (.addressOutOfRange e.instr (effectiveAddr a e.imm) s.cycle)) := by
  rcases hop with rfl | rfl
  · exact startLw_raises hc hr
  · exact startSw_raises hc hr

theorem startOf_refuses (hop : op = .lw ∨ op = .sw) (hr : s.inRange (effectiveAddr a e.imm) = true)
    (h : s.busyAt (effectiveAddr a e.imm) = true ∨ (op = .lw ∧ s.portBusy = true)) : startOf op p k s = .next s := by
  rcases hop with rfl | rfl
  · exact startLw_refuses hc hr (h.imp_right And.right)
  · exact startSw_refuses hc hr (h.resolve_right nofun)

theorem State.Candidate.withEvent (x : Event) : State.Candidate { s with event := x } p k e a b :=
  ⟨(State.slot_withEvent s x p k).trans hc.slot, hc.j, hc.k, hc.settle, hc.entry⟩

end

/-- What a start that leaves its slot does to its entry (R265, R266). -/
theorem Served.start_entry {s t : State} {i : Instr} {p : PoolId} {k : Nat} {e : RsEntry} {f : Entry}
    (h : Served s i (.start p k) t) (hs : s.slot p k = some e) (hf : s.table[e.instr]? = some f)
    (ht : t.slot p k = none) :
    t.status = s.status ∧
      ∃ g, t.table[e.instr]? = some g ∧ g.state = .executeStart ∧ g.tExecStart = some s.cycle ∧
        (i.op = .lw ∨ i.op = .sw → ∀ a, e.j = .val a → g.ea = some (effectiveAddr a e.imm)) := by
  have same {d : RsEntry} {a b : Word} (hc : s.Candidate p k d a b) : d = e := Option.some.inj (hc.slot.symm.trans hs)
  have base {a b c : Word} {d : RsEntry} (hc : s.Candidate p k d a b) (hj : d.j = .val c) : a = c :=
    Operand.val.inj (hc.j.symm.trans hj)
  cases h with
  | idle _ => rw [hs] at ht; cases ht
  | raised _ _ _ =>
    rw [show State.slot (s.raise _) p k = s.slot p k by cases p <;> rfl, hs] at ht
    cases ht
  | arith hc hl hsw _ =>
    cases same hc
    exact ⟨by simp, _, (State.oneEntry_startArith hf ..).at_n, rfl, rfl, fun h => absurd h (not_or.2 ⟨hl, hsw⟩)⟩
  | div0 hc hi _ _ =>
    cases same hc
    exact ⟨by simp, _, (State.oneEntry_div0 hf ..).at_n, rfl, rfl, fun h => by rw [hi] at h; simp at h⟩
  | load hc _ _ _ _ _ =>
    cases same hc
    exact ⟨by simp, _, (State.oneEntry_startLoad hf ..).at_n, rfl, rfl, fun _ c hj => by rw [base hc hj]⟩
  | store hc _ _ _ =>
    cases same hc
    exact ⟨by simp, _, (State.oneEntry_startStore hf ..).at_n, rfl, rfl, fun _ c hj => by rw [base hc hj]⟩

/-- The load-store queue holds loads and stores. -/
theorem State.Consistent.lsq_op {s : State} {k : Nat} {e : RsEntry} {f : Entry} (hc : s.Consistent)
    (hslot : s.slot .lsq k = some e) (hf : s.table[e.instr]? = some f) : f.ins.op = .lw ∨ f.ins.op = .sw := by
  obtain ⟨-, hpool, -⟩ := hc.station_at hslot hf
  exact poolOf_eq_lsq.1 hpool

/-! ## A candidate's turn -/

theorem serve_start_of_startOf {s t : State} {i : Instr} {p : PoolId} {k : Nat}
    (h : startOf i.op p k { s with event := .start p k } = .next t) :
    serve (.start p k) i s = .next { t with event := .dispatch } :=
  serve_next.2 ⟨t, (exec_start i rfl).trans h, rfl⟩

section
variable {s : State} {p : PoolId} {k : Nat} {e : RsEntry} {a b : Word} {i : Instr} (hc : s.Candidate p k e a b)
include hc

theorem serve_start_accepts (hmem : i.op = .lw ∨ i.op = .sw →
      s.inRange (effectiveAddr a e.imm) = true ∧ s.busyAt (effectiveAddr a e.imm) = false)
    (hport : i.op = .lw → s.portBusy = false) : ∃ t, serve (.start p k) i s = .next t ∧ t.slot p k = none := by
  obtain ⟨t, ht, hnone⟩ := startOf_accepts (hc.withEvent (.start p k)) hmem hport
  exact ⟨_, serve_start_of_startOf ht, (State.slot_withEvent ..).trans hnone⟩

variable (hs : s.event = .dispatch)
include hs

theorem serve_start_raises (hop : i.op = .lw ∨ i.op = .sw) (hr : s.inRange (effectiveAddr a e.imm) = false) :
    serve (.start p k) i s = .next (s.raise (.addressOutOfRange e.instr (effectiveAddr a e.imm) s.cycle)) := by
  rw [serve_start_of_startOf (startOf_raises (hc.withEvent (.start p k)) hop hr), State.raise, State.raise, hs]

theorem serve_start_refuses (hop : i.op = .lw ∨ i.op = .sw) (hr : s.inRange (effectiveAddr a e.imm) = true)
    (h : s.busyAt (effectiveAddr a e.imm) = true ∨ (i.op = .lw ∧ s.portBusy = true)) :
    serve (.start p k) i s = .next s := by
  rw [serve_start_of_startOf (startOf_refuses (hc.withEvent (.start p k)) hop hr h), ← hs]

end

/-! ## A pool's turn -/

section
variable {s t : State} {p : PoolId} {k : Nat} {ks : List Nat} {e : RsEntry} {f : Entry} (hslot : s.slot p k = some e)
  (hf : s.table[e.instr]? = some f)
include hslot hf

/-- After a refused candidate the next one is tried. -/
theorem tryStart_refused (hrun : s.status = .running) (h : serve (.start p k) f.ins s = .next s) :
    tryStart p (k :: ks) s = tryStart p ks s := by
  rw [tryStart, hslot]
  dsimp only
  rw [hf]
  dsimp only
  rw [thenRun_next_running h hrun, hslot]
  rfl

/-- An accepted candidate ends its pool's turn, and a raise the run's. -/
theorem tryStart_ends (h : serve (.start p k) f.ins s = .next t) (hend : t.status ≠ .running ∨ t.slot p k = none) :
    tryStart p (k :: ks) s = .next t := by
  rw [tryStart, hslot]
  dsimp only
  rw [hf]
  dsimp only
  rw [h, thenRun]
  by_cases hrun : t.status = .running
  · rw [if_pos hrun, hend.resolve_left (not_not_intro hrun)]
    rfl
  · rw [if_neg hrun]

end

/-- A station that its pool lists as a candidate is one. -/
theorem State.candidate_of_mem {s : State} {p : PoolId} {k : Nat} {e : RsEntry} {a b : Word} {f : Entry}
    (hk : k ∈ s.candidates p) (hslot : s.slot p k = some e) (hj : e.j = .val a) (hb : e.k = .val b)
    (hf : s.table[e.instr]? = some f) : s.Candidate p k e a b := by
  obtain ⟨d, hd, hready⟩ := State.mem_candidates.1 hk
  obtain rfl : d = e := Option.some.inj (hd.symm.trans hslot)
  obtain ⟨-, -, -, -, hsettle⟩ := RsEntry.ready_iff.1 hready
  exact State.candidate_of_table hslot hj hb hsettle hf

section
variable {s : State} (hs : s.Sound)
include hs

/-- The refused candidates at the head of the load-store queue's list are passed over (R266). -/
theorem tryStart_lsq_refused (hrun : s.status = .running) {older : List Nat} (ks : List Nat)
    (h : ∀ k ∈ older, k ∈ s.candidates .lsq ∧ s.LsqRefuses k) : tryStart .lsq (older ++ ks) s = tryStart .lsq ks s := by
  induction older with
  | nil => rfl
  | cons k older ih =>
    obtain ⟨⟨hk, e, a, b, f, hslot, hj, hb, hf, hr, hrefuse⟩, hrest⟩ := List.forall_mem_cons.1 h
    have hc := State.candidate_of_mem hk hslot hj hb hf
    have hop := hs.consistent.lsq_op hslot hf
    exact (tryStart_refused hslot hf hrun (serve_start_refuses hc hs.shaped.event hop (decide_eq_true hr)
      (hrefuse.imp_right (And.imp_right State.portBusy_iff.2)))).trans (ih hrest)

/-- The oldest candidate of an arithmetic pool starts (R264, R265). -/
theorem startPool_arith {p : PoolId} {k : Nat} {younger : List Nat} {e : RsEntry} (hp : p ≠ .lsq)
    (hcand : s.candidates p = k :: younger) (hslot : s.slot p k = some e) :
    ∃ t g, startPool p s = .next t ∧ t.table[e.instr]? = some g ∧ g.state = .executeStart ∧
      g.tExecStart = some s.cycle := by
  have hk : k ∈ s.candidates p := hcand ▸ List.mem_cons_self
  obtain ⟨d, hd, hready⟩ := State.mem_candidates.1 hk
  obtain rfl : d = e := Option.some.inj (hd.symm.trans hslot)
  obtain ⟨a, b, hj, hb, -⟩ := RsEntry.ready_iff.1 hready
  obtain ⟨f, hf, -, hpool, -⟩ := hs.consistent.station p k d hslot
  have hop : ¬(f.ins.op = .lw ∨ f.ins.op = .sw) := fun h => hp (hpool ▸ poolOf_eq_lsq.2 h)
  obtain ⟨t, ht, hnone⟩ := serve_start_accepts (State.candidate_of_mem hk hslot hj hb hf) (i := f.ins)
    (fun h => absurd h hop) fun h => absurd (.inl h) hop
  obtain ⟨-, g, hg, hgs, hgt, -⟩ := (serve_served hs.shaped.event ht).start_entry hslot hf hnone
  refine ⟨t, g, ?_, hg, hgs, hgt⟩
  rw [startPool, hcand, tryStart_ends hslot hf ht (.inr hnone)]

end

/-! ## What a turn leaves of the pools -/

/-- A pool's turn leaves the other pools. -/
theorem startPool_other {p q : PoolId} {s t : State} (hs : s.event = .dispatch) (h : startPool p s = .next t)
    (hq : q ≠ p) : t.pool q = s.pool q := by
  rcases startPool_served hs h with rfl | ⟨k, i, -, hst⟩
  · rfl
  · cases hst with
    | idle _ => rfl
    | raised _ _ _ => cases q <;> rfl
    | arith _ _ _ _ => exact State.beginExec_pool_other _ p q hq ..
    | div0 _ _ _ _ => exact (State.beginExec_pool_other _ p q hq ..).trans (by cases q <;> rfl)
    | load _ _ _ _ _ _ => exact (State.beginExec_pool_other _ p q hq ..).trans (by cases q <;> rfl)
    | store _ _ _ _ => exact State.beginExec_pool_other _ p q hq ..

/-- A station stays in its slot but for a broadcast, which may wake it, and a start of its own. -/
theorem Served.slot_kept {s t : State} {i : Instr} {ev : Event} {p : PoolId} {k : Nat} {st : RsEntry}
    (h : Served s i ev t) (hst : s.slot p k = some st) (hb : ∀ n, ev ≠ .broadcast n)
    (hstart : st.settle = true ∨ ev ≠ .start p k) : t.slot p k = some st := by
  have frame {u : State} (hu : u.addPool = s.addPool ∧ u.mulPool = s.mulPool ∧ u.lsq = s.lsq) :
      u.slot p k = some st := by
    obtain ⟨hadd, hmul, hlsq⟩ := hu
    refine (State.slot_congr ?_ k).trans hst
    cases p
    · exact hadd
    · exact hmul
    · exact hlsq
  have started {q : PoolId} {l : Nat} {d : RsEntry} {a b : Word} (hc : s.Candidate q l d a b)
      (hne : st.settle = true ∨ Event.start q l ≠ .start p k) : ¬(p = q ∧ k = l) := by
    rintro ⟨rfl, rfl⟩
    obtain rfl : st = d := Option.some.inj (hst.symm.trans hc.slot)
    rcases hne with hset | hne
    · rw [hc.settle] at hset
      cases hset
    · exact hne rfl
  cases h with
  | idle _ => exact hst
  | raised _ _ _ => exact frame ⟨rfl, rfl, rfl⟩
  | arith hc _ _ _ => rwa [State.slot_startArith, if_neg (started hc hstart)]
  | div0 hc _ _ _ =>
    rw [State.slot_startArith, if_neg (started hc hstart)]
    exact frame ⟨rfl, rfl, rfl⟩
  | load hc _ _ _ _ _ =>
    rw [State.startLoad, State.slot_beginExec, if_neg (started hc hstart)]
    exact frame ⟨rfl, rfl, rfl⟩
  | store hc _ _ _ => rwa [State.startStore, State.slot_beginExec, if_neg (started hc hstart)]
  | issued _ hk _ _ =>
    obtain ⟨hlt, hfree⟩ := State.freeSlot_some hk
    rw [State.slot_issue _ _ _ _ _ _ _ hlt, if_neg]
    · exact hst
    · rintro ⟨rfl, rfl⟩
      rw [hst] at hfree
      cases hfree
  | valueSent _ _ _ _ | markSent _ _ _ => exact absurd rfl (hb _)
  | _ => exact frame (by simp)


/-- A station stays in its slot from a turn on that is past the broadcast, if it settles or its pool's turn is over. -/
theorem station_keptByTurns {p : PoolId} {st : RsEntry} (k : Nat) {j : Nat} (hj : 2 ≤ j)
    (hstart : st.settle = true ∨ p.turn ≤ j) : KeptByTurns j (fun _ w => w.slot p k = some st) where
  mono     := fun _ _ h => h
  served   := fun ev i w v hlt _ h _ hst => by
    refine hst.slot_kept h ?_ (hstart.imp_right ?_)
    · rintro n rfl
      exact absurd hlt (not_lt.2 hj)
    · rintro hp rfl
      exact absurd hlt (not_lt.2 hp)
  prefetch := fun w v _ h hst => by
    obtain ⟨m, -, rfl⟩ := prefetchTick_next hst
    exact (State.slot_congr (by cases p <;> rfl) k).trans h

/-! ## The candidates of the start phase are those before the tick -/

theorem State.candidates_congr {s t : State} {p : PoolId} (h : t.pool p = s.pool p) : t.candidates p = s.candidates p := by
  rw [State.candidates, h, State.candidates]

/-- A woken station is no candidate, before as it waited and now as it settles (R245). -/
theorem RsEntry.ready_wake (q : Tag) (v : Word) (e : RsEntry) : (e.wake q v).ready = e.ready := by
  rw [RsEntry.wake_eq]
  by_cases h : e.j = .wait q ∨ e.k = .wait q
  · refine Bool.eq_iff_iff.2 (iff_of_false ?_ ?_) <;> rw [RsEntry.ready_iff]
    · rintro ⟨-, -, -, -, hsettle⟩
      exact absurd ((if_pos h).symm.trans hsettle) nofun
    · rintro ⟨a, b, hj, hk, -⟩
      rw [hj, hk] at h
      exact h.elim nofun nofun
  · obtain ⟨hj, hk⟩ := not_or.1 h
    rw [if_neg hj, if_neg hk, if_neg h]

theorem candidatesFrom_mapLive {g : RsEntry → RsEntry} (hready : ∀ e, (g e).ready = e.ready)
    (hinstr : ∀ e, (g e).instr = e.instr) (k : Nat) (es : Pool) :
    candidatesFrom k (es.mapLive g) = candidatesFrom k es := by
  induction es generalizing k with
  | nil => rfl
  | cons o es ih =>
    have ih' := ih (k + 1)
    rw [Pool.mapLive] at ih' ⊢
    cases o with
    | none => exact ih'
    | some e =>
      rw [List.map_cons, Option.map_some, candidatesFrom, candidatesFrom, hready, hinstr, ih']

/-- No turn before the starts changes a pool's candidates. -/
theorem candidates_keptByTurns (s : State) :
    KeptByTurns 0 (fun k w => k ≤ 4 → ∀ p, w.candidates p = s.candidates p) where
  mono     := fun k w h hk => h (by omega)
  served   := fun ev i w v _ _ h _ hst hk p => by
    refine Eq.trans ?_ (h (ev.prior_le_turn.trans hk) p)
    have hpools (hd : ev ≠ .dispatch) (hb : ∀ n, ev ≠ .broadcast n) (hs : ∀ p k, ev ≠ .start p k) :
        v.candidates p = w.candidates p := by
      obtain ⟨hadd, hmul, hlsq⟩ := hst.pools_eq hd hb hs
      refine State.candidates_congr ?_
      cases p
      · exact hadd
      · exact hmul
      · exact hlsq
    cases ev with
    | dispatch => exact absurd hk (by decide)
    | start q k => exact absurd (q.five_le_turn.trans hk) (by decide)
    | broadcast n =>
      cases hst with
      | idle _ => rfl
      | markSent _ _ _ => exact State.candidates_congr (by cases p <;> rfl)
      | @valueSent _ _ q v _ _ _ _ =>
        have hpool : (w.sendValue n q v).pool p = (w.pool p).mapLive (RsEntry.wake q v) := by cases p <;> rfl
        rw [State.candidates, hpool, candidatesFrom_mapLive (RsEntry.ready_wake q v) fun e => rfl, State.candidates]
    | _ => exact hpools nofun nofun nofun
  prefetch := fun w v _ h hst hk p => by
    obtain ⟨m, -, rfl⟩ := prefetchTick_next hst
    exact (State.candidates_congr (by cases p <;> rfl)).trans (h (by decide) p)

theorem State.TickStages.candidates_eq {s s0 s1 s2 s3 u : State} (h : s.TickStages s0 s1 s2 s3 u) (p : PoolId) :
    u.candidates p = s.candidates p := by
  have hP := candidates_keptByTurns s
  have h0 (p : PoolId) : s0.candidates p = s.candidates p := by
    rw [h.start]
    exact State.candidates_congr (by cases p <;> rfl)
  have h1 := hP.commitStage h.in0.sound (by decide) (fun _ => h0) h.commit
  have h2 := hP.broadcastStage h.in1.sound (by decide) h1 h.broadcast
  have h3 := hP.memTickStage h.in2.sound (by decide) h2 h.memTick
  exact hP.finishPhase h.in3.sound (by decide) h3 h.finish (by decide) p

/-! ## O60: the start phase over a tick -/

theorem restFrom_next {p : PoolId} {ps : List PoolId} {s u t : State} (h : startPool p s = .next u)
    (hrest : restFrom (p :: ps) s = .next t) :
    (u.status = .running → restFrom ps u = .next t) ∧ (u.status ≠ .running → t = u) := by
  rw [restFrom, h] at hrest
  exact ⟨fun hrun => (thenRun_next_running rfl hrun).symm.trans hrest,
    fun hstop => (Host.Outcome.next.inj ((if_neg hstop).symm.trans hrest)).symm⟩

section
variable {u t : State} (hu : u.Sound) (hrun : u.status = .running) (hrest : restFrom [.lsq, .add, .mul] u = .next t)
include hu hrun hrest

/-- Behind refused candidates, an address out of range ends the run (R363). -/
theorem lsqTurn_raises {older younger : List Nat} {k : Nat} {e : RsEntry} {f : Entry} {a b : Word}
    (hcand : u.candidates .lsq = older ++ k :: younger) (hold : ∀ l ∈ older, u.LsqRefuses l)
    (hslot : u.slot .lsq k = some e) (hj : e.j = .val a) (hb : e.k = .val b) (hf : u.table[e.instr]? = some f)
    (hr : u.inRange (effectiveAddr a e.imm) = false) :
    t = u.raise (.addressOutOfRange e.instr (effectiveAddr a e.imm) u.cycle) := by
  have hc := State.candidate_of_mem (hcand ▸ List.mem_append_right _ List.mem_cons_self) hslot hj hb hf
  have hop := hu.consistent.lsq_op hslot hf
  have hraise := tryStart_ends (ks := younger) hslot hf (serve_start_raises hc hu.shaped.event hop hr) (.inl nofun)
  rw [← tryStart_lsq_refused hu hrun _ fun l hl => ⟨hcand ▸ List.mem_append_left _ hl, hold l hl⟩, ← hcand] at hraise
  exact (restFrom_next hraise hrest).2 nofun

/-- Behind refused candidates, one that no hazard refuses starts (R264, R266). -/
theorem lsqTurn_starts {older younger : List Nat} {k : Nat} {e : RsEntry} {f : Entry} {a b : Word}
    (hcand : u.candidates .lsq = older ++ k :: younger) (hold : ∀ l ∈ older, u.LsqRefuses l)
    (hslot : u.slot .lsq k = some e) (hj : e.j = .val a) (hb : e.k = .val b) (hf : u.table[e.instr]? = some f)
    (hr : u.inRange (effectiveAddr a e.imm) = true) (hbusy : u.busyAt (effectiveAddr a e.imm) = false)
    (hport : f.ins.op = .lw → u.portBusy = false) :
    ∃ g, t.table[e.instr]? = some g ∧ g.state = .executeStart ∧ g.tExecStart = some u.cycle ∧
      g.ea = some (effectiveAddr a e.imm) := by
  have hc := State.candidate_of_mem (hcand ▸ List.mem_append_right _ List.mem_cons_self) hslot hj hb hf
  have hop := hu.consistent.lsq_op hslot hf
  obtain ⟨v, hv, hnone⟩ := serve_start_accepts hc (fun _ => ⟨hr, hbusy⟩) hport
  have hstart := tryStart_ends (ks := younger) hslot hf hv (.inr hnone)
  rw [← tryStart_lsq_refused hu hrun _ fun l hl => ⟨hcand ▸ List.mem_append_left _ hl, hold l hl⟩, ← hcand] at hstart
  obtain ⟨hstatus, g, hg, hgs, hgt, hea⟩ := (serve_served hu.shaped.event hv).start_entry hslot hf hnone
  have hgo := (restFrom_next hstart hrest).1 (hstatus.trans hrun)
  have hend := (entry_keptByTurns e.instr hgs 5 8 (by decide)).afterLsq (sound_keptByParts.tryStart _ hu hstart)
    (by decide) (fun _ => hg) hgo
  exact ⟨g, hend.of_settled (fun _ h => h) le_rfl, hgs, hgt, hea hop a hj⟩

/-- When all of the queue's candidates are refused, each keeps its slot. -/
theorem lsqTurn_refuses (hall : ∀ k ∈ u.candidates .lsq, u.LsqRefuses k) {k : Nat} (hk : k ∈ u.candidates .lsq) :
    t.slot .lsq k = u.slot .lsq k := by
  have hstay : startPool .lsq u = .next u := by
    have h := tryStart_lsq_refused hu hrun [] fun l hl => ⟨hl, hall l hl⟩
    rwa [List.append_nil] at h
  obtain ⟨e, he, hready⟩ := State.mem_candidates.1 hk
  obtain ⟨-, -, -, -, hsettle⟩ := RsEntry.ready_iff.1 hready
  rw [he]
  refine ((station_keptByTurns k (by decide) (.inr le_rfl)).afterLsq hu (by decide) he
    ((restFrom_next hstay hrest).1 hrun)).of_settled fun w hw => ?_
  rw [State.clearSettle, State.slot_mapStations, hw, Option.map_some, ← hsettle]

end

/-- In `w` the turn of pool `p` is still to come in the start phase that began in `u`. -/
structure State.AwaitsTurn (u : State) (p : PoolId) (w : State) : Prop where
  sound : w.Sound
  cycle : w.cycle = u.cycle
  pool  : w.pool p = u.pool p

section
variable {u w v : State} {p : PoolId} (h : u.AwaitsTurn p w)
include h

/-- Another pool's turn passes. -/
theorem State.AwaitsTurn.skip {q : PoolId} (hq : p ≠ q) (hv : startPool q w = .next v) : u.AwaitsTurn p v where
  sound := sound_keptByParts.tryStart _ h.sound hv
  cycle := by
    rcases startPool_served h.sound.shaped.event hv with rfl | ⟨l, i, -, hst⟩
    · exact h.cycle
    · exact hst.cycle_eq.trans h.cycle
  pool  := (startPool_other h.sound.shaped.event hv hq).trans h.pool

/-- An arithmetic pool's turn starts the oldest of the candidates that the start phase found. -/
theorem State.AwaitsTurn.start (hp : p ≠ .lsq) {k : Nat} {younger : List Nat} {e : RsEntry}
    (hcand : u.candidates p = k :: younger) (hslot : u.slot p k = some e) (hv : startPool p w = .next v) :
    ∃ g, v.table[e.instr]? = some g ∧ g.state = .executeStart ∧ g.tExecStart = some u.cycle := by
  obtain ⟨v', g, hv', hg, hgs, hgt⟩ := startPool_arith h.sound hp ((State.candidates_congr h.pool).trans hcand)
    ((State.slot_congr h.pool k).trans hslot)
  obtain rfl : v = v' := Host.Outcome.next.inj (hv.symm.trans hv')
  exact ⟨g, hg, hgs, h.cycle ▸ hgt⟩

end

/-- When the run goes on, the oldest candidate of an arithmetic pool starts. -/
theorem arithTurn_starts {u t : State} (hu : u.Sound) (hrest : restFrom [.lsq, .add, .mul] u = .next t)
    (ht : t.status = .running) {p : PoolId} {k : Nat} {younger : List Nat} {e : RsEntry} (hp : p ≠ .lsq)
    (hcand : u.candidates p = k :: younger) (hslot : u.slot p k = some e) :
    ∃ g, t.table[e.instr]? = some g ∧ g.state = .executeStart ∧ g.tExecStart = some u.cycle := by
  obtain ⟨u1, h1, -, hrest⟩ := thenRun_running hrest ht
  obtain ⟨u2, h2, -, hrest⟩ := thenRun_running hrest ht
  have hu1 : u.AwaitsTurn p u1 := State.AwaitsTurn.skip ⟨hu, rfl, rfl⟩ hp h1
  have hs2 : u2.Sound := sound_keptByParts.tryStart _ hu1.sound h2
  cases p with
  | lsq => exact absurd rfl hp
  | add =>
    obtain ⟨g, hg, hgs, hgt⟩ := hu1.start hp hcand hslot h2
    exact ⟨g, ((entry_keptByTurns e.instr hgs 6 8 (by decide)).afterAdd hs2 (by decide) (fun _ => hg)
      hrest).of_settled (fun _ h => h) le_rfl, hgs, hgt⟩
  | mul =>
    obtain ⟨u3, h3, -, hrest⟩ := thenRun_running hrest ht
    obtain ⟨g, hg, hgs, hgt⟩ := (hu1.skip (by decide) h2).start hp hcand hslot h3
    exact ⟨g, ((entry_keptByTurns e.instr hgs 7 8 (by decide)).afterMul (sound_keptByParts.tryStart _ hs2 h3)
      (by decide) (fun _ => hg) hrest).of_settled (fun _ h => h) le_rfl, hgs, hgt⟩

/-- Settles O60: the turns before the starts leave the candidates, each pool's turn goes down its list, and the turns after it
do not serve what has started. -/
theorem stepStartsOldestAccepted : Obligations.StepStartsOldestAccepted := by
  intro s t hs hl hc hrun hterm hcap hst
  obtain ⟨s0, s1, s2, s3, u, h, hrest⟩ := step_stages ⟨hs, hl, hc⟩ hrun hterm hcap hst
  have hcfg := h.in4.cfg
  refine ⟨u, h.reachesStarts, h.candidates_eq, fun older younger k e f a b hlist hold hslot hj hb hf => ⟨fun hout => ?_,
    fun hin hbusy hport => ?_⟩, fun hall k hk => lsqTurn_refuses h.in4.sound h.in4.running hrest hall hk,
    fun p younger k e hp ht hlist hslot => ?_⟩
  · have hr : u.inRange (effectiveAddr a e.imm) = false := decide_eq_false (hcfg ▸ not_lt.2 hout)
    rw [lsqTurn_raises h.in4.sound h.in4.running hrest hlist hold hslot hj hb hf hr, ← h.in4.cycle]
    rfl
  · rw [← h.in4.cycle]
    refine lsqTurn_starts h.in4.sound h.in4.running hrest hlist hold hslot hj hb hf (decide_eq_true (hcfg ▸ hin)) hbusy
      fun hlw => ?_
    rw [← Bool.not_eq_true, State.portBusy_iff]
    exact fun hload => hport ⟨hlw, hload⟩
  · rw [← h.in4.cycle]
    exact arithTurn_starts h.in4.sound hrest ht hp hlist hslot

end Sys2Proof.Machine
end

section
/-! SUPPORT. The commit and broadcast stages of a tick, forwards (40_scheduler.md R230 to R248), and what of them the end of
the tick still shows. -/

namespace Sys2Proof.Machine

/-! ## The commit stage -/

/-- A tail that is empty or not ready waits (R230). -/
theorem commitStage_waits {s t : State} (hs : s.event = .dispatch)
    (hwait : ∀ e, s.robAt s.robTail = some e → e.value = .unready) (h : commitStage s = .next t) : t = s := by
  rcases commitStage_served h with rfl | ⟨i, -, hst⟩
  · rfl
  · cases serve_served hs hst with
    | idle _ => rfl
    | toReg hr _ _ hv _ =>
      rw [hwait _ hr] at hv
      cases hv
    | toNone hr _ _ hv | toMem hr _ _ hv _ _ => exact absurd (hwait _ hr) hv

section
variable {s : State} {e : RobEntry} {u : Entry} (hs : s.event = .dispatch) (he : s.robAt s.robTail = some e)
  (hu : s.table[e.instr]? = some u)
include he hu

theorem commitStage_of_commitTail {t : State} (ht : t.event = .dispatch)
    (h : commitTail { s with event := .commit } = .next { t with event := .commit }) : commitStage s = .next t := by
  rw [commitStage, he]
  dsimp only
  rw [hu]
  refine serve_next.2 ⟨_, (exec_commit u.ins rfl).trans h, ?_⟩
  rw [← ht]

include hs

theorem commitStage_reg {r : RegIdx} {w : Word} (hd : e.dest = .reg r) (hw : e.value = .ready w)
    (hr : r.toNat < s.x.length) : commitStage s = .next ((s.commitReg r w s.robTail).retire e.instr) :=
  commitStage_of_commitTail he hu hs
    ((exec_commit u.ins rfl).symm.trans (exec_commit_reg (s := { s with event := .commit }) rfl he hd hw hu hr))

variable (hv : e.value ≠ .unready)
include hv

theorem commitStage_none (hd : e.dest = .none) : commitStage s = .next (s.retire e.instr) :=
  commitStage_of_commitTail he hu hs
    ((commitTail_ready (s := { s with event := .commit }) he hv hu).trans (commitDest_none _ _ hd))

variable {ea : Word} (hd : e.dest = .mem) (hea : u.ea = some ea)
include hd hea

theorem commitStage_stalls (hb : s.busyAt ea = true) : commitStage s = .next s :=
  commitStage_of_commitTail he hu hs ((commitTail_ready (s := { s with event := .commit }) he hv hu).trans
    ((commitDest_mem _ _ hd).trans (commitStore_stalls _ hea hb)))

theorem commitStage_schedules (hb : s.busyAt ea = false) : commitStage s = .next (s.scheduleWrite e.instr ea) :=
  commitStage_of_commitTail he hu hs ((commitTail_ready (s := { s with event := .commit }) he hv hu).trans
    ((commitDest_mem _ _ hd).trans (commitStore_schedules _ hea hb)))

end

/-! ## The bus after a commit -/

/-- What an entry offers for the bus: its class rank, when it is a candidate (R240, R241). -/
def Entry.bid (t : Entry) : Option Nat :=
  if t.state = .executeEnd then some (classRank t.ins.op) else none

theorem busNext_eq_of_bid {t u : Entry} (h : t.bid = u.bid) (best : Option (Nat × Nat)) (n : Nat) :
    busNext best n t = busNext best n u := by
  unfold Entry.bid at h
  unfold busNext
  split at h <;> rename_i ht <;> split at h <;> rename_i hu
  · rw [if_pos ht, if_pos hu, Option.some.inj h]
  · cases h
  · cases h
  · rw [if_neg ht, if_neg hu]

/-- The winner depends on what the entries offer. -/
theorem busWinnerFrom_congr {ts us : List Entry} (h : ts.map Entry.bid = us.map Entry.bid) (best : Option (Nat × Nat))
    (n : Nat) : busWinnerFrom best n ts = busWinnerFrom best n us := by
  induction ts generalizing us best n with
  | nil =>
    rw [List.map_nil, eq_comm, List.map_eq_nil_iff] at h
    rw [h]
  | cons t ts ih =>
    obtain ⟨u, us, rfl, hu, hus⟩ := List.map_eq_cons_iff.1 h.symm
    rw [busWinnerFrom_cons, busWinnerFrom_cons, busNext_eq_of_bid hu.symm, ih hus.symm]

theorem State.OneEntry.busWinner_eq {s t : State} {n : Nat} {e e' : Entry} (h : s.OneEntry t n e e')
    (hbid : e'.bid = e.bid) : t.busWinner = s.busWinner := by
  refine congrArg (Option.map Prod.snd) (busWinnerFrom_congr (List.ext_getElem? fun m => ?_) none 0)
  rw [List.getElem?_map, List.getElem?_map, h.after]
  split
  · rename_i hm
    rw [hm, h.before, Option.map_some, Option.map_some, hbid]
  · rfl

/-- A commit leaves the winner of the bus: what commits has broadcast before. -/
theorem Served.busWinner_commit {s t : State} {i : Instr} (h : Served s i .commit t) (hc : s.Consistent) :
    t.busWinner = s.busWinner := by
  have committing {r : RobEntry} {e e' : Entry} {u : State} (ht : s.OneEntry u r.instr e e')
      (hr : s.robAt s.robTail = some r) (hv : r.value ≠ .unready) (he' : e'.state = .commit) :
      u.busWinner = s.busWinner :=
    ht.busWinner_eq (by rw [Entry.bid, Entry.bid, he', (hc.sent hr hv ht.before).2, if_neg nofun, if_neg nofun])
  cases h with
  | idle _ => rfl
  | toReg hr he _ hv _ => exact committing (State.oneEntry_commitReg_retire he _ _) hr (by rw [hv]; nofun) rfl
  | toNone hr he _ hv => exact committing (State.oneEntry_retire he) hr hv rfl
  | toMem hr he _ hv _ _ => exact committing (State.oneEntry_scheduleWrite he _) hr hv rfl

theorem commitStage_busWinner {s t : State} (hs : s.Sound) (h : commitStage s = .next t) : t.busWinner = s.busWinner := by
  rcases commitStage_served h with rfl | ⟨i, -, hst⟩
  · rfl
  · exact (serve_served hs.shaped.event hst).busWinner_commit hs.consistent

theorem commitStage_slot {s t : State} {p : PoolId} {k : Nat} {st : RsEntry} (hs : s.event = .dispatch)
    (hst : s.slot p k = some st) (h : commitStage s = .next t) : t.slot p k = some st := by
  rcases commitStage_served h with rfl | ⟨i, -, hserve⟩
  · exact hst
  · exact (serve_served hs hserve).slot_kept hst nofun (.inr nofun)

/-! ## The broadcast stage -/

/-- The reorder-buffer slot of an instruction in flight that has not broadcast (10_state.md R46 to R48). -/
theorem State.Consistent.robAt_of_inFlight {s : State} (h : s.Consistent) {n : Nat} {f : Entry}
    (hf : s.table[n]? = some f) (hin : f.state.inFlight = true) (hne : f.state ≠ .broadcast) :
    ∃ q, f.tag = some q ∧ s.robAt q = some ⟨n, destOf s.cfg f.ins, .unready⟩ := by
  obtain ⟨q, ⟨m, d, v⟩, htag, hr, hn⟩ := h.inFlight n f hf hin
  obtain rfl : m = n := hn
  have hfit := h.fits_at hr hf
  obtain rfl : d = destOf s.cfg f.ins := hfit.dest
  obtain rfl : v = .unready := hfit.unready.2 hne
  exact ⟨q, htag, hr⟩

/-- With a winner, the broadcast stage serves it (R241). -/
theorem broadcastStage_winner {s t : State} {n : Nat} {u : Entry} (hs : s.event = .dispatch) (hn : s.busWinner = some n)
    (hu : s.table[n]? = some u) (h : broadcastStage s = .next t) : Served s u.ins (.broadcast n) t := by
  rw [broadcastStage, hn] at h
  dsimp only at h
  rw [hu] at h
  exact serve_served hs h

/-- A broadcast writes and wakes, or for a store marks, at the one slot of its instruction (R242 to R246). -/
theorem Served.broadcast_eq {s t : State} {i : Instr} {n : Nat} {q : Tag} {r : RobEntry} (h : Served s i (.broadcast n) t)
    (hc : s.Consistent) (hr : s.robAt q = some r) (hn : r.instr = n) :
    (i.op = .sw → t = (s.setRobValue q .noValue).markBroadcast n) ∧
    ∀ (u : Entry) (v : Word), i.op ≠ .sw → s.table[n]? = some u → u.result = some v → t = s.sendValue n q v := by
  have slot {q' : Tag} (hq' : s.robSlotOf n = some q') : q' = q := by
    obtain ⟨r', hr', hn'⟩ := State.robSlotOf_some hq'
    exact hc.robAt_unique hr' hr (hn'.trans hn.symm)
  cases h with
  | idle h => cases h
  | valueSent he hq hv hi =>
    obtain rfl := slot hq
    refine ⟨fun hsw => absurd hsw hi, fun u v _ hu huv => ?_⟩
    obtain rfl := Option.some.inj (he.symm.trans hu)
    rw [Option.some.inj (huv.symm.trans hv)]
  | markSent _ hq hi =>
    obtain rfl := slot hq
    exact ⟨fun _ => rfl, fun _ _ hne => absurd hi hne⟩

/-- The entry that broadcasts enters Broadcast (R246). -/
theorem Served.broadcast_entry {s t : State} {i : Instr} {n : Nat} {u : Entry} (h : Served s i (.broadcast n) t)
    (hu : s.table[n]? = some u) :
    t.table[n]? = some { u with state := .broadcast, tBroadcast := some s.cycle } := by
  cases h with
  | idle h => cases h
  | valueSent _ _ _ _ => exact (State.oneEntry_sendValue hu ..).at_n
  | markSent _ _ _ => exact (State.oneEntry_sendMark hu _).at_n

theorem State.robAt_written {s : State} {q : Tag} {r : RobEntry} (hr : s.robAt q = some r) (v : RobValue) :
    (s.setRobValue q v).robAt q = some { r with value := v } := by
  rw [State.robAt_setRobValue, if_pos rfl, hr, Option.map_some]

/-! ## What the later turns keep -/

/-- No turn after the commit changes the registers and the tail. -/
theorem regs_keptByTurns (x : List Word) (tail : Tag) : KeptByTurns 1 (fun _ w => w.x = x ∧ w.robTail = tail) where
  mono     := fun _ _ h => h
  served   := fun ev i w v hj _ ⟨hx, htail⟩ _ hst => by
    obtain ⟨hx', htail'⟩ := hst.regs_eq (by rintro rfl; exact absurd hj (by decide))
    exact ⟨hx'.trans hx, htail'.trans htail⟩
  prefetch := fun w v _ h hst => by
    obtain ⟨m, -, rfl⟩ := prefetchTick_next hst
    exact h

/-- After the broadcast an occupied reorder-buffer slot stays as it is: a dispatch fills a free one (R287, R290). -/
theorem robAt_keptByTurns (q : Tag) (r : RobEntry) : KeptByTurns 2 (fun _ w => w.robAt q = some r) where
  mono     := fun _ _ h => h
  served   := fun ev i w v hj hs hr _ hst => by
    cases ev with
    | commit => exact absurd hj (by decide)
    | broadcast _ => exact absurd hj (lt_irrefl 2)
    | dispatch =>
      cases hst with
      | idle _ => exact hr
      | issued _ _ hfree _ =>
        rw [State.robAt_issue _ _ _ _ _ hs.shaped.robHead_lt, if_neg]
        · exact hr
        · rintro rfl
          rw [State.robAt_head_of_not_full hfree] at hr
          cases hr
    | _ => exact (State.robAt_congr (hst.rob_eq nofun nofun nofun) q).trans hr
  prefetch := fun w v _ h hst => by
    obtain ⟨m, -, rfl⟩ := prefetchTick_next hst
    exact h

/-- Turns in which entries do not enter a lifecycle state leave an entry out of it. -/
theorem notEntered_keptByTurns (st : LifeState) (k n j l : Nat) (h : k ≤ j ∨ l < k) :
    KeptByTurns j (fun m w => m ≤ l → w.NotEntered st k n) where
  mono     := fun _ _ hw hm => hw (by omega)
  served   := fun ev i w v hj hs hw hev hst hm =>
    (hw (ev.prior_le_turn.trans hm)).served hst hs.consistent hev (.inl (by omega))
  prefetch := fun w v _ hw hst => by
    obtain ⟨m, -, rfl⟩ := prefetchTick_next hst
    exact hw

namespace State.TickStages
variable {s s0 s1 s2 s3 u t : State} {j : Nat} {P : Nat → State → Prop} (h : s.TickStages s0 s1 s2 s3 u)
  (hP : KeptByTurns j P) (hrest : restFrom [.lsq, .add, .mul] u = .next t)
include h hP hrest

theorem afterBroadcast (hj : j < 3) (h2 : P 2 s2) : EndsIn (P 8) t := by
  have h3 := hP.memTickStage h.in2.sound hj h2 h.memTick
  have h4 := hP.finishPhase h.in3.sound (hj.trans (by decide)) h3 h.finish
  exact hP.afterFinish h.in4.sound (hj.trans (by decide)) h4 hrest

theorem afterCommit (hj : j < 2) (h1 : P 1 s1) : EndsIn (P 8) t :=
  h.afterBroadcast hP hrest (hj.trans (by decide)) (hP.broadcastStage h.in1.sound hj h1 h.broadcast)

end State.TickStages

/-! ## O59: the tail and the bus over a tick -/

namespace State.TickStages
variable {s s0 s1 s2 s3 u t : State} (h : s.TickStages s0 s1 s2 s3 u)
  (hrest : restFrom [.lsq, .add, .mul] u = .next t)
include h hrest

/-- The registers and the tail are at the end of the tick what the commit stage made them. -/
theorem regs_end : t.x = s1.x ∧ t.robTail = s1.robTail :=
  (h.afterCommit (regs_keptByTurns s1.x s1.robTail) hrest (by decide) ⟨rfl, rfl⟩).of_settled fun _ hw => hw

/-- An entry that commits in the tick is at its end as the commit left it. -/
theorem committed_end {n : Nat} {f : Entry} (hf : s1.table[n]? = some f) (hs : f.state = .commit)
    (hc : f.tCommit = some (s.cycle + 1)) : t.table[n]? = some f :=
  ((h.afterCommit (committed_keptByTurns n hs hc) hrest (by decide) ⟨h.in1.cycle, hf⟩).of_settled fun _ hw => hw).2

theorem tail_waits (hwait : ∀ e, s.robAt s.robTail = some e → e.value = .unready) :
    t.robTail = s.robTail ∧ t.x = s.x := by
  obtain rfl := h.start
  obtain rfl : s1 = _ := commitStage_waits h.in0.sound.shaped.event hwait h.commit
  obtain ⟨hx, htail⟩ := h.regs_end hrest
  exact ⟨htail, hx⟩

section
variable {e : RobEntry} {f : Entry} (he : s.robAt s.robTail = some e) (hf : s.table[e.instr]? = some f)
  (hv : e.value ≠ .unready)
include he hf hv

/-- A ready tail that is no store commits (R232, R233, R235). -/
theorem tail_commits (hd : e.dest ≠ .mem) :
    t.robTail = (s.robTail + 1) % s.cfg.nRob ∧
      t.table[e.instr]? = some { f with state := .commit, tCommit := some (s.cycle + 1) } ∧
      (e.dest = .none → t.x = s.x) ∧
      ∀ (r : RegIdx) (w : Word), e.dest = .reg r → e.value = .ready w → t.x = s.x.set r.toNat w := by
  obtain rfl := h.start
  have hs0 := h.in0.sound
  obtain ⟨hx, htail⟩ := h.regs_end hrest
  have hfit := hs0.consistent.fits_at he hf
  cases hdest : e.dest with
  | mem => exact absurd hdest hd
  | none =>
    obtain rfl := Host.Outcome.next.inj (h.commit.symm.trans (commitStage_none hs0.shaped.event he hf hv hdest))
    exact ⟨htail, h.committed_end hrest (State.oneEntry_retire (s := { s with cycle := s.cycle + 1 }) hf).at_n rfl rfl, fun _ => hx, nofun⟩
  | reg r =>
    cases hw : e.value with
    | unready => exact absurd hw hv
    | noValue => exact absurd (hfit.dest.trans (destOf_eq_mem.2 (hfit.noValue hw))) hd
    | ready w =>
      have hr : r.toNat < s.x.length := by
        rw [hs0.shaped.x]
        exact destOf_reg_lt (hs0.shaped.ins f (List.mem_of_getElem? hf)) (hfit.dest.symm.trans hdest)
      obtain rfl := Host.Outcome.next.inj (h.commit.symm.trans (commitStage_reg hs0.shaped.event he hf hdest hw hr))
      refine ⟨htail, h.committed_end hrest (State.oneEntry_commitReg_retire (s := { s with cycle := s.cycle + 1 }) hf _ _).at_n rfl rfl, nofun, ?_⟩
      rintro _ _ ⟨⟩ ⟨⟩
      exact hx

/-- A ready store at the tail commits and schedules its write, or stalls on a busy address (R234). -/
theorem tail_store {ea : Word} (hd : e.dest = .mem) (hea : f.ea = some ea) :
    t.x = s.x ∧
      (s.mc.busy.has ea.toNat = true → t.robTail = s.robTail ∧ t.table[e.instr]? = some f) ∧
      (s.mc.busy.has ea.toNat = false →
        t.robTail = (s.robTail + 1) % s.cfg.nRob ∧
        t.table[e.instr]? =
          some { f with
            state := .commit, tCommit := some (s.cycle + 1), writePending := true
            count := s.mc.probe s.cfg ea.toNat }) := by
  obtain rfl := h.start
  have hs0 := h.in0.sound
  obtain ⟨hx, htail⟩ := h.regs_end hrest
  cases hb : s.mc.busy.has ea.toNat with
  | true =>
    obtain rfl := Host.Outcome.next.inj
      (h.commit.symm.trans (commitStage_stalls hs0.shaped.event he hf hv hd hea hb))
    have hsent : f.state = .broadcast := (hs0.consistent.sent he hv hf).2
    have hend := h.afterCommit (entry_keptByTurns e.instr hsent 1 8 (by decide)) hrest (by decide) fun _ => hf
    exact ⟨hx, fun _ => ⟨htail, hend.of_settled (fun _ hw => hw) le_rfl⟩, nofun⟩
  | false =>
    obtain rfl := Host.Outcome.next.inj
      (h.commit.symm.trans (commitStage_schedules hs0.shaped.event he hf hv hd hea hb))
    exact ⟨hx, nofun, fun _ => ⟨htail, h.committed_end hrest (State.oneEntry_scheduleWrite (s := { s with cycle := s.cycle + 1 }) hf _).at_n rfl rfl⟩⟩

end

/-- Without a candidate for the bus nothing broadcasts (R240). -/
theorem bus_idle (hnone : s.busWinner = none) {n : Nat} {e f : Entry} (he : s.table[n]? = some e)
    (hf : t.table[n]? = some f) (hne : e.state ≠ .broadcast) : f.state ≠ .broadcast := by
  obtain rfl := h.start
  have h1 : s1.NotEntered .broadcast 2 n := (notEntered_keptByTurns .broadcast 2 n 0 1 (.inr (by decide))).commitStage
    h.in0.sound (by decide) (fun _ => ⟨e, he, hne, rfl⟩) h.commit le_rfl
  have hnone1 : s1.busWinner = none := (commitStage_busWinner h.in0.sound h.commit).trans hnone
  have hidle : broadcastStage s1 = .next s1 := by rw [broadcastStage, hnone1]
  obtain rfl : s1 = s2 := Host.Outcome.next.inj (hidle.symm.trans h.broadcast)
  obtain ⟨g, hg, hg', -⟩ := (h.afterBroadcast (notEntered_keptByTurns .broadcast 2 n 2 8 (.inl le_rfl)) hrest
    (by decide) fun _ => h1).of_settled (fun _ hw => hw) le_rfl
  obtain rfl := Option.some.inj (hg.symm.trans hf)
  exact hg'

/-- The winner of the bus broadcasts (R241 to R246). -/
theorem bus_serves {n : Nat} (hn : s.busWinner = some n) :
    ∃ (f : Entry) (q : Tag) (r : RobEntry), s.table[n]? = some f ∧ f.tag = some q ∧ s.robAt q = some r ∧ r.instr = n ∧
      t.table[n]? = some { f with state := .broadcast, tBroadcast := some (s.cycle + 1) } ∧
      (f.ins.op = .sw → t.robAt q = some { r with value := .noValue }) ∧
      ∀ v : Word, f.ins.op ≠ .sw → f.result = some v →
        t.robAt q = some { r with value := .ready v } ∧
        ∀ (p : PoolId) (k : Nat) (e : RsEntry), t.status = .running → s.slot p k = some e →
          e.j = .wait q ∨ e.k = .wait q →
          t.slot p k =
            some { e with
              j      := if e.j = .wait q then .val v else e.j
              k      := if e.k = .wait q then .val v else e.k
              settle := false } := by
  obtain ⟨f, hf, hstate⟩ := State.busWinner_some hn
  obtain rfl := h.start
  have hs0 := h.in0.sound
  have hin : f.state.inFlight = true := by rw [hstate]; rfl
  have hne : f.state ≠ .broadcast := by rw [hstate]; nofun
  obtain ⟨q, htag, hr⟩ := hs0.consistent.robAt_of_inFlight hf hin hne
  have hf1 : s1.table[n]? = some f := (entry_keptByTurns n hstate 0 1 (by decide)).commitStage hs0 (by decide)
    (fun _ => hf) h.commit le_rfl
  obtain ⟨q', htag', hr1⟩ := h.in1.sound.consistent.robAt_of_inFlight hf1 hin hne
  obtain rfl : q = q' := Option.some.inj (htag.symm.trans htag')
  have hserved := broadcastStage_winner h.in1.sound.shaped.event
    ((commitStage_busWinner hs0 h.commit).trans hn) hf1 h.broadcast
  obtain ⟨hmark, hsend⟩ := hserved.broadcast_eq h.in1.sound.consistent hr1 rfl
  rw [h.in1.cfg] at hr1
  have hsent : t.table[n]? = some { f with state := .broadcast, tBroadcast := some (s.cycle + 1) } :=
    (h.afterBroadcast (entry_keptByTurns n (st := .broadcast) rfl 2 8 (by decide)) hrest (by decide)
      fun _ => h.in1.cycle ▸ hserved.broadcast_entry hf1).of_settled (fun _ hw => hw) le_rfl
  have hslot {r : RobEntry} (hr2 : s2.robAt q = some r) : t.robAt q = some r :=
    (h.afterBroadcast (robAt_keptByTurns q r) hrest (by decide) hr2).of_settled fun _ hw => hw
  refine ⟨f, q, _, hf, htag, hr, rfl, hsent, fun hsw => hslot ?_, fun v hsw hv => ?_⟩
  · rw [hmark hsw]
    exact State.robAt_written hr1 _
  · obtain rfl := hsend f v hsw hf1 hv
    refine ⟨hslot (State.robAt_written hr1 _), fun p k e ht he hwait => ?_⟩
    have he1 := commitStage_slot hs0.shaped.event he h.commit
    have he2 : (s1.sendValue n q v).slot p k = some (e.wake q v) :=
      (State.slot_mapStations s1 (RsEntry.wake q v) p k).trans (by rw [he1]; rfl)
    have hsettle : (e.wake q v).settle = true := by
      rw [RsEntry.wake_eq, if_pos hwait]
    obtain ⟨w, hw, rfl⟩ := (h.afterBroadcast (station_keptByTurns k le_rfl (.inl hsettle)) hrest (by decide)
      he2).of_running ht
    rw [State.clearSettle, State.slot_mapStations, hw, Option.map_some, RsEntry.wake_eq]

end State.TickStages

/-- Settles O59: the commit stage serves the tail, the broadcast stage the winner, and no later turn of the tick touches what
they left. -/
theorem stepCommitsTailAndServesBus : Obligations.StepCommitsTailAndServesBus := by
  intro s t hs hl hc hrun hterm hcap hst
  obtain ⟨s0, s1, s2, s3, u, h, hrest⟩ := step_stages ⟨hs, hl, hc⟩ hrun hterm hcap hst
  exact ⟨h.tail_waits hrest, fun e f he hf hv => ⟨h.tail_commits hrest he hf hv, fun ea => h.tail_store hrest he hf hv⟩,
    fun hnone n e f => h.bus_idle hrest hnone, fun n => h.bus_serves hrest⟩

end Sys2Proof.Machine
end

section
/-! SUPPORT. The product and the quotient of MUL and DIV, read as integers (41_integer.md R303, R304). -/

namespace Sys2Proof.Machine

theorem computeMul_eq_mul (a b : Word) : computeMul a b = a * b := rfl

/-- Multiplication modulo 2^32 commutes with the signed reading too (R303). -/
theorem computeMul_eq_ofInt (a b : Word) : computeMul a b = BitVec.ofInt 32 (a.toInt * b.toInt) := by
  rw [computeMul_eq_mul, BitVec.ofInt_mul, BitVec.ofInt_toInt, BitVec.ofInt_toInt]

theorem computeDiv_zero (a : Word) : computeDiv a 0#32 = 0#32 := if_pos rfl

/-- At the one overflow the quotient 2^31 wraps to the word that R304 names. -/
theorem computeDiv_overflow :
    computeDiv 0x80000000#32 0xFFFFFFFF#32 =
      BitVec.ofInt 32 ((0x80000000#32 : Word).toInt.tdiv (0xFFFFFFFF#32 : Word).toInt) := by
  decide

theorem computeDiv_eq_ofInt {a b : Word} (hb : b ≠ 0#32) :
    computeDiv a b = BitVec.ofInt 32 (a.toInt.tdiv b.toInt) := by
  by_cases hover : a = 0x80000000#32 ∧ b = 0xFFFFFFFF#32
  · obtain ⟨rfl, rfl⟩ := hover
    exact computeDiv_overflow
  · rw [computeDiv, if_neg hb, if_neg hover]

/-- Settles O20: the word of an integer product is the product of the words, and the overflow's quotient wraps. -/
theorem productAndQuotientAsIntegers : Obligations.ProductAndQuotientAsIntegers := fun a b =>
  ⟨computeMul_eq_ofInt a b, rfl, computeDiv_zero a, computeDiv_eq_ofInt, computeDiv_toInt⟩

end Sys2Proof.Machine
end

section
/-! SUPPORT and PROOF. The range check of LW and SW at execute start (43_loadstore.md R363, 60_exceptions.md R405). -/

namespace Sys2Proof.Machine

theorem State.slot_lsq_iff {s : State} {k : Nat} {e : RsEntry} :
    s.slot .lsq k = some e ↔ s.lsq[k]? = some (some e) := by
  rw [State.slot, State.pool_lsq, Option.join_eq_some_iff]

theorem State.inRange_eq_false_iff {s : State} {ea : Word} : s.inRange ea = false ↔ s.cfg.memSize ≤ ea.toNat := by
  rw [State.inRange, decide_eq_false_iff_not, Nat.not_lt]

/-- Settles O24: the range check comes before the busy bit and before anything is written, but only a candidate reaches it. -/
theorem outOfRangeRaises : Obligations.OutOfRangeRaises := by
  intro s k rd rs1 rs2 imm hev
  rw [exec_start _ hev, exec_start _ hev]
  refine ⟨fun e a b hs hj hk hset hn hge => ?_, fun hidle => ?_⟩
  · have hc : s.Candidate .lsq k e a b := ⟨State.slot_lsq hs, hj, hk, hset, hn⟩
    have hr : s.inRange (effectiveAddr a e.imm) = false := State.inRange_eq_false_iff.2 hge
    exact ⟨startOf_raises hc (.inl rfl) hr, startOf_raises hc (.inr rfl) hr⟩
  · have hnone : ∀ e, s.slot .lsq k = some e → (∃ t, e.j = .wait t) ∨ (∃ t, e.k = .wait t) ∨ e.settle = true :=
      fun e he => hidle e (State.slot_lsq_iff.1 he)
    exact ⟨startOf_idle hnone, startOf_idle hnone⟩

end Sys2Proof.Machine
end

section
/-! PROOF. The only fatal fault of a step is an address out of range (60_exceptions.md R401, R402, R405, R406). -/

namespace Sys2Proof.Machine

/-- The record of an `AddressOutOfRange` taken in cycle `c` by a load or a store of the table of `s` (R401, R405). -/
def State.OutOfRangeRecord (s : State) (c : Nat) (info : FaultInfo) : Prop :=
  ∃ (n : Nat) (ea : Word) (u : Entry), info = ⟨3, some n, none, some ea, c⟩ ∧ s.cfg.memSize ≤ ea.toNat ∧
    s.table[n]? = some u ∧ (u.ins.op = .lw ∨ u.ins.op = .sw)

/-- A record speaks of the configuration and of the instructions of the table, and of nothing else in the state. -/
theorem State.OutOfRangeRecord.congr {s t : State} {c : Nat} {info : FaultInfo} (h : s.OutOfRangeRecord c info)
    (hcfg : t.cfg = s.cfg) (hins : t.table.map Entry.ins = s.table.map Entry.ins) : t.OutOfRangeRecord c info := by
  obtain ⟨n, ea, u, hinfo, hge, hu, hop⟩ := h
  have hn : t.table[n]?.map Entry.ins = some u.ins := by
    rw [← List.getElem?_map, hins, List.getElem?_map, hu, Option.map_some]
  obtain ⟨v, hv, hvu⟩ := Option.map_eq_some_iff.1 hn
  exact ⟨n, ea, v, hinfo, hcfg.symm ▸ hge, hv, hvu.symm ▸ hop⟩

/-- The range check that fails is that of the instruction of the candidate's own entry (R363). -/
theorem State.Candidate.outOfRangeRecord {s : State} {i : Instr} {p : PoolId} {k : Nat} {e : RsEntry} {a b ea : Word}
    (hc : s.Candidate p k e a b) (hev : s.Serves (.start p k) i) (hop : i.op = .lw ∨ i.op = .sw)
    (hr : s.inRange ea = false) : s.OutOfRangeRecord s.cycle (.addressOutOfRange e.instr ea s.cycle) := by
  have hu : s.table[e.instr]? = some (s.table[e.instr]'hc.entry) := List.getElem?_eq_getElem hc.entry
  exact ⟨e.instr, ea, _, rfl, State.inRange_eq_false_iff.1 hr, hu, (hev.start_ins hc.slot hu).symm ▸ hop⟩

/-- Serving an event leaves the status, or raises by the range check: no controller operation raises (R406). -/
theorem Served.status_eq_or_faulted {s t : State} {i : Instr} {ev : Event} (h : Served s i ev t) (hev : s.Serves ev i) :
    t.status = s.status ∨ ∃ info, t.status = .faulted info ∧ s.OutOfRangeRecord s.cycle info := by
  cases h with
  | raised hc hop hr => exact .inr ⟨_, rfl, hc.outOfRangeRecord hev hop hr⟩
  | _ => exact .inl (by simp)

/-- If the run has faulted, its record is that of an address out of range, taken in the present cycle. -/
def State.FaultedOutOfRange (s : State) : Prop :=
  ∀ info, s.status = .faulted info → s.OutOfRangeRecord s.cycle info

theorem Served.faultedOutOfRange {s t : State} {i : Instr} {ev : Event} (h : Served s i ev t) (hev : s.Serves ev i)
    (hs : s.FaultedOutOfRange) : t.FaultedOutOfRange := by
  intro info ht
  have hrecord : s.OutOfRangeRecord s.cycle info := by
    rcases h.status_eq_or_faulted hev with hsame | ⟨info', ht', hrecord⟩
    · exact hs info (hsame.symm.trans ht)
    · cases ht'.symm.trans ht
      exact hrecord
  rw [h.cycle_eq]
  exact hrecord.congr h.cfg_eq h.ins_eq

theorem faultedOutOfRange_keptByStages : KeptByStages fun _ => State.FaultedOutOfRange where
  mono     := fun _ _ h => h
  served   := fun ev i u v hu hev hst => by
    obtain ⟨w, hw, rfl⟩ := serve_served_any hst
    exact hw.faultedOutOfRange hev hu
  prefetch := fun u v hu hst => by
    obtain ⟨m, -, rfl⟩ := prefetchTick_next hst
    exact hu
  settled  := fun _ h => h

/-- A step that ends Faulted is a tick: the other two ends of the run are no faults (40_scheduler.md R221). -/
theorem step_faulted {s t : State} {info : FaultInfo} (hrun : s.status = .running) (h : step s = .next t)
    (ht : t.status = .faulted info) : tick s = .next t := by
  rw [step, if_pos hrun, runPass] at h
  split at h
  · cases h
    cases ht
  · split at h
    · cases h
      cases ht
    · exact h

/-- Settles O46: every stage keeps `State.FaultedOutOfRange`, and no step changes the program or the configuration. -/
theorem onlyOutOfRangeFaults : Obligations.OnlyOutOfRangeFaults := by
  intro s t info hrun hst ht
  have hstart : State.FaultedOutOfRange { s with cycle := s.cycle + 1 } :=
    fun _ hfault => nomatch hrun.symm.trans hfault
  have hrecord := faultedOutOfRange_keptByStages.tick hstart (step_faulted hrun hst ht) info ht
  have hkeeps := step_keepsProgram hst
  exact hrecord.congr hkeeps.cfg.symm hkeeps.ins.symm

end Sys2Proof.Machine
end

section
/-! PROOF. What a load leaves (70_reset_and_hazards.md R440, 10_state.md R90): the reset state over the decoded
program and the two images, which meets every invariant. -/

namespace Sys2Proof.Machine

/-! ## The parts of a loaded state -/

/-- The skipped words are the words of the program, numbered from `line`, that do not decode (10_state.md R79). -/
theorem loadErrors_eq_filter (nRegs line : Nat) (program : List Word) :
    loadErrors nRegs line program =
      ((program.zipIdx line).filter fun c => (decode nRegs c.1).isNone).map Prod.swap := by
  induction program generalizing line with
  | nil => rfl
  | cons w ws ih => cases hd : decode nRegs w <;> simp [loadErrors, hd, ih]

theorem mem_loadErrors {nRegs i : Nat} {w : Word} {program : List Word} :
    (i, w) ∈ loadErrors nRegs 0 program ↔ program[i]? = some w ∧ decode nRegs w = none := by
  simp [loadErrors_eq_filter, List.mem_zipIdx_iff_getElem?]

/-- Line numbers rise along the list of skipped words. -/
theorem loadErrors_pairwise (nRegs line : Nat) (program : List Word) :
    (loadErrors nRegs line program).Pairwise (fun c d => c.1 < d.1) := by
  have hlines : (program.zipIdx line).Pairwise (fun c d => c.2 < d.2) := by
    rw [← List.pairwise_map, List.zipIdx_map_snd]
    exact List.pairwise_lt_range'
  rw [loadErrors_eq_filter, List.pairwise_map]
  exact hlines.filter _

theorem loadTable_eq_map (nRegs : Nat) (program : List Word) :
    loadTable nRegs program = (program.filterMap (decode nRegs)).map Entry.fresh :=
  List.map_filterMap.symm

/-- A fresh entry is not terminal, so only an empty table ends the run at once (R440). -/
theorem resetStatus_map_fresh (is : List Instr) :
    resetStatus (is.map Entry.fresh) = if is.map Entry.fresh = [] then .completed else .running := by
  cases is <;> rfl

/-- Register 0 is forced to 0 under X0_ZERO; the other registers are those of the image (R90). -/
theorem resetRegs_getElem? {cfg : Config} {regInit : List Word} {i : Nat} {v : Word} (h : regInit[i]? = some v) :
    (resetRegs cfg regInit)[i]? = some (if i = 0 ∧ cfg.x0Zero = true then 0#32 else v) := by
  unfold resetRegs
  cases cfg.x0Zero with
  | false => simpa using h
  | true =>
    cases i with
    | zero => simp [List.getElem?_set_self (List.getElem?_eq_some_iff.1 h).1]
    | succ i => simpa using h

/-- An initial memory reads back the words it was made from (R90). -/
theorem Mem.read_ofWords {a i : Nat} {vs : List Word} {v : Word} (h : vs[i]? = some v) :
    Mem.read (Mem.ofWords a vs) (a + i) = v := by
  induction vs generalizing a i with
  | nil => cases h
  | cons w ws ih =>
    cases i with
    | zero =>
      obtain rfl : w = v := Option.some.inj h
      simp only [Mem.ofWords]
      split
      · rename_i hw
        rw [hw]
        exact Mem.read_of_lt _ _ fun c hc => (Mem.mem_ofWords _ _ c hc).1
      · exact if_pos rfl
    | succ i =>
      have hws : Mem.read (Mem.ofWords (a + 1) ws) (a + (i + 1)) = v :=
        Nat.succ_add_eq_add_succ a i ▸ ih h
      simp only [Mem.ofWords]
      split
      · exact hws
      · exact (if_neg (by omega)).trans hws

/-! ## O8, O10: the load -/

/-- A load answers exactly under a legal configuration and images of the lengths R440 requires, and what it answers is the
reset state over the decoded program. -/
theorem State.load_next {cfg : Config} {program memInit regInit : List Word} {s : State} :
    State.load cfg program memInit regInit = .next s ↔
      (cfg.Legal ∧ memInit.length = cfg.memSize ∧ regInit.length = cfg.nRegs) ∧
        s = State.resetWith cfg (loadTable cfg.nRegs program) (loadErrors cfg.nRegs 0 program) (Mem.ofWords 0 memInit)
          regInit := by
  unfold State.load
  split
  · rename_i hok
    exact ⟨fun h => ⟨hok, (Host.Outcome.next.inj h).symm⟩, fun h => congrArg _ h.2.symm⟩
  · rename_i hbad
    exact ⟨nofun, fun h => absurd h.1 hbad⟩

/-- Settles O8: the load answers the reset state, whose fields are the reset values by definition or by the lemma for each
field that is computed from the inputs. -/
theorem loadBuildsResetState : Obligations.LoadBuildsResetState := by
  intro cfg program memInit regInit legal hmem hregs
  have hread (a : Nat) (v : Word) (h : memInit[a]? = some v) : Mem.read (Mem.ofWords 0 memInit) a = v := by
    simpa using Mem.read_ofWords (a := 0) h
  have hstatus := resetStatus_map_fresh (program.filterMap (decode cfg.nRegs))
  rw [← loadTable_eq_map] at hstatus
  exact ⟨_, State.load_next.2 ⟨⟨legal, hmem, hregs⟩, rfl⟩, rfl, loadTable_eq_map _ _, fun _ _ => mem_loadErrors,
    loadErrors_pairwise _ _ _, (resetRegs_length cfg regInit).trans hregs, fun _ _ => resetRegs_getElem?,
    rfl, rfl, rfl, rfl, rfl, rfl, rfl, hread, fun _ => rfl, rfl, rfl, rfl, rfl, rfl, fun _ => rfl, rfl, rfl, rfl, hstatus⟩

/-- What a load passes to the reset are launch inputs: decoding gives well-formed instructions (30_encoding.md R196), and the
memory image fills the range of addresses. -/
theorem launchInputs_load {cfg : Config} {memInit regInit : List Word} (program : List Word) (legal : cfg.Legal)
    (hmem : memInit.length = cfg.memSize) (hregs : regInit.length = cfg.nRegs) :
    LaunchInputs cfg (loadTable cfg.nRegs program) (Mem.ofWords 0 memInit) regInit where
  legal    := legal
  fresh    := fun t ht => by
    obtain ⟨i, rfl, -⟩ := loadTable_fresh ht
    rfl
  wf       := fun t ht => by
    obtain ⟨w, -, hw⟩ := List.mem_filterMap.1 ht
    obtain ⟨i, hi, rfl⟩ := Option.map_eq_some_iff.1 hw
    exact (encodeOfDecode _ _ _ hi).2
  memWf    := Mem.ofWords_wf 0 memInit
  memRange := fun c hc => by
    obtain ⟨-, hlt, -⟩ := Mem.mem_ofWords 0 memInit c hc
    rwa [Nat.zero_add, hmem] at hlt
  regs     := hregs

/-- Settles O10: the inputs of a load are launch inputs, and a reset over launch inputs meets each invariant. -/
theorem loadMeetsInvariants : Obligations.LoadMeetsInvariants := by
  rintro cfg s ⟨program, memInit, regInit, hload⟩
  obtain ⟨⟨legal, hmem, hregs⟩, rfl⟩ := State.load_next.1 hload
  have hinputs := launchInputs_load program legal hmem hregs
  exact ⟨hinputs.shaped, State.resetWith_links, MemCtl.reset_coherent _ _, hinputs.consistent, hinputs.busyHeld,
    hinputs.robOrdered, State.resetWith_youngest⟩

end Sys2Proof.Machine
end

section
/-! PROOF. The example words of the specification (41_integer.md R302 to R305, 42_branch.md R340, R341, 43_loadstore.md R361,
R362). -/

namespace Sys2Proof

/-- A word known to be the encoding of a well-formed instruction decodes to it. -/
theorem decode_of_encode_eq {nRegs : Nat} {w : Word} {i : Instr} (hword : encode i = w) (hwf : i.wf nRegs = true) :
    decode nRegs w = some i :=
  hword ▸ decodeOfEncode nRegs i hwf

/-- Settles O2: each example word is the encoding of its instruction, and its decoding is that of every encoded word. -/
theorem exampleWordsDecode : Obligations.ExampleWordsDecode :=
  have hsub : encode (.sub 6#5 4#5 1#5) = 0x40120333#32 := by decide
  have hmul : encode (.mul 3#5 1#5 2#5) = 0x022081B3#32 := by decide
  have hdiv : encode (.div 7#5 8#5 9#5) = 0x029443B3#32 := by decide
  have haddi : encode (.addi 1#5 1#5 1#12) = 0x00108093#32 := by decide
  have hlw : encode (.lw 1#5 5#5 0#12) = 0x0002A083#32 := by decide
  have hsw : encode (.sw 1#5 2#5 0#12) = 0x0020A023#32 := by decide
  have hbeq : encode (.beq 1#5 2#5 8#13) = 0x00208463#32 := by decide
  have hbne : encode (.bne 1#5 2#5 (BitVec.ofInt 13 (-4))) = 0xFE209EE3#32 := by decide
  ⟨decode_of_encode_eq hsub (by decide), decode_of_encode_eq hmul (by decide), decode_of_encode_eq hdiv (by decide),
    decode_of_encode_eq haddi (by decide), decode_of_encode_eq hlw (by decide), decode_of_encode_eq hsw (by decide),
    decode_of_encode_eq hbeq (by decide), decode_of_encode_eq hbne (by decide)⟩

end Sys2Proof
end

section
/-! SUPPORT and PROOF. The reorder buffer holds the instructions in flight, each in one slot (10_state.md R46, R87 (h)). -/

namespace Sys2Proof.Machine

/-! ## The instructions in the reorder buffer -/

/-- The instructions that the occupied reorder-buffer slots name, in the order of the slots. -/
def State.robInstrs (s : State) : List Nat := s.rob.filterMap (Option.map RobEntry.instr)

/-- The instructions of the table that are in flight, in program order. -/
def State.inFlightInstrs (s : State) : List Nat := s.table.findIdxs fun t => t.state.inFlight

theorem State.robAt_eq_some_iff {s : State} {i : Tag} {r : RobEntry} : s.robAt i = some r ↔ s.rob[i]? = some (some r) :=
  Option.join_eq_some_iff

theorem State.length_robInstrs (s : State) : s.robInstrs.length = s.rob.countP Option.isSome := by
  simp [State.robInstrs, List.length_filterMap_eq_countP]

theorem State.length_inFlightInstrs (s : State) :
    s.inFlightInstrs.length = s.table.countP (fun t => t.state.inFlight) :=
  List.length_findIdxs

theorem State.mem_robInstrs {s : State} {n : Nat} : n ∈ s.robInstrs ↔ ∃ i r, s.robAt i = some r ∧ r.instr = n := by
  rw [State.robInstrs, List.mem_filterMap]
  simp only [List.mem_iff_getElem?, Option.map_eq_some_iff, State.robAt_eq_some_iff]
  constructor
  · rintro ⟨_, ⟨i, hi⟩, r, rfl, hn⟩
    exact ⟨i, r, hi, hn⟩
  · rintro ⟨i, r, hi, hn⟩
    exact ⟨some r, ⟨i, hi⟩, r, rfl, hn⟩

theorem State.mem_inFlightInstrs {s : State} {n : Nat} :
    n ∈ s.inFlightInstrs ↔ ∃ t, s.table[n]? = some t ∧ t.state.inFlight = true := by
  simp only [State.inFlightInstrs, List.mem_findIdxs_iff_exists_getElem_pos, List.getElem?_eq_some_iff]
  exact ⟨fun ⟨hn, ht⟩ => ⟨_, ⟨hn, rfl⟩, ht⟩, fun ⟨_, ⟨hn, he⟩, ht⟩ => ⟨hn, he ▸ ht⟩⟩

/-! ## O58: slots and instructions in flight correspond -/

/-- No two slots hold one instruction, since it names its slot by its tag (R46). -/
theorem State.Consistent.robInstrs_nodup {s : State} (h : s.Consistent) : s.robInstrs.Nodup := by
  rw [State.robInstrs, List.Nodup, List.pairwise_filterMap, List.pairwise_iff_getElem]
  intro i j hi hj hlt n hn m hm heq
  obtain ⟨r, hr, rfl⟩ := Option.map_eq_some_iff.1 hn
  obtain ⟨q, hq, rfl⟩ := Option.map_eq_some_iff.1 hm
  have hri : s.robAt i = some r := State.robAt_eq_some_iff.2 (List.getElem?_eq_some_iff.2 ⟨hi, hr⟩)
  have hqj : s.robAt j = some q := State.robAt_eq_some_iff.2 (List.getElem?_eq_some_iff.2 ⟨hj, hq⟩)
  exact hlt.ne (h.robAt_unique hri hqj heq)

/-- A slot's instruction is in flight, and an instruction in flight has a slot (R39, R46). -/
theorem State.Consistent.mem_robInstrs_iff {s : State} (h : s.Consistent) (n : Nat) :
    n ∈ s.robInstrs ↔ n ∈ s.inFlightInstrs := by
  rw [State.mem_robInstrs, State.mem_inFlightInstrs]
  constructor
  · rintro ⟨i, r, hr, rfl⟩
    obtain ⟨t, ht, hfit⟩ := h.fits hr
    exact ⟨t, ht, hfit.inFlight⟩
  · rintro ⟨t, ht, hin⟩
    obtain ⟨i, r, -, hr, hn⟩ := h.inFlight n t ht hin
    exact ⟨i, r, hr, hn⟩

theorem State.Consistent.robInstrs_perm {s : State} (h : s.Consistent) : s.robInstrs.Perm s.inFlightInstrs :=
  (List.perm_ext_iff_of_nodup h.robInstrs_nodup List.nodup_findIdxs).2 h.mem_robInstrs_iff

/-- Settles O58: the slots' instructions are those in flight, each once, so there are as many of the one as of the other. -/
theorem occupiedSlotsCountInFlight : Obligations.OccupiedSlotsCountInFlight := by
  intro s _ hs
  calc s.rob.countP Option.isSome = s.robInstrs.length := s.length_robInstrs.symm
    _ = s.inFlightInstrs.length := hs.robInstrs_perm.length_eq
    _ = s.table.countP (fun t => t.state.inFlight) := s.length_inFlightInstrs

end Sys2Proof.Machine
end
